-- ==== Sys2Proof/Word.lean ====
section
/-!
DEFINITION. Word.lean: the word types of the Zheam Z9 and nothing more (R5, R32).
-/
namespace Sys2Proof

/-- 8 bits (R5). -/
abbrev Byte := BitVec 8
/-- 32 bits: a lane register, a scalar instruction word. -/
abbrev U32 := BitVec 32
/-- 64 bits: a scalar register, a doubleword. -/
abbrev U64 := BitVec 64
/-- 96 bits: a lane instruction word (R175). -/
abbrev U96 := BitVec 96
/-- 128 bits: the widest single-copy-atomic access (R150). -/
abbrev U128 := BitVec 128

end Sys2Proof
end

