-- ==== Sys2Proof/Syntax/Fields.lean ====
section
/-!
DEFINITION. Syntax/Fields.lean: the names an instruction's fields take once they are decoded.
-/
namespace Sys2Proof

/-- A scalar register field s0 to s63 (R166). -/
abbrev SReg := BitVec 6
/-- A lane register field v0 to v511 (R166). -/
abbrev VReg := BitVec 9

/-- Comparison codes 0 to 5 of SCMP, SWAITCMP and WAITCMP (R195). -/
inductive Cmp | eq | ne | lt | ge | ltu | geu
  deriving DecidableEq, Repr

/-- Comparison codes 0 to 5 of ICMP (R228). -/
inductive ICmp | eq | ne | lt | le | gt | ge
  deriving DecidableEq, Repr

/-- Floating comparison codes 0 to 13 (R252). -/
inductive FCmp | eq | ne | lt | le | gt | ge | num | nan | equ | neu | ltu | leu | gtu | geu
  deriving DecidableEq, Repr

/-- Accumulating modes of ICMP, FCMP and DCMP (R228, R252). -/
inductive Acc | set | and | or | xor
  deriving DecidableEq, Repr

/-- Access kinds (R149). -/
inductive Kind | plain | strong | acq | rel | acqrel
  deriving DecidableEq, Repr

/-- Scopes (R148). -/
inductive Scope | split | group | team | core | cluster | die | device | pod | system
  deriving DecidableEq, Repr

/-- Paths of the path counters (R137). -/
inductive Path | ld | st | at | cp | mx | ga | cl | sp
  deriving DecidableEq, Repr

/-- Path classes of CFENCE and SCFENCE (R160). -/
inductive PClass | ls | as | cp | mx | ga | cl
  deriving DecidableEq, Repr

/-- Atomic operation codes (R174). -/
inductive AtomOp | add | sub | min | max | and | or | xor | exch | incw | cas | minu | maxu | rsm
  deriving DecidableEq, Repr

/-- Atomic types (R171, R276). -/
inductive AtomType | i32 | i64 | f32
  deriving DecidableEq, Repr

/-- Element format codes 0x0 to 0xE (R31). -/
inductive Fmt
  | i4 | i8 | i16 | i32 | i4x | e2m1 | e2m3 | e3m2 | e4m3 | e5m2 | f16 | bf16 | f32 | f64 | i64
  deriving DecidableEq, Repr

/-- Block-scale modes (R57). -/
inductive Bsm | none | zb | mx
  deriving DecidableEq, Repr

/-- Rounding modes of MOD[79:78] and FMT.RM (R40, R57). -/
inductive RMode | rne | rz | ru | rd
  deriving DecidableEq, Repr

/-- The guard of a lane word (R176). -/
inductive Guard
  | always
  /-- pn true, for n = 1 to 7 -/
  | pos (n : BitVec 3)
  /-- pn false, for n = 1 to 7 -/
  | neg (n : BitVec 3)
  deriving DecidableEq, Repr

/-- Lane specials (R179). -/
inductive LaneSpecial
  | laneid | quarter | splitid | groupid | teamid | gridid | gridhi | nteams | ngroups
  | ltmask | livemask | splitmask | core | drawcnt
  deriving DecidableEq, Repr

/-- A lane source operand: the four kinds of R178, and the immediate form of B (R182). -/
inductive Src
  | reg (n : VReg)
  | const (k : BitVec 6)
  | rein (k : BitVec 6)
  | special (sp : LaneSpecial)
  | imm (w : U32)
  deriving DecidableEq, Repr

/-- The fields every lane word holds (R175), decoded. A field an instruction does not use holds its zero value. -/
structure LaneOps where
  g : Guard := .always
  rm : RMode := .rne
  sat : Bool := false
  fmtsel : Bool := false
  d : VReg := 0
  a : Src := .reg 0
  b : Src := .reg 0
  c : Src := .reg 0
  fea : Bool := false
  feb : Bool := false
  fec : Bool := false
  sga : Bool := false
  sgb : Bool := false
  hint : BitVec 3 := 0
  deriving DecidableEq, Repr

/-- Access sizes of OP 0x80 and 0x90 (R266). -/
inductive MSize | b | h | w | d | q
  deriving DecidableEq, Repr

/-- EXT of LDG, STG, LDS, STS, LDA and STA, with the 18-bit offset of R266. -/
structure MemExt where
  imm : BitVec 18
  h : BitVec 10
  size : MSize
  kind : Kind
  scope : Scope
  sx : Bool
  a64 : Bool
  deriving DecidableEq, Repr

/-- EXT of PREF, INVD and WBK (R272, R273): the offset, the handle and the address width. -/
structure RangeExt where
  imm : BitVec 18
  h : BitVec 10
  a64 : Bool
  deriving DecidableEq, Repr

/-- Sub-byte formats of LDSUB and STSUB (R275). -/
inductive SubFmt | i4 | i4x | e2m1 | e2m3 | e3m2
  deriving DecidableEq, Repr

/-- EXT of LDSUB and STSUB (R275). -/
structure SubExt where
  h : BitVec 10
  sp : Bool
  fmt : SubFmt
  kind : Kind
  scope : Scope
  a64 : Bool
  deriving DecidableEq, Repr

/-- EXT of ATOM, ATOMCAS and RED (R276) without the operation. -/
structure AtomExt where
  h : BitVec 10
  ty : AtomType
  kind : Kind
  scope : Scope
  deriving DecidableEq, Repr

/-- EXT of WAITCMP (R280). -/
structure WaitExt where
  h : BitVec 10
  cc : Cmp
  dbl : Bool
  kind : Kind
  scope : Scope
  deriving DecidableEq, Repr

/-- EXT of IADDS and ISUBS (R227). -/
structure CarryExt where
  cie : Bool
  ci : BitVec 3
  co : BitVec 3
  deriving DecidableEq, Repr

/-- Widths of RSHR (R232). -/
inductive RshrSize | w | h | b
  deriving DecidableEq, Repr

/-- Words written by RAND (R233). -/
inductive RandCount | w1 | w2 | w4
  deriving DecidableEq, Repr

/-- Modes of XLANE (R240). -/
inductive XMode | at | back | fwd | flip | rot
  deriving DecidableEq, Repr

/-- Element sizes of SLIDE (R241). -/
inductive SlideSize | w | h | b
  deriving DecidableEq, Repr

/-- EXT of SLIDE (R241). -/
structure SlideExt where
  edge : Bool
  size : SlideSize
  up : Bool
  n : BitVec 8
  deriving DecidableEq, Repr

/-- Modes of PGATH (R242). -/
inductive PMode | every | some | agree | mask
  deriving DecidableEq, Repr

/-- Operations of REDUX and SCAN (R243). -/
inductive RedOp | add | min | max | and | or | xor | fadd | fmin | fmax
  deriving DecidableEq, Repr

/-- EXT of CVT (R258). Under FMTSEL the two format fields hold code 0 and are not used. -/
structure CvtExt where
  srx : Bool
  du : Bool
  dsel : BitVec 3
  sel : BitVec 3
  df : Fmt
  sf : Fmt
  deriving DecidableEq, Repr

/-- EXT of PACKN (R260). -/
structure PackExt where
  srx : Bool
  du : Bool
  bsm : Bsm
  df : Fmt
  sd : VReg
  deriving DecidableEq, Repr

/-- EXT of UNPACKN (R262). -/
structure UnpackExt where
  bsm : Bsm
  sf : Fmt
  deriving DecidableEq, Repr

/-- An access in flight that a NOROUTE or FORWARD reply answers (R390, R399). -/
inductive AccRef
  /-- the remote unit `u` of operation `op` of the team `tk` -/
  | op (tk op u : Nat)
  /-- the page `u` of a base-die channel's copy -/
  | chan (id u : Nat)
  /-- an atomic request on its way to a peer -/
  | req (id : Nat)
  /-- any access of this module to the peer number `n`: a fetch, a read of a descriptor, a table or a handle entry, a spill -/
  | peer (n : Nat)
  deriving DecidableEq, Repr

/-- A line of another module's fabric multicast that reaches a port of this one (R400): the issuing peer and its number for the delivery, the range of the
whole delivery, and the line. -/
structure FmcLine where
  port : Nat
  src : Nat
  id : Nat
  base : Nat
  len : Nat
  pa : Nat
  bytes : List Byte
  /-- its check value failed (R393) -/
  bad : Bool
  deriving DecidableEq, Repr

/-- A delivery of a fabric multicast that reaches a member (R400). -/
inductive FmcDelivery
  /-- another module `member` answers this module's FMC `op` of team `tk` -/
  | sent (tk op member : Nat) (accepted : Bool)
  /-- the line `i` of this module's FMC reaches this module as a member -/
  | line (tk op i : Nat)
  /-- a line of another module's delivery reaches this one -/
  | received (x : FmcLine)
  deriving DecidableEq, Repr

/-- A move of one page home (R398): its old and new (peer, physical address), its size, and the entry that maps it. -/
structure PageMoveArgs where
  fromPeer : Nat
  fromPa : Nat
  toPeer : Nat
  toPa : Nat
  size : Nat
  /-- the physical address of this module's page-table entry for the page -/
  pte : Nat
  deriving DecidableEq, Repr

/-- A move of a page, or its end: every module told has rewritten its page-table entry, and the old home's entry of a frame goes (R398). -/
inductive PageMove
  | move (m : PageMoveArgs)
  | told (frame : Nat)
  /-- the host gives a placement hint for a page: its peer and frame -/
  | hint (peer frame : Nat)
  deriving DecidableEq, Repr

/-- A copy the model can name: a slot of a team's copy engine, or a base-die channel. -/
inductive CopyRef
  | team (tk op : Nat)
  | chan (id : Nat)
  deriving DecidableEq, Repr

/-- A soft error of R413, by the unit it is found in. -/
inductive SoftErr
  /-- corrected: written back and counted -/
  | corrected (unit : Nat)
  /-- uncorrectable, in a core's state: the core freezes (R361). `place`: in a part of R373 of a team, the team's rider context, the part, the
  GROUPID and the offset in the part; none for a line of its L1 -/
  | core (lcore addr : Nat) (place : Option (Nat × Nat × Nat × Nat))
  /-- uncorrectable, in a copy channel's buffers -/
  | channel (id addr : Nat)
  /-- uncorrectable, in a memory line under a check value (R412) -/
  | line (pa : Nat)
  /-- uncorrectable, in a decombining record (R343) -/
  | record (cid : Nat)
  /-- uncorrectable, in the fold state of a switch (R348) -/
  | fold (plane rid unit : Nat)
  /-- uncorrectable, in command-processor or base-die state: fatal (R370) -/
  | control (addr : Nat)
  deriving DecidableEq, Repr

/-- What the owner of a word or a unit is told of an issuer at another module: whether its launch is recorded, its agent reference, and the lane and
count of the issuing instruction (R375, R378). -/
structure RemoteAgent where
  recorded : Bool
  launch : Nat
  team : Nat
  who : Nat
  lane : Nat
  icnt : Nat
  deriving DecidableEq, Repr

/-- A combining packet of a fabric plane (R349, R350): header fields, members and payload bytes. DESIGN CHOICE (log entry 13): beside the bytes of R349
and R350 it brings what R347 and R375 have it carry without naming a field: its issuers, and in a replay the logged fold order. -/
structure Packet where
  ptype : Nat
  src : Nat
  dst : Nat
  plane : Nat
  opc : Nat
  ty : Nat
  det : Bool
  n : Nat
  rn : Nat
  addr : Nat
  rid : Nat
  pseq : Nat
  cid : Nat
  status : Nat
  /-- per member: TAG, SRCPEER, LANES, operand -/
  members : List (Nat × Nat × Nat × U64)
  payload : List Byte
  /-- the issuer of each member, or of a contribution -/
  agents : List RemoteAgent := []
  /-- the source peers in the logged fold order -/
  order : List Nat := []
  /-- sent again on the buddy of the plane whose port gave it its PSEQ (R394) -/
  resent : Bool := false
  deriving DecidableEq, Repr

/-- Bytes that arrive at a fabric port where a combining packet is due (R349). -/
structure RawPacket where
  port : Nat
  bytes : List Byte
  /-- its CRC-32C check value failed (R393) -/
  bad : Bool := false
  deriving DecidableEq, Repr

/-- An access that arrives from a fabric port, a PCIe function or a CXL port (R159, R361, R396). -/
structure Inbound where
  /-- 2 fabric port, 3 PCIe function, 4 CXL port (R371) -/
  mkind : Nat
  mnum : Nat
  pa : Nat
  bytes : List Byte
  /-- bytes asked for by a read -/
  len : Nat
  /-- a PCIe atomic fetch-and-add operand of a read -/
  atomic : Option U64
  /-- a check value carried by the access failed (R393, R412) -/
  bad : Bool
  /-- the source peer and PSEQ of a fabric write, and whether it was sent again on the buddy of the plane whose numbers these are (R394) -/
  seq : Option (Nat × Nat) := none
  resent : Bool := false
  deriving DecidableEq, Repr

end Sys2Proof
end

