-- ==== Sys2Proof/Syntax.lean ====
section
/-!
DEFINITION. Syntax.lean: the instruction set of the Zheam Z9: one constructor for each row of the opcode table.
The scalar words carry the fields of R169, the lane words the fields of R175, and the events and commands of the
machine carry the operands by which they name the unit they act on.
-/
namespace Sys2Proof

/-- Every instruction, event and command of the opcode table. -/
inductive Instr
  -- Scalar words: integer group (R172, R193 to R195)
  | sadd (d a b : SReg)
  | ssub (d a b : SReg)
  | smul (d a b : SReg)
  | smulh (d a b : SReg)
  | smulhU (d a b : SReg)
  | sdiv (d a b : SReg)
  | sdivU (d a b : SReg)
  | srem (d a b : SReg)
  | sremU (d a b : SReg)
  | sand (d a b : SReg)
  | sor (d a b : SReg)
  | sxor (d a b : SReg)
  | sshl (d a b : SReg)
  | sshr (d a b : SReg)
  | ssra (d a b : SReg)
  | smin (d a b : SReg)
  | sminU (d a b : SReg)
  | smax (d a b : SReg)
  | smaxU (d a b : SReg)
  | spopc (d a : SReg)
  | sclz (d a : SReg)
  | scmp (cc : Cmp) (q : BitVec 3) (a b : SReg)
  | ssel (q : BitVec 3) (d a b : SReg)
  -- Scalar words: immediates and long constants (R196, R197)
  | saddi (d a : SReg) (imm : BitVec 13)
  | sandi (d a : SReg) (imm : BitVec 13)
  | sori (d a : SReg) (imm : BitVec 13)
  | sxori (d a : SReg) (imm : BitVec 13)
  | sshli (d a : SReg) (sh : BitVec 6)
  | sshri (d a : SReg) (sh : BitVec 6)
  | ssrai (d a : SReg) (sh : BitVec 6)
  | slui (d : SReg) (imm : BitVec 19)
  | sli (d : SReg) (hi : BitVec 19) (lo : U32)
  -- Scalar words: branches (R198)
  | sjmp (off : BitVec 19)
  | scall (d : SReg) (off : BitVec 19)
  | sjmpr (d a : SReg) (imm : BitVec 13)
  | sret (a : SReg)
  | sbr (neg : Bool) (q : BitVec 3) (off : BitVec 21)
  -- Scalar words: memory and atomics (R200 to R203)
  | sld (sz : BitVec 2) (d a b : SReg) (k : Kind) (sc : Scope)
  | sst (sz : BitVec 2) (d a b : SReg) (k : Kind) (sc : Scope)
  | slds (sz : BitVec 2) (d a : SReg) (imm : BitVec 13)
  | ssts (sz : BitVec 2) (d a : SReg) (imm : BitVec 13)
  | swaitcmp (dbl : Bool) (cc : Cmp) (d a b : SReg) (k : Kind) (sc : Scope)
  | satom (ty : AtomType) (op : AtomOp) (d a b : SReg) (k : Kind) (sc : Scope)
  -- Scalar words: system group (R204 to R219)
  | ldisp (a b c : SReg)
  | lwaitg (a : SReg)
  | setfmt (a : SReg)
  | swaitp (p : Path) (b : SReg)
  | sbari (a b : SReg)
  | sbara (a b : SReg)
  | sbarw (a b : SReg)
  | sbarx (a b : SReg)
  | sfence (sc : Scope)
  | scfence (x y : PClass)
  | yield
  | yieldExpire (tk : Nat)   -- event: the 16 cycles of a YIELD of team tk end (R212)
  | idem
  | ideme
  | chkpt (a : SReg)
  | exit (a : SReg)
  | stime (d : SReg)
  | srand (d : SReg)
  | syrd (d : SReg) (num : BitVec 12)
  | sywr (num : BitVec 12) (a : SReg)
  | strap (a : SReg)
  | tretRetry
  | tretSkip
  | tretKillg
  | tretKillt
  | brkpt
  | snop
  -- Scalar words: engine commands (R287 to R314)
  | cpy (d b : SReg)
  | cpym (d b c : SReg)
  | layld (d b : SReg)
  | layinv (b : SReg)
  | tmma (a b c : SReg)
  | tmmag (a b c : SReg)
  | taccZero (b : SReg)
  | taccScale (b : SReg)
  | taccAdd (b : SReg)
  | taccIadd (b : SReg)
  | taccMove (b : SReg)
  | taccStat (d : SReg)
  | tepi (a b : SReg)
  | qpost (d b c : SReg)
  | launch (b c : SReg)
  | fred (b : SReg)
  | fmc (b : SReg)
  | recmark (a : SReg)
  | haltd (a : SReg)
  -- Lane words: control, OP 0x00 (R236 to R238)
  | nopl (o : LaneOps)
  | bra (o : LaneOps) (toff : BitVec 23) (roff : BitVec 18)
  | braJoin (o : LaneOps) (toff : BitVec 23)
  | brx (o : LaneOps) (roff : BitVec 18)
  | call (o : LaneOps) (toff : BitVec 23)
  | ret (o : LaneOps)
  | endb (o : LaneOps)
  | exitl (o : LaneOps)
  | fmtl (o : LaneOps)
  | yieldl (o : LaneOps)
  | yieldlExpire (tk g sp : Nat)   -- event: the 4 yield cycles of a split end (R238)
  -- Lane words: integer, OP 0x10 and 0x11 (R224 to R228)
  | iadd (o : LaneOps)
  | isub (o : LaneOps)
  | imul (o : LaneOps)
  | imulh (o : LaneOps)
  | imad (o : LaneOps)
  | imadWide (o : LaneOps)
  | idiv (o : LaneOps)
  | irem (o : LaneOps)
  | imin (o : LaneOps)
  | imax (o : LaneOps)
  | iabs (o : LaneOps)
  | ineg (o : LaneOps)
  | iadds (o : LaneOps) (x : CarryExt)
  | isubs (o : LaneOps) (x : CarryExt)
  | icmp (o : LaneOps) (cc : ICmp) (acc : Acc)
  | pbool (o : LaneOps) (tt : BitVec 8)
  | pick (o : LaneOps)
  | mov (o : LaneOps)
  | movD (o : LaneOps)
  | movi (o : LaneOps)
  -- Lane words: packed, logic, shifts, OP 0x20, 0x30, 0x31, RAND (R229 to R235)
  | padd2 (o : LaneOps)
  | psub2 (o : LaneOps)
  | pmac2 (o : LaneOps)
  | dot4 (o : LaneOps)
  | dot8 (o : LaneOps)
  | land (o : LaneOps)
  | lor (o : LaneOps)
  | lxor (o : LaneOps)
  | lnot (o : LaneOps)
  | blut (o : LaneOps) (tt : BitVec 8)
  | shl (o : LaneOps)
  | shr (o : LaneOps)
  | sra (o : LaneOps)
  | rotl (o : LaneOps)
  | shfd (o : LaneOps)
  | popc (o : LaneOps)
  | clz (o : LaneOps)
  | ctz (o : LaneOps)
  | brev (o : LaneOps)
  | bfe (o : LaneOps)
  | bfi (o : LaneOps)
  | rshr (o : LaneOps) (sz : RshrSize)
  | rand (o : LaneOps) (n : RandCount) (rounds : BitVec 4)
  | randCtr (o : LaneOps) (n : RandCount) (rounds : BitVec 4)
  -- Lane words: cross-lane, OP 0x70 (R239 to R245)
  | xlane (o : LaneOps) (m : XMode) (seg : BitVec 3)
  | slide (o : LaneOps) (x : SlideExt)
  | pgath (o : LaneOps) (m : PMode) (neg : Bool)
  | redux (o : LaneOps) (op : RedOp)
  | scan (o : LaneOps) (op : RedOp) (excl : Bool)
  | vmatch (o : LaneOps) (all dbl : Bool)
  -- Lane words: floating point, OP 0x40, 0x41, 0x50, 0x51 (R249 to R257)
  | fadd (o : LaneOps)
  | fsub (o : LaneOps)
  | fmul (o : LaneOps)
  | ffma (o : LaneOps)
  | fmin (o : LaneOps)
  | fmax (o : LaneOps)
  | fcmp (o : LaneOps) (cc : FCmp) (acc : Acc)
  | fclass (o : LaneOps) (set : BitVec 10)
  | frnd (o : LaneOps)
  | frcp (o : LaneOps)
  | frsq (o : LaneOps)
  | fsqrt (o : LaneOps)
  | fdiv (o : LaneOps)
  | fexp2 (o : LaneOps)
  | flog2 (o : LaneOps)
  | fsin (o : LaneOps)
  | fcos (o : LaneOps)
  | hadd2 (o : LaneOps) (bf : Bool)
  | hsub2 (o : LaneOps) (bf : Bool)
  | hmul2 (o : LaneOps) (bf : Bool)
  | hfma2 (o : LaneOps) (bf : Bool)
  | hmin2 (o : LaneOps) (bf : Bool)
  | hmax2 (o : LaneOps) (bf : Bool)
  | dadd (o : LaneOps)
  | dmul (o : LaneOps)
  | dfma (o : LaneOps)
  | dcmp (o : LaneOps) (cc : FCmp) (acc : Acc)
  -- Lane words: conversion and flags, OP 0x60 (R258 to R265)
  | cvt (o : LaneOps) (x : CvtExt)
  | packn (o : LaneOps) (x : PackExt)
  | unpackn (o : LaneOps) (x : UnpackExt)
  | qscalePick (o : LaneOps) (bsm : Bsm) (f : Fmt)
  | qscaleVal (o : LaneOps) (bsm : Bsm)
  | qscaleRcp (o : LaneOps) (bsm : Bsm)
  | rsmerge (o : LaneOps) (n : BitVec 7)
  | clrflg (o : LaneOps) (m : BitVec 7)
  | rdflg (o : LaneOps)
  -- Lane words: memory, OP 0x80, 0x90, 0xA0 (R266 to R279)
  | ldg (o : LaneOps) (x : MemExt)
  | stg (o : LaneOps) (x : MemExt)
  | pref (o : LaneOps) (l2 : Bool) (x : RangeExt)
  | invd (o : LaneOps) (x : RangeExt)
  | wbk (o : LaneOps) (x : RangeExt)
  | lds (o : LaneOps) (x : MemExt)
  | sts (o : LaneOps) (x : MemExt)
  | lda (o : LaneOps) (x : MemExt)
  | sta (o : LaneOps) (x : MemExt)
  | ldsub (o : LaneOps) (x : SubExt)
  | stsub (o : LaneOps) (x : SubExt)
  | atom (o : LaneOps) (op : AtomOp) (x : AtomExt)
  | atomcas (o : LaneOps) (pf : BitVec 3) (x : AtomExt)
  | red (o : LaneOps) (op : AtomOp) (x : AtomExt)
  | redRsm (o : LaneOps) (n : BitVec 7) (x : AtomExt)
  -- Lane words: synchronisation, OP 0xB0, QMMA, TRAPL (R280 to R285, R304, R312)
  | waitcmp (o : LaneOps) (x : WaitExt)
  | fence (o : LaneOps) (sc : Scope)
  | cfence (o : LaneOps) (x y : PClass)
  | waitp (o : LaneOps) (p : Path)
  | bara (o : LaneOps) (n : BitVec 6) (ln : Bool)
  | barw (o : LaneOps) (n : BitVec 6)
  | bart (o : LaneOps) (n : BitVec 6)
  | barx (o : LaneOps) (n : BitVec 6)
  | spawn (o : LaneOps) (toff : BitVec 23)
  | qmma (o : LaneOps) (vs : VReg)
  | trapl (o : LaneOps)
  -- Privileged commands (R405, R406)
  | part (p : BitVec 4) (mask : BitVec 320)
  | partExpress (p : BitVec 4) (ecap : BitVec 9) (mask : BitVec 320) (block : U32)
  | qreg (q : BitVec 10) (part : BitVec 4) (weight : BitVec 8) (cls : Bool) (log2n : BitVec 5) (desc ring : U64)
  | qreset (q : BitVec 10)
  | qset (q : BitVec 10) (part : BitVec 4) (weight : BitVec 8) (cls : Bool)
  | carve (core : BitVec 9) (units : BitVec 4)
  | carveComplete (core : Nat)
  | ctxroot (isQueue : Bool) (n : BitVec 10) (root : U64)
  | tlbinv (p : BitVec 4) (va len : U64)
  | preempt (launch : U64) (team : U32) (all : Bool) (core : BitVec 9) (dl : U64)
  | restore (launch : U64) (team : U32)
  | release (mkind : BitVec 8) (mnum : BitVec 16)
  | setTReply (k : BitVec 4)
  | setFreezePolicy (halt : Bool)
  | setDumpArea (base size : U64)
  | setSaveArea (p : BitVec 4) (base size : U64)
  | setInboundWindow (mkind : BitVec 8) (mnum : BitVec 16) (win : BitVec 4) (base size : U64) (rights : BitVec 3)
  | setMulticastWindow (base size : U64)
  | replay (q : BitVec 10) (image log len : U64)
  | resume
  | flush (stream : BitVec 12)
  | podPeer (n : BitVec 8)
  | podGateway (gw port : BitVec 8) (planes : BitVec 16)
  | podMcastGroup (g : BitVec 12) (mask : BitVec 192)
  | podReductionTimer (k : BitVec 5)
  | snapshot (ports : BitVec 2) (gw : BitVec 8) (planes : BitVec 16) (s0 s1 s2 : U64)
  | snapshotStream (sinks : List Nat)
  | snaprest (ports : BitVec 2) (gw : BitVec 8) (planes : BitVec 16) (s0 s1 s2 : U64)
  | fwload (addr len : U64)
  -- Events of scheduling and of the queues (R63 to R86)
  | deviceReset
  | slotConsume (q : Nat)
  | launchPacket (q : Nat)
  | copyPacket (q : Nat)
  | marker (q : Nat)
  | waitValue (q : Nat)
  | waitValueComplete (q : Nat)
  | barrierAnd (q : Nat)
  | barrierAndComplete (q : Nat)
  | arbitrationRound (part : Nat) (place : List Nat)
  | admission (core idx : Nat)
  -- Events of control flow, memory and barriers (R94 to R140)
  | reinDequeue (tk g : Nat)
  | splitReachRpc (tk g sp : Nat)
  | stackRefill (tk g : Nat)
  | stkctlSpill (tk : Nat) (n : BitVec 5)
  | resultLand (tk op : Nat) (mask : U32)
  | storePerform (tk op : Nat) (mask : U32)
  | monitorPoll (tk op : Nat)
  | barrierPhaseComplete (tk bar : Nat)
  -- Events of the engines (R292 to R333)
  | copyLand (r : CopyRef) (unit : Nat)
  | copyEnd (r : CopyRef)
  | mcastDeliveryArrive (tk op recv : Nat)
  | matrixCmdStart (tk : Nat)
  | matrixCmdEnd (tk : Nat)
  | leaveGrant (die : Nat)
  | leaveBoundExpire (die : Nat)
  -- Events of the atomic service and of combining (R334 to R350)
  | creditGrant (svc req : Nat)
  | combineArrive (req : Nat)
  | combineWindowExpire (point entry : Nat)
  | atomicDequeue (svc : Nat)
  | decombine (cid : Nat)
  | atomicReply (rep : Nat)
  | replyQueryTimeout (core slot : Nat)
  | journalEntryExpire (svc : Nat)
  | areq (p : Packet)
  | arep (p : Packet)
  | query (p : Packet)
  | qans (p : Packet)
  | rcontrib (p : Packet)
  | rwrite (p : Packet)
  | rdone (p : Packet)
  | rabort (p : Packet)
  | reductionTimeout (plane rid unit : Nat)
  -- Events of teams, traps, saves and dumps (R79 to R86, R351 to R374)
  | spawnBinTimeout (core bin : Nat)
  | spawnGroupForm (core bin : Nat)
  | noProgress (tk : Nat)
  | enterWaitingChildren (tk : Nat)
  | childNoFit (launch : Nat)
  | teamRetire (tk : Nat)
  | successorStart (tk : Nat)
  | handlerEntry (tk : Nat)
  | softError (e : SoftErr)
  | patrolScrub (pa : Nat)
  | drainDeadline (tk : Nat)
  | teamSave (tk : Nat)
  | teamDiscard (tk : Nat)
  | mcastWindowClose (tk : Nat)
  | haltCopyDrainTimeout
  | dumpWrite
  -- Events of Haeth and of the system registers (R218, R380 to R388)
  | chunkClose (stream : Nat)
  | replayTimeout (stream : Nat)
  | breakpointFire (n : Nat)
  | cisctlEnable (w : U64)
  | cisctlDisable (w : U64)
  | cisbaseWrite (w : U64)
  | sysregWrite (tk : Nat) (num : BitVec 12) (w : U64)
  -- Events of the fabric and of the host (R390 to R407)
  | planeDead (p : Nat)
  | remapComplete
  | norouteReply (r : AccRef)
  | forwardReply (r : AccRef) (peer frame : Nat)
  | inboundWrite (x : Inbound)
  | pageMove (m : PageMove)
  | fmcDeliveryArrive (x : FmcDelivery)
  | ptpCorrection (sec ns : Nat)
  | thermalLimit
  | admqWrite (fn : Nat) (w : U64)
  -- Management messages (R410) and further events
  | getVersion (msg : List Byte)
  | getCapabilities (msg : List Byte)
  | negotiateAlgorithms (msg : List Byte)
  | getCertificate (msg : List Byte)
  | challenge (msg : List Byte)
  | getMeasurements (msg : List Byte)
  | leaseExpire
  | inboundRead (x : Inbound)
  | cistailWrite (w : U64)
  | gatherComplete (tk : Nat)
  | malformedPacket (x : RawPacket)
  deriving DecidableEq, Repr

end Sys2Proof
end

