-- ==== Sys2Proof/WellFormed.lean ====
section
/-!
DEFINITION. WellFormed.lean: which instructions an encoding can stand for. Everything the fate table (R185) refuses
whatever the state of the machine is refused here; what depends on the team or on FMT is left to Machine/Operands.lean.
-/
namespace Sys2Proof

/-- Format codes (R31). -/
def fmtCode : Fmt → BitVec 4
  | .i4 => 0x0 | .i8 => 0x1 | .i16 => 0x2 | .i32 => 0x3 | .i4x => 0x4 | .e2m1 => 0x5 | .e2m3 => 0x6 | .e3m2 => 0x7
  | .e4m3 => 0x8 | .e5m2 => 0x9 | .f16 => 0xA | .bf16 => 0xB | .f32 => 0xC | .f64 => 0xD | .i64 => 0xE

/-- Widths of the formats in bits (R31). -/
def fmtWidth : Fmt → Nat
  | .i4 | .i4x | .e2m1 => 4
  | .e2m3 | .e3m2 => 6
  | .i8 | .e4m3 | .e5m2 => 8
  | .i16 | .f16 | .bf16 => 16
  | .i32 | .f32 => 32
  | .f64 | .i64 => 64

/-- Integer formats, I4X included (R31). -/
def fmtIsInt : Fmt → Bool
  | .i4 | .i8 | .i16 | .i32 | .i4x | .i64 => true
  | _ => false

/-- Bits an element takes in a register: FP6 takes an 8-bit slot (R247). -/
def fmtSlot (f : Fmt) : Nat := if fmtWidth f = 6 then 8 else fmtWidth f

/-- The combinations of a block-scale mode and an element format that R48 lists, and BSM none with any. -/
def bsmOk (b : Bsm) (f : Fmt) : Bool :=
  match b with
  | .none => true
  | .zb => f == .e2m1 || f == .e4m3 || f == .e5m2 || f == .i4x
  | .mx => f == .e2m1 || f == .e2m3 || f == .e3m2 || f == .e4m3 || f == .e5m2 || f == .i8

/-- Elements of a register for PACKN and UNPACKN (R260). -/
def packCount : Fmt → Option Nat
  | .i4 | .i4x | .e2m1 => some 8
  | .i8 | .e2m3 | .e3m2 | .e4m3 | .e5m2 => some 4
  | .i16 | .f16 | .bf16 => some 2
  | _ => none

/-- How an instruction uses a source field (R178, R220). -/
inductive SrcUse
  /-- the field is absent -/
  | none
  /-- any kind; `wide` for a 64-bit pair -/
  | any (wide : Bool)
  /-- kind 00 only: a multiple of `align`, `count` registers -/
  | reg (align count : Nat)
  /-- an FP64 operand: kinds 00, 01 and 10 (R257) -/
  | dbl
  /-- a memory offset: kinds 00, 10 and 11, or 00 and 10 when wide (R267) -/
  | addr (wide : Bool)
  /-- a predicate -/
  | pred
  deriving DecidableEq, Repr

/-- How an instruction uses the D field. -/
inductive DstUse
  | none
  | vec (align count : Nat)
  | pred
  deriving DecidableEq, Repr

/-- What a lane instruction gives to the fields of its word. -/
structure Shape where
  d : DstUse := .none
  a : SrcUse := .none
  b : SrcUse := .none
  c : SrcUse := .none
  /-- B also accepts imm32 (R182) -/
  imm : Bool := false
  rnd : Bool := false
  sat : Bool := false
  fmt : Bool := false
  sga : Bool := false
  sgb : Bool := false
  deriving DecidableEq, Repr

/-- A register range lies in v0 to v511 and starts at a multiple of its alignment. -/
def spanOk (n : VReg) (align count : Nat) : Bool := n.toNat % align == 0 && decide (n.toNat + count ≤ 512)

/-- A source fits its use. -/
def srcOk (u : SrcUse) (imm : Bool) (s : Src) : Bool :=
  match u, s with
  | .none, .reg n => n == 0
  | .none, .imm _ => imm
  | .any _, .imm _ => imm
  | .any false, _ => true
  | .any true, .reg n => spanOk n 2 2
  | .any true, _ => true
  | .reg al k, .reg n => spanOk n al k
  | .dbl, .reg n => spanOk n 2 2
  | .dbl, .const _ => true
  | .dbl, .rein _ => true
  | .addr false, .reg _ => true
  | .addr false, .rein _ => true
  | .addr false, .special _ => true
  | .addr true, .reg n => spanOk n 2 2
  | .addr true, .rein _ => true
  | .pred, .reg n => decide (n.toNat < 8)
  | _, _ => false

/-- A v-register source, whose FE bit may be set (R180). -/
def feOk (u : SrcUse) (s : Src) : Bool :=
  match u, s with
  | .none, _ => false
  | .pred, _ => false
  | _, .reg _ => true
  | _, _ => false

/-- The D field fits its use. -/
def dstOk (u : DstUse) (d : VReg) : Bool :=
  match u with
  | .none => d == 0
  | .vec al k => spanOk d al k
  | .pred => decide (d.toNat < 8)

/-- A guard names one of p1 to p7 (R176). -/
def guardOk : Guard → Bool
  | .always => true
  | .pos n | .neg n => n != 0

/-- The fields of a lane word fit the shape of its instruction (R185). -/
def shapeOk (sh : Shape) (o : LaneOps) : Bool :=
  guardOk o.g && dstOk sh.d o.d && srcOk sh.a false o.a && srcOk sh.b sh.imm o.b && srcOk sh.c false o.c
    && (sh.rnd || o.rm == .rne) && (sh.sat || !o.sat) && (sh.fmt || !o.fmtsel)
    && (!o.fmtsel || o.rm == .rne)
    && (!o.fea || feOk sh.a o.a) && (!o.feb || feOk sh.b o.b) && (!o.fec || feOk sh.c o.c)
    && (sh.sga || !o.sga) && (sh.sgb || !o.sgb)

/-- A kind with its scope: a plain access carries scope 0 (R149). -/
def kindScopeOk (ks : List Kind) (k : Kind) (sc : Scope) : Bool := ks.contains k && (k != .plain || sc == .split)

/-- Kinds of loads, of stores, of atomics with a return, of reductions (R149). -/
def loadKinds : List Kind := [.plain, .strong, .acq]
def storeKinds : List Kind := [.plain, .strong, .rel]
def atomKinds : List Kind := [.strong, .acq, .rel, .acqrel]
def redKinds : List Kind := [.strong, .rel]

/-- A scalar access that is not plain takes a scope from team on (R200). -/
def scalarScopeOk (k : Kind) (sc : Scope) : Bool := k == .plain || !(sc == .split || sc == .group)

/-- Operations a type accepts in SATOM (R174). -/
def satomOk : AtomOp → AtomType → Bool
  | .rsm, _ => false
  | .add, .f32 | .min, .f32 | .max, .f32 => true
  | _, .f32 => false
  | _, _ => true

/-- Operations ATOM accepts (R277). -/
def atomOk : AtomOp → AtomType → Bool
  | .cas, _ => false
  | op, ty => satomOk op ty

/-- Operations RED accepts, RSM apart (R277). -/
def redOk : AtomOp → AtomType → Bool
  | .cas, _ | .exch, _ => false
  | op, ty => satomOk op ty

/-- A descriptor block of k registers (R287). -/
def blockOk (b : SReg) (k : Nat) : Bool := b != 0 && decide (b.toNat + k ≤ 64)

/-- Bytes of an access size (R266). -/
def msizeBytes : MSize → Nat
  | .b => 1 | .h => 2 | .w => 4 | .d => 8 | .q => 16

/-- Registers a datum of an access size takes (R268). -/
def msizeRegs : MSize → Nat
  | .d => 2 | .q => 4 | _ => 1

def dataUse (s : MSize) : DstUse := .vec (msizeRegs s) (msizeRegs s)
def regUse (wide : Bool) : DstUse := if wide then .vec 2 2 else .vec 1 1
def randRegs : RandCount → Nat
  | .w1 => 1 | .w2 => 2 | .w4 => 4

/-- The shape of each lane instruction; none for scalar words, events and commands. -/
def laneShape : Instr → Option Shape
  | .nopl _ | .bra .. | .braJoin .. | .call .. | .ret _ | .endb _ | .exitl _ | .yieldl _ | .clrflg .. | .fence .. | .cfence .. =>
      some {}
  | .brx _ _ => some { a := .reg 1 1 }
  | .fmtl _ | .trapl _ => some { b := .any false, imm := true }
  | .iadd _ | .isub _ | .imul _ => some { d := .vec 1 1, a := .any false, b := .any false, imm := true, sat := true, sga := true, sgb := true }
  | .imulh _ | .idiv _ | .irem _ | .imin _ | .imax _ =>
      some { d := .vec 1 1, a := .any false, b := .any false, imm := true, sga := true, sgb := true }
  | .imad _ => some { d := .vec 1 1, a := .any false, b := .any false, c := .any false, sat := true, sga := true, sgb := true }
  | .imadWide _ => some { d := .vec 2 2, a := .any false, b := .any false, c := .any true, sat := true, sga := true, sgb := true }
  | .iabs _ | .ineg _ => some { d := .vec 1 1, a := .any false, sat := true, sga := true }
  | .iadds _ _ | .isubs _ _ => some { d := .vec 1 1, a := .any false, b := .any false, imm := true }
  | .icmp .. => some { d := .pred, a := .any false, b := .any false, sga := true, sgb := true }
  | .pbool .. => some { d := .pred, a := .pred, b := .pred, c := .pred }
  | .pick _ => some { d := .vec 1 1, a := .any false, b := .any false, c := .pred }
  | .mov _ => some { d := .vec 1 1, a := .any false }
  | .movD _ => some { d := .vec 2 2, a := .any true }
  | .movi _ => some { d := .vec 1 1, imm := true }
  | .padd2 _ | .psub2 _ => some { d := .vec 1 1, a := .any false, b := .any false, imm := true, sat := true, sga := true, sgb := true }
  | .pmac2 _ => some { d := .vec 1 1, a := .any false, b := .any false, c := .any false, sat := true, sga := true, sgb := true }
  | .dot4 _ | .dot8 _ =>
      some { d := .vec 1 1, a := .any false, b := .any false, c := .any false, sat := true, fmt := true, sga := true, sgb := true }
  | .land _ | .lor _ | .lxor _ | .shl _ | .shr _ | .sra _ | .rotl _ => some { d := .vec 1 1, a := .any false, b := .any false, imm := true }
  | .lnot _ | .popc _ | .clz _ | .ctz _ | .brev _ => some { d := .vec 1 1, a := .any false }
  | .blut .. | .shfd _ | .bfi _ => some { d := .vec 1 1, a := .any false, b := .any false, c := .any false }
  | .bfe _ => some { d := .vec 1 1, a := .any false, b := .any false, imm := true, sga := true }
  | .rshr .. => some { d := .vec 1 1, a := .any false, b := .any false, imm := true, rnd := true, sat := true, sga := true }
  | .rand _ n _ => some { d := .vec (randRegs n) (randRegs n) }
  | .randCtr _ n _ => some { d := .vec (randRegs n) (randRegs n), a := .any false, b := .any false, c := .any false }
  | .xlane .. => some { d := .vec 1 1, a := .reg 1 1, b := .any false, c := .any false }
  | .slide .. => some { d := .vec 1 1, a := .reg 1 1, c := .reg 1 1 }
  | .pgath _ m _ => some { d := if m == .mask then .vec 1 1 else .pred, a := .pred }
  | .redux _ op | .scan _ op _ =>
      some { d := .vec 1 1, a := .reg 1 1, rnd := op == .fadd, sat := op == .add || op == .fadd, sga := op == .add || op == .min || op == .max }
  | .vmatch _ all dbl => some { d := if all then .pred else .vec 1 1, a := if dbl then .reg 2 2 else .reg 1 1 }
  | .fadd _ | .fsub _ | .fmul _ | .fdiv _ => some { d := .vec 1 1, a := .any false, b := .any false, imm := true, rnd := true, sat := true, fmt := true }
  | .ffma _ => some { d := .vec 1 1, a := .any false, b := .any false, c := .any false, rnd := true, sat := true, fmt := true }
  | .fmin _ | .fmax _ => some { d := .vec 1 1, a := .any false, b := .any false, imm := true }
  | .fcmp .. => some { d := .pred, a := .any false, b := .any false, imm := true }
  | .fclass .. => some { d := .pred, a := .any false }
  | .frnd _ => some { d := .vec 1 1, a := .any false, rnd := true, fmt := true }
  | .frcp _ | .frsq _ | .fsqrt _ | .fexp2 _ | .flog2 _ | .fsin _ | .fcos _ =>
      some { d := .vec 1 1, a := .any false, rnd := true, sat := true, fmt := true }
  | .hadd2 .. | .hsub2 .. | .hmul2 .. => some { d := .vec 1 1, a := .any false, b := .any false, imm := true, rnd := true, sat := true, fmt := true }
  | .hfma2 .. => some { d := .vec 1 1, a := .any false, b := .any false, c := .any false, rnd := true, sat := true, fmt := true }
  | .hmin2 .. | .hmax2 .. => some { d := .vec 1 1, a := .any false, b := .any false, imm := true }
  | .dadd _ | .dmul _ => some { d := .vec 2 2, a := .dbl, b := .dbl, rnd := true, sat := true, fmt := true }
  | .dfma _ => some { d := .vec 2 2, a := .dbl, b := .dbl, c := .dbl, rnd := true, sat := true, fmt := true }
  | .dcmp .. => some { d := .pred, a := .dbl, b := .dbl }
  | .cvt o x =>
      some { d := regUse (!o.fmtsel && fmtWidth x.df == 64), a := .any (!o.fmtsel && fmtWidth x.sf == 64), rnd := true, sat := true,
             fmt := true, sga := o.fmtsel || fmtIsInt x.sf }
  | .packn o x =>
      let m := if o.fmtsel then 1 else (packCount x.df).getD 1
      some { d := .vec 1 1, a := .reg m m, rnd := true, sat := true, fmt := true }
  | .unpackn o x =>
      let m := if o.fmtsel then 1 else (packCount x.sf).getD 1
      some { d := .vec m m, a := .any false, b := if o.fmtsel || x.bsm != .none then .reg 1 1 else .none, rnd := true, sat := true,
             fmt := true, sga := o.fmtsel || (fmtIsInt x.sf && x.bsm != .mx) }
  | .qscalePick .. | .qscaleVal .. => some { d := .vec 1 1, a := .any false }
  | .qscaleRcp .. => some { d := .vec 1 1, a := .any false, rnd := true }
  | .rsmerge _ n => some { d := .vec 1 (n.toNat + 2), a := .reg 1 (n.toNat + 2), b := .reg 1 (n.toNat + 2) }
  | .rdflg _ => some { d := .vec 1 1 }
  | .ldg _ x | .stg _ x => some { d := dataUse x.size, a := .addr x.a64 }
  | .pref _ _ x => some { a := .addr x.a64 }
  | .invd _ x | .wbk _ x => some { d := .vec 1 1, a := .addr x.a64 }
  | .lds _ x | .sts _ x | .lda _ x | .sta _ x => some { d := dataUse x.size, a := .addr false }
  | .ldsub _ x => some { d := .vec 1 1, a := .addr x.a64 }
  | .stsub _ x => some { d := .vec 1 1, a := .addr x.a64, b := .any false, imm := true }
  | .atom _ _ x => some { d := regUse (x.ty == .i64), a := .addr false, b := .any (x.ty == .i64) }
  | .atomcas _ _ x => some { d := regUse (x.ty == .i64), a := .addr false, b := .any (x.ty == .i64), c := .any (x.ty == .i64) }
  | .red _ _ x => some { a := .addr false, b := .any (x.ty == .i64) }
  | .redRsm _ n _ => some { a := .addr false, b := .reg 1 (n.toNat + 2) }
  | .waitcmp _ x => some { d := regUse x.dbl, a := .addr false, b := .any x.dbl }
  | .waitp .. => some { b := .any false, imm := true }
  | .bara .. => some { d := .vec 1 1 }
  | .barw .. => some { a := .any false }
  | .bart .. => some { d := .pred, a := .any false }
  | .barx .. => some { b := .any false, imm := true }
  | .spawn .. => some { a := .reg 4 4 }
  | .qmma _ _ => some { d := .vec 8 8, a := .reg 8 1, b := .any false, c := .reg 8 8, fmt := true, sga := true, sgb := true }
  | _ => none

/-- The static limits of CVT outside FMTSEL (R258). -/
def cvtOk (o : LaneOps) (x : CvtExt) : Bool :=
  if o.fmtsel then !x.srx && x.df == .i4 && x.sf == .i4
  else x.sf != .i4x && x.df != .i4x && !(x.sf == x.df && !fmtIsInt x.sf)
    && (if fmtWidth x.sf < 32 then decide (x.sel.toNat < 32 / fmtSlot x.sf) else x.sel == 0)
    && (if fmtWidth x.df < 32 then decide (x.dsel.toNat < 32 / fmtSlot x.df) else x.dsel == 0)
    && (!x.srx || (o.rm == .rne && decide (fmtWidth x.df ≤ 16) && !(fmtIsInt x.sf && fmtIsInt x.df)))
    && (!x.du || fmtIsInt x.df)

/-- The static limits of PACKN (R260). -/
def packOk (o : LaneOps) (x : PackExt) : Bool :=
  (!x.srx || o.rm == .rne) &&
  (if o.fmtsel then !x.srx && !x.du && x.bsm == .none && x.df == .i4
   else (packCount x.df).isSome && bsmOk x.bsm x.df && (x.bsm != .none || x.sd == 0) && (x.bsm == .none || x.sd != o.d)
     && !(x.du && x.bsm == .mx && x.df == .i8) && !(x.du && !fmtIsInt x.df))

/-- The D span equals the A span or the B span, or meets neither (R264). -/
def spansOk (d a b n : Nat) : Bool :=
  let apart (s : Nat) : Bool := decide (d + n ≤ s) || decide (s + n ≤ d)
  d == a || d == b || (apart a && apart b)

/-- Fields of each instruction that the shape does not cover. -/
def fieldsOk : Instr → Bool
  | .sld _ d _ _ k sc => d != 0 && kindScopeOk loadKinds k sc && scalarScopeOk k sc
  | .sst _ _ _ _ k sc => kindScopeOk storeKinds k sc && scalarScopeOk k sc
  | .swaitcmp _ _ d _ _ k sc => d != 0 && kindScopeOk loadKinds k sc && scalarScopeOk k sc
  | .satom ty op d _ _ k sc => d != 0 && kindScopeOk atomKinds k sc && scalarScopeOk k sc && satomOk op ty
  | .sbr neg q _ => !(neg && q == 0)
  | .sfence sc => !(sc == .split || sc == .group)
  | .cpy _ b | .cpym _ b _ | .launch b _ | .fred b | .fmc b => blockOk b 4
  | .qpost _ _ c => blockOk c 8
  | .bra _ _ roff => roff != 0
  | .brx o _ => o.g == .always
  | .movi o => (match o.b with | .imm _ => true | _ => false)
  | .rand _ _ r | .randCtr _ _ r => decide (r.toNat ≤ 10)
  | .xlane _ _ seg => decide (seg.toNat ≤ 5)
  | .slide _ x => decide (x.n.toNat ≤ match x.size with | .w => 32 | .h => 64 | .b => 128)
  | .iadds _ x | .isubs _ x => x.cie || x.ci == 0
  | .hadd2 o bf | .hsub2 o bf | .hmul2 o bf | .hfma2 o bf | .hmin2 o bf | .hmax2 o bf => !(o.fmtsel && bf)
  | .cvt o x => cvtOk o x
  | .packn o x => packOk o x
  | .unpackn o x =>
      if o.fmtsel then x.bsm == .none && x.sf == .i4
      else (packCount x.sf).isSome && bsmOk x.bsm x.sf
  | .qscalePick _ b f => b != .none && bsmOk b f
  | .qscaleVal _ b | .qscaleRcp _ b => b != .none
  | .rsmerge o n =>
      n != 0 && n != 127 &&
      (match o.a, o.b with
       | .reg a, .reg b => spansOk o.d.toNat a.toNat b.toNat (n.toNat + 2)
       | _, _ => false)
  | .ldg _ x => kindScopeOk loadKinds x.kind x.scope && (!x.sx || x.size == .b || x.size == .h)
  | .stg _ x => kindScopeOk storeKinds x.kind x.scope && !x.sx
  | .lds _ x => kindScopeOk loadKinds x.kind x.scope && (!x.sx || x.size == .b || x.size == .h) && x.h == 0 && !x.a64
  | .sts _ x => kindScopeOk storeKinds x.kind x.scope && !x.sx && x.h == 0 && !x.a64
  | .lda _ x | .sta _ x =>
      x.kind == .plain && x.scope == .split && !x.sx && x.h == 0 && !x.a64 && (x.size == .w || x.size == .q)
  | .ldsub _ x => kindScopeOk loadKinds x.kind x.scope && (!x.sp || (x.h == 0 && !x.a64))
  | .stsub o x => kindScopeOk storeKinds x.kind x.scope && (!x.sp || (x.h == 0 && !x.a64))
      && (match o.b with | .imm w => decide (w.toNat < 256) | _ => true)
  | .atom _ op x => atomOk op x.ty && kindScopeOk atomKinds x.kind x.scope
  | .atomcas _ _ x => (x.ty == .i32 || x.ty == .i64) && kindScopeOk atomKinds x.kind x.scope
  | .red _ op x => redOk op x.ty && kindScopeOk redKinds x.kind x.scope
  | .redRsm _ n x => n != 0 && n != 127 && x.ty == .f32 && kindScopeOk redKinds x.kind x.scope
  | .waitcmp _ x => kindScopeOk loadKinds x.kind x.scope
  | .bara _ n _ | .barw _ n | .bart _ n | .barx _ n => decide (n.toNat < 48)
  | .qmma o _ => o.fmtsel
  | _ => true

/-- The operands of a lane instruction. -/
def laneOps : Instr → Option LaneOps
  | .nopl o | .bra o _ _ | .braJoin o _ | .brx o _ | .call o _ | .ret o | .endb o | .exitl o | .fmtl o | .yieldl o
  | .iadd o | .isub o | .imul o | .imulh o | .imad o | .imadWide o | .idiv o | .irem o | .imin o | .imax o | .iabs o | .ineg o
  | .iadds o _ | .isubs o _ | .icmp o _ _ | .pbool o _ | .pick o | .mov o | .movD o | .movi o
  | .padd2 o | .psub2 o | .pmac2 o | .dot4 o | .dot8 o
  | .land o | .lor o | .lxor o | .lnot o | .blut o _ | .shl o | .shr o | .sra o | .rotl o | .shfd o | .popc o | .clz o | .ctz o
  | .brev o | .bfe o | .bfi o | .rshr o _ | .rand o _ _ | .randCtr o _ _
  | .xlane o _ _ | .slide o _ | .pgath o _ _ | .redux o _ | .scan o _ _ | .vmatch o _ _
  | .fadd o | .fsub o | .fmul o | .ffma o | .fmin o | .fmax o | .fcmp o _ _ | .fclass o _ | .frnd o
  | .frcp o | .frsq o | .fsqrt o | .fdiv o | .fexp2 o | .flog2 o | .fsin o | .fcos o
  | .hadd2 o _ | .hsub2 o _ | .hmul2 o _ | .hfma2 o _ | .hmin2 o _ | .hmax2 o _
  | .dadd o | .dmul o | .dfma o | .dcmp o _ _
  | .cvt o _ | .packn o _ | .unpackn o _ | .qscalePick o _ _ | .qscaleVal o _ | .qscaleRcp o _ | .rsmerge o _ | .clrflg o _ | .rdflg o
  | .ldg o _ | .stg o _ | .pref o _ _ | .invd o _ | .wbk o _ | .lds o _ | .sts o _ | .lda o _ | .sta o _ | .ldsub o _ | .stsub o _
  | .atom o _ _ | .atomcas o _ _ | .red o _ _ | .redRsm o _ _
  | .waitcmp o _ | .fence o _ | .cfence o _ _ | .waitp o _ | .bara o _ _ | .barw o _ | .bart o _ | .barx o _ | .spawn o _ | .qmma o _
  | .trapl o => some o
  | _ => none

/-- An instruction that some encoding stands for. Events and commands are all well formed: the meaning of a command
checks its own operands (R406). -/
def wellFormed (i : Instr) : Bool :=
  fieldsOk i && match laneShape i, laneOps i with
    | some sh, some o => shapeOk sh o
    | _, _ => true

end Sys2Proof
end

