-- ==== Sys2Proof/Decode.lean ====
section
/-!
DEFINITION. Decode.lean: from the bits of a word to an instruction, total, and back. The maps follow R169 to R184;
what no row of them names is refused (R185). Fields of a word are read here and nowhere else.
-/
namespace Sys2Proof

/-! Codes of the small fields. -/

def decodeKind (b : BitVec 3) : Option Kind :=
  match b.toNat with
  | 0 => some .plain | 1 => some .strong | 2 => some .acq | 3 => some .rel | 4 => some .acqrel | _ => none
def encodeKind : Kind → BitVec 3
  | .plain => 0 | .strong => 1 | .acq => 2 | .rel => 3 | .acqrel => 4

def decodeScope (b : BitVec 4) : Option Scope :=
  match b.toNat with
  | 0 => some .split | 1 => some .group | 2 => some .team | 3 => some .core | 4 => some .cluster | 5 => some .die
  | 6 => some .device | 7 => some .pod | 8 => some .system | _ => none
def encodeScope : Scope → BitVec 4
  | .split => 0 | .group => 1 | .team => 2 | .core => 3 | .cluster => 4 | .die => 5 | .device => 6 | .pod => 7 | .system => 8

def decodeCmp (b : BitVec 3) : Option Cmp :=
  match b.toNat with
  | 0 => some .eq | 1 => some .ne | 2 => some .lt | 3 => some .ge | 4 => some .ltu | 5 => some .geu | _ => none
def encodeCmp : Cmp → BitVec 3
  | .eq => 0 | .ne => 1 | .lt => 2 | .ge => 3 | .ltu => 4 | .geu => 5

def decodeICmp (b : BitVec 3) : Option ICmp :=
  match b.toNat with
  | 0 => some .eq | 1 => some .ne | 2 => some .lt | 3 => some .le | 4 => some .gt | 5 => some .ge | _ => none
def encodeICmp : ICmp → BitVec 3
  | .eq => 0 | .ne => 1 | .lt => 2 | .le => 3 | .gt => 4 | .ge => 5

def decodeFCmp (b : BitVec 4) : Option FCmp :=
  match b.toNat with
  | 0 => some .eq | 1 => some .ne | 2 => some .lt | 3 => some .le | 4 => some .gt | 5 => some .ge | 6 => some .num
  | 7 => some .nan | 8 => some .equ | 9 => some .neu | 10 => some .ltu | 11 => some .leu | 12 => some .gtu | 13 => some .geu
  | _ => none
def encodeFCmp : FCmp → BitVec 4
  | .eq => 0 | .ne => 1 | .lt => 2 | .le => 3 | .gt => 4 | .ge => 5 | .num => 6 | .nan => 7 | .equ => 8 | .neu => 9
  | .ltu => 10 | .leu => 11 | .gtu => 12 | .geu => 13

def decodeAcc (b : BitVec 2) : Acc :=
  match b.toNat with
  | 0 => .set | 1 => .and | 2 => .or | _ => .xor
def encodeAcc : Acc → BitVec 2
  | .set => 0 | .and => 1 | .or => 2 | .xor => 3

def decodePath (b : BitVec 3) : Path :=
  match b.toNat with
  | 0 => .ld | 1 => .st | 2 => .at | 3 => .cp | 4 => .mx | 5 => .ga | 6 => .cl | _ => .sp
def encodePath : Path → BitVec 3
  | .ld => 0 | .st => 1 | .at => 2 | .cp => 3 | .mx => 4 | .ga => 5 | .cl => 6 | .sp => 7

def decodePClass (b : BitVec 3) : Option PClass :=
  match b.toNat with
  | 0 => some .ls | 1 => some .as | 2 => some .cp | 3 => some .mx | 4 => some .ga | 5 => some .cl | _ => none
def encodePClass : PClass → BitVec 3
  | .ls => 0 | .as => 1 | .cp => 2 | .mx => 3 | .ga => 4 | .cl => 5

def decodeAtomOp (b : BitVec 4) : Option AtomOp :=
  match b.toNat with
  | 0 => some .add | 1 => some .sub | 2 => some .min | 3 => some .max | 4 => some .and | 5 => some .or | 6 => some .xor
  | 7 => some .exch | 8 => some .incw | 9 => some .cas | 10 => some .minu | 11 => some .maxu | 12 => some .rsm | _ => none
def encodeAtomOp : AtomOp → BitVec 4
  | .add => 0 | .sub => 1 | .min => 2 | .max => 3 | .and => 4 | .or => 5 | .xor => 6 | .exch => 7 | .incw => 8 | .cas => 9
  | .minu => 10 | .maxu => 11 | .rsm => 12

def decodeAtomType (b : BitVec 2) : Option AtomType :=
  match b.toNat with
  | 0 => some .i32 | 1 => some .i64 | 2 => some .f32 | _ => none
def encodeAtomType : AtomType → BitVec 2
  | .i32 => 0 | .i64 => 1 | .f32 => 2

def decodeFmt (b : BitVec 4) : Option Fmt :=
  match b.toNat with
  | 0 => some .i4 | 1 => some .i8 | 2 => some .i16 | 3 => some .i32 | 4 => some .i4x | 5 => some .e2m1 | 6 => some .e2m3
  | 7 => some .e3m2 | 8 => some .e4m3 | 9 => some .e5m2 | 10 => some .f16 | 11 => some .bf16 | 12 => some .f32 | 13 => some .f64
  | 14 => some .i64 | _ => none

def decodeBsm (b : BitVec 2) : Option Bsm :=
  match b.toNat with
  | 0 => some .none | 1 => some .zb | 2 => some .mx | _ => none
def encodeBsm : Bsm → BitVec 2
  | .none => 0 | .zb => 1 | .mx => 2

def decodeRMode (b : BitVec 2) : RMode :=
  match b.toNat with
  | 0 => .rne | 1 => .rz | 2 => .ru | _ => .rd
def encodeRMode : RMode → BitVec 2
  | .rne => 0 | .rz => 1 | .ru => 2 | .rd => 3

def decodeGuard (b : BitVec 4) : Option Guard :=
  if b = 0 then some .always
  else if b = 8 then none
  else if b.getLsbD 3 then some (.neg (b.extractLsb' 0 3)) else some (.pos (b.extractLsb' 0 3))
def encodeGuard : Guard → BitVec 4
  | .always => 0
  | .pos n => 0#1 ++ n
  | .neg n => 1#1 ++ n

def decodeSpecial (b : BitVec 6) : Option LaneSpecial :=
  match b.toNat with
  | 0 => some .laneid | 1 => some .quarter | 2 => some .splitid | 3 => some .groupid | 4 => some .teamid | 5 => some .gridid
  | 6 => some .gridhi | 7 => some .nteams | 8 => some .ngroups | 9 => some .ltmask | 10 => some .livemask | 11 => some .splitmask
  | 12 => some .core | 13 => some .drawcnt | _ => none
def encodeSpecial : LaneSpecial → BitVec 6
  | .laneid => 0 | .quarter => 1 | .splitid => 2 | .groupid => 3 | .teamid => 4 | .gridid => 5 | .gridhi => 6 | .nteams => 7
  | .ngroups => 8 | .ltmask => 9 | .livemask => 10 | .splitmask => 11 | .core => 12 | .drawcnt => 13

def decodeMSize (b : BitVec 3) : Option MSize :=
  match b.toNat with
  | 0 => some .b | 1 => some .h | 2 => some .w | 3 => some .d | 4 => some .q | _ => none
def encodeMSize : MSize → BitVec 3
  | .b => 0 | .h => 1 | .w => 2 | .d => 3 | .q => 4

def decodeSubFmt (b : BitVec 4) : Option SubFmt :=
  match b.toNat with
  | 0 => some .i4 | 4 => some .i4x | 5 => some .e2m1 | 6 => some .e2m3 | 7 => some .e3m2 | _ => none
def encodeSubFmt : SubFmt → BitVec 4
  | .i4 => 0 | .i4x => 4 | .e2m1 => 5 | .e2m3 => 6 | .e3m2 => 7

def decodeRedOp (b : BitVec 4) : Option RedOp :=
  match b.toNat with
  | 0 => some .add | 1 => some .min | 2 => some .max | 3 => some .and | 4 => some .or | 5 => some .xor | 8 => some .fadd
  | 9 => some .fmin | 10 => some .fmax | _ => none
def encodeRedOp : RedOp → BitVec 4
  | .add => 0 | .min => 1 | .max => 2 | .and => 3 | .or => 4 | .xor => 5 | .fadd => 8 | .fmin => 9 | .fmax => 10

def decodeXMode (b : BitVec 3) : Option XMode :=
  match b.toNat with
  | 0 => some .at | 1 => some .back | 2 => some .fwd | 3 => some .flip | 4 => some .rot | _ => none
def encodeXMode : XMode → BitVec 3
  | .at => 0 | .back => 1 | .fwd => 2 | .flip => 3 | .rot => 4

def decodePMode (b : BitVec 2) : PMode :=
  match b.toNat with
  | 0 => .every | 1 => .some | 2 => .agree | _ => .mask
def encodePMode : PMode → BitVec 2
  | .every => 0 | .some => 1 | .agree => 2 | .mask => 3

def decodeRshr (b : BitVec 2) : Option RshrSize :=
  match b.toNat with
  | 0 => some .w | 1 => some .h | 2 => some .b | _ => none
def encodeRshr : RshrSize → BitVec 2
  | .w => 0 | .h => 1 | .b => 2

def decodeRand (b : BitVec 2) : Option RandCount :=
  match b.toNat with
  | 0 => some .w1 | 1 => some .w2 | 2 => some .w4 | _ => none
def encodeRand : RandCount → BitVec 2
  | .w1 => 0 | .w2 => 1 | .w4 => 2

def decodeSlideSize (b : BitVec 2) : Option SlideSize :=
  match b.toNat with
  | 0 => some .w | 1 => some .h | 2 => some .b | _ => none
def encodeSlideSize : SlideSize → BitVec 2
  | .w => 0 | .h => 1 | .b => 2

def bit (b : Bool) : BitVec 1 := if b then 1 else 0

/-! Scalar words. -/

/-- Keeps a value where a field that must be zero is zero. -/
def onlyIf (c : Bool) (i : Instr) : Option Instr := if c then some i else none

/-- The integer group (R172): FN7, with the d, a and b fields. -/
def decodeSR (fn : BitVec 7) (d a b : BitVec 6) : Option Instr :=
  match fn.toNat with
  | 0x00 => some (.sadd d a b) | 0x01 => some (.ssub d a b) | 0x02 => some (.smul d a b) | 0x03 => some (.smulh d a b)
  | 0x04 => some (.sdiv d a b) | 0x05 => some (.srem d a b) | 0x06 => some (.sand d a b) | 0x07 => some (.sor d a b)
  | 0x08 => some (.sxor d a b) | 0x09 => some (.sshl d a b) | 0x0A => some (.sshr d a b) | 0x0B => some (.ssra d a b)
  | 0x0C => some (.smin d a b) | 0x0D => some (.smax d a b)
  | 0x0E => onlyIf (b == 0) (.spopc d a)
  | 0x0F => onlyIf (b == 0) (.sclz d a)
  | 0x10 => (decodeCmp (d.extractLsb' 3 3)).map fun cc => .scmp cc (d.extractLsb' 0 3) a b
  | 0x18 | 0x19 | 0x1A | 0x1B | 0x1C | 0x1D | 0x1E | 0x1F => some (.ssel (fn.extractLsb' 0 3) d a b)
  | 0x43 => some (.smulhU d a b) | 0x44 => some (.sdivU d a b) | 0x45 => some (.sremU d a b)
  | 0x4C => some (.sminU d a b) | 0x4D => some (.smaxU d a b)
  | _ => none

/-- The system and engine group (R173): FN7, with the a, b and c fields (R219, R287). -/
def decodeSE (fn : BitVec 7) (a b c : BitVec 6) : Option Instr :=
  let z2 := b == 0 && c == 0
  let z3 := a == 0 && b == 0 && c == 0
  match fn.toNat with
  | 0x00 => some (.ldisp a b c)
  | 0x01 => onlyIf z2 (.lwaitg a)
  | 0x02 => onlyIf z2 (.setfmt a)
  | 0x03 => onlyIf (decide (a.toNat < 8) && c == 0) (.swaitp (decodePath (a.extractLsb' 0 3)) b)
  | 0x04 => onlyIf (c == 0) (.sbari a b)
  | 0x05 => onlyIf (c == 0) (.sbara a b)
  | 0x06 => onlyIf (c == 0) (.sbarw a b)
  | 0x07 => onlyIf (c == 0) (.sbarx a b)
  | 0x08 => if z2 && decide (a.toNat < 16) then (decodeScope (a.extractLsb' 0 4)).map .sfence else none
  | 0x09 =>
      if c == 0 && decide (a.toNat < 8) && decide (b.toNat < 8) then
        match decodePClass (a.extractLsb' 0 3), decodePClass (b.extractLsb' 0 3) with
        | some x, some y => some (.scfence x y)
        | _, _ => none
      else none
  | 0x0A => onlyIf z3 .yield
  | 0x0B => onlyIf z3 .idem
  | 0x0C => onlyIf z3 .ideme
  | 0x0D => onlyIf z2 (.chkpt a)
  | 0x0E => onlyIf z2 (.exit a)
  | 0x0F => onlyIf z2 (.stime a)
  | 0x10 => onlyIf z2 (.srand a)
  | 0x11 => some (.syrd a (b ++ c))
  | 0x12 => some (.sywr (b ++ c) a)
  | 0x13 => onlyIf z2 (.strap a)
  | 0x14 =>
      if a == 0 && c == 0 then
        match b.toNat with
        | 0 => some .tretRetry | 1 => some .tretSkip | 2 => some .tretKillg | 3 => some .tretKillt | _ => none
      else none
  | 0x15 => onlyIf z3 .brkpt
  | 0x16 => onlyIf z3 .snop
  | 0x20 => onlyIf (c == 0) (.cpy a b)
  | 0x21 => some (.cpym a b c)
  | 0x22 => onlyIf (c == 0) (.layld a b)
  | 0x23 => onlyIf (a == 0 && c == 0) (.layinv b)
  | 0x24 => some (.tmma a b c)
  | 0x25 => some (.tmmag a b c)
  | 0x26 =>
      match c.toNat with
      | 0 => onlyIf (a == 0) (.taccZero b) | 1 => onlyIf (a == 0) (.taccScale b) | 2 => onlyIf (a == 0) (.taccAdd b)
      | 3 => onlyIf (a == 0) (.taccIadd b) | 4 => onlyIf (a == 0) (.taccMove b) | 5 => onlyIf (b == 0) (.taccStat a)
      | _ => none
  | 0x27 => onlyIf (c == 0) (.tepi a b)
  | 0x28 => some (.qpost a b c)
  | 0x29 => onlyIf (a == 0) (.launch b c)
  | 0x2A => onlyIf (a == 0 && c == 0) (.fred b)
  | 0x2B => onlyIf (a == 0 && c == 0) (.fmc b)
  | 0x2C => onlyIf z2 (.recmark a)
  | 0x2D => onlyIf z2 (.haltd a)
  | _ => none

/-- The KIND and SCOPE of a form SM word (R170). -/
def decodeSM (fn : BitVec 7) (k : Kind → Scope → Instr) : Option Instr :=
  match decodeKind (fn.extractLsb' 4 3), decodeScope (fn.extractLsb' 0 4) with
  | some x, some y => some (k x y)
  | _, _ => none

/-- A scalar word; `w2` is the word after it, which only SLI reads (R169, R171). -/
def decodeScalarRaw (w w2 : U32) : Option Instr :=
  let d := w.extractLsb' 19 6
  let a := w.extractLsb' 13 6
  let b := w.extractLsb' 7 6
  let fn := w.extractLsb' 0 7
  let imm := w.extractLsb' 0 13
  let imm19 := w.extractLsb' 0 19
  let sz := w.extractLsb' 25 2
  let sh := w.extractLsb' 0 6
  let shz := w.extractLsb' 6 7 == 0
  match (w.extractLsb' 25 7).toNat with
  | 0x01 => decodeSR fn d a b
  | 0x02 => some (.saddi d a imm) | 0x03 => some (.sandi d a imm) | 0x04 => some (.sori d a imm) | 0x05 => some (.sxori d a imm)
  | 0x06 => onlyIf shz (.sshli d a sh) | 0x07 => onlyIf shz (.sshri d a sh) | 0x08 => onlyIf shz (.ssrai d a sh)
  | 0x09 => some (.slui d imm19)
  | 0x0A => some (.sli d imm19 w2)
  | 0x0B => onlyIf (d == 0) (.sjmp imm19)
  | 0x0C => some (.scall d imm19)
  | 0x0D => some (.sjmpr d a imm)
  | 0x0E => onlyIf (d == 0 && imm == 0) (.sret a)
  | 0x0F => some (.sbr (w.getLsbD 24) (w.extractLsb' 21 3) (w.extractLsb' 0 21))
  | 0x10 | 0x11 | 0x12 | 0x13 => decodeSM fn (.sld sz d a b)
  | 0x14 | 0x15 | 0x16 | 0x17 => decodeSM fn (.sst sz d a b)
  | 0x18 | 0x19 | 0x1A | 0x1B => some (.slds sz d a imm)
  | 0x1C | 0x1D | 0x1E | 0x1F => some (.ssts sz d a imm)
  | 0x20 | 0x21 | 0x22 | 0x23 | 0x24 | 0x25 =>
      (decodeCmp (w.extractLsb' 25 3)).bind fun cc => decodeSM fn (.swaitcmp false cc d a b)
  | 0x28 | 0x29 | 0x2A | 0x2B | 0x2C | 0x2D =>
      (decodeCmp (w.extractLsb' 25 3)).bind fun cc => decodeSM fn (.swaitcmp true cc d a b)
  | 0x3E => decodeSE fn d a b
  | n =>
      if 0x40 ≤ n ∧ n ≤ 0x6F then
        match decodeAtomType (w.extractLsb' 29 2), decodeAtomOp (w.extractLsb' 25 4) with
        | some ty, some op => decodeSM fn (.satom ty op d a b)
        | _, _ => none
      else none

/-- The instruction of a scalar word, or none where R185 makes it ILLEGAL_INSTRUCTION. -/
def decodeScalar (w w2 : U32) : Option Instr := (decodeScalarRaw w w2).filter wellFormed

/-! Lane words. -/

/-- The raw fields of a lane word (R175). -/
structure LaneWord where
  op : BitVec 8
  fn : BitVec 4
  g : BitVec 4
  rm : BitVec 2
  sat : Bool
  fmtsel : Bool
  d : BitVec 9
  a : BitVec 9
  b : BitVec 9
  ska : BitVec 2
  skb : BitVec 2
  skc : BitVec 2
  fe : BitVec 3
  sg : BitVec 2
  hint : BitVec 3
  rsv : BitVec 2
  yi : Bool
  y : U32
  deriving DecidableEq, Repr

/-- The fields of a 96-bit word. -/
def splitLane (w : U96) : LaneWord :=
  { op := w.extractLsb' 88 8, fn := w.extractLsb' 84 4, g := w.extractLsb' 80 4, rm := w.extractLsb' 78 2, sat := w.getLsbD 77,
    fmtsel := w.getLsbD 76, d := w.extractLsb' 67 9, a := w.extractLsb' 58 9, b := w.extractLsb' 49 9, ska := w.extractLsb' 47 2,
    skb := w.extractLsb' 45 2, skc := w.extractLsb' 43 2, fe := w.extractLsb' 40 3, sg := w.extractLsb' 38 2,
    hint := w.extractLsb' 35 3, rsv := w.extractLsb' 33 2, yi := w.getLsbD 32, y := w.extractLsb' 0 32 }

/-- The 96-bit word of the fields. -/
def joinLane (r : LaneWord) : U96 :=
  r.op ++ r.fn ++ r.g ++ r.rm ++ bit r.sat ++ bit r.fmtsel ++ r.d ++ r.a ++ r.b ++ r.ska ++ r.skb ++ r.skc ++ r.fe ++ r.sg
    ++ r.hint ++ r.rsv ++ bit r.yi ++ r.y

/-- A source field under its kind (R178). -/
def decodeSrc (k : BitVec 2) (f : BitVec 9) : Option Src :=
  let c := f.extractLsb' 0 6
  match k.toNat with
  | 0 => some (.reg f)
  | 1 => if f.extractLsb' 6 3 = 0 then some (.const c) else none
  | 2 => if f.extractLsb' 6 3 = 0 then some (.rein c) else none
  | _ => if f.extractLsb' 6 3 = 0 then (decodeSpecial c).map .special else none

/-- Kind and field of a source; imm32 stands in Y, with a zero field. -/
def encodeSrc : Src → BitVec 2 × BitVec 9
  | .reg n => (0, n)
  | .const k => (1, 0#3 ++ k)
  | .rein k => (2, 0#3 ++ k)
  | .special sp => (3, 0#3 ++ encodeSpecial sp)
  | .imm _ => (0, 0)

/-- The decoder's view of one word: the operands, with the raw B field, the raw C field and EXT. Under YI = 1, EXT is
taken from the place R183 gives it. -/
structure LaneView where
  o : LaneOps
  yi : Bool
  bf : BitVec 9
  cf : BitVec 9
  ext : BitVec 23
  y : U32

/-- Operands of a word whose B and C fields hold an 18-bit number (R236, R266). -/
def LaneView.numeric (v : LaneView) : Option (LaneOps × BitVec 18) :=
  if v.yi then none else
    match v.o.b, v.o.c with
    | .reg _, .reg _ => some ({ v.o with b := .reg 0, c := .reg 0 }, v.bf ++ v.cf)
    | _, _ => none

/-- EXT and the operands where EXT may stand in the B field under YI = 1, `keep` bits wide (R183). -/
def LaneView.extB (v : LaneView) (keep : Nat) : Option (LaneOps × BitVec 23) :=
  if v.yi then (if v.bf.toNat < 2 ^ keep then some (v.o, v.bf.setWidth 23) else none) else some (v.o, v.ext)

/-- EXT and the operands of a form that has no place for EXT beside imm32. -/
def LaneView.extN (v : LaneView) : Option (LaneOps × BitVec 23) :=
  if v.yi then (if v.bf = 0 then some (v.o, 0) else none) else some (v.o, v.ext)

/-- Operands of a form without EXT. -/
def LaneView.plain (v : LaneView) (k : LaneOps → Instr) : Option Instr :=
  match v.extN with
  | some (o, e) => if e = 0 then some (k o) else none
  | none => none

/-- EXT of the memory words (R266). -/
def decodeMemExt (imm : BitVec 18) (e : BitVec 23) : Option MemExt :=
  match decodeMSize (e.extractLsb' 10 3), decodeKind (e.extractLsb' 7 3), decodeScope (e.extractLsb' 3 4) with
  | some sz, some k, some sc =>
      if e.getLsbD 0 then none
      else some { imm := imm, h := e.extractLsb' 13 10, size := sz, kind := k, scope := sc, sx := e.getLsbD 2, a64 := e.getLsbD 1 }
  | _, _, _ => none
def encodeMemExt (x : MemExt) : BitVec 23 :=
  x.h ++ encodeMSize x.size ++ encodeKind x.kind ++ encodeScope x.scope ++ bit x.sx ++ bit x.a64 ++ 0#1

/-- EXT of PREF, INVD and WBK: SIZE is given apart, and KIND, SCOPE and SX are zero (R272, R273). -/
def decodeRangeExt (imm : BitVec 18) (e : BitVec 23) : Option RangeExt :=
  if e.extractLsb' 2 8 = 0 ∧ e.getLsbD 0 = false then some { imm := imm, h := e.extractLsb' 13 10, a64 := e.getLsbD 1 } else none
def encodeRangeExt (size : BitVec 3) (x : RangeExt) : BitVec 23 := x.h ++ size ++ 0#8 ++ bit x.a64 ++ 0#1

/-- EXT of LDSUB and STSUB (R275). -/
def decodeSubExt (e : BitVec 23) : Option SubExt :=
  match decodeSubFmt (e.extractLsb' 8 4), decodeKind (e.extractLsb' 5 3), decodeScope (e.extractLsb' 1 4) with
  | some f, some k, some sc => some { h := e.extractLsb' 13 10, sp := e.getLsbD 12, fmt := f, kind := k, scope := sc, a64 := e.getLsbD 0 }
  | _, _, _ => none
def encodeSubExt (x : SubExt) : BitVec 23 :=
  x.h ++ bit x.sp ++ encodeSubFmt x.fmt ++ encodeKind x.kind ++ encodeScope x.scope ++ bit x.a64

/-- EXT of the atomics (R276); bits [12:9] are given apart. -/
def decodeAtomExt (e : BitVec 23) : Option AtomExt :=
  match decodeAtomType (e.extractLsb' 7 2), decodeKind (e.extractLsb' 4 3), decodeScope (e.extractLsb' 0 4) with
  | some ty, some k, some sc => some { h := e.extractLsb' 13 10, ty := ty, kind := k, scope := sc }
  | _, _, _ => none
def encodeAtomExt (opc : BitVec 4) (x : AtomExt) : BitVec 23 :=
  x.h ++ opc ++ encodeAtomType x.ty ++ encodeKind x.kind ++ encodeScope x.scope

/-- EXT of WAITCMP (R280). -/
def decodeWaitExt (e : BitVec 23) : Option WaitExt :=
  match decodeCmp (e.extractLsb' 10 3), decodeKind (e.extractLsb' 6 3), decodeScope (e.extractLsb' 2 4) with
  | some cc, some k, some sc =>
      if e.extractLsb' 0 2 = 0 then some { h := e.extractLsb' 13 10, cc := cc, dbl := e.getLsbD 9, kind := k, scope := sc } else none
  | _, _, _ => none
def encodeWaitExt (x : WaitExt) : BitVec 23 :=
  x.h ++ encodeCmp x.cc ++ bit x.dbl ++ encodeKind x.kind ++ encodeScope x.scope ++ 0#2

/-- EXT of CVT (R258); format fields that FMTSEL leaves at zero decode as code 0. -/
def decodeCvtExt (e : BitVec 23) : Option CvtExt :=
  match decodeFmt (e.extractLsb' 4 4), decodeFmt (e.extractLsb' 0 4) with
  | some df, some sf =>
      if e.extractLsb' 16 7 = 0 then
        some { srx := e.getLsbD 15, du := e.getLsbD 14, dsel := e.extractLsb' 11 3, sel := e.extractLsb' 8 3, df := df, sf := sf }
      else none
  | _, _ => none
def encodeCvtExt (x : CvtExt) : BitVec 23 := 0#7 ++ bit x.srx ++ bit x.du ++ x.dsel ++ x.sel ++ fmtCode x.df ++ fmtCode x.sf

/-- EXT of PACKN (R260). -/
def decodePackExt (e : BitVec 23) : Option PackExt :=
  match decodeBsm (e.extractLsb' 13 2), decodeFmt (e.extractLsb' 9 4) with
  | some b, some df =>
      if e.extractLsb' 17 6 = 0 then some { srx := e.getLsbD 16, du := e.getLsbD 15, bsm := b, df := df, sd := e.extractLsb' 0 9 } else none
  | _, _ => none
def encodePackExt (x : PackExt) : BitVec 23 := 0#6 ++ bit x.srx ++ bit x.du ++ encodeBsm x.bsm ++ fmtCode x.df ++ x.sd

/-- The instruction that OP and FN name (R184), with its EXT read. -/
def decodeOp (op : BitVec 8) (fn : BitVec 4) (v : LaneView) : Option Instr :=
  let p := v.plain
  let o := v.o
  let e := v.ext
  match op.toNat, fn.toNat with
  | 0x00, 0x0 => p .nopl
  | 0x00, 0x1 => v.numeric.map fun (o, roff) => if roff = 0 then .braJoin o e else .bra o e roff
  | 0x00, 0x2 => if e = 0 then v.numeric.map fun (o, roff) => .brx o roff else none
  | 0x00, 0x3 => if v.yi then none else some (.call o e)
  | 0x00, 0x4 => p .ret
  | 0x00, 0x5 => p .endb
  | 0x00, 0x6 => p .exitl
  | 0x00, 0x7 => p .fmtl
  | 0x00, 0x8 => p .yieldl
  | 0x10, 0x0 => p .iadd
  | 0x10, 0x1 => p .isub
  | 0x10, 0x2 => p .imul
  | 0x10, 0x3 => p .imulh
  | 0x10, 0x4 => if v.yi then none else if e = 0 then some (.imad o) else if e = 1 then some (.imadWide o) else none
  | 0x10, 0x5 => p .idiv
  | 0x10, 0x6 => p .irem
  | 0x10, 0x7 => p .imin
  | 0x10, 0x8 => p .imax
  | 0x10, 0x9 => p .iabs
  | 0x10, 0xA => p .ineg
  | 0x10, 0xB => (v.extB 7).bind fun (o, e) => if e.extractLsb' 7 16 = 0 then some (.iadds o ⟨e.getLsbD 3, e.extractLsb' 4 3, e.extractLsb' 0 3⟩) else none
  | 0x10, 0xC => (v.extB 7).bind fun (o, e) => if e.extractLsb' 7 16 = 0 then some (.isubs o ⟨e.getLsbD 3, e.extractLsb' 4 3, e.extractLsb' 0 3⟩) else none
  | 0x11, 0x0 =>
      if v.yi then none else if e.extractLsb' 5 18 = 0 then
        (decodeICmp (e.extractLsb' 0 3)).map fun cc => .icmp o cc (decodeAcc (e.extractLsb' 3 2)) else none
  | 0x11, 0x1 => if v.yi then none else if e.extractLsb' 8 15 = 0 then some (.pbool o (e.extractLsb' 0 8)) else none
  | 0x11, 0x2 => p .pick
  | 0x11, 0x3 => if v.yi then none else if e = 0 then some (.mov o) else if e = 1 then some (.movD o) else none
  | 0x11, 0x4 => p .movi
  | 0x20, 0x0 => p .padd2
  | 0x20, 0x1 => p .psub2
  | 0x20, 0x2 => p .pmac2
  | 0x20, 0x3 => p .dot4
  | 0x20, 0x4 => p .dot8
  | 0x30, 0x0 => p .land
  | 0x30, 0x1 => p .lor
  | 0x30, 0x2 => p .lxor
  | 0x30, 0x3 => p .lnot
  | 0x30, 0x4 => if v.yi then none else if e.extractLsb' 8 15 = 0 then some (.blut o (e.extractLsb' 0 8)) else none
  | 0x30, 0x5 => p .shl
  | 0x30, 0x6 => p .shr
  | 0x30, 0x7 => p .sra
  | 0x30, 0x8 => p .rotl
  | 0x30, 0x9 => p .shfd
  | 0x30, 0xA => p .popc
  | 0x30, 0xB => p .clz
  | 0x30, 0xC => p .ctz
  | 0x30, 0xD => p .brev
  | 0x30, 0xE => p .bfe
  | 0x30, 0xF => p .bfi
  | 0x31, 0x0 => (v.extB 2).bind fun (o, e) => if e.extractLsb' 2 21 = 0 then (decodeRshr (e.extractLsb' 0 2)).map fun s => .rshr o s else none
  | 0xD0, 0x0 =>
      if v.yi then none else if e.extractLsb' 7 16 = 0 then
        (decodeRand (e.extractLsb' 4 2)).map fun n => if e.getLsbD 6 then .randCtr o n (e.extractLsb' 0 4) else .rand o n (e.extractLsb' 0 4)
      else none
  | 0x70, 0x0 =>
      if v.yi then none else if e.extractLsb' 6 17 = 0 then (decodeXMode (e.extractLsb' 0 3)).map fun m => .xlane o m (e.extractLsb' 3 3) else none
  | 0x70, 0x1 =>
      if v.yi then none else if e.extractLsb' 12 11 = 0 then
        (decodeSlideSize (e.extractLsb' 9 2)).map fun s => .slide o ⟨e.getLsbD 11, s, e.getLsbD 8, e.extractLsb' 0 8⟩ else none
  | 0x70, 0x2 => if v.yi then none else if e.extractLsb' 3 20 = 0 then some (.pgath o (decodePMode (e.extractLsb' 0 2)) (e.getLsbD 2)) else none
  | 0x70, 0x3 => if v.yi then none else if e.extractLsb' 4 19 = 0 then (decodeRedOp (e.extractLsb' 0 4)).map fun r => .redux o r else none
  | 0x70, 0x4 =>
      if v.yi then none else if e.extractLsb' 5 18 = 0 then (decodeRedOp (e.extractLsb' 0 4)).map fun r => .scan o r (e.getLsbD 4) else none
  | 0x70, 0x5 => if v.yi then none else if e.extractLsb' 2 21 = 0 then some (.vmatch o (e.getLsbD 0) (e.getLsbD 1)) else none
  | 0x40, 0x0 => p .fadd
  | 0x40, 0x1 => p .fsub
  | 0x40, 0x2 => p .fmul
  | 0x40, 0x3 => p .ffma
  | 0x40, 0x4 => p .fmin
  | 0x40, 0x5 => p .fmax
  | 0x40, 0x6 =>
      (v.extB 6).bind fun (o, e) => if e.extractLsb' 6 17 = 0 then
        (decodeFCmp (e.extractLsb' 0 4)).map fun cc => .fcmp o cc (decodeAcc (e.extractLsb' 4 2)) else none
  | 0x40, 0x7 => if v.yi then none else if e.extractLsb' 10 13 = 0 then some (.fclass o (e.extractLsb' 0 10)) else none
  | 0x40, 0x8 => p .frnd
  | 0x41, 0x0 => p .frcp
  | 0x41, 0x1 => p .frsq
  | 0x41, 0x2 => p .fsqrt
  | 0x41, 0x3 => p .fdiv
  | 0x41, 0x4 => p .fexp2
  | 0x41, 0x5 => p .flog2
  | 0x41, 0x6 => p .fsin
  | 0x41, 0x7 => p .fcos
  | 0x50, 0x0 => (v.extB 1).bind fun (o, e) => if e.extractLsb' 1 22 = 0 then some (.hadd2 o (e.getLsbD 0)) else none
  | 0x50, 0x1 => (v.extB 1).bind fun (o, e) => if e.extractLsb' 1 22 = 0 then some (.hsub2 o (e.getLsbD 0)) else none
  | 0x50, 0x2 => (v.extB 1).bind fun (o, e) => if e.extractLsb' 1 22 = 0 then some (.hmul2 o (e.getLsbD 0)) else none
  | 0x50, 0x3 => if v.yi then none else if e.extractLsb' 1 22 = 0 then some (.hfma2 o (e.getLsbD 0)) else none
  | 0x50, 0x4 => (v.extB 1).bind fun (o, e) => if e.extractLsb' 1 22 = 0 then some (.hmin2 o (e.getLsbD 0)) else none
  | 0x50, 0x5 => (v.extB 1).bind fun (o, e) => if e.extractLsb' 1 22 = 0 then some (.hmax2 o (e.getLsbD 0)) else none
  | 0x51, 0x0 => p .dadd
  | 0x51, 0x1 => p .dmul
  | 0x51, 0x2 => p .dfma
  | 0x51, 0x3 =>
      if v.yi then none else if e.extractLsb' 6 17 = 0 then
        (decodeFCmp (e.extractLsb' 0 4)).map fun cc => .dcmp o cc (decodeAcc (e.extractLsb' 4 2)) else none
  | 0x60, 0x0 => if v.yi then none else (decodeCvtExt e).map fun x => .cvt o x
  | 0x60, 0x1 => if v.yi then none else (decodePackExt e).map fun x => .packn o x
  | 0x60, 0x2 =>
      if v.yi then none else if e.extractLsb' 6 17 = 0 then
        match decodeBsm (e.extractLsb' 4 2), decodeFmt (e.extractLsb' 0 4) with
        | some b, some f => some (.unpackn o ⟨b, f⟩)
        | _, _ => none
      else none
  | 0x60, 0x3 =>
      if v.yi then none else if e.extractLsb' 8 15 = 0 then
        match (e.extractLsb' 0 2).toNat, decodeBsm (e.extractLsb' 6 2), decodeFmt (e.extractLsb' 2 4) with
        | 0, some b, some f => some (.qscalePick o b f)
        | 1, some b, some .i4 => some (.qscaleVal o b)
        | 2, some b, some .i4 => some (.qscaleRcp o b)
        | _, _, _ => none
      else none
  | 0x60, 0x4 => if v.yi then none else if e.extractLsb' 7 16 = 0 then some (.rsmerge o (e.extractLsb' 0 7)) else none
  | 0x60, 0x5 => if v.yi then none else if e.extractLsb' 7 16 = 0 then some (.clrflg o (e.extractLsb' 0 7)) else none
  | 0x60, 0x6 => p .rdflg
  | 0x80, 0x0 => v.numeric.bind fun (o, imm) => (decodeMemExt imm e).map fun x => .ldg o x
  | 0x80, 0x1 => v.numeric.bind fun (o, imm) => (decodeMemExt imm e).map fun x => .stg o x
  | 0x80, 0x2 =>
      v.numeric.bind fun (o, imm) => (decodeRangeExt imm e).bind fun x =>
        match (e.extractLsb' 10 3).toNat with
        | 0 => some (.pref o false x)
        | 1 => some (.pref o true x)
        | _ => none
  | 0x80, 0x3 => v.numeric.bind fun (o, imm) => if e.extractLsb' 10 3 = 0 then (decodeRangeExt imm e).map fun x => .invd o x else none
  | 0x80, 0x4 => v.numeric.bind fun (o, imm) => if e.extractLsb' 10 3 = 0 then (decodeRangeExt imm e).map fun x => .wbk o x else none
  | 0x90, 0x0 => v.numeric.bind fun (o, imm) => (decodeMemExt imm e).map fun x => .lds o x
  | 0x90, 0x1 => v.numeric.bind fun (o, imm) => (decodeMemExt imm e).map fun x => .sts o x
  | 0x90, 0x2 => if v.yi then none else (decodeSubExt e).map fun x => .ldsub o x
  | 0x90, 0x3 =>
      if v.yi then
        (if v.bf = 0 ∧ v.y.getLsbD 31 = false then
          (decodeSubExt (v.y.extractLsb' 8 23)).map fun x => .stsub { o with b := .imm ((v.y.extractLsb' 0 8).setWidth 32) } x
        else none)
      else (decodeSubExt e).map fun x => .stsub o x
  | 0x90, 0x4 => v.numeric.bind fun (o, imm) => (decodeMemExt imm e).map fun x => .lda o x
  | 0x90, 0x5 => v.numeric.bind fun (o, imm) => (decodeMemExt imm e).map fun x => .sta o x
  | 0xA0, 0x0 => if v.yi then none else (decodeAtomOp (e.extractLsb' 9 4)).bind fun op => (decodeAtomExt e).map fun x => .atom o op x
  | 0xA0, 0x1 => if v.yi then none else if e.getLsbD 9 then none else (decodeAtomExt e).map fun x => .atomcas o (e.extractLsb' 10 3) x
  | 0xA0, 0x2 =>
      if v.yi then none else (decodeAtomOp (e.extractLsb' 9 4)).bind fun op => (decodeAtomExt e).bind fun x =>
        match op with
        | .rsm => (match o.c with
            | .reg _ => if v.cf.toNat < 128 then some (.redRsm { o with c := .reg 0 } (v.cf.extractLsb' 0 7) x) else none
            | _ => none)
        | _ => some (.red o op x)
  | 0xB0, 0x0 => if v.yi then none else (decodeWaitExt e).map fun x => .waitcmp o x
  | 0xB0, 0x1 => if v.yi then none else if e.extractLsb' 4 19 = 0 then (decodeScope (e.extractLsb' 0 4)).map fun s => .fence o s else none
  | 0xB0, 0x2 =>
      if v.yi then none else if e.extractLsb' 6 17 = 0 then
        match decodePClass (e.extractLsb' 0 3), decodePClass (e.extractLsb' 3 3) with
        | some x, some y => some (.cfence o x y)
        | _, _ => none
      else none
  | 0xB0, 0x3 => (v.extB 3).bind fun (o, e) => if e.extractLsb' 3 20 = 0 then some (.waitp o (decodePath (e.extractLsb' 0 3))) else none
  | 0xB0, 0x4 => if v.yi then none else if e.extractLsb' 7 16 = 0 then some (.bara o (e.extractLsb' 0 6) (e.getLsbD 6)) else none
  | 0xB0, 0x5 => if v.yi then none else if e.extractLsb' 6 17 = 0 then some (.barw o (e.extractLsb' 0 6)) else none
  | 0xB0, 0x6 => if v.yi then none else if e.extractLsb' 6 17 = 0 then some (.bart o (e.extractLsb' 0 6)) else none
  | 0xB0, 0x7 => (v.extB 6).bind fun (o, e) => if e.extractLsb' 6 17 = 0 then some (.barx o (e.extractLsb' 0 6)) else none
  | 0xB0, 0x8 => if v.yi then none else some (.spawn o e)
  | 0xC0, 0x0 => if v.yi then none else if e.extractLsb' 9 14 = 0 then some (.qmma o (e.extractLsb' 0 9)) else none
  | 0xE0, 0x0 => p .trapl
  | _, _ => none

/-- The view of a word's fields, where its guard and sources decode. -/
def laneView (r : LaneWord) : Option LaneView :=
  let cf := if r.yi then 0 else r.y.extractLsb' 23 9
  match decodeGuard r.g, decodeSrc r.ska r.a, (if r.yi then (if r.skb = 0 then some (.imm r.y) else none) else decodeSrc r.skb r.b),
        (if r.yi then (if r.skc = 0 then some (.reg 0) else none) else decodeSrc r.skc cf) with
  | some g, some a, some b, some c =>
      if r.rsv = 0 then
        some { o := { g := g, rm := decodeRMode r.rm, sat := r.sat, fmtsel := r.fmtsel, d := r.d, a := a, b := b, c := c,
                      fea := r.fe.getLsbD 2, feb := r.fe.getLsbD 1, fec := r.fe.getLsbD 0, sga := r.sg.getLsbD 1, sgb := r.sg.getLsbD 0,
                      hint := r.hint },
               yi := r.yi, bf := r.b, cf := cf, ext := if r.yi then 0 else r.y.extractLsb' 0 23, y := r.y }
      else none
  | _, _, _, _ => none

/-- The instruction of a lane word, or none where R185 makes it ILLEGAL_INSTRUCTION. -/
def decodeLane (w : U96) : Option Instr :=
  let r := splitLane w
  (laneView r).bind fun v => (decodeOp r.op r.fn v).filter wellFormed

/-! The encoder, from the same tables. -/

/-- Form SR. -/
def encSR (fn : BitVec 7) (d a b : BitVec 6) : U32 := 0x01#7 ++ d ++ a ++ b ++ fn
/-- Form SI. -/
def encSI (op : BitVec 7) (d a : BitVec 6) (imm : BitVec 13) : U32 := op ++ d ++ a ++ imm
/-- Form SU. -/
def encSU (op : BitVec 7) (d : BitVec 6) (imm : BitVec 19) : U32 := op ++ d ++ imm
/-- Form SM. -/
def encSM (op : BitVec 7) (d a b : BitVec 6) (k : Kind) (sc : Scope) : U32 := op ++ d ++ a ++ b ++ encodeKind k ++ encodeScope sc
/-- Form SE. -/
def encSE (fn : BitVec 7) (a b c : BitVec 6) : U32 := 0x3E#7 ++ a ++ b ++ c ++ fn

/-- The word of a scalar instruction; the first word of SLI. None for anything else. -/
def encodeScalar : Instr → Option U32
  | .sadd d a b => some (encSR 0x00 d a b) | .ssub d a b => some (encSR 0x01 d a b) | .smul d a b => some (encSR 0x02 d a b)
  | .smulh d a b => some (encSR 0x03 d a b) | .smulhU d a b => some (encSR 0x43 d a b) | .sdiv d a b => some (encSR 0x04 d a b)
  | .sdivU d a b => some (encSR 0x44 d a b) | .srem d a b => some (encSR 0x05 d a b) | .sremU d a b => some (encSR 0x45 d a b)
  | .sand d a b => some (encSR 0x06 d a b) | .sor d a b => some (encSR 0x07 d a b) | .sxor d a b => some (encSR 0x08 d a b)
  | .sshl d a b => some (encSR 0x09 d a b) | .sshr d a b => some (encSR 0x0A d a b) | .ssra d a b => some (encSR 0x0B d a b)
  | .smin d a b => some (encSR 0x0C d a b) | .sminU d a b => some (encSR 0x4C d a b) | .smax d a b => some (encSR 0x0D d a b)
  | .smaxU d a b => some (encSR 0x4D d a b) | .spopc d a => some (encSR 0x0E d a 0) | .sclz d a => some (encSR 0x0F d a 0)
  | .scmp cc q a b => some (encSR 0x10 (encodeCmp cc ++ q) a b)
  | .ssel q d a b => some (encSR (0x3#4 ++ q) d a b)
  | .saddi d a i => some (encSI 0x02 d a i) | .sandi d a i => some (encSI 0x03 d a i) | .sori d a i => some (encSI 0x04 d a i)
  | .sxori d a i => some (encSI 0x05 d a i)
  | .sshli d a s => some (encSI 0x06 d a (0#7 ++ s)) | .sshri d a s => some (encSI 0x07 d a (0#7 ++ s)) | .ssrai d a s => some (encSI 0x08 d a (0#7 ++ s))
  | .slui d i => some (encSU 0x09 d i) | .sli d hi _ => some (encSU 0x0A d hi)
  | .sjmp off => some (encSU 0x0B 0 off) | .scall d off => some (encSU 0x0C d off)
  | .sjmpr d a i => some (encSI 0x0D d a i) | .sret a => some (encSI 0x0E 0 a 0)
  | .sbr neg q off => some (0x0F#7 ++ bit neg ++ q ++ off)
  | .sld sz d a b k sc => some (encSM (0x04#5 ++ sz) d a b k sc) | .sst sz d a b k sc => some (encSM (0x05#5 ++ sz) d a b k sc)
  | .slds sz d a i => some (encSI (0x06#5 ++ sz) d a i) | .ssts sz d a i => some (encSI (0x07#5 ++ sz) d a i)
  | .swaitcmp dbl cc d a b k sc => some (encSM (0x2#3 ++ bit dbl ++ encodeCmp cc) d a b k sc)
  | .satom ty op d a b k sc => some (encSM (1#1 ++ encodeAtomType ty ++ encodeAtomOp op) d a b k sc)
  | .ldisp a b c => some (encSE 0x00 a b c) | .lwaitg a => some (encSE 0x01 a 0 0) | .setfmt a => some (encSE 0x02 a 0 0)
  | .swaitp p b => some (encSE 0x03 (0#3 ++ encodePath p) b 0)
  | .sbari a b => some (encSE 0x04 a b 0) | .sbara a b => some (encSE 0x05 a b 0) | .sbarw a b => some (encSE 0x06 a b 0) | .sbarx a b => some (encSE 0x07 a b 0)
  | .sfence sc => some (encSE 0x08 (0#2 ++ encodeScope sc) 0 0)
  | .scfence x y => some (encSE 0x09 (0#3 ++ encodePClass x) (0#3 ++ encodePClass y) 0)
  | .yield => some (encSE 0x0A 0 0 0) | .idem => some (encSE 0x0B 0 0 0) | .ideme => some (encSE 0x0C 0 0 0)
  | .chkpt a => some (encSE 0x0D a 0 0) | .exit a => some (encSE 0x0E a 0 0) | .stime d => some (encSE 0x0F d 0 0) | .srand d => some (encSE 0x10 d 0 0)
  | .syrd d n => some (encSE 0x11 d (n.extractLsb' 6 6) (n.extractLsb' 0 6)) | .sywr n a => some (encSE 0x12 a (n.extractLsb' 6 6) (n.extractLsb' 0 6))
  | .strap a => some (encSE 0x13 a 0 0)
  | .tretRetry => some (encSE 0x14 0 0 0) | .tretSkip => some (encSE 0x14 0 1 0) | .tretKillg => some (encSE 0x14 0 2 0) | .tretKillt => some (encSE 0x14 0 3 0)
  | .brkpt => some (encSE 0x15 0 0 0) | .snop => some (encSE 0x16 0 0 0)
  | .cpy d b => some (encSE 0x20 d b 0) | .cpym d b c => some (encSE 0x21 d b c) | .layld d b => some (encSE 0x22 d b 0) | .layinv b => some (encSE 0x23 0 b 0)
  | .tmma a b c => some (encSE 0x24 a b c) | .tmmag a b c => some (encSE 0x25 a b c)
  | .taccZero b => some (encSE 0x26 0 b 0) | .taccScale b => some (encSE 0x26 0 b 1) | .taccAdd b => some (encSE 0x26 0 b 2)
  | .taccIadd b => some (encSE 0x26 0 b 3) | .taccMove b => some (encSE 0x26 0 b 4) | .taccStat d => some (encSE 0x26 d 0 5)
  | .tepi a b => some (encSE 0x27 a b 0) | .qpost d b c => some (encSE 0x28 d b c) | .launch b c => some (encSE 0x29 0 b c)
  | .fred b => some (encSE 0x2A 0 b 0) | .fmc b => some (encSE 0x2B 0 b 0) | .recmark a => some (encSE 0x2C a 0 0) | .haltd a => some (encSE 0x2D a 0 0)
  | _ => none

/-- What an encoding of a lane instruction holds beside its operands: OP, FN, EXT, a number in the B and C fields, a
number in the C field, and the B field of the imm32 form (R183). -/
structure LaneCode where
  op : BitVec 8
  fn : BitVec 4
  ext : BitVec 23 := 0
  bc : Option (BitVec 18) := none
  cf : Option (BitVec 9) := none
  yb : BitVec 9 := 0

def carryBits (x : CarryExt) : BitVec 7 := x.ci ++ bit x.cie ++ x.co
def fcmpBits (cc : FCmp) (acc : Acc) : BitVec 6 := encodeAcc acc ++ encodeFCmp cc

/-- The code of each lane instruction (R184). -/
def laneCode : Instr → Option LaneCode
  | .nopl _ => some { op := 0x00, fn := 0x0 }
  | .bra _ t r => some { op := 0x00, fn := 0x1, ext := t, bc := some r }
  | .braJoin _ t => some { op := 0x00, fn := 0x1, ext := t, bc := some 0 }
  | .brx _ r => some { op := 0x00, fn := 0x2, bc := some r }
  | .call _ t => some { op := 0x00, fn := 0x3, ext := t }
  | .ret _ => some { op := 0x00, fn := 0x4 }
  | .endb _ => some { op := 0x00, fn := 0x5 }
  | .exitl _ => some { op := 0x00, fn := 0x6 }
  | .fmtl _ => some { op := 0x00, fn := 0x7 }
  | .yieldl _ => some { op := 0x00, fn := 0x8 }
  | .iadd _ => some { op := 0x10, fn := 0x0 }
  | .isub _ => some { op := 0x10, fn := 0x1 }
  | .imul _ => some { op := 0x10, fn := 0x2 }
  | .imulh _ => some { op := 0x10, fn := 0x3 }
  | .imad _ => some { op := 0x10, fn := 0x4 }
  | .imadWide _ => some { op := 0x10, fn := 0x4, ext := 1 }
  | .idiv _ => some { op := 0x10, fn := 0x5 }
  | .irem _ => some { op := 0x10, fn := 0x6 }
  | .imin _ => some { op := 0x10, fn := 0x7 }
  | .imax _ => some { op := 0x10, fn := 0x8 }
  | .iabs _ => some { op := 0x10, fn := 0x9 }
  | .ineg _ => some { op := 0x10, fn := 0xA }
  | .iadds _ x => some { op := 0x10, fn := 0xB, ext := (carryBits x).setWidth 23, yb := (carryBits x).setWidth 9 }
  | .isubs _ x => some { op := 0x10, fn := 0xC, ext := (carryBits x).setWidth 23, yb := (carryBits x).setWidth 9 }
  | .icmp _ cc acc => some { op := 0x11, fn := 0x0, ext := (encodeAcc acc ++ encodeICmp cc).setWidth 23 }
  | .pbool _ tt => some { op := 0x11, fn := 0x1, ext := tt.setWidth 23 }
  | .pick _ => some { op := 0x11, fn := 0x2 }
  | .mov _ => some { op := 0x11, fn := 0x3 }
  | .movD _ => some { op := 0x11, fn := 0x3, ext := 1 }
  | .movi _ => some { op := 0x11, fn := 0x4 }
  | .padd2 _ => some { op := 0x20, fn := 0x0 }
  | .psub2 _ => some { op := 0x20, fn := 0x1 }
  | .pmac2 _ => some { op := 0x20, fn := 0x2 }
  | .dot4 _ => some { op := 0x20, fn := 0x3 }
  | .dot8 _ => some { op := 0x20, fn := 0x4 }
  | .land _ => some { op := 0x30, fn := 0x0 }
  | .lor _ => some { op := 0x30, fn := 0x1 }
  | .lxor _ => some { op := 0x30, fn := 0x2 }
  | .lnot _ => some { op := 0x30, fn := 0x3 }
  | .blut _ tt => some { op := 0x30, fn := 0x4, ext := tt.setWidth 23 }
  | .shl _ => some { op := 0x30, fn := 0x5 }
  | .shr _ => some { op := 0x30, fn := 0x6 }
  | .sra _ => some { op := 0x30, fn := 0x7 }
  | .rotl _ => some { op := 0x30, fn := 0x8 }
  | .shfd _ => some { op := 0x30, fn := 0x9 }
  | .popc _ => some { op := 0x30, fn := 0xA }
  | .clz _ => some { op := 0x30, fn := 0xB }
  | .ctz _ => some { op := 0x30, fn := 0xC }
  | .brev _ => some { op := 0x30, fn := 0xD }
  | .bfe _ => some { op := 0x30, fn := 0xE }
  | .bfi _ => some { op := 0x30, fn := 0xF }
  | .rshr _ s => some { op := 0x31, fn := 0x0, ext := (encodeRshr s).setWidth 23, yb := (encodeRshr s).setWidth 9 }
  | .rand _ n r => some { op := 0xD0, fn := 0x0, ext := (0#1 ++ encodeRand n ++ r).setWidth 23 }
  | .randCtr _ n r => some { op := 0xD0, fn := 0x0, ext := (1#1 ++ encodeRand n ++ r).setWidth 23 }
  | .xlane _ m s => some { op := 0x70, fn := 0x0, ext := (s ++ encodeXMode m).setWidth 23 }
  | .slide _ x => some { op := 0x70, fn := 0x1, ext := (bit x.edge ++ encodeSlideSize x.size ++ bit x.up ++ x.n).setWidth 23 }
  | .pgath _ m neg => some { op := 0x70, fn := 0x2, ext := (bit neg ++ encodePMode m).setWidth 23 }
  | .redux _ op => some { op := 0x70, fn := 0x3, ext := (encodeRedOp op).setWidth 23 }
  | .scan _ op ex => some { op := 0x70, fn := 0x4, ext := (bit ex ++ encodeRedOp op).setWidth 23 }
  | .vmatch _ all dbl => some { op := 0x70, fn := 0x5, ext := (bit dbl ++ bit all).setWidth 23 }
  | .fadd _ => some { op := 0x40, fn := 0x0 }
  | .fsub _ => some { op := 0x40, fn := 0x1 }
  | .fmul _ => some { op := 0x40, fn := 0x2 }
  | .ffma _ => some { op := 0x40, fn := 0x3 }
  | .fmin _ => some { op := 0x40, fn := 0x4 }
  | .fmax _ => some { op := 0x40, fn := 0x5 }
  | .fcmp _ cc acc => some { op := 0x40, fn := 0x6, ext := (fcmpBits cc acc).setWidth 23, yb := (fcmpBits cc acc).setWidth 9 }
  | .fclass _ set => some { op := 0x40, fn := 0x7, ext := set.setWidth 23 }
  | .frnd _ => some { op := 0x40, fn := 0x8 }
  | .frcp _ => some { op := 0x41, fn := 0x0 }
  | .frsq _ => some { op := 0x41, fn := 0x1 }
  | .fsqrt _ => some { op := 0x41, fn := 0x2 }
  | .fdiv _ => some { op := 0x41, fn := 0x3 }
  | .fexp2 _ => some { op := 0x41, fn := 0x4 }
  | .flog2 _ => some { op := 0x41, fn := 0x5 }
  | .fsin _ => some { op := 0x41, fn := 0x6 }
  | .fcos _ => some { op := 0x41, fn := 0x7 }
  | .hadd2 _ bf => some { op := 0x50, fn := 0x0, ext := (bit bf).setWidth 23, yb := (bit bf).setWidth 9 }
  | .hsub2 _ bf => some { op := 0x50, fn := 0x1, ext := (bit bf).setWidth 23, yb := (bit bf).setWidth 9 }
  | .hmul2 _ bf => some { op := 0x50, fn := 0x2, ext := (bit bf).setWidth 23, yb := (bit bf).setWidth 9 }
  | .hfma2 _ bf => some { op := 0x50, fn := 0x3, ext := (bit bf).setWidth 23 }
  | .hmin2 _ bf => some { op := 0x50, fn := 0x4, ext := (bit bf).setWidth 23, yb := (bit bf).setWidth 9 }
  | .hmax2 _ bf => some { op := 0x50, fn := 0x5, ext := (bit bf).setWidth 23, yb := (bit bf).setWidth 9 }
  | .dadd _ => some { op := 0x51, fn := 0x0 }
  | .dmul _ => some { op := 0x51, fn := 0x1 }
  | .dfma _ => some { op := 0x51, fn := 0x2 }
  | .dcmp _ cc acc => some { op := 0x51, fn := 0x3, ext := (fcmpBits cc acc).setWidth 23 }
  | .cvt _ x => some { op := 0x60, fn := 0x0, ext := encodeCvtExt x }
  | .packn _ x => some { op := 0x60, fn := 0x1, ext := encodePackExt x }
  | .unpackn _ x => some { op := 0x60, fn := 0x2, ext := (encodeBsm x.bsm ++ fmtCode x.sf).setWidth 23 }
  | .qscalePick _ b f => some { op := 0x60, fn := 0x3, ext := (encodeBsm b ++ fmtCode f ++ 0#2).setWidth 23 }
  | .qscaleVal _ b => some { op := 0x60, fn := 0x3, ext := (encodeBsm b ++ 0#4 ++ 1#2).setWidth 23 }
  | .qscaleRcp _ b => some { op := 0x60, fn := 0x3, ext := (encodeBsm b ++ 0#4 ++ 2#2).setWidth 23 }
  | .rsmerge _ n => some { op := 0x60, fn := 0x4, ext := n.setWidth 23 }
  | .clrflg _ m => some { op := 0x60, fn := 0x5, ext := m.setWidth 23 }
  | .rdflg _ => some { op := 0x60, fn := 0x6 }
  | .ldg _ x => some { op := 0x80, fn := 0x0, ext := encodeMemExt x, bc := some x.imm }
  | .stg _ x => some { op := 0x80, fn := 0x1, ext := encodeMemExt x, bc := some x.imm }
  | .pref _ l2 x => some { op := 0x80, fn := 0x2, ext := encodeRangeExt (if l2 then 1 else 0) x, bc := some x.imm }
  | .invd _ x => some { op := 0x80, fn := 0x3, ext := encodeRangeExt 0 x, bc := some x.imm }
  | .wbk _ x => some { op := 0x80, fn := 0x4, ext := encodeRangeExt 0 x, bc := some x.imm }
  | .lds _ x => some { op := 0x90, fn := 0x0, ext := encodeMemExt x, bc := some x.imm }
  | .sts _ x => some { op := 0x90, fn := 0x1, ext := encodeMemExt x, bc := some x.imm }
  | .ldsub _ x => some { op := 0x90, fn := 0x2, ext := encodeSubExt x }
  | .stsub _ x => some { op := 0x90, fn := 0x3, ext := encodeSubExt x }
  | .lda _ x => some { op := 0x90, fn := 0x4, ext := encodeMemExt x, bc := some x.imm }
  | .sta _ x => some { op := 0x90, fn := 0x5, ext := encodeMemExt x, bc := some x.imm }
  | .atom _ op x => some { op := 0xA0, fn := 0x0, ext := encodeAtomExt (encodeAtomOp op) x }
  | .atomcas _ pf x => some { op := 0xA0, fn := 0x1, ext := encodeAtomExt (pf ++ 0#1) x }
  | .red _ op x => some { op := 0xA0, fn := 0x2, ext := encodeAtomExt (encodeAtomOp op) x }
  | .redRsm _ n x => some { op := 0xA0, fn := 0x2, ext := encodeAtomExt 12 x, cf := some (0#2 ++ n) }
  | .waitcmp _ x => some { op := 0xB0, fn := 0x0, ext := encodeWaitExt x }
  | .fence _ sc => some { op := 0xB0, fn := 0x1, ext := (encodeScope sc).setWidth 23 }
  | .cfence _ x y => some { op := 0xB0, fn := 0x2, ext := (encodePClass y ++ encodePClass x).setWidth 23 }
  | .waitp _ p => some { op := 0xB0, fn := 0x3, ext := (encodePath p).setWidth 23, yb := (encodePath p).setWidth 9 }
  | .bara _ n ln => some { op := 0xB0, fn := 0x4, ext := (bit ln ++ n).setWidth 23 }
  | .barw _ n => some { op := 0xB0, fn := 0x5, ext := n.setWidth 23 }
  | .bart _ n => some { op := 0xB0, fn := 0x6, ext := n.setWidth 23 }
  | .barx _ n => some { op := 0xB0, fn := 0x7, ext := n.setWidth 23, yb := n.setWidth 9 }
  | .spawn _ t => some { op := 0xB0, fn := 0x8, ext := t }
  | .qmma _ vs => some { op := 0xC0, fn := 0x0, ext := vs.setWidth 23 }
  | .trapl _ => some { op := 0xE0, fn := 0x0 }
  | _ => none

/-- The fields of the word of operands `o` under a code. -/
def laneWordOf (o : LaneOps) (k : LaneCode) (stsub : Bool) : LaneWord :=
  let sa := encodeSrc o.a
  let sb := encodeSrc o.b
  let sc := encodeSrc o.c
  let fe := bit o.fea ++ bit o.feb ++ bit o.fec
  let base : LaneWord :=
    { op := k.op, fn := k.fn, g := encodeGuard o.g, rm := encodeRMode o.rm, sat := o.sat, fmtsel := o.fmtsel, d := o.d,
      a := sa.2, b := sb.2, ska := sa.1, skb := sb.1, skc := sc.1, fe := fe, sg := bit o.sga ++ bit o.sgb, hint := o.hint, rsv := 0,
      yi := false, y := sc.2 ++ k.ext }
  match o.b with
  | .imm w =>
      if stsub then { base with b := 0, yi := true, y := 0#1 ++ k.ext ++ w.extractLsb' 0 8 }
      else { base with b := k.yb, yi := true, y := w }
  | _ =>
      match k.bc, k.cf with
      | some n, _ => { base with b := n.extractLsb' 9 9, y := n.extractLsb' 0 9 ++ k.ext }
      | none, some n => { base with y := n ++ k.ext }
      | none, none => base

/-- The word of a lane instruction. -/
def encodeLane (i : Instr) : Option U96 :=
  match laneCode i, laneOps i with
  | some k, some o => some (joinLane (laneWordOf o k (match i with | .stsub .. => true | _ => false)))
  | _, _ => none

/-- The word of an instruction and its width in bits; SLI's second word stands above the first. -/
def encode (i : Instr) : Option (Nat × Nat) :=
  match encodeScalar i with
  | some w =>
      match i with
      | .sli _ _ lo => some (64, lo.toNat * 2 ^ 32 + w.toNat)
      | _ => some (32, w.toNat)
  | none => (encodeLane i).map fun w => (96, w.toNat)

/-- Little-endian bytes of a number (R5). -/
def bytesOf (n : Nat) : Nat → List Byte
  | 0 => []
  | k + 1 => BitVec.ofNat 8 n :: bytesOf (n / 256) k

/-- The number of little-endian bytes. -/
def ofBytes : List Byte → Nat
  | [] => 0
  | b :: r => b.toNat + 256 * ofBytes r

/-- The scalar instruction at the head of a list of bytes, with the bytes after it. -/
def decodeScalarBytes (bs : List Byte) : Option (Instr × List Byte) :=
  if bs.length < 4 then none else
    match decodeScalar (BitVec.ofNat 32 (ofBytes (bs.take 4))) (BitVec.ofNat 32 (ofBytes ((bs.drop 4).take 4))) with
    | some (.sli d hi lo) => if bs.length < 8 then none else some (.sli d hi lo, bs.drop 8)
    | some i => some (i, bs.drop 4)
    | none => none

/-- The lane instruction at the head of a list of bytes, with the bytes after it. -/
def decodeLaneBytes (bs : List Byte) : Option (Instr × List Byte) :=
  if bs.length < 12 then none else (decodeLane (BitVec.ofNat 96 (ofBytes (bs.take 12)))).map fun i => (i, bs.drop 12)

/-- The instruction of a word numbered as the opcode table numbers it: up to 64 bits a scalar word with the word after
it, more a lane word. Bits above `nbits` are zero. -/
def decodeTableWord (nbits w : Nat) : Option Instr :=
  if nbits ≤ 64 then (decodeScalarBytes (bytesOf (w % 2 ^ nbits) 8)).map (·.1)
  else (decodeLaneBytes (bytesOf (w % 2 ^ nbits) 12)).map (·.1)

end Sys2Proof
end

