-- ==== Sys2Proof/Config.lean ====
section
/-!
DEFINITION. Config.lean: the free values. Each is a constant without a body, applied to plain data: nothing in Lean can
evaluate it, so what is proved holds whatever the hardware gives. The sizes of R13 to R24 stand beside them.
-/
namespace Sys2Proof.Config

/-- A value the spec leaves open: the k-th such value of a run (R65, R126, R138, R142, R145, R161, R162). -/
opaque freeWord : Nat → U64
/-- A choice between two contents the spec allows: the k-th of a run (R122, R126, R143, R145, R162). -/
opaque freeBit : Nat → Bool
/-- Whether register n of lane l, when the group with key k starts, still holds the value an earlier group left there; otherwise it is
zero (R166). -/
opaque laneKept : Nat → Nat → Nat → Bool
/-- Whether a read of a byte or word that a write of another path class has not reached returns the new content; the key names the reader's
launch, team, member and count, and the place, so that a replay reads the same (R160, R161, R165). -/
opaque staleRead : List Nat → Bool
/-- The unit of the unified array that holds a line in an L1 of so many units, less their number (R24, R135). -/
opaque l1Unit : Nat → Nat → Nat
/-- Which of the lines that a full L1 or RDC holds leaves for a new one: the cache's number and the new line (R24). -/
opaque victim : Nat → Nat → Nat
/-- The routers that a request passes on the mesh between two points, the k-th time, and the input port on which a point receives what
another sends, of four besides its cluster's: the spec does not lay the mesh out (R338, R340). -/
opaque meshPath : Nat → Nat → Nat → List Nat
opaque meshPort : Nat → Nat → Nat
/-- Nanoseconds that an S144 switch holds a combining entry, where they are no more than 64 (R338). -/
opaque switchWindow : Nat
/-- Units of power leave that firmware gives the governor of a die (R333, R411). -/
opaque leaveBudget : Nat → Nat
/-- The vendor key fused in the ROM, a point of the curve, and the firmware image of a device as it leaves the factory (R409). -/
opaque vendorKey : Nat × Nat
opaque firmware : List Byte
/-- How an image divides into its stages, and a stage into what is signed and the two numbers of its signature: the spec gives no format (R409). -/
opaque stages : List Byte → List (List Byte)
opaque signed : List Byte → List Byte × Nat × Nat
/-- The bytes of the attestation responder's answer to a message in a given connection state, and whether a request for algorithms offers ECDSA
brainpoolP384r1 with SHA-384 (R410). -/
opaque spdmAnswer : List Byte → List (List Byte) → Nat → List Byte
opaque spdmOffers : List Byte → Bool
/-- The partition to which the physical function has bound a virtual function, the k-th time it is asked; R406 gives no command that does (R404). -/
opaque vfPart : Nat → Nat → Option (Fin 16)

/-- Cores of the package (R18). -/
def cores : Nat := 304
/-- Cycles of the longest wait for power leave (R315). -/
def leaveBound : Nat := 6600
/-- Cycles without progress before the trap (R86). -/
def noProgress : Nat := 2 ^ 24
/-- Lease length in lease-clock ticks (R132). -/
def leaseTicks : Nat := 1024
/-- Cycles a journal entry is kept (R344). -/
def journalCycles : Nat := 65536
/-- Translations a core's TLB holds (R20, R145). -/
def tlbEntries : Nat := 2048
/-- Lines of the lane instruction buffer, and lines of 128 bytes in the scalar instruction cache (R20, R121). -/
def laneLines : Nat := 1024
def scalarLines : Nat := 256
/-- Lines in one unit of the L1, and in the RDC of a die (R24). -/
def unitLines : Nat := 1024
def rdcLines : Nat := 262144
/-- Cycles of the multicast window (R367) and of the copy drain of a halt (R370). -/
def window20us : Nat := 66000

end Sys2Proof.Config
end

