-- ==== Sys2Proof/Machine/Digest.lean ====
section
/-!
DEFINITION. Machine/Digest.lean: SHA-384 and the ECDSA check on brainpoolP384r1 (R409, R410), and the verification of a boot image's stages.
The algorithms and the numbers of the curve are those of the standards that R409 names (FIPS 180-4, FIPS 186-4, RFC 5639); PRESUMED (log entry 25),
since spec/ names them and prints none.
-/
namespace Sys2Proof.Machine

/-! SHA-384. -/

/-- The largest number whose k-th power is at most n, among those below r + 2 ^ bits from r on. -/
def rootFrom (k n : Nat) : Nat → Nat → Nat
  | 0, r => r
  | bits + 1, r => rootFrom k n bits (if (r + 2 ^ bits) ^ k ≤ n then r + 2 ^ bits else r)

/-- The first 64 bits of the fraction of the k-th root of a number. -/
def rootFraction (k n : Nat) : U64 := BitVec.ofNat 64 (rootFrom k (n * 2 ^ (64 * k)) 72 0)

/-- The first 80 primes. -/
def shaPrimes : List Nat := (List.range 410).filter fun p => decide (2 ≤ p) && (List.range p).all fun d => decide (d < 2) || p % d != 0

def shaK : List U64 := shaPrimes.map (rootFraction 3)
def shaInit : List U64 := ((shaPrimes.drop 8).take 8).map (rootFraction 2)

def shaRot (x : U64) (n : Nat) : U64 := x.rotateRight n

/-- The next word of a message schedule whose words so far, the latest first, are given. -/
def shaNext (w : List U64) : U64 :=
  let a := w.getD 1 0
  let b := w.getD 14 0
  (shaRot a 19 ^^^ shaRot a 61 ^^^ a >>> 6) + w.getD 6 0 + (shaRot b 1 ^^^ shaRot b 8 ^^^ b >>> 7) + w.getD 15 0

/-- A message schedule, the latest word first. -/
def shaSchedule : Nat → List U64 → List U64
  | 0, w => w
  | n + 1, w => shaSchedule n (shaNext w :: w)

/-- One round on the eight working words a to h. -/
def shaRound (v : List U64) (kw : U64 × U64) : List U64 :=
  match v with
  | [a, b, c, d, e, f, g, h] =>
      let t1 := h + (shaRot e 14 ^^^ shaRot e 18 ^^^ shaRot e 41) + ((e &&& f) ^^^ (~~~e &&& g)) + kw.1 + kw.2
      let t2 := (shaRot a 28 ^^^ shaRot a 34 ^^^ shaRot a 39) + ((a &&& b) ^^^ (a &&& c) ^^^ (b &&& c))
      [t1 + t2, a, b, c, d + t1, e, f, g]
  | v => v

/-- A number of 64 bits from its bytes, the highest first. -/
def bigEndian (bs : List Byte) : Nat := bs.foldl (fun n b => n * 256 + b.toNat) 0

/-- The digest after a block of 128 bytes. -/
def shaBlock (h : List U64) (block : List Byte) : List U64 :=
  let m := (List.range 16).map fun i => BitVec.ofNat 64 (bigEndian ((block.drop (8 * i)).take 8))
  let w := (shaSchedule 64 m.reverse).reverse
  List.zipWith (· + ·) h ((shaK.zip w).foldl shaRound h)

def shaBlocks : Nat → List U64 → List Byte → List U64
  | 0, h, _ => h
  | n + 1, h, bs => shaBlocks n (shaBlock h (bs.take 128)) (bs.drop 128)

/-- Bytes of a number, the highest first. -/
def bytesHigh (n v : Nat) : List Byte := (List.range n).map fun i => BitVec.ofNat 8 (v / 256 ^ (n - 1 - i))

/-- SHA-384 of some bytes. -/
def sha384 (bs : List Byte) : List Byte :=
  let pad := (111 + 128 - bs.length % 128) % 128
  let m := bs ++ [0x80] ++ List.replicate pad 0 ++ bytesHigh 16 (8 * bs.length)
  ((shaBlocks (m.length / 128) shaInit m).take 6).flatMap fun x => bytesHigh 8 x.toNat

/-! ECDSA on brainpoolP384r1. -/

def curveP : Nat := 0x8CB91E82A3386D280F5D6F7E50E641DF152F7109ED5456B412B1DA197FB71123ACD3A729901D1A71874700133107EC53
def curveA : Nat := 0x7BC382C63D8C150C3C72080ACE05AFA0C2BEA28E4FB22787139165EFBA91F90F8AA5814A503AD4EB04A8C7DD22CE2826
def curveB : Nat := 0x04A8C7DD22CE28268B39B55416F0447C2FB77DE107DCD2A62E880EA53EEB62D57CB4390295DBC9943AB78696FA504C11
def curveG : Nat × Nat := (0x1D1C64F068CF45FFA2A63A81B7C13F6B8847A3E77EF14FE3DB7FCAFE0CBD10E8E826E03436D646AAEF87B2E247D4AF1E, 0x8ABE1D7520F9C2A45CB1EB8E95CFD55262B70B29FEEC5864E19C054FF99129280E4646217791811142820341263C5315)
/-- The order of the curve's group. -/
def curveN : Nat := 0x8CB91E82A3386D280F5D6F7E50E641DF152F7109ED5456B31F166E6CAC0425A7CF3AB6AF6B7FC3103B883202E9046565

/-- Powers modulo m, by squaring. -/
def powMod (m : Nat) : Nat → Nat → Nat → Nat
  | 0, _, _ => 1 % m
  | fuel + 1, b, e =>
      let r := powMod m fuel (b * b % m) (e / 2)
      if e % 2 = 1 then r * b % m else r

/-- The inverse modulo a prime of 384 bits. -/
def invMod (m x : Nat) : Nat := powMod m 384 (x % m) (m - 2)

/-- A point of the curve; none is the point at infinity. -/
abbrev CurvePoint := Option (Nat × Nat)

def curveAdd : CurvePoint → CurvePoint → CurvePoint
  | none, q => q
  | p, none => p
  | some (x, y), some (u, v) =>
      let third (l : Nat) : CurvePoint :=
        let x' := (l * l + 2 * curveP - x - u) % curveP
        some (x', (l * (x + curveP - x') + curveP - y) % curveP)
      if x = u then
        if (y + v) % curveP = 0 then none else third ((3 * x * x + curveA) * invMod curveP (2 * y) % curveP)
      else third ((v + curveP - y) * invMod curveP (u + curveP - x) % curveP)

/-- A multiple of a point. -/
def curveMul : Nat → Nat → CurvePoint → CurvePoint
  | 0, _, _ => none
  | fuel + 1, n, p =>
      let r := curveMul fuel (n / 2) (curveAdd p p)
      if n % 2 = 1 then curveAdd r p else r

/-- A point lies on the curve. -/
def onCurve (p : Nat × Nat) : Bool :=
  decide (p.1 < curveP ∧ p.2 < curveP) && p.2 * p.2 % curveP == (p.1 * p.1 * p.1 + curveA * p.1 + curveB) % curveP

/-- Whether (r, s) is a signature by a key of the bytes, over their SHA-384 digest. -/
def ecdsaVerifies (key : Nat × Nat) (bs : List Byte) (r s : Nat) : Bool :=
  let w := invMod curveN s
  let z := bigEndian (sha384 bs)
  onCurve key && decide (0 < r ∧ r < curveN ∧ 0 < s ∧ s < curveN)
    && match curveAdd (curveMul 384 (z * w % curveN) (some curveG)) (curveMul 384 (r * w % curveN) (some key)) with
      | some p => p.1 % curveN == r
      | none => false

/-! Boot (R409). -/

/-- A firmware stage's signature verifies against the vendor key. -/
def stageVerifies (stage : List Byte) : Bool :=
  let x := Config.signed stage
  ecdsaVerifies Config.vendorKey x.1 x.2.1 x.2.2

/-- The stages of an image, each verified before it runs: the digests recorded, up to the first that fails, and whether all verify. An image without
a stage does not. -/
def bootStages (stages : List (List Byte)) : List (List Byte) × Bool :=
  let good := stages.takeWhile stageVerifies
  ((stages.take (good.length + 1)).map sha384, good.length == stages.length && !stages.isEmpty)

end Sys2Proof.Machine
end

