-- ==== Sys2Proof/Machine/Sparse.lean ====
section
/-!
DEFINITION. Machine/Sparse.lean: finite maps as sorted association lists, the one shape in which State holds
memory and every numbered collection. Keys rise strictly; a key that is absent reads as the map's default.
-/
namespace Sys2Proof.Machine

/-- A finite map from numbers, kept with strictly rising keys. -/
abbrev Sparse (α : Type) := List (Nat × α)

variable {α : Type}

/-- The entry at key `k`, if it is listed. -/
def sparseFind (k : Nat) : Sparse α → Option α
  | [] => none
  | (j, v) :: m => if j = k then some v else sparseFind k m

/-- The entry at key `k`, or `d` where it is not listed. -/
def sparseGet (d : α) (m : Sparse α) (k : Nat) : α := (sparseFind k m).getD d

/-- The map without key `k`. -/
def sparseErase (k : Nat) : Sparse α → Sparse α
  | [] => []
  | (j, v) :: m => if j = k then sparseErase k m else (j, v) :: sparseErase k m

/-- Puts a key that is not listed into its place. -/
def sparseInsert (k : Nat) (v : α) : Sparse α → Sparse α
  | [] => [(k, v)]
  | (j, w) :: m => if k < j then (k, v) :: (j, w) :: m else (j, w) :: sparseInsert k v m

/-- The map with `v` at key `k`. -/
def sparsePut (k : Nat) (v : α) (m : Sparse α) : Sparse α := sparseInsert k v (sparseErase k m)

/-- The map with `v` at key `k`, listed only where it differs from the default `d`. -/
def sparseSet [DecidableEq α] (d : α) (k : Nat) (v : α) (m : Sparse α) : Sparse α :=
  if v = d then sparseErase k m else sparsePut k v m

/-- The map with the entry at `k`, if listed, changed by `f`. -/
def sparseMod (k : Nat) (f : α → α) (m : Sparse α) : Sparse α :=
  match sparseFind k m with
  | none => m
  | some v => sparsePut k (f v) m

/-- The smallest key from `i` on that the map does not list, looking at `fuel` keys. -/
def sparseFree (m : Sparse α) (i : Nat) : Nat → Option Nat
  | 0 => none
  | fuel + 1 => if (sparseFind i m).isNone then some i else sparseFree m (i + 1) fuel

/-- Keys rise strictly. -/
def sparseSorted : Sparse α → Bool
  | [] => true
  | [_] => true
  | (j, _) :: (k, w) :: m => decide (j < k) && sparseSorted ((k, w) :: m)

/-- Keys rise strictly, from above `lo` on. -/
def risesFrom : Option Nat → Sparse α → Bool
  | _, [] => true
  | lo, (k, _) :: m => lo.all (fun j => decide (j < k)) && risesFrom (some k) m

/-- The canonical form: keys rise strictly, and no entry equals what an unlisted key reads as. -/
def sparseWf [DecidableEq α] (d : α) (m : Sparse α) : Bool := risesFrom none m && m.all fun x => decide (x.2 ≠ d)

end Sys2Proof.Machine
end

