-- ==== Sys2Proof/Machine/Types.lean ====
section
/-!
DEFINITION. Machine/Types.lean: the units of the machine, each as plain data. The names follow spec/; each docstring
cites the rule that gives the unit.
-/
namespace Sys2Proof.Machine

/-- Trap causes (R351). -/
inductive Cause
  | illegal | regEmpty | addrTranslate | addrPerm | addrBounds | misalign | stackOverflow | nestOverflow
  | atomicLost | spawnLimit | brk | preempt | halt | noProgress | integrity | replayDiverge
  deriving DecidableEq, Repr

/-- A trap taken and not yet returned from (R351, R357, R358). `src`: 0 lane, 1 rider, 2 team. -/
structure Trap where
  cause : Cause
  src : Nat := 0
  group : Nat := 0
  split : Nat := 0
  lane : Nat := 0
  loc : U64 := 0
  addr : U64 := 0
  hidx : Nat := 0
  check : Nat := 0
  /-- the operation that raised it late; 0 for a precise trap -/
  op : Nat := 0
  deriving DecidableEq, Repr

/-- Status codes of engines (R289). -/
inductive EStatus
  | ok | badDesc | bounds | perm | translate | misalign | refused | cancelled | integrity | timeout
  deriving DecidableEq, Repr

/-- A word of FLG or of MSTAT[6:0]: the flags of R42 as bits NX, UF, OF, DZ, NV, SAT, CHK from bit 0. -/
abbrev Flags := BitVec 7

/-- A place in memory after translation. -/
inductive Place
  /-- byte `key` of memory: PEER × 2^52 + the 52-bit physical address (R144) -/
  | mem (key : Nat)
  /-- a scratchpad offset of the team (R127) -/
  | scr (off : Nat)
  /-- an accumulator offset of the team (R129) -/
  | acc (off : Nat)
  deriving DecidableEq, Repr

/-- One lane's (or the rider's) part of an access: `n` bytes at `place`. `data` and `mask` are for stores. -/
structure Part where
  lane : Nat
  place : Place
  n : Nat
  data : U128 := 0
  mask : U128 := 0
  /-- virtual address or offset, for a trap frame -/
  va : Nat := 0
  /-- the page's MODE is CACHED (R396) -/
  cached : Bool := false
  /-- POLICY of the handle (R126) -/
  policy : Nat := 0
  /-- the page's MODE is MIGRATE, with this TCLASS (R397) -/
  migrate : Option Nat := none
  done : Bool := false
  /-- the model's own: what a load read early, where only an order of narrow scope holds it back (R148) -/
  early : Option U128 := none
  /-- this access was redirected once by a FORWARD reply (R399) -/
  forwarded : Bool := false
  /-- its line failed its check value (R360) -/
  bad : Bool := false
  deriving DecidableEq, Repr

/-- How the value of a load is written (R200, R268, R275). -/
inductive LoadDst
  /-- a scalar register, zero-extended -/
  | sreg (d : Nat)
  /-- `n` bytes into lane registers from `d`, sign-extended from a byte or halfword when `sx` -/
  | vreg (d n : Nat) (sx : Bool)
  /-- LDSUB: elements of 4 bits, or of 6 bits in 8-bit slots, after `skip` bits of the part -/
  | sub (d : Nat) (six : Bool)
  deriving DecidableEq, Repr

/-- One operand of an atomic: of one lane of a run (R276, R278, R279). -/
structure AtomOperand where
  lane : Nat
  x : U64 := 0
  e : U64 := 0
  rsm : List U32 := []
  deriving DecidableEq, Repr

/-- A run: the lanes of one instruction that name one word (R337), as a member of a request (R340, R341). -/
structure Member where
  core : Nat
  ctx : Nat
  slot : Nat
  seq : Nat
  srcPeer : Nat := 0
  red : Bool
  operands : List AtomOperand
  /-- agent reference of R378: launch, TEAMID, WHO; lane and retired count of the instruction -/
  launch : Nat
  team : Nat
  who : Nat
  icnt : Nat
  recorded : Bool
  /-- a member of another module: the packet that brought it -/
  pkt : Option Packet := none
  deriving DecidableEq, Repr

/-- Where a request of the atomic service is (R335, R339). -/
inductive ReqStage
  /-- waiting for a credit of its owner -/
  | credit
  /-- on its way: the combining points still ahead -/
  | route (points : List Nat)
  /-- held in a combining entry -/
  | held
  /-- in the owner's queue -/
  | queued
  /-- sent to a peer over the fabric -/
  | sent
  deriving DecidableEq, Repr

/-- A request on its way to the atomic service that owns its word. -/
structure AtomReq where
  op : AtomOp
  ty : AtomType
  peer : Nat
  pa : Nat
  /-- the bytes of the location: (key, length) (R279) -/
  segs : List (Nat × Nat)
  /-- values after m and s in a triple (R279) -/
  rn : Nat := 0
  /-- owner: logical cluster at this module, or 0x400 + peer for a peer's service -/
  svc : Nat
  members : List Member
  stage : ReqStage
  /-- input port of the point ahead -/
  port : Nat := 0
  /-- credits of its owner that it holds: one for each request merged into it (R335) -/
  credits : Nat := 0
  /-- when it left its issuer, with its credit (R335) -/
  left : Nat := 0
  /-- tags of the members whose query has been answered meanwhile (R344) -/
  answered : List Nat := []
  /-- it was redirected once by a FORWARD reply (R399) -/
  forwarded : Bool := false
  deriving DecidableEq, Repr

/-- The share of a reply that one member receives (R342): for an integer ADD the value before the member; otherwise the value before each operand's
step, or none for the members of a combined MIN or MAX. -/
structure Share where
  member : Member
  vals : List U64
  /-- the word's line failed its check value (R360) -/
  bad : Bool := false
  deriving DecidableEq, Repr

/-- A reply on its way back (R342): it waits at the point that holds the record `cid`, or is delivered. -/
structure AtomReply where
  op : AtomOp
  ty : AtomType
  v : Nat
  shares : List Share
  cid : Option Nat
  deriving DecidableEq, Repr

/-- A combining entry of a table (R339). -/
structure CombEntry where
  point : Nat
  port : Nat
  opened : Nat
  req : Nat
  cid : Option Nat := none
  deriving DecidableEq, Repr

/-- A decombining record (R340). -/
structure DecombRec where
  cid : Nat
  tags : List (Nat × Nat × Nat × Nat)
  srcPeers : List Nat
  ports : List Nat
  prefixes : List U64
  lost : Bool := false
  deriving DecidableEq, Repr

/-- An entry of a reply journal (R344). -/
structure JournalEntry where
  svc : Nat
  time : Nat
  share : Share
  op : AtomOp
  ty : AtomType
  v : Nat
  deriving DecidableEq, Repr

/-- A return slot of a core (R337). -/
structure RetSlot where
  seq : Nat
  team : Nat
  op : Nat
  lanes : List Nat
  /-- an integer ADD run: each lane's prefix of the run's operands -/
  prefixes : List U64 := []
  /-- when its request or its last query left, or, while `held`, how long ago that was by then; a request without a credit has not left -/
  sent : Nat
  left : Bool := false
  asked : Bool := false
  /-- the request that it waits for, as it was issued -/
  run : Option AtomReq := none
  peer : Nat
  pa : Nat
  va : Nat
  svc : Nat
  /-- the plane the request waits on is being remapped: the query timer stands still (R394) -/
  held : Bool := false
  deriving DecidableEq, Repr

/-- A condition monitor of an L2 slice (R140), in install order. -/
structure Monitor where
  key : Nat
  n : Nat
  team : Nat
  op : Nat
  deriving DecidableEq, Repr

/-- One lane's wait of a WAITCMP or SWAITCMP. -/
structure WaitPart where
  lane : Nat
  key : Nat
  val : U64
  polls : Bool
  lastPoll : Nat
  got : Option U64 := none
  va : Nat := 0
  /-- the page's MODE is CACHED (R159), and the handle's POLICY (R126) -/
  cached : Bool := false
  policy : Nat := 0
  /-- the TCLASS of a MIGRATE page (R397) -/
  migrate : Option Nat := none
  forwarded : Bool := false
  deriving DecidableEq, Repr

/-- A layout record, read and validated (R319). -/
structure LayoutRec where
  pad : U32
  swsel : Nat
  swz : Nat
  efmt : Fmt
  rank : Nat
  box : List Nat
  str : List Nat
  deriving DecidableEq, Repr

/-- One end of a copy: handle memory through the entry read at issue, or a scratchpad offset. -/
inductive CopyEnd
  | handle (root nh : Nat) (h : Nat) (entry : List U64) (off : Nat)
  | scratch (off : Nat)
  /-- COPY packet: a virtual address of the queue's context -/
  | virt (root : Nat) (va : Nat)
  deriving DecidableEq, Repr

/-- A page of 64 KiB that an operation in flight reaches through a handle, as its table entries gave it at issue (R162): where it lies, or why an
access to it fails. -/
structure PageAt where
  page : Nat
  key : Nat := 0
  mode : Nat := 0
  tclass : Nat := 0
  fault : Option EStatus := none
  /-- an access to it was redirected once by a FORWARD reply (R399) -/
  forwarded : Bool := false
  deriving DecidableEq, Repr

/-- A receiver of a CPYM (R293, R294). -/
structure Receiver where
  bit : Nat
  core : Nat
  team : Nat
  /-- none: not arrived; some (serial of the accepting team, or none when refused) -/
  decided : Option (Option Nat) := none
  landed : List Nat := []
  /-- refused by a save while landing -/
  cut : Bool := false
  deriving DecidableEq, Repr

/-- A copy in flight: everything read at issue, and the units of 128 destination bytes that have landed (R291, R292). -/
structure CopySt where
  slot : Nat
  src : CopyEnd
  dst : CopyEnd
  n : Nat
  xf : Nat
  srcRec : Option LayoutRec := none
  dstRec : Option LayoutRec := none
  ext : List Nat := []
  bar : Option (Nat × Nat) := none
  /-- where the status record goes, with the handle's entry as read at issue (R162) -/
  sta : Option CopyEnd := none
  /-- the pages of its source, its destination and its status record -/
  srcPages : List PageAt := []
  dstPages : List PageAt := []
  staPages : List PageAt := []
  landed : List Nat := []
  /-- bytes written so far, where a fault ended the copy -/
  status : Option EStatus := none
  v : Nat := 0
  /-- CPYM -/
  mcast : Bool := false
  egen : Nat := 0
  mask : U64 := 0
  recvs : List Receiver := []
  /-- the 16-byte parts of the source that have been read, each once (R161, R328) -/
  got : Sparse (List Byte) := []
  /-- what bytes of the scratchpad held before the copy wrote another value there (R138) -/
  olds : Sparse Byte := []
  deriving DecidableEq, Repr

/-- A matrix command as its registers held it at issue (R297 to R303). -/
inductive MatCmd
  | tmma (a b c : U64) (gather : Bool)
  | taccZero (b : U64) | taccScale (b : U64) | taccAdd (b : U64) | taccIadd (b : U64) | taccMove (b : U64)
  | taccStat (d : Nat)
  | tepi (a b : U64)
  deriving DecidableEq, Repr

/-- One lane of a QMMA as issued (R304). -/
structure QmmaLane where
  lane : Nat
  a : List U32
  c : List U32
  scale : U32
  deriving DecidableEq, Repr

/-- The operand latch of a TMMAG: the rows' indexes, none for 0xFFFF, once they are gathered each row's bytes and scales, and the rows of B where they
have been fetched before (R300, R332). -/
structure Latch where
  idx : List (Option Nat)
  rows : Option (List (List Byte × List Nat)) := none
  bs : Option (List (List Byte × List Nat)) := none
  deriving DecidableEq, Repr

/-- A fold unit of a FRED (R346): its home, the source bytes it sends, and the status it ended with. -/
structure FredUnit where
  peer : Nat
  pa : Nat
  off : Nat
  bytes : Nat
  status : Option EStatus := none
  deriving DecidableEq, Repr

/-- What an operation in flight does when it lands, performs or ends. -/
inductive OpBody
  | load (dst : LoadDst) (parts : List Part)
  | store (parts : List Part)
  /-- INVD (`inv`) or WBK over ranges of keys (first, length) -/
  | range (inv : Bool) (ranges : List (Nat × Nat))
  /-- ATOM, ATOMCAS, RED, SATOM: the destination, the predicate of ATOMCAS, words, slots not yet answered, and where its words lie, by lane -/
  | atom (sreg : Option Nat) (vreg : Option Nat) (pf : Option Nat) (wide : Bool) (slots : List Nat)
      (expected : List (Nat × U64)) (places : List (Nat × Place × Nat) := [])
  | wait (sreg : Option Nat) (vreg : Option Nat) (cc : Cmp) (dbl : Bool) (parts : List WaitPart)
  /-- an SFU-class producer or RSMERGE: (register, lane, value) and the flags it raises on landing -/
  | land (writes : List (Nat × Nat × U32)) (flags : Flags)
  | qmma (d : Nat) (fmt : U32) (sgA sgB : Bool) (offs : List (Nat × Nat)) (lanes : List QmmaLane)
  | copy (c : CopySt)
  | matrix (m : MatCmd) (started : Bool) (latch : Option Latch)
  | gather (mx : Nat)
  /-- QPOST: the claim (while in flight), then the 64-byte image and where its slot lies, as (key, length) -/
  | claim (sreg : Nat) (slot : Nat) (image : List U64) (desc : Nat)
  | post (image : List U64) (spots : List (Nat × Nat)) (stage : Nat)
  /-- FRED: its ends, its control word, whether its contributions have been sent, and its units -/
  | fred (src dst : CopyEnd) (ctl : U64) (sta : Option CopyEnd) (sent : Bool) (bad : Option EStatus) (units : List FredUnit)
  /-- FMC: its ends, group and length, and once it is sent the bytes, the places they land at and the members' answers -/
  | fmc (src dst : CopyEnd) (len group : Nat) (sta : Option CopyEnd) (sent : Bool) (bad : Option EStatus) (data : List Byte)
      (dests : List (Nat × Nat)) (members : List (Nat × Option Bool))
  | child (launch : Nat)
  | stall
  deriving DecidableEq, Repr

/-- An operation in flight of a team, in issue order. `group` none: the rider. -/
structure Op where
  id : Nat
  path : Option Path
  cls : Option PClass
  group : Option Nat
  lanes : U32 := 0
  split : Nat := 0
  lpc : Nat := 0
  kind : Kind := .plain
  scope : Scope := .split
  /-- operations that must have performed before this one performs -/
  deps : List Nat := []
  /-- lanes of its split as it issued (R148) -/
  mask : U32 := 0
  /-- operations of the same agents that come before this one, lane for lane, each with the reach of the scope towards which they do (R147, R148) -/
  near : List (Nat × Nat) := []
  /-- reach of the scope whose observers see this store before it has performed (R148); 0 for none -/
  vis : Nat := 0
  /-- retired count of its issuer when it issued -/
  icnt : Nat := 0
  /-- it holds power leave, until it is done (R333) -/
  leave : Bool := false
  /-- an atomic: a word of it has been answered, so that no part of it can fail any more (R163) -/
  routed : Bool := false
  /-- lanes and lines of an atomic's returns that failed their check value (R360) -/
  lates : List (Nat × Nat) := []
  /-- FRED and FMC: the pages of the source, the destination and the status record, as read at issue (R162) -/
  pages : List (List PageAt) := []
  /-- units that a FORWARD reply has redirected, where the unit itself does not say so (R399) -/
  fwd : List Nat := []
  /-- FMC: the lines that have landed at this module as a member, and the lease time that its answer waits for (R159, R400) -/
  units : List Nat := []
  ackV : Nat := 0
  done : Bool := false
  body : OpBody
  deriving DecidableEq, Repr

/-- State of an entry of the split table (R100). -/
inductive SplitSt | free | run | park
  deriving DecidableEq, Repr

/-- An entry of the split table (R100). -/
structure Split where
  st : SplitSt := .free
  frm : Option Nat := none
  lpc : BitVec 24 := 0
  mask : U32 := 0
  fmt : U32 := 0
  /-- YIELDL holds the split: the yield cycles still to pass, the current one included (R238) -/
  hold : Option Nat := none
  deriving DecidableEq, Repr

/-- Kinds of stack frame (R106). -/
inductive FrameKind | join | serial | call
  deriving DecidableEq, Repr

/-- A stack frame (R106). -/
structure Frame where
  kind : FrameKind
  owner : Nat
  parent : Option Nat
  rpc : BitVec 24
  dpc : BitVec 24 := 0
  park : U32 := 0
  full : U32
  dmask : U32 := 0
  fmt : U32
  deriving DecidableEq, Repr

/-- A rein entry (R90). -/
structure ReinEntry where
  fmt : U32
  fbase : BitVec 8
  lpc : BitVec 24
  /-- the model's own: operations that perform before a group runs the entry (R93), and the cycle LDISP wrote it in (R204) -/
  deps : List Nat := []
  wrote : Option Nat := none
  deriving DecidableEq, Repr

/-- A group as it stood before the current cycle: what an instruction reads of lanes outside its split's mask (R120). -/
structure GroupView where
  v : Sparse U32 := []
  live : U32 := 0xFFFFFFFF
  deriving DecidableEq, Repr

/-- A group (R59): its registers, its control state, and the traps it holds (R356). -/
structure Group where
  spawned : Bool := false
  /-- group slot of the core, 0 to 63 -/
  slot : Nat := 0
  bay : Nat := 0
  /-- key of the free choice of what its registers hold until they are written (R166) -/
  base : Nat := 0
  /-- units of 32 registers that it holds in its bay's register file (R21), and what earlier groups left there -/
  units : List Nat := []
  old : Sparse U32 := []
  /-- register n of lane l at 32 n + l, where written -/
  v : Sparse U32 := []
  /-- pn of every lane, n at key n -/
  p : Sparse U32 := []
  full : BitVec 512 := BitVec.allOnes 512
  flg : Flags := 0
  /-- flags that instructions have raised as they issued in the current cycle, whether or not they stood already, and those that landed in it: of
  each the split that issued their instruction (R43) -/
  raised : Flags := 0
  landed : List (Nat × Flags) := []
  live : U32 := 0xFFFFFFFF
  was : GroupView := {}
  atEnd : U32 := 0
  splits : List Split := [{}, {}, {}, {}]
  /-- frames on chip, oldest first -/
  frames : List Frame := []
  /-- frames in the spill area, and the RPC of each as it was spilled -/
  spilled : Nat := 0
  spilledRpc : List (BitVec 24) := []
  stkErr : Nat := 0
  nc : Sparse Nat := []
  rein : List ReinEntry := []
  /-- frame base of the running block -/
  fbase : BitVec 8 := 0
  vmax : Nat := 0
  /-- the model's own: the largest V of a line the group has read (R156) -/
  seen : Nat := 0
  retired : Sparse Nat := []
  icnt : Nat := 0
  traps : List Trap := []
  /-- the first of `traps` is pending or being handled: the group is halted -/
  halted : Bool := false
  /-- the group's bay has selected it in the current cycle (R85, R238); the splits that take no more turns in this cycle, those of them that were
  considered and not taken, and the places that consideration has passed (R117) -/
  chosen : Bool := false
  tried : List Nat := []
  refused : List Nat := []
  passed : Nat := 0
  /-- the split that issued first in this cycle, and in the group's previous issue (R117) -/
  begun : Option Nat := none
  first : Nat := 3
  /-- cycles that the group has been ready and issued nothing, and for each split the selections of its group in which it was ready and not
  taken (R85) -/
  unissued : Nat := 0
  missed : Sparse Nat := []
  /-- operations that the lanes' later accesses come after as a whole, from a barrier on: (lanes, ids) (R155) -/
  fences : List (U32 × List Nat) := []
  /-- operations that a FENCE orders before its lanes' later accesses, lane for lane: (lanes, lanes of its split, reach, ids) (R148, R154) -/
  nearFences : List (U32 × U32 × Nat × List Nat) := []
  /-- splits stalled on SPAWN: (split, operation) -/
  stalls : List (Nat × Nat) := []
  /-- the group has ended, but its last operations have not landed (R306) -/
  ended : Bool := false
  /-- it has its slot and registers; a successor's group may still wait for them (R83) -/
  placed : Bool := true
  deriving DecidableEq, Repr

/-- A waiter of SBARW or BARW (R208): the rider (none) or a split of a group. -/
structure BarWait where
  who : Option (Nat × Nat)
  bar : Nat
  /-- the ACTIVE lanes of the BARW -/
  lanes : U32 := 0
  deriving DecidableEq, Repr

/-- A named barrier (R139). -/
structure Barrier where
  target : BitVec 16 := 0
  count : BitVec 16 := 0
  inc : Bool := false
  phase : Bool := false
  gen : BitVec 8 := 0
  arrb : U32 := 0
  expb : U32 := 0
  /-- the model's own: the cycle of the last completion, and what the current cycle has added (R139, R208) -/
  last : Option Nat := none
  cyc : Nat := 0
  cycCount : Nat := 0
  cycExp : Nat := 0
  cycArr : Nat := 0
  /-- the model's own: accesses that came before the arrivals of this phase, and before those of completed ones (R155) -/
  arrIds : List Nat := []
  doneIds : List Nat := []
  deriving DecidableEq, Repr

/-- A task descriptor, read and checked (R66). -/
structure TaskDesc where
  spc : U64
  lbase : U64
  htab : U64
  regs : Nat
  groups : Nat
  nhandle : Nat
  count : Bool
  nbar : Nat
  acc : Nat
  scr : Nat
  arg : U64
  work : Nat
  spill : U64
  deriving DecidableEq, Repr

/-- States of a team on a core (R84); PENDING is an entry of a pending list. -/
inductive TeamSt | resident | draining | waitingChildren
  deriving DecidableEq, Repr

/-- The region entry that IDEM records (R213, R415). -/
structure IdemRec where
  pc : U64
  s : Sparse U64
  q : Sparse Bool
  draws : Sparse U32
  sdraw : U32
  r : Nat
  deriving DecidableEq, Repr

/-- A byte of the scratchpad, or a word of the accumulator memory, that another path class may still read as it was before a write:
its old content, the writer's class, and the classes the write has reached (R160). -/
structure Stale where
  old : U32
  cls : PClass
  reached : List PClass := []
  deriving DecidableEq, Repr

/-- A CFENCE or SCFENCE: the classes it names, the operations issued before it, and its issuer (none: the rider) (R160). -/
structure ClassFence where
  x : PClass
  y : PClass
  ids : List Nat
  who : Option Nat
  deriving DecidableEq, Repr

/-- How a team is being pre-empted (R363 to R368). -/
inductive PreMode | drain | save | discard
  deriving DecidableEq, Repr

/-- A pre-emption in progress. -/
structure PreSt where
  mode : PreMode
  deadline : Nat
  /-- issue has stopped at this cycle: the multicast window is open from there (R367) -/
  stopped : Option Nat := none
  closed : Bool := false
  refused : List Nat := []
  /-- waiting for the next CHKPT of a compatible team (R368) -/
  compat : Bool := false
  /-- the live-range table that CHKPT named: (kind, start, length) -/
  ranges : Option (List (Nat × Nat × Nat)) := none
  fallback : Option EStatus := none
  /-- the command to complete -/
  cmd : Option Nat := none
  deriving DecidableEq, Repr

/-- A resident team: a rider and its groups (R59). -/
structure Team where
  serial : Nat
  core : Nat
  ctx : Nat
  launch : Nat
  teamId : Nat
  /-- the partition its core was in when it was placed (R406) -/
  part : Nat := 0
  express : Bool := false
  reserved : Bool := false
  desc : TaskDesc
  root : Nat
  st : TeamSt := .resident
  /-- a successor named by EXIT: its descriptor, or none where that is rejected (R83) -/
  succ : Option (Option TaskDesc) := none
  exited : Bool := false
  killed : Bool := false
  s : Sparse U64 := []
  q : Sparse Bool := []
  pc : U64 := 0
  reinFmt : U32 := 0x00000CCC
  rein : Sparse U64 := []
  /-- rein words as they stood before the current cycle: what lane instructions read (R218) -/
  reinWas : Sparse U64 := []
  spillBase : U64 := 0
  spawnTmo : BitVec 20 := 2000
  trapVec : U64 := 0
  trapPc : U64 := 0
  /-- trap frame registers by number less 0x900; TRAPPC, TRAPVEC and TRAPPEND have their own homes (R357) -/
  frame : Sparse U64 := []
  handling : Option Trap := none
  /-- handler entered: registers loaded, mode on -/
  handler : Bool := false
  riderTrap : Option Trap := none
  /-- ATOMIC_LOST and INTEGRITY raised while the rider's trap is pending (R356) -/
  riderKept : List Trap := []
  teamTrap : Option Trap := none
  /-- traps of the team as a whole that wait behind `teamTrap`, in the order raised (R356) -/
  teamKept : List Trap := []
  /-- the cycle in which the team's latest trap was raised: all traps of that cycle are pending before one is entered (R356, R369) -/
  trapAt : Option Nat := none
  mstat : U32 := 0
  bars : Sparse Barrier := []
  barWaits : List BarWait := []
  scrStart : Nat := 0
  /-- lines of the scratchpad that are empty -/
  emptyLines : List Nat := []
  owners : Sparse Nat := []
  /-- the core's tiles that the team's tiles are, in order (R129) -/
  accTiles : List Nat := []
  groups : Sparse Group := []
  draws : Sparse U32 := []
  sdraw : U32 := 0
  ops : List Op := []
  cfences : List ClassFence := []
  /-- the model's own: the largest V returned to the operations of each path class so far (R160) -/
  clsV : Sparse Nat := []
  /-- the model's own: writes that other classes may not see yet (R160, R274, R297) -/
  stale : Sparse Stale := []
  staleAcc : Sparse Stale := []
  riderFence : List Nat := []
  riderNear : List (Nat × Nat) := []
  /-- the model's own: the largest V that ended groups have stored or read (R156, R164) -/
  endedV : Nat := 0
  /-- groups that have ended, until their registers' contents are noted as left behind (R166), and their counts in the open chunk (R380) -/
  gone : List (Nat × Group) := []
  /-- retired counts, of the group and of its lanes, of the last group that ended under a GROUPID (R357, R379) -/
  counts : Sparse (Nat × Sparse Nat) := []
  /-- the rider waits for this operation (SWAITCMP, QPOST's claim, TACC.stat) -/
  blocked : Option Nat := none
  leaveReq : Option Nat := none
  leaveGot : Bool := false
  /-- the word that was granted leave waits for room in the matrix queue or for a copy slot (R355) -/
  roomWait : Bool := false
  /-- a request for leave was withdrawn by a save: it is made again at the restore (R333) -/
  leaveAgain : Bool := false
  vmax : Nat := 0
  /-- the model's own: the largest V of a line the rider has read (R156) -/
  seen : Nat := 0
  retired : Nat := 0
  laneRetired : Nat := 0
  yieldUntil : Nat := 0
  idem : Option IdemRec := none
  chkptSeen : Bool := false
  npc : Nat := 0
  /-- the rider has had a turn in the current cycle (R87), and the cycles that it has been ready and had none (R85) -/
  ran : Bool := false
  waited : Nat := 0
  admitted : Nat := 0
  scrSize : Nat := 0
  groupsHeld : Nat := 0
  pre : Option PreSt := none
  /-- a killed team has retired, and only stores and fabric operations that it had issued are left of it (R353) -/
  retiredKilled : Bool := false
  deriving DecidableEq, Repr

/-- What ends once the word that holds STATUS has been written (R65, R76). -/
inductive RecEnd
  | packet (q idx : Nat) (launch : Option Nat)
  | child (team op : Nat) (launch : Option Nat)
  deriving DecidableEq, Repr

/-- A completion record still to be written: its bytes from 0x04 on, before and after the END stamp, where they are not written yet, and then its
first word. What comes next waits until the lease clock exceeds `v` (R67, R134). -/
structure PendRec where
  key : Nat
  word : Nat
  body : Option (List Byte × List Byte) := none
  v : Nat
  ends : RecEnd
  deriving DecidableEq, Repr

/-- A team waiting in a pending list (R70, R72). -/
structure Pending where
  launch : Nat
  teamId : Nat
  express : Bool
  reserved : Bool
  passes : Nat := 0
  part : Nat := 0
  deriving DecidableEq, Repr

/-- A thread in a spawn bin: the payload of v0 to v3. -/
structure Thread where
  pay : List U32
  deriving DecidableEq, Repr

/-- A spawn bin (R79). -/
structure Bin where
  team : Nat
  lpc : BitVec 24
  threads : List Thread
  expiry : Nat
  due : Bool := false
  deriving DecidableEq, Repr

/-- A translation a TLB may hold (R145). -/
structure TlbEntry where
  root : Nat
  va : Nat
  size : Nat
  pte : U64
  perms : BitVec 4
  deriving DecidableEq, Repr

/-- A copy of a table entry in a cluster's page-walk cache: the walk's root, the low bit of its level's index, the address from that bit on,
and the entry (R145). -/
structure WalkCopy where
  root : Nat
  lo : Nat
  tag : Nat
  pte : U64
  deriving DecidableEq, Repr

/-- A line of instructions that a core holds: 8 lane words or 32 scalar words from an address; none for a word that cannot be read
(R121, R122). -/
structure InstrLine where
  root : Nat
  va : Nat
  lane : Bool
  words : List (Option U96)
  deriving DecidableEq, Repr

/-- Functional classes of a bay (R23). -/
inductive BayClass | alu | fma | sfu | mem
  deriving DecidableEq, Repr

/-- A bay (R23, R85, R117, R118): the group slot it selected last; the cycles in which its classes are occupied, as (class, first, the one after the
last); and the cycle of its latest issue, with the banks that this cycle's instructions read. -/
structure Bay where
  last : Nat := 63
  busy : List (BayClass × Nat × Nat) := []
  issued : Option Nat := none
  reads : List Nat := []
  deriving DecidableEq, Repr

/-- A core (R20): what its resident teams do not own. -/
structure Core where
  l1 : Nat := 3
  carve : Option Nat := none
  pending : List Pending := []
  bins : Sparse Bin := []
  tlb : List TlbEntry := []
  /-- copies of handle entries: (team serial, handle, entry) -/
  handles : List (Nat × Nat × List U64) := []
  /-- layout records by (root, address), as read -/
  layouts : List (Nat × Nat × List U64) := []
  /-- lines of the lane instruction buffer and of the scalar instruction cache, latest used first (R121) -/
  icache : List InstrLine := []
  /-- what earlier groups left in the register file: unit u of bay b, register r and lane l at 1024 (64 b + u) + 32 r + l (R166) -/
  regs : Sparse U32 := []
  /-- lane lines to be dropped when no split refers to them (R122) -/
  istale : List (Nat × Nat) := []
  /-- bytes of the unified array in scratchpad units (R128) -/
  scr : Sparse Byte := []
  /-- accumulator words (R129) -/
  acc : Sparse U32 := []
  slots : Sparse RetSlot := []
  seqs : Sparse Nat := []
  bays : Sparse Bay := []
  frozen : Bool := false
  /-- where an uncorrectable error lies in what its teams own: (rider context, part of R373, GROUPID, offset in the part) (R361, R374) -/
  bad : List (Nat × Nat × Nat × Nat) := []
  deriving DecidableEq, Repr

/-- A packet consumed from a queue and not complete (R63, R65). -/
structure PktSt where
  words : List U32
  idx : Nat
  started : Bool := false
  start : U128 := 0
  launch : Option Nat := none
  chan : Option Nat := none
  /-- a WAIT_VALUE's word has satisfied it -/
  sat : Bool := false
  /-- it has completed, and its record is being written -/
  ended : Bool := false
  deriving DecidableEq, Repr

/-- A user-mode queue (R62, R64, R68). -/
structure Queue where
  part : Nat
  weight : Nat
  express : Bool
  log2n : Nat
  desc : Nat
  ring : Nat
  ridx : Nat := 0
  stopped : Bool := false
  status : Nat := 0
  deficit : Int := 0
  pkts : List PktSt := []
  deriving DecidableEq, Repr

/-- A reserved block of an EXPRESS core (R73, R406). -/
structure Block where
  groups : Nat := 0
  regs : Nat := 0
  scr : Nat := 0
  acc : Nat := 0
  bars : Nat := 0
  deriving DecidableEq, Repr

/-- A partition (R61, R73). -/
structure Partition where
  cores : List Nat
  /-- deleted, and over once the last of its cores has left it (R406) -/
  gone : Bool := false
  ecap : Nat := 0
  reserved : List Nat := []
  block : Block := {}
  deriving DecidableEq, Repr

/-- A launch accepted and not complete (R59, R65, R67, R76). -/
structure Launch where
  depth : Nat
  queue : Nat
  part : Nat
  root : Nat
  level : Nat
  seed : U64
  persist : Bool := false
  w : Nat := 0
  nx : Nat
  ny : Nat
  nz : Nat
  desc : TaskDesc
  /-- teams of the grid, or W × C when persistent -/
  teams : Nat
  next : Nat := 0
  retired : Nat := 0
  faulted : Option Nat := none
  badSucc : Bool := false
  /-- completion record's virtual address -/
  compl : Option Nat
  start : Option U128 := none
  /-- the team (serial) and operation that launched a child -/
  parent : Option (Nat × Nat) := none
  killed : Bool := false
  /-- the launch of the root grid, as a replay gates it (R384) -/
  top : Nat := 0
  /-- the command processor has ended it with NO_FIT (R81) -/
  noFit : Bool := false
  /-- its status is settled and its record is being written -/
  ended : Bool := false
  deriving DecidableEq, Repr

/-- A saved or discarded team (R365, R366). -/
structure Saved where
  team : Team
  discard : Bool
  area : Nat × Nat
  /-- scratchpad bytes, then accumulator words, as saved -/
  scr : Sparse Byte
  acc : Sparse U32
  /-- its spawn bins -/
  bins : List Bin := []
  /-- the parts that were written whole: (part, GROUPID, key of its first byte, length) (R366) -/
  parts : List (Nat × Nat × Nat × Nat) := []
  deriving DecidableEq, Repr

/-- A privileged command that is executing (R405, R406). -/
structure PendCmd where
  id : Nat
  fn : Nat
  /-- key of the record in host memory -/
  record : Nat
  /-- none for a malformed record -/
  cmd : Option Instr
  /-- the cycle it began -/
  start : Nat := 0
  /-- what it still waits for: teams by serial number, or operations in flight -/
  waits : List Nat := []
  /-- the status of a command that is done, where its release store has not been performed, and the visibility time that the store waits for (R405) -/
  status : Option Nat := none
  v : Nat := 0
  deriving DecidableEq, Repr

/-- A PCIe function's administration ring (R405). -/
structure AdminRing where
  admq : U64 := 0
  next : Option U64 := none
  ridx : Nat := 0
  stopped : Bool := false
  status : Nat := 0
  deriving DecidableEq, Repr

/-- An inbound window (R406). -/
structure Window where
  mkind : Nat
  mnum : Nat
  win : Nat
  base : Nat
  size : Nat
  rights : BitVec 3
  deriving DecidableEq, Repr

/-- A copy of a remote-homed line in a die's RDC (R132). `expiry` none: a CACHED line, with no lease (R134). -/
structure RdcCopy where
  die : Nat
  line : Nat
  data : List Byte
  expiry : Option Nat
  deriving DecidableEq, Repr

/-- A fold unit in a switch (R346 to R348). -/
structure FoldSt where
  plane : Nat
  rid : Nat
  unit : Nat
  dst : Nat
  opc : Nat
  ty : Nat
  n : Nat
  rn : Nat
  det : Bool
  contribs : List (Nat × List U64)
  opened : Nat
  /-- the result has been sent to its home; the lease time that its acknowledgement waits for, once it has been written there (R159) -/
  done : Bool := false
  ack : Option Nat := none
  /-- the issuers of the contributions, and the logged order that they carry (R347, R375) -/
  agents : List RemoteAgent := []
  order : List Nat := []
  deriving DecidableEq, Repr

/-- A delivery of another module's FMC that is arriving (R400): whether it was accepted, the lines that have come, and the lease time that the answer
waits for. -/
structure FmcIn where
  src : Nat
  id : Nat
  ok : Bool
  got : List Nat := []
  v : Nat := 0
  deriving DecidableEq, Repr

/-- An entry of a die's migration counters (R397). -/
structure MigCount where
  die : Nat
  peer : Nat
  frame : Nat
  count : Nat
  deriving DecidableEq, Repr

/-- An open chunk of a stream (R380): its events, latest last. -/
structure Chunk where
  id : Nat
  events : List (List U64) := []
  level : Nat := 0
  start : U128 := 0
  retired : Nat := 0
  /-- count-table entries of the contexts that have ended during the chunk -/
  gone : List (List U64) := []
  deriving DecidableEq, Repr

/-- One chunk of a replay log (R384). -/
structure LogChunk where
  stream : Nat
  id : Nat
  crcOk : Bool
  /-- (launch, TEAMID, WHO, CTX, counts) -/
  counts : List (Nat × Nat × Nat × Nat × List Nat)
  events : List (List U64)
  deriving DecidableEq, Repr

/-- A replay in progress (R384). -/
structure Replay where
  queue : Nat
  /-- index of the slot its image was posted in -/
  idx : Nat
  launch : Option Nat := none
  log : List LogChunk
  /-- per stream: (chunk, index) of the next event, and the cycle it became next -/
  next : Sparse (Nat × Nat × Nat) := []
  /-- per stream: instructions issued of the ISSUE event that is next -/
  run : Sparse Nat := []
  gating : Bool := true
  /-- launches of the replay that have completed -/
  isOver : List Nat := []
  /-- the cycle in which it diverged (R386) -/
  diverged : Option Nat := none
  deriving DecidableEq, Repr

/-- A halt in progress (R370). -/
structure HaltSt where
  cause : Nat
  reason : U32
  stamp : U128
  at_ : Nat
  dumped : Bool := false
  /-- the section of the dump that is being written; how many have been, and where the next begins; none follows (R371, R374) -/
  sect : Option Nat := none
  written : Nat := 0
  off : Nat := 256
  full : Bool := false
  secondary : List (Nat × Nat × Nat × Nat × Nat) := []
  deriving DecidableEq, Repr

/-- A snapshot or restore in progress (R408). -/
structure SnapSt where
  restore : Bool
  ports : BitVec 2
  gw : Nat
  planes : BitVec 16
  s0 : Nat
  s1 : Nat
  s2 : Nat
  cmd : Option Nat
  deriving DecidableEq, Repr

/-- A base-die copy channel running a COPY packet (R327). -/
structure Channel where
  queue : Nat
  copy : CopySt
  written : Nat := 0
  die : Nat := 0
  leaveReq : Option Nat := none
  deriving DecidableEq, Repr

/-- Who is executing. -/
inductive Agent
  | none
  | rider (tk : Nat)
  | split (tk g sp : Nat)
  | command (id : Nat)
  deriving DecidableEq, Repr

/-- What one turn of the agenda does. -/
inductive Move
  | rider (tk : Nat)
  | split (tk g sp : Nat)
  | command (fn : Nat)
  | event (i : Instr)
  | idle
  deriving DecidableEq, Repr

/-- A turn: the arithmetic-clock cycles that pass, then the move. -/
structure Turn where
  dt : Nat
  move : Move
  deriving DecidableEq, Repr

end Sys2Proof.Machine
end

