-- ==== Sys2Proof/Machine/State.lean ====
section
/-!
DEFINITION. Machine/State.lean: the state of the machine as plain data, the reasons a step can stop, and the state
right after reset. INVENTORY.md lists each piece with the rule that names it.
-/
namespace Sys2Proof.Machine

/-- Why the machine stops with a fault. -/
inductive Fault
  /-- Raised by an access of the device to a physical address of local memory at or above 2^39, which does not exist
  (R14): a translation root or a command's operand names it. Safe: the model stops where the spec gives no effect. -/
  | noSuchAddress
  deriving DecidableEq, Repr

/-- Why the model gives no next state. -/
inductive Refusal
  /-- Raised by an arm of exec whose meaning is not written. Safe: nothing is claimed. -/
  | notModelled (mnemonic : String)
  /-- Raised by a scalar or lane word executed when no rider, or no split, is the current agent: such a word has no
  meaning outside its agent (R87, R100). Safe: step never reaches it. -/
  | noAgent
  deriving DecidableEq, Repr

/-- Clocks (R25 to R27). `ptp` counts thirty-thirds of a nanosecond; `ptm` is the cycle of the last host discipline. -/
structure Clock where
  cycle : Nat := 0
  ptp : Nat := 0
  ptm : Option Nat := none
  /-- the model's own: every issue of the current cycle has been made, and what is tested at its end is due (R117, R139) -/
  ending : Bool := false
  deriving DecidableEq, Repr

/-- What the caches hold beyond memory's current content (R130 to R134, R140, R142, R412). Lines are keys / 128. -/
structure Coherence where
  /-- contents a line held before its latest write, latest first -/
  hist : List (Nat × List Byte) := []
  dirty : List Nat := []
  rdc : List RdcCopy := []
  granted : Sparse Nat := []
  /-- the model's own: for a line, the largest VMAX its writers had (R156) -/
  relV : Sparse Nat := []
  /-- (line, core, tokens) held by L1s; the backing holds the rest of the 64 -/
  tokens : List (Nat × Nat × Nat) := []
  monitors : List Monitor := []
  /-- page-walk caches, by logical cluster (R145) -/
  walks : Sparse (List WalkCopy) := []
  /-- lines whose check value fails -/
  bad : List Nat := []
  deriving DecidableEq, Repr

/-- The command processor (R61 to R84, R404 to R406). -/
structure CmdProc where
  queues : Sparse Queue := []
  parts : Sparse Partition := []
  /-- cores that leave their partition once they hold no team of it, and the partition that each then joins (R406) -/
  moving : Sparse (Option Nat) := []
  vfs : Sparse Nat := []
  /-- root tables bound to queues and to partitions, and save areas, by number (R406) -/
  queueRoots : Sparse Nat := []
  partRoots : Sparse Nat := []
  saveAreas : Sparse (Nat × Nat) := []
  launches : Sparse Launch := []
  /-- completion records being written, in order of their ends -/
  records : List PendRec := []
  /-- the latest visibility time of what the command processor has written (R156, R405) -/
  vmax : Nat := 0
  nextLaunch : Nat := 1
  saved : List Saved := []
  cmds : List PendCmd := []
  nextCmd : Nat := 0
  rings : Sparse AdminRing := []
  tReply : Nat := 13
  freezeHalt : Bool := false
  dumpArea : Option (Nat × Nat) := none
  windows : List Window := []
  mcastWindow : Option (Nat × Nat) := none
  snap : Option SnapSt := none
  channels : Sparse Channel := []
  /-- frozen masters other than cores: (MKIND, MNUM) (R361) -/
  frozen : List (Nat × Nat) := []
  deriving DecidableEq, Repr

/-- The atomic services and the combining points (R334 to R345). -/
structure AtomNet where
  reqs : Sparse AtomReq := []
  entries : List CombEntry := []
  recs : List DecombRec := []
  serials : Sparse Nat := []
  queues : Sparse (List Nat) := []
  replies : Sparse AtomReply := []
  journal : List JournalEntry := []
  losses : Sparse Nat := []
  /-- by owner: the core, or 0x400 + the fabric port, that was last given a credit (R335) -/
  grants : Sparse Nat := []
  deriving DecidableEq, Repr

/-- The fabric (R390 to R400), with what the switches hold (R346 to R348). -/
structure Fabric where
  self : Option Nat := none
  gateways : Sparse (Nat × BitVec 16) := []
  /-- peer numbers that the switch has answered with NOROUTE: no module is bound to them (R390) -/
  absent : List Nat := []
  groups : Sparse (List Nat) := []
  redK : Nat := 20
  dead : List Nat := []
  remap : List Nat := []
  quiesce : Bool := false
  held : List Packet := []
  unacked : List Packet := []
  out : List Packet := []
  pseqOut : Sparse Nat := []
  /-- highest PSEQ performed, at 256 × port + source peer -/
  pseqIn : Sparse Nat := []
  /-- forwarding table: frame (64 KiB units) to (peer, frame) (R398) -/
  forward : Sparse (Nat × Nat) := []
  folds : List FoldSt := []
  /-- fold units that ended TIMEOUT: plane, RID, unit, home peer, and when (R348) -/
  timeouts : List (Nat × Nat × Nat × Nat × Nat) := []
  mig : List MigCount := []
  crossings : List MigCount := []
  /-- placement hints of the host: peer and frame; page moves told to the modules that map the page: frames of the old home (R398) -/
  hints : List (Nat × Nat) := []
  told : List Nat := []
  /-- deliveries of other modules' FMCs that are arriving (R400) -/
  fmcIn : List FmcIn := []
  /-- last posted PCIe write of a function and the lease time its acknowledgement waits for (R159) -/
  posted : Sparse Nat := []
  /-- accesses of the outside not answered yet: (port kind, number, lease time waited for, bytes of the answer) (R159) -/
  ackWait : List (Nat × Nat × Nat × List Byte) := []
  /-- answers given to the outside: (port kind, number, bytes); an acknowledgement of a write carries none -/
  replies : List (Nat × Nat × List Byte) := []
  deriving DecidableEq, Repr

/-- Haeth: the registers of R382 and what its recorders and bridles hold. -/
structure Haeth where
  base : U64 := 0
  enable : Bool := false
  policy : BitVec 2 := 0
  stopped : Bool := false
  lost : Nat := 0
  clog2 : Nat := 16
  slog2 : Nat := 30
  head : Nat := 0
  tail : Nat := 0
  bound : Nat := 26
  brbase : U64 := 0
  divpos : U64 := 0
  divevt : U64 := 0
  brk : Sparse U64 := []
  /-- the model's own: breakpoints of a replay that have fired since they were written -/
  fired : List Nat := []
  chunks : Sparse Chunk := []
  ids : Sparse Nat := []
  seqs : Sparse Nat := []
  /-- records that STALL holds back until TAIL moves, oldest first: (stream, record) -/
  stalled : List (Nat × List Byte) := []
  replay : Option Replay := none
  /-- debug halts that this module has broadcast to the modules of a pod replay, oldest first: true after REPLAY_DIVERGE (R388) -/
  broadcast : List Bool := []
  deriving DecidableEq, Repr

/-- An answer of the attestation responder: its bytes, the measurement blocks that it holds, and whether it settles the connection on ECDSA
brainpoolP384r1 with SHA-384 (R410). -/
structure SpdmAnswer where
  bytes : List Byte
  blocks : List (List Byte) := []
  algorithms : Bool := false
  deriving DecidableEq, Repr

/-- Host, firmware and management (R405 to R414). -/
structure Management where
  log : List (List Byte) := []
  secded : Sparse Nat := []
  leaveWaits : Nat := 0
  /-- the firmware image, what it and its stages measured, and the image for the next reset (R409) -/
  image : List Byte := []
  measurements : List (List Byte) := []
  staged : Option (List Byte) := none
  recovery : Bool := false
  spdm : Nat := 0
  out : List SpdmAnswer := []
  scrubbed : Nat := 0
  deriving DecidableEq, Repr

/-- The whole machine. -/
structure State where
  clk : Clock := {}
  /-- per die: the disabled cluster, if any (R15) -/
  fuses : List (Option Nat)
  /-- bytes that differ from zero, by key (Place.mem) -/
  mem : List Host.Cell := []
  coh : Coherence := {}
  cores : Sparse Core := []
  teams : Sparse Team := []
  cp : CmdProc := {}
  net : AtomNet := {}
  fab : Fabric := {}
  haeth : Haeth := {}
  mgmt : Management := {}
  halt : Option HaltSt := none
  /-- debug halt (R388): some true after REPLAY_DIVERGE -/
  debugHalt : Option Bool := none
  /-- the model's own fields: the turns to come, the executing agent, the free values used, serial numbers -/
  agenda : List Turn := []
  cur : Agent := .none
  free : Nat := 0
  serial : Nat := 1
  deriving DecidableEq, Repr

/-- The machine right after device reset. DESIGN CHOICE (log entry 2): the dies with 9 clusters are dies 4 to 7, and the cluster disabled on each is
cluster 9; the spec leaves both to the fuses (R9, R15). Memory, scratchpads, accumulators and register files read as zero until they are written
(log entries 1 and 4), and what R9 gives no reset value for starts as entries 3 and 5 say. -/
def State.reset : State where
  fuses := [none, none, none, none, some 9, some 9, some 9, some 9]
  cp := { parts := [(0, { cores := List.range Config.cores })] }
  mgmt := { image := Config.firmware, measurements := (Config.stages Config.firmware).map sha384 }

end Sys2Proof.Machine
end

