-- ==== Sys2Proof/Machine/Base.lean ====
section
/-!
DEFINITION. Machine/Base.lean: bits and lanes, the places of the package, the clocks, free values, and the accessors
through which every other file reads and changes State.
-/
namespace Sys2Proof.Machine

/-! Bits, bytes and lanes. -/

/-- Bits hi down to lo of a number. -/
def bitsOf (n hi lo : Nat) : Nat := n / 2 ^ lo % 2 ^ (hi + 1 - lo)

/-- Number of set bits below `n`. -/
def popCount (x : Nat) : Nat → Nat
  | 0 => 0
  | n + 1 => x % 2 + popCount (x / 2) n

/-- Sign-extended value of the low `n` bits. -/
def signedOf (n : Nat) (x : Nat) : Int :=
  if n = 0 then 0 else if 2 * (x % 2 ^ n) < 2 ^ n then (x % 2 ^ n : Nat) else (x % 2 ^ n : Nat) - (2 ^ n : Nat)

/-- An exact integer in n bits (R33). -/
def wrapTo (n : Nat) (v : Int) : Nat := (v % (2 ^ n : Nat)).toNat

/-- Whether lane `l` is in a mask. -/
def laneIn (m : U32) (l : Nat) : Bool := m.getLsbD l

/-- The lanes of a mask, ascending. -/
def lanesOf (m : U32) : List Nat := (List.range 32).filter (laneIn m)

/-- The mask of some lanes. -/
def maskOf (ls : List Nat) : U32 := ls.foldl (fun m l => m ||| (1#32 <<< l)) 0

/-- The mask of the lanes for which `f` holds. -/
def maskWhere (f : Nat → Bool) : U32 := maskOf ((List.range 32).filter f)

/-- The lowest lane of a mask, 0 for none. -/
def lowestLane (m : U32) : Nat := (lanesOf m).headD 0

/-- A 64-bit number in 32-bit words, low first. -/
def lo32 (x : U64) : U32 := x.extractLsb' 0 32
def hi32 (x : U64) : U32 := x.extractLsb' 32 32
def pair64 (lo hi : U32) : U64 := hi ++ lo

/-- An entry of a list, or a default. -/
def nth {α : Type} (l : List α) (d : α) (n : Nat) : α := l.getD n d

/-- A list with its n-th entry changed. -/
def modNth {α : Type} (f : α → α) : Nat → List α → List α
  | _, [] => []
  | 0, x :: l => f x :: l
  | n + 1, x :: l => x :: modNth f n l

/-- The position of the first entry with a property. -/
def firstIdx {α : Type} (p : α → Bool) (l : List α) : Option Nat := l.findIdx? p

/-- A list without the later repeats of its entries. -/
def distinct {α : Type} [BEq α] (l : List α) : List α := l.foldl (fun a x => if a.contains x then a else a ++ [x]) []

/-- A list in the order of `le`, equal entries as they stood. -/
def insertBy {α : Type} (le : α → α → Bool) (x : α) : List α → List α
  | [] => [x]
  | y :: l => if le x y then x :: y :: l else y :: insertBy le x l
def sortBy {α : Type} (le : α → α → Bool) (l : List α) : List α := l.foldr (insertBy le) []

/-- Smallest number not in a list, below `n`. -/
def freeBelow (used : List Nat) (n : Nat) : Option Nat := (List.range n).find? fun i => !used.contains i

/-! Places of the package (R13 to R18). -/

/-- Physical clusters enabled on a die, ascending (R15). -/
def State.dieClusters (s : State) (d : Nat) : List Nat :=
  (List.range 10).filter fun c => (nth s.fuses none d) != some c

/-- (die, physical cluster) of each logical cluster (R18). -/
def State.clusterList (s : State) : List (Nat × Nat) :=
  (List.range 8).flatMap fun d => (s.dieClusters d).map fun c => (d, c)

/-- Number of enabled cores. -/
def State.numCores (s : State) : Nat := 4 * s.clusterList.length

/-- Die of a logical core. -/
def State.dieOf (s : State) (core : Nat) : Nat := (nth s.clusterList (0, 0) (core / 4)).1

/-- Logical cores of a die, ascending. -/
def State.dieCores (s : State) (d : Nat) : List Nat := (List.range s.numCores).filter fun c => s.dieOf c == d

/-- SY.PLACE of a core (R19). -/
def State.place (s : State) (core : Nat) : U32 :=
  let p := nth s.clusterList (0, 0) (core / 4)
  BitVec.ofNat 32 (core * 2 ^ 14 + p.2 * 2 ^ 10 + p.1 * 2 ^ 7 + p.1 / 4 * 2 ^ 6 + core % 4)

/-- SY.DIECFG of a die (R414). -/
def State.dieCfg (s : State) (d : Nat) : U32 :=
  BitVec.ofNat 32 (d * 2 ^ 10 + (s.dieClusters d).foldl (fun a c => a + 2 ^ c) 0)

/-- Compute die that is the home of a local physical address (R14). -/
def homeDie (pa : Nat) : Nat := (bitsOf pa 14 12) ^^^ (bitsOf pa 25 23)

/-- Logical cluster whose atomic service owns a local address (R334). -/
def State.ownerOn (s : State) (d pa : Nat) : Nat :=
  let e := (s.dieClusters d).length
  let base := (s.clusterList.filter fun p => decide (p.1 < d)).length
  base + bitsOf pa 31 7 % e

/-- The plane a line travels on before any remap (R391). -/
def planeOf (pa : Nat) : Nat := (bitsOf pa 10 7) ^^^ (bitsOf pa 18 15) ^^^ (bitsOf pa 26 23)

/-- The plane a line travels on (R394). -/
def State.planeNow (s : State) (pa : Nat) : Nat :=
  let p := planeOf pa
  if s.fab.remap.contains p then p ^^^ 1 else p

/-! Keys of memory: PEER × 2^52 + physical address. -/

def keyOf (peer pa : Nat) : Nat := peer * 2 ^ 52 + pa
def keyPeer (k : Nat) : Nat := k / 2 ^ 52
def keyPa (k : Nat) : Nat := k % 2 ^ 52

/-- The key under which an access is stored: the module's own peer number names local memory (R390). -/
def State.storeKey (s : State) (k : Nat) : Nat := if s.fab.self = some (keyPeer k) then keyPa k else k

/-! Clocks and free values. -/

/-- The lease clock: 10 ticks in 33 arithmetic cycles (R25, R26). -/
def State.lease (s : State) : Nat := s.clk.cycle * 10 / 33

/-- PTP seconds and nanoseconds (R27). -/
def State.ptpSec (s : State) : Nat := s.clk.ptp / (33 * 10 ^ 9)
def State.ptpNs (s : State) : Nat := s.clk.ptp / 33 % 10 ^ 9

/-- SY.PTP (R402). -/
def State.ptpReg (s : State) : U64 := BitVec.ofNat 64 (s.ptpSec % 2 ^ 34 * 2 ^ 30 + s.ptpNs)

/-- The device has had no discipline from the host for 2 s (R401). -/
def State.unsync (s : State) : Bool :=
  match s.clk.ptm with
  | none => true
  | some c => decide (s.clk.cycle - c > 6600000000)

/-- A time stamp (R401). -/
def State.stamp (s : State) : U128 :=
  BitVec.ofNat 128 ((if s.unsync then 2 ^ 80 else 0) + s.ptpSec % 2 ^ 48 * 2 ^ 32 + s.ptpNs)

/-- The next free value. -/
def State.freeWord (s : State) : U64 × State := (Config.freeWord s.free, { s with free := s.free + 1 })
/-- A free choice between two contents the spec allows. -/
def State.freeBit (s : State) : Bool × State := (Config.freeBit s.free, { s with free := s.free + 1 })

/-- A serial number of the model's own. -/
def State.fresh (s : State) : Nat × State := (s.serial, { s with serial := s.serial + 1 })

/-! Accessors. -/

def State.core (s : State) (c : Nat) : Core := sparseGet {} s.cores c
def State.setCore (s : State) (c : Nat) (x : Core) : State := { s with cores := sparsePut c x s.cores }
def State.modCore (s : State) (c : Nat) (f : Core → Core) : State := s.setCore c (f (s.core c))

def State.team? (s : State) (tk : Nat) : Option Team := sparseFind tk s.teams
def State.setTeam (s : State) (tk : Nat) (t : Team) : State := { s with teams := sparsePut tk t s.teams }
def State.modTeam (s : State) (tk : Nat) (f : Team → Team) : State := { s with teams := sparseMod tk f s.teams }
def State.dropTeam (s : State) (tk : Nat) : State := { s with teams := sparseErase tk s.teams }

/-- Key of a team: its core and its rider context. -/
def teamKey (core ctx : Nat) : Nat := core * 16 + ctx
def Team.key (t : Team) : Nat := teamKey t.core t.ctx

/-- The resident team with a serial number. -/
def State.teamBySerial (s : State) (n : Nat) : Option (Nat × Team) := s.teams.find? fun p => p.2.serial == n

/-- Resident teams of a core, ascending context. -/
def State.coreTeams (s : State) (c : Nat) : List (Nat × Team) := s.teams.filter fun p => p.2.core == c && !p.2.retiredKilled

def Team.group? (t : Team) (g : Nat) : Option Group := sparseFind g t.groups
def Team.setGroup (t : Team) (g : Nat) (x : Group) : Team := { t with groups := sparsePut g x t.groups }
def Team.modGroup (t : Team) (g : Nat) (f : Group → Group) : Team := { t with groups := sparseMod g f t.groups }
def State.modGroup (s : State) (tk g : Nat) (f : Group → Group) : State := s.modTeam tk fun t => t.modGroup g f

/-- A scalar register; s0 reads as zero (R167). -/
def Team.sreg (t : Team) (r : SReg) : U64 := if r = 0 then 0 else sparseGet 0 t.s r.toNat
/-- Writes a scalar register; a write to s0 is discarded (R167). -/
def Team.setSreg (t : Team) (r : SReg) (v : U64) : Team := if r = 0 then t else { t with s := sparseSet 0 r.toNat v t.s }
/-- A scalar predicate; q0 reads as true (R167). -/
def Team.qreg (t : Team) (r : BitVec 3) : Bool := if r = 0 then true else sparseGet false t.q r.toNat
/-- Writes a scalar predicate; a write to q0 is discarded (R167). -/
def Team.setQreg (t : Team) (r : BitVec 3) (v : Bool) : Team := if r = 0 then t else { t with q := sparseSet false r.toNat v t.q }

/-- What lane register n of lane l holds until it is written: zero, or what an earlier group left there (R166). -/
def Group.oldReg (g : Group) (n l : Nat) : U32 :=
  match sparseFind (32 * n + l) g.old with
  | none => 0
  | some w => if Config.laneKept g.base n l then w else 0
/-- Lane register n of lane l (R166). -/
def Group.vreg (g : Group) (n l : Nat) : U32 := (sparseFind (32 * n + l) g.v).getD (g.oldReg n l)
/-- Lane register n of lane l as it stood before the current cycle (R120). -/
def Group.vregWas (g : Group) (n l : Nat) : U32 := (sparseFind (32 * n + l) g.was.v).getD (g.oldReg n l)
/-- Writes lane register n of lane l. -/
def Group.setVreg (g : Group) (n l : Nat) (x : U32) : Group := { g with v := sparsePut (32 * n + l) x g.v }
/-- A 64-bit pair: the low word in the even register (R167). -/
def Group.vpair (g : Group) (n l : Nat) : U64 := pair64 (g.vreg n l) (g.vreg (n + 1) l)
def Group.setVpair (g : Group) (n l : Nat) (x : U64) : Group := (g.setVreg n l (lo32 x)).setVreg (n + 1) l (hi32 x)
/-- Predicate pn of lane l; p0 reads as true (R167). -/
def Group.preg (g : Group) (n l : Nat) : Bool := n == 0 || laneIn (sparseGet 0 g.p n) l
/-- Writes predicate pn of lane l; a write to p0 is discarded (R167). -/
def Group.setPreg (g : Group) (n l : Nat) (b : Bool) : Group :=
  if n = 0 then g else
    let m := sparseGet (0 : U32) g.p n
    { g with p := sparseSet 0 n (if b then m ||| (1#32 <<< l) else m &&& ~~~(1#32 <<< l)) g.p }

/-- Full bits of the registers n to n + k - 1 (R119). -/
def Group.allFull (g : Group) (n k : Nat) : Bool := (List.range k).all fun i => g.full.getLsbD (n + i)
def Group.markEmpty (g : Group) (n k : Nat) : Group :=
  { g with full := (List.range k).foldl (fun f i => f &&& ~~~(1#512 <<< (n + i))) g.full }
/-- Registers become full. What has landed in them is what everyone reads from then on: no instruction of this cycle has written them, as they were
empty (R119, R120). -/
def Group.markFull (g : Group) (n k : Nat) : Group :=
  { g with full := (List.range k).foldl (fun f i => f ||| (1#512 <<< (n + i))) g.full
           was := { g.was with v := (g.v.filter fun e => decide (32 * n ≤ e.1 ∧ e.1 < 32 * (n + k))).foldl (fun m e => sparsePut e.1 e.2 m) g.was.v } }

def Group.split (g : Group) (sp : Nat) : Split := nth g.splits {} sp
def Group.setSplit (g : Group) (sp : Nat) (x : Split) : Group := { g with splits := modNth (fun _ => x) sp g.splits }
def Group.modSplit (g : Group) (sp : Nat) (f : Split → Split) : Group := { g with splits := modNth f sp g.splits }

/-- Nesting counter of a lane (R113). -/
def Group.ncOf (g : Group) (l : Nat) : Nat := sparseGet 0 g.nc l

/-- The group has no split running or parked (R94). -/
def Group.idle (g : Group) : Bool := g.splits.all fun x => x.st == .free

/-- A cycle of the arithmetic clock begins: what stood before it is kept for those who read it (R43, R120, R218). -/
def Group.beginCycle (g : Group) : Group :=
  { g with was := { v := g.v, live := g.live }, raised := 0, landed := [], chosen := false, tried := [], refused := [], passed := 0,
           first := g.begun.getD g.first, begun := none }
def Team.beginCycle (t : Team) : Team := { t with reinWas := t.rein, ran := false, groups := t.groups.map fun x => (x.1, x.2.beginCycle) }

def Team.bar (t : Team) (b : Nat) : Barrier := sparseGet {} t.bars b
def Team.setBar (t : Team) (b : Nat) (x : Barrier) : Team := { t with bars := sparseSet {} b x t.bars }

def State.launch? (s : State) (n : Nat) : Option Launch := sparseFind n s.cp.launches
def State.modLaunch (s : State) (n : Nat) (f : Launch → Launch) : State :=
  { s with cp := { s.cp with launches := sparseMod n f s.cp.launches } }
def State.queue? (s : State) (q : Nat) : Option Queue := sparseFind q s.cp.queues
def State.modQueue (s : State) (q : Nat) (f : Queue → Queue) : State :=
  { s with cp := { s.cp with queues := sparseMod q f s.cp.queues } }
def State.part? (s : State) (p : Nat) : Option Partition := sparseFind p s.cp.parts
def State.modPart (s : State) (p : Nat) (f : Partition → Partition) : State :=
  { s with cp := { s.cp with parts := sparseMod p f s.cp.parts } }

/-- The operation `id` of a team. -/
def Team.op? (t : Team) (id : Nat) : Option Op := t.ops.find? fun o => o.id == id
def Team.modOp (t : Team) (id : Nat) (f : Op → Op) : Team := { t with ops := t.ops.map fun o => if o.id = id then f o else o }

/-- An operation that later ones may wait for is still to perform. -/
def Team.opLive (t : Team) (id : Nat) : Bool := t.ops.any fun o => o.id == id && !o.done

/-- Operations of a path that still count: from the first that is not complete (R137). -/
def countFrom : List Op → Nat
  | [] => 0
  | o :: l => if o.done then countFrom l else (o :: l).length

/-- The counter of a path (R137). -/
def Team.pathCount (t : Team) (p : Path) : Nat := countFrom (t.ops.filter fun o => o.path == some p)

/-- Drops operations that no counter still counts. -/
def pruneOps (ops : List Op) : List Op :=
  ops.filter fun o => !o.done ||
    match o.path with
    | none => false
    | some p => ops.any fun x => x.path == some p && !x.done && decide (x.id < o.id)

/-- Marks an operation complete. -/
def Team.opDone (t : Team) (id : Nat) : Team := { (t.modOp id fun o => { o with done := true }) with ops := pruneOps (t.modOp id fun o => { o with done := true }).ops }

/-- Scratchpad byte of a team at an offset (R128). -/
def State.scrByte (s : State) (t : Team) (off : Nat) : Byte := sparseGet 0 (s.core t.core).scr (t.scrStart + off)
def State.setScrByte (s : State) (t : Team) (off : Nat) (b : Byte) : State :=
  s.modCore t.core fun c => { c with scr := sparseSet 0 (t.scrStart + off) b c.scr }
/-- Scratchpad size of a team in bytes (R127). -/
def Team.scrBytes (t : Team) : Nat := t.desc.scr * 4096

/-- Place of a team's accumulator word in its core's memory. -/
def Team.accAt (t : Team) (w : Nat) : Nat := nth t.accTiles 0 (w / 16384) * 16384 + w % 16384
/-- Accumulator word of a team, by its word number within the allocation (R129). -/
def State.accWord (s : State) (t : Team) (w : Nat) : U32 := sparseGet 0 (s.core t.core).acc (t.accAt w)
def State.setAccWord (s : State) (t : Team) (w : Nat) (x : U32) : State :=
  s.modCore t.core fun c => { c with acc := sparseSet 0 (t.accAt w) x c.acc }

/-- Lines of the scratchpad that a range of offsets touches. -/
def linesOf (off n : Nat) : List Nat := if n = 0 then [] else (List.range ((off + n - 1) / 128 - off / 128 + 1)).map (· + off / 128)

/-- Every line a range touches is full (R138). -/
def Team.linesFull (t : Team) (off n : Nat) : Bool := (linesOf off n).all fun l => !t.emptyLines.contains l

/-- The members of a team have stopped at their instruction boundaries: it is killed or being moved out, its core is frozen, or the
device is in a halt or a debug halt (R353, R361, R366, R370, R388). -/
def State.stopped (s : State) (t : Team) : Bool :=
  t.killed || s.halt.isSome || s.debugHalt.isSome || (s.core t.core).frozen || t.pre.any fun p => p.stopped.isSome

/-- The retired counts that a group of a GROUPID has, or begins with: a lane is named by its GROUPID and number, and its count goes on from the group
before. DEDUCED (log entry 30): R379 counts from team start. -/
def Team.countsOf (t : Team) (g : Nat) : Nat × Sparse Nat :=
  match t.group? g with
  | some x => (x.icnt, x.retired)
  | none => sparseGet (0, []) t.counts g

/-- Outcome short hand: the machine goes on. -/
abbrev Out := Host.Outcome State Fault Refusal

end Sys2Proof.Machine
end

