-- ==== Sys2Proof/Machine/Coherence.lean ====
section
/-!
DEFINITION. Machine/Coherence.lean: what a read of memory returns and what a write does to memory, to the copies a die
holds and to the monitors of the line (R130 to R142, R150, R396, R412).
-/
namespace Sys2Proof.Machine

/-- The byte at a key. An unlisted byte reads as zero. -/
def State.byteAt (s : State) (k : Nat) : Byte := sparseGet 0 s.mem (s.storeKey k)

/-- n bytes from a key on. -/
def State.bytesAt (s : State) (k n : Nat) : List Byte := (List.range n).map fun i => s.byteAt (k + i)

/-- Little-endian doubleword, word and number at a key. -/
def State.numAt (s : State) (k n : Nat) : Nat := ofBytes (s.bytesAt k n)
def State.dwordAt (s : State) (k : Nat) : U64 := BitVec.ofNat 64 (s.numAt k 8)

/-- Memory with one byte changed; the canonical form lists no zero. -/
def memPut (m : List Host.Cell) (k : Nat) (b : Byte) : List Host.Cell := sparseSet 0 k b m

/-- Memory with consecutive bytes changed under bit masks. -/
def memPutMasked (m : List Host.Cell) (k : Nat) : List (Byte × Byte) → List Host.Cell
  | [] => m
  | (d, w) :: l => memPutMasked (memPut m k ((sparseGet 0 m k &&& ~~~w) ||| (d &&& w))) (k + 1) l

/-- The largest unexpired lease of a line, 0 for none (R133). -/
def State.visibility (s : State) (line : Nat) : Nat :=
  let t := sparseGet 0 s.coh.granted line
  if s.lease < t then t else 0

/-- Comparison of n-bit words (R195). -/
def cmpHolds (cc : Cmp) (n a b : Nat) : Bool :=
  match cc with
  | .eq => a == b
  | .ne => a != b
  | .lt => decide (signedOf n a < signedOf n b)
  | .ge => decide (signedOf n b ≤ signedOf n a)
  | .ltu => decide (a < b)
  | .geu => decide (b ≤ a)

/-- Bits of a wait's word. -/
def waitBits (dbl : Bool) : Nat := if dbl then 64 else 32

/-- The parts of a wait that a value at `key` satisfies take it. -/
def satisfyParts (cc : Cmp) (dbl : Bool) (key v : Nat) (ps : List WaitPart) : List WaitPart :=
  ps.map fun p =>
    if p.key = key ∧ p.got = none ∧ cmpHolds cc (waitBits dbl) v (p.val.toNat % 2 ^ waitBits dbl) then { p with got := some (BitVec.ofNat 64 v) } else p

/-- A wait has no unsatisfied part on a word. -/
def wordSatisfied (key : Nat) (ps : List WaitPart) : Bool := ps.all fun p => p.key != key || p.got.isSome

/-- A doubleword of a packet at an offset (R65). -/
def PktSt.dword (p : PktSt) (off : Nat) : Nat := (nth p.words 0 (off / 4)).toNat + (nth p.words 0 (off / 4 + 1)).toNat * 2 ^ 32

/-- The test of a WAIT_VALUE packet (R65): (memory & mask) compared with the value. -/
def PktSt.waitHolds (p : PktSt) (v : Nat) : Bool :=
  let x := v &&& p.dword 0x18
  match (nth p.words 0 1).toNat % 4 with
  | 0 => x == p.dword 0x10
  | 1 => x != p.dword 0x10
  | 2 => decide (p.dword 0x10 ≤ x)
  | _ => decide (x < p.dword 0x10)

/-- The monitors of queue q stand under the team number 2^40 + q, with the packet's index as their operation. -/
def queueMonitor : Nat := 2 ^ 40

/-- Tests one monitor with the value its word holds; answers whether it is freed (R140). -/
def State.testMonitor (s : State) (m : Monitor) : State × Bool :=
  if queueMonitor ≤ m.team then
    match (s.queue? (m.team - queueMonitor)).bind fun q => q.pkts.find? fun p => p.idx == m.op with
    | none => (s, true)
    | some p =>
        if p.waitHolds (s.numAt m.key m.n) then
          (s.modQueue (m.team - queueMonitor) fun q => { q with pkts := q.pkts.map fun x => if x.idx = m.op then { x with sat := true } else x }, true)
        else (s, false)
  else
  match s.teamBySerial m.team with
  | none => (s, true)
  | some (tk, t) =>
    match t.op? m.op with
    | some { body := .wait sr vr cc dbl ps, .. } =>
        let ps' := satisfyParts cc dbl m.key (s.numAt m.key m.n) ps
        (s.setTeam tk (t.modOp m.op fun o => { o with body := .wait sr vr cc dbl ps' }), wordSatisfied m.key ps')
    | _ => (s, true)

/-- Tests monitors in install order and keeps those still armed. -/
def testMonitors : List Monitor → State → State × List Monitor
  | [], s => (s, [])
  | m :: l, s =>
      let (s, freed) := s.testMonitor m
      let (s, rest) := testMonitors l s
      (s, if freed then rest else m :: rest)

/-- Retests the monitors of a line (R140). -/
def State.retest (s : State) (line : Nat) : State :=
  let here := s.coh.monitors.filter fun m => m.key / 128 == line
  if here.isEmpty then s else
    let (s', kept) := testMonitors here s
    { s' with coh := { s'.coh with monitors := s.coh.monitors.filter fun m => m.key / 128 != line || kept.contains m } }

/-- A line's bytes with those from `off` on changed under bit masks. -/
def patchLine (data : List Byte) (off : Nat) (bytes : List (Byte × Byte)) : List Byte :=
  (List.range 128).map fun i =>
    let old := nth data 0 i
    if off ≤ i then
      match bytes[i - off]? with
      | some (d, w) => (old &&& ~~~w) ||| (d &&& w)
      | none => old
    else old

/-- A write of bytes under bit masks, within one line, performs at its home (R133): memory, the contents the line held
before, the written bytes of the writer's own RDC copy and the monitors follow; the line's check value is computed anew (R412). Answers the visibility
time V. -/
def State.writeMasked (s : State) (die : Option Nat) (key : Nat) (bytes : List (Byte × Byte)) : State × Nat :=
  if bytes.isEmpty then (s, 0) else
    let k := s.storeKey key
    let line := k / 128
    let old := s.bytesAt (line * 128) 128
    let mem := memPutMasked s.mem k bytes
    let coh := s.coh
    let coh := if keyPeer k = 0 then { coh with hist := (line, old) :: coh.hist, dirty := if coh.dirty.contains line then coh.dirty else line :: coh.dirty } else coh
    let coh := { coh with
      rdc := coh.rdc.map fun c =>
        if c.line = key / 128 ∧ some c.die = die then { c with data := patchLine c.data (k % 128) bytes } else c
      bad := coh.bad.filter (· != line) }
    let s' := { s with mem := mem, coh := coh }
    (s'.retest line, if keyPeer k = 0 then s.visibility line else 0)

/-- A write of whole bytes. -/
def State.writeBytes (s : State) (die : Option Nat) (key : Nat) (bytes : List Byte) : State × Nat :=
  s.writeMasked die key (bytes.map fun b => (b, 0xFF))

/-- A write of bytes that may cross lines, line by line; the largest V is answered. -/
def State.writeLong (s : State) (die : Option Nat) (key : Nat) : Nat → List Byte → State × Nat
  | 0, _ => (s, 0)
  | fuel + 1, bytes =>
      if bytes.isEmpty then (s, 0) else
        let k := 128 - key % 128
        let (s, v) := s.writeBytes die key (bytes.take k)
        let (s, w) := s.writeLong die (key + k) fuel (bytes.drop k)
        (s, max v w)

/-- A write by the command processor or a port: of n bytes of a number. -/
def State.poke (s : State) (key n v : Nat) : State :=
  let (s, w) := s.writeLong none key (n + 1) (bytesOf v n)
  { s with cp := { s.cp with vmax := max s.cp.vmax w } }

/-- Whether a read of a line by a die may use the die's RDC copy (R130, R158, R159). -/
def rdcAllowed (_s : State) (die key : Nat) (cached : Bool) (k : Kind) (sc : Scope) : Bool :=
  let wide := match sc with
    | .device | .pod | .system => true
    | _ => false
  let podWide := match sc with
    | .pod | .system => true
    | _ => false
  if keyPeer key = 0 then (homeDie (keyPa key) != die) && (k == .plain || !wide)
  else cached && (k == .plain || !podWide)

/-- The copy a die holds of a line, if its lease runs (R132). -/
def State.liveCopy (s : State) (die line : Nat) : Option RdcCopy :=
  s.coh.rdc.find? fun c => c.die == die && c.line == line && (match c.expiry with
    | none => true
    | some t => decide (s.lease < t))

/-- Drops a die's copy of a line. -/
def State.dropCopy (s : State) (die line : Nat) : State :=
  { s with coh := { s.coh with rdc := s.coh.rdc.filter fun c => !(c.die == die && c.line == line) } }

/-- Room for one more copy in a die's RDC: of a full one a copy leaves (R24). -/
def State.rdcFit (s : State) (die line : Nat) : State :=
  let held := s.coh.rdc.filter fun c => c.die == die
  if held.length < Config.rdcLines then s else
    match held[Config.victim die line % held.length]? with
    | some c => s.dropCopy die c.line
    | none => s

/-- Fetches a line into a die's RDC, with a lease when its home is another die of the device (R132). -/
def State.fetchCopy (s : State) (die line : Nat) : State :=
  let s := (s.dropCopy die line).rdcFit die line
  let local_ := line * 128 < 2 ^ 52
  let t := s.lease + Config.leaseTicks
  let c : RdcCopy := { die := die, line := line, data := s.bytesAt (line * 128) 128, expiry := if local_ then some t else none }
  { s with coh := { s.coh with rdc := c :: s.coh.rdc, granted := if local_ then sparsePut line (max t (sparseGet 0 s.coh.granted line)) s.coh.granted else s.coh.granted } }

/-- The bytes a read returns. A live copy answers; otherwise the line is fetched (R132). BYPASS allocates no copy (R126). A read at the
home leaves the die no copy that is older than what it returned (R151). -/
def State.readVia (s : State) (die key n : Nat) (cached : Bool) (k : Kind) (sc : Scope) (policy : Nat := 0) : List Byte × State :=
  let line := key / 128
  if rdcAllowed s die key cached k sc then
    match s.liveCopy die line with
    | some c => ((c.data.drop (key % 128)).take n, s)
    | none => (s.bytesAt key n, if policy = 2 then s else s.fetchCopy die line)
  else (s.bytesAt key n, (s.dropCopy die line).dropCopy die (s.storeKey key / 128))

/-- Tokens of a line that a core holds (R131). -/
def State.tokensOf (s : State) (line core : Nat) : Nat :=
  match s.coh.tokens.find? fun t => t.1 == line && t.2.1 == core with
  | some t => t.2.2
  | none => 0

def State.setTokens (s : State) (line core n : Nat) : State :=
  let rest := s.coh.tokens.filter fun t => !(t.1 == line && t.2.1 == core)
  { s with coh := { s.coh with tokens := if n = 0 then rest else (line, core, n) :: rest } }

/-- A move of a line: of tokens, or the grant of a lease, to a core from another; 0x1FF is the backing (R131, R378). -/
structure TokenMove where
  line : Nat
  lease : Bool := false
  dst : Nat
  src : Nat
  deriving DecidableEq, Repr

/-- Room for one more line in a core's L1: of a full one a line leaves, and its tokens return to the backing (R24, R131). -/
def State.l1Fit (s : State) (line core : Nat) : State × List TokenMove :=
  let held := s.coh.tokens.filter fun t => t.2.1 == core && t.1 != line
  if held.length < (s.core core).l1 * Config.unitLines then (s, []) else
    match held[Config.victim (8 + core) line % held.length]? with
    | some t => (s.setTokens t.1 core 0, [{ line := t.1, dst := 0x1FF, src := core }])
    | none => (s, [])

/-- The cores of some dies that hold tokens of a line. -/
def State.holders (s : State) (line : Nat) (dies : List Nat) : List (Nat × Nat × Nat) :=
  s.coh.tokens.filter fun t => t.1 == line && dies.contains (s.dieOf t.2.1)

/-- The tokens that the L1s of some dies hold of a line return to the backing, for a write that no L1 of theirs makes (R131). -/
def State.returnTokens (s : State) (line : Nat) (dies : List Nat) : State × List TokenMove :=
  let held := s.holders line dies
  (held.foldl (fun s t => s.setTokens line t.2.1 0) s, held.map fun t => { line := line, dst := 0x1FF, src := t.2.1 })

/-- A core gathers a token of a line to read it. -/
def State.gatherOne (s : State) (line core : Nat) : State × List TokenMove :=
  let others := (s.holders line [s.dieOf core]).filter fun t => t.2.1 != core
  if s.tokensOf line core ≥ 1 then (s, [])
  else if others.foldl (fun n t => n + t.2.2) 0 < 64 then (s.setTokens line core 1, [{ line := line, dst := core, src := 0x1FF }])
  else
    match others.find? fun t => decide (t.2.2 > 1) with
    | some t => ((s.setTokens line t.2.1 (t.2.2 - 1)).setTokens line core 1, [{ line := line, dst := core, src := t.2.1 }])
    | none => (s, [])

/-- A core gathers the 64 tokens of a line to write it; where a monitor is armed on the line, one returns to the home slice once
the write has performed (R140). -/
def State.gatherAll (s : State) (line core : Nat) : State × List TokenMove :=
  let others := (s.holders line [s.dieOf core]).filter fun t => t.2.1 != core
  let mine := s.tokensOf line core
  let held := others.foldl (fun n t => n + t.2.2) mine
  let got := others.map (fun t => ({ line := line, dst := core, src := t.2.1 } : TokenMove))
    ++ (if held < 64 then [{ line := line, dst := core, src := 0x1FF }] else [])
  let s := (others.foldl (fun s t => s.setTokens line t.2.1 0) s).setTokens line core 64
  if s.coh.monitors.any fun m => m.key / 128 == line then (s.setTokens line core 63, got ++ [{ line := line, dst := 0x1FF, src := core }])
  else (s, got)

/-- The tokens that a core's read or write of a line through its L1 moves (R131). Retries and persistent requests are how the transfers are
found; their order is that of the model's turns. -/
def State.gatherTokens (s : State) (line core : Nat) (write : Bool) : State × List TokenMove :=
  let (s, ms) := s.l1Fit line core
  let (s, ns) := if write then s.gatherAll line core else s.gatherOne line core
  (s, ms ++ ns)

/-- The moves of a line when a core reads or writes it. A write through the L1 of a core on the line's home die gathers its tokens; any other
write leaves no L1 of the home die or of the writer's die a token (R130, R131). A read takes a copy with a lease from another
die (R132), and a token where the L1 holds it; one that takes no copy moves nothing. -/
def State.lineMoves (s : State) (core key : Nat) (write alloc l1 : Bool) : State × List TokenMove :=
  let die := s.dieOf core
  let line := key / 128
  let home := keyPeer key == 0 && homeDie (keyPa key) == die
  if write then
    if home && l1 then s.gatherTokens line core true
    else s.returnTokens line (if keyPeer key = 0 then [homeDie (keyPa key), die] else [die])
  else
    let lease : List TokenMove := if keyPeer key = 0 && !home && alloc && (s.liveCopy die line).isNone then [{ line := line, lease := true, dst := core, src := 0x1FF }] else []
    if (home || alloc) && l1 then
      let (s, ms) := s.gatherTokens line core false
      (s, lease ++ ms)
    else (s, lease)

/-- A free byte among the contents a line has held (R142). -/
def State.pickHeld (s : State) (line i : Nat) : Byte × State :=
  let cands := (s.byteAt (line * 128 + i)) :: (s.coh.hist.filter fun h => h.1 == line).map fun h => nth h.2 0 i
  let (w, s) := s.freeWord
  (nth cands 0 (w.toNat % cands.length), s)

/-- INVD of a line lying wholly inside its range: every copy goes, and each byte reads as one of the values it held. -/
def State.invdLine (s : State) (line : Nat) : State :=
  let (bs, s) := (List.range 128).foldl (fun (acc : List Byte × State) i =>
    let (b, s) := acc.2.pickHeld line i
    (acc.1 ++ [b], s)) ([], s)
  let s := (s.writeBytes none (line * 128) bs).1
  { s with coh := { s.coh with rdc := s.coh.rdc.filter (fun c => c.line != line), dirty := s.coh.dirty.filter (· != line),
                               tokens := s.coh.tokens.filter fun t => t.1 != line } }

/-- A line is written back, and dropped from every cache when `drop` (R142). -/
def State.wbkLine (s : State) (line : Nat) (drop : Bool) : State :=
  { s with coh := { s.coh with dirty := s.coh.dirty.filter (· != line),
                               rdc := if drop then s.coh.rdc.filter (fun c => c.line != line) else s.coh.rdc,
                               tokens := if drop then s.coh.tokens.filter (fun t => t.1 != line) else s.coh.tokens } }

/-- Drops every CACHED line of the RDC and L1s of a die: an acquire of pod or system scope (R159). -/
def State.dropCached (s : State) (die : Nat) : State :=
  { s with coh := { s.coh with rdc := s.coh.rdc.filter (fun c => !(c.die == die && c.expiry == none)),
                               tokens := s.coh.tokens.filter fun t => !(decide (2 ^ 45 ≤ t.1) && s.dieOf t.2.1 == die) } }

/-- A line's check value fails (R412). -/
def State.lineBad (s : State) (key : Nat) : Bool := s.coh.bad.contains (s.storeKey key / 128)

end Sys2Proof.Machine
end

