-- ==== Sys2Proof/Machine/Translate.lean ====
section
/-!
DEFINITION. Machine/Translate.lean: page walks, TLB copies, handle entries and their checks, and instruction fetch
(R87, R121 to R127, R143 to R145, R395).
-/
namespace Sys2Proof.Machine

/-- The right a walk needs (R144). -/
inductive Right | read | write | atomic | fetch
  deriving DecidableEq, Repr

/-- A failed access: the cause, the failing check of R125, the handle and the address concerned (R357, R358). -/
structure AccFault where
  cause : Cause
  check : Nat := 0
  hidx : Nat := 0
  addr : Nat := 0
  deriving DecidableEq, Repr

/-- The leaf that maps a virtual address. -/
structure Leaf where
  pte : U64
  size : Nat
  /-- AND of the permission bits X, A, W, RD of the walk -/
  perms : BitVec 4
  deriving DecidableEq, Repr

def pteV (p : U64) : Bool := p.getLsbD 0
def ptePS (p : U64) : Nat := bitsOf p.toNat 2 1
def ptePerms (p : U64) : BitVec 4 := p.extractLsb' 3 4
def pteFrame (p : U64) : Nat := bitsOf p.toNat 51 16 * 2 ^ 16
def pteMode (p : U64) : Nat := bitsOf p.toNat 55 54
def pteTclass (p : U64) : Nat := bitsOf p.toNat 53 52
def ptePeer (p : U64) : Nat := bitsOf p.toNat 63 56

/-- Page sizes by PS (R144). -/
def pageSize (ps : Nat) : Nat := match ps with
  | 1 => 2 ^ 16
  | 2 => 2 ^ 21
  | _ => 2 ^ 30

/-- A PEER and MODE a PTE may hold (R144). -/
def peerModeOk (peer mode : Nat) : Bool := !(145 ≤ peer && peer ≤ 239) && ((peer == 0) == (mode == 0))

/-- A pointer entry that the walk may follow. -/
def pointerOk (p : U64) : Bool :=
  ptePeer p == 0 && pteMode p == 0 && decide (pteFrame p < 2 ^ 39)

/-- A leaf of a size that the walk may end at. -/
def leafOk (p : U64) : Bool :=
  let sz := pageSize (ptePS p)
  pteFrame p % sz == 0 && peerModeOk (ptePeer p) (pteMode p) && (ptePeer p != 0 || decide (pteFrame p + sz ≤ 2 ^ 39))

/-- Levels of the table: the low bit and the width of the index, and the page sizes a level may hold (R143). -/
def walkLevels : List (Nat × Nat × List Nat) := [(48, 9, []), (39, 9, []), (30, 9, [3]), (16, 14, [1, 2])]

/-- What a walk ends at: the leaf that maps an address, and the pointer entries it followed. -/
structure Walked where
  leaf : Leaf
  path : List WalkCopy := []
  deriving DecidableEq, Repr

/-- The entries that a walk may use at one level (R143): the address's own; at level 0, where one of the 32 of its 2 MiB range is part of a
2 MiB page and they differ, any of them. -/
def State.levelEntries (s : State) (va table lo w : Nat) (last : Bool) : List U64 :=
  let own := s.dwordAt (table + 8 * (va / 2 ^ lo % 2 ^ w))
  if !last then [own] else
    let es := (List.range 32).map fun i => s.dwordAt (table + 8 * (va / 2 ^ 21 % 2 ^ 9 * 32 + i))
    if es.any (fun p => pteV p && ptePS p == 2) && es.any (· != own) then es else [own]

/-- One of some entries, freely (R143). -/
def State.pickEntry (s : State) : List U64 → U64 × State
  | [] => (0, s)
  | [p] => (p, s)
  | l =>
      let (x, s) := s.freeWord
      (nth l 0 (x.toNat % l.length), s)

/-- What is there now, or freely one of the older contents that some copies hold (R126, R145). -/
def State.pickCopy {α : Type} [DecidableEq α] (s : State) (now : α) (held : List α) : α × State :=
  match held.filter (· ≠ now) with
  | [] => (now, s)
  | old =>
      let (x, s) := s.freeWord
      (nth (now :: old) now (x.toNat % (old.length + 1)), s)

/-- The entry a walk on a cluster uses: one in memory, or an older copy that the cluster's walk cache holds (R145). -/
def State.tableEntry (s : State) (cluster : Option Nat) (root va table lo w : Nat) (last : Bool) : U64 × State :=
  let (now, s) := s.pickEntry (s.levelEntries va table lo w last)
  match cluster with
  | none => (now, s)
  | some c => s.pickCopy now (((sparseGet [] s.coh.walks c).filter fun e => e.root == root && e.lo == lo && e.tag == va / 2 ^ lo).map (·.pte))

/-- A walk from a table down (R143, R144); none where it takes ADDR_TRANSLATE. -/
def walkFrom (cluster : Option Nat) (root va : Nat) (table : Nat) (perms : BitVec 4) (path : List WalkCopy) :
    List (Nat × Nat × List Nat) → State → Option Walked × State
  | [], s => (none, s)
  | (lo, w, ps) :: rest, s =>
      let (p, s) := s.tableEntry cluster root va table lo w rest.isEmpty
      if !pteV p || bitsOf p.toNat 15 7 != 0 then (none, s)
      else if ptePS p = 0 then
        (if rest.isEmpty || !pointerOk p then (none, s)
         else walkFrom cluster root va (pteFrame p) (perms &&& ptePerms p) (path ++ [{ root := root, lo := lo, tag := va / 2 ^ lo, pte := p }]) rest s)
      else if ps.contains (ptePS p) && leafOk p then
        (some { leaf := { pte := p, size := pageSize (ptePS p), perms := perms &&& ptePerms p }, path := path }, s)
      else (none, s)

/-- The walk of an address, with the page-walk cache of a cluster; the command processor and the channels walk without one. -/
def State.walk (s : State) (cluster : Option Nat) (root va : Nat) : Option Walked × State :=
  if va ≥ 2 ^ 57 then (none, s) else walkFrom cluster root va root 0xF [] walkLevels s

/-- The copies a core's TLB holds for an address (R145). -/
def Core.tlbHeld (c : Core) (root va : Nat) : List TlbEntry :=
  c.tlb.filter fun e => e.root == root && decide (e.va ≤ va) && decide (va < e.va + e.size)

def TlbEntry.leaf (e : TlbEntry) : Leaf := { pte := e.pte, size := e.size, perms := e.perms }

/-- The translation a core uses: the one that a walk finds, or an older copy its TLB still holds (R145). -/
def State.lookup (s : State) (core root va : Nat) : Option Walked × State :=
  let (cur, s) := s.walk (some (core / 4)) root va
  let (x, s) := s.pickCopy (cur.map (·.leaf)) (((s.core core).tlbHeld root va).map fun e => some e.leaf)
  (if x = cur.map (·.leaf) then cur else x.map fun l => { leaf := l }, s)

/-- A translation that did not fault is copied, the leaf into the core's TLB and the pointers into the cluster's walk cache; older copies stay until
they are invalidated (R145). DESIGN CHOICE (log entry 39): a full TLB gives up its oldest translation. -/
def State.keepWalk (s : State) (core root va : Nat) (w : Walked) : State :=
  let e : TlbEntry := { root := root, va := va / w.leaf.size * w.leaf.size, size := w.leaf.size, pte := w.leaf.pte, perms := w.leaf.perms }
  let c := s.core core
  let s := if c.tlb.contains e then s else s.setCore core { c with tlb := (e :: c.tlb).take Config.tlbEntries }
  let held := sparseGet [] s.coh.walks (core / 4)
  let fresh := w.path.filter fun p => !held.contains p
  if fresh.isEmpty then s else { s with coh := { s.coh with walks := sparsePut (core / 4) (fresh ++ held) s.coh.walks } }

/-- The permission a right needs. -/
def rightBit : Right → Nat
  | .read => 0
  | .write => 1
  | .atomic => 2
  | .fetch => 3

/-- A master is frozen (R361). -/
def State.frozenMaster (s : State) (mkind mnum : Nat) : Bool :=
  if mkind = 0 then (s.core mnum).frozen else s.cp.frozen.contains (mkind, mnum)

/-- Windows that let an access in, local memory only (R14, R396, R404, R406): right bit 0 read, 1 write, 2 atomic. -/
def State.inWindow (s : State) (mkind mnum pa n right : Nat) : Bool :=
  decide (pa + n ≤ 2 ^ 39)
    && s.cp.windows.any fun w => w.mkind == mkind && w.mnum == mnum && decide (w.base ≤ pa) && decide (pa + n ≤ w.base + w.size) && w.rights.getLsbD right

/-- The forwarding entry of a frame (R398, R399). -/
def State.forwardOf (s : State) (pa : Nat) : Option (Nat × Nat) := sparseFind (pa / 65536) s.fab.forward

/-- Peer numbers that name a module or a pool gateway of the fabric (R390). -/
def fabricPeer (p : Nat) : Bool := (1 ≤ p && p ≤ 144) || (242 ≤ p && p ≤ 254)

/-- No module or gateway is bound to a peer number on the plane of a line, so that the switch answers NOROUTE (R390): of a gateway this module holds the
binding; of another module it knows what the switch has answered. -/
def State.unbound (s : State) (peer pa : Nat) : Bool :=
  if peer ≤ 144 then s.fab.absent.contains peer && s.fab.self != some peer
  else match sparseFind peer s.fab.gateways with
    | some g => !g.2.getLsbD (planeOf pa)
    | none => true

/-- Whether a fabric peer's line can be reached: both planes of its pair are not dead, and its number is bound (R390, R395). -/
def State.reachable (s : State) (peer pa : Nat) : Bool :=
  !(fabricPeer peer && ((s.fab.dead.contains (planeOf pa) && s.fab.dead.contains (planeOf pa ^^^ 1)) || s.unbound peer pa))

/-- What becomes of an access where it leaves on the fabric: it goes on; it waits, for the remap of a dead plane or at a frozen port; or, of one that names
this module by its own number and is turned back at the switch, the forwarding table answers it, or it freezes the port that it comes in at. -/
inductive Crossing
  | through
  | held
  | forward (peer frame : Nat)
  | away (port : Nat)
  deriving DecidableEq, Repr

/-- The crossing of an access to n bytes at a key: right bit 0 read, 1 write (R390, R394, R396, R399). -/
def State.crossing (s : State) (key n right : Nat) : Crossing :=
  let port := s.planeNow (keyPa key)
  if !fabricPeer (keyPeer key) then .through
  else if s.fab.dead.contains port then .held
  else if s.fab.self != some (keyPeer key) then .through
  else if s.frozenMaster 2 port then .held
  else match s.forwardOf (keyPa key) with
    | some (peer, frame) => .forward peer frame
    | none => if s.inWindow 2 port (keyPa key) n right then .through else .away port

def State.crosses (s : State) (key n right : Nat) : Bool := s.crossing key n right == .through

/-- Where a virtual address lies. -/
structure Spot where
  key : Nat
  mode : Nat
  tclass : Nat
  policy : Nat := 0
  deriving DecidableEq, Repr

/-- The threshold class of a page whose accesses are counted (R397). -/
def Spot.migrate (sp : Spot) : Option Nat := if sp.mode = 3 then some sp.tclass else none

/-- The place that the tables give an address, for a right (check 6 of R125). DESIGN CHOICE (log entry 7): a walk that meets both an
entry that takes ADDR_TRANSLATE and one whose permission forbids the access takes ADDR_TRANSLATE. -/
def mappedAt (va : Nat) (r : Right) : Option Walked → Except Cause Spot
  | none => .error .addrTranslate
  | some w =>
      let l := w.leaf
      if !l.perms.getLsbD (rightBit r) then .error .addrPerm
      else .ok { key := keyOf (ptePeer l.pte) (pteFrame l.pte + va % l.size), mode := pteMode l.pte, tclass := pteTclass l.pte }

/-- A place whose line can be reached now; otherwise the access takes ADDR_TRANSLATE (R395). -/
def State.ifReached (s : State) (sp : Spot) : Except Cause Spot :=
  if s.reachable (keyPeer sp.key) (keyPa sp.key) then .ok sp else .error .addrTranslate

/-- The place that a translation gives an address now. -/
def State.spotOf (s : State) (va : Nat) (r : Right) (w : Option Walked) : Except Cause Spot := (mappedAt va r w).bind s.ifReached

/-- Translation of one address for a right on a core; what did not fault is copied (R145). -/
def State.translate (s : State) (core root va : Nat) (r : Right) : Except Cause Spot × State :=
  let (w, s) := s.lookup core root va
  match s.spotOf va r w, w with
  | .ok sp, some w => (.ok sp, s.keepWalk core root va w)
  | x, _ => (x, s)

/-- Translation outside any core: the command processor's and the channels', without copies. -/
def State.translateCp (s : State) (root va : Nat) (r : Right) : Except Cause Spot × State :=
  let (w, s) := s.walk none root va
  (s.spotOf va r w, s)

/-- Translation of one address on a core for an operation that reaches it later (R162). -/
def State.translateEarly (s : State) (core root va : Nat) (r : Right) : Except Cause Spot × State :=
  let (w, s) := s.lookup core root va
  match mappedAt va r w, w with
  | .ok sp, some w => (.ok sp, s.keepWalk core root va w)
  | x, _ => (x, s)

/-- n bytes at a virtual address, translated at each 16-byte part. -/
def readVaGo (core : Option Nat) (root : Nat) : Nat → Nat → Nat → List Byte → State → Except Cause (List Byte) × State
  | 0, _, _, acc, s => (.ok acc, s)
  | fuel + 1, va, n, acc, s =>
      if n = 0 then (.ok acc, s) else
        let k := min n (16 - va % 16)
        let (r, s) := match core with
          | some c => s.translate c root va .read
          | none => s.translateCp root va .read
        match r with
        | .error c => (.error c, s)
        | .ok sp => readVaGo core root fuel (va + k) (n - k) (acc ++ s.bytesAt sp.key k) s

def State.readVa (s : State) (core : Option Nat) (root va n : Nat) : Except Cause (List Byte) × State :=
  readVaGo core root (n + 1) va n [] s

/-- A doubleword at a virtual address. -/
def State.readVaNum (s : State) (core : Option Nat) (root va n : Nat) : Except Cause Nat × State :=
  let (r, s) := s.readVa core root va n
  (r.map ofBytes, s)

/-- Writes bytes at a virtual address; either every part is translated or nothing is written. -/
def spotsGo (core : Option Nat) (root : Nat) (r : Right) : Nat → Nat → Nat → List (Nat × Nat) → State → Except Cause (List (Nat × Nat)) × State
  | 0, _, _, acc, s => (.ok acc, s)
  | fuel + 1, va, n, acc, s =>
      if n = 0 then (.ok acc, s) else
        let k := min n (128 - va % 128)
        let (x, s) := match core with
          | some c => s.translate c root va r
          | none => s.translateCp root va r
        match x with
        | .error c => (.error c, s)
        | .ok sp => spotsGo core root r fuel (va + k) (n - k) (acc ++ [(sp.key, k)]) s

def State.spots (s : State) (core : Option Nat) (root va n : Nat) (r : Right) : Except Cause (List (Nat × Nat)) × State :=
  spotsGo core root r (n + 1) va n [] s

/-- Writes a list of bytes over translated runs. -/
def State.writeSpots (s : State) (die : Option Nat) : List (Nat × Nat) → List Byte → State × Nat
  | [], _ => (s, 0)
  | (k, n) :: l, bs =>
      let (s, v) := s.writeBytes die k (bs.take n)
      let (s, w) := s.writeSpots die l (bs.drop n)
      (s, max v w)

def State.writeVa (s : State) (core : Option Nat) (die : Option Nat) (root va : Nat) (bs : List Byte) : Except Cause Nat × State :=
  let (r, s) := s.spots core root va bs.length .write
  match r with
  | .error c => (.error c, s)
  | .ok sp => let (s, v) := s.writeSpots die sp bs
              (.ok v, s)

/-! Handles (R124 to R126). -/

/-- A handle entry, as four doublewords. -/
abbrev HandleEntry := List U64

def heBase (e : HandleEntry) : Nat := (nth e 0 0).toNat
def heSize (e : HandleEntry) : Nat := (nth e 0 1).toNat
def heAttr (e : HandleEntry) : Nat := (nth e 0 2).toNat
def heLayout (e : HandleEntry) : Nat := (nth e 0 3).toNat
def heKind (e : HandleEntry) : Nat := bitsOf (heAttr e) 1 0

/-- Check 2 of R125: VALID, reserved fields, POLICY and BASE. -/
def heValid (e : HandleEntry) : Bool :=
  let a := heAttr e
  bitsOf a 31 31 == 1 && bitsOf a 30 12 == 0 && bitsOf a 7 6 == 0 && bitsOf a 3 2 == 0 && bitsOf a 63 32 == 0
    && bitsOf a 5 4 != 3 && bitsOf (heBase e) 63 57 == 0 && bitsOf (heBase e) 3 0 == 0

/-- The right bits of an entry. -/
def heRR (e : HandleEntry) : Bool := bitsOf (heAttr e) 8 8 == 1
def heRW (e : HandleEntry) : Bool := bitsOf (heAttr e) 9 9 == 1
def heRA (e : HandleEntry) : Bool := bitsOf (heAttr e) 10 10 == 1
def heDisc (e : HandleEntry) : Bool := bitsOf (heAttr e) 11 11 == 1

/-- KIND of an entry matches the translated PEER (check 7). -/
def heKindOk (e : HandleEntry) (peer : Nat) : Bool :=
  match heKind e with
  | 0 => peer == 0
  | 1 => decide (1 ≤ peer ∧ peer ≤ 144)
  | 2 => peer == 255
  | _ => decide (240 ≤ peer ∧ peer ≤ 254)

/-- What an access through a handle needs. -/
inductive HRight | rr | rw | ra | disc
  deriving DecidableEq, Repr

def hRightOk (e : HandleEntry) : HRight → Bool
  | .rr => heRR e
  | .rw => heRW e
  | .ra => heRA e
  | .disc => heRW e && heDisc e

def hRight : HRight → Right
  | .rr => .read
  | .rw => .write
  | .ra => .atomic
  | .disc => .write

/-- A handle entry from its bytes. -/
def entryOf (bs : List Byte) : HandleEntry := (List.range 4).map fun i => BitVec.ofNat 64 (ofBytes ((bs.drop (8 * i)).take 8))

/-- The core takes copies of a team's handle entries as they are now: any of them may be used until the team's next SFENCE.team (R126). -/
def State.captureHandles (s : State) (t : Team) : State :=
  let got := (List.range t.desc.nhandle).filterMap fun h =>
    match (s.readVa none t.root (t.desc.htab.toNat + 32 * h) 32).1 with
    | .ok bs => some (t.serial, h, entryOf bs)
    | .error _ => none
  s.modCore t.core fun c => { c with handles := got ++ c.handles.filter fun x => x.1 != t.serial }

/-- The core keeps a copy of an entry as it has been used (R126). -/
def State.keepHandle (s : State) (t : Team) (h : Nat) (e : HandleEntry) : State :=
  if (s.core t.core).handles.contains (t.serial, h, e) then s
  else s.modCore t.core fun c => { c with handles := c.handles ++ [(t.serial, h, e)] }

/-- The entry a member of a team uses: check 1, then the entry in memory, or an older copy the core holds (R125, R126). DESIGN CHOICE (log entry 41): the
core holds the entries as they were at the team's last SFENCE.team and each that has been used since; one that was written and replaced between without
a use is held nowhere. -/
def State.handle (s : State) (t : Team) (h : Nat) : Except AccFault HandleEntry × State :=
  if h ≥ t.desc.nhandle then (.error { cause := .addrBounds, check := 1, hidx := h }, s) else
    let va := t.desc.htab.toNat + 32 * h
    let held := ((s.core t.core).handles.filter fun x => x.1 == t.serial && x.2.1 == h).map fun x => some x.2.2
    let (r, s) := s.readVa (some t.core) t.root va 32
    let (x, s) := s.pickCopy (r.toOption.map entryOf) held
    match x, r with
    | some e, _ => (.ok e, s.keepHandle t h e)
    | none, .error c => (.error { cause := c, check := 2, hidx := h, addr := va }, s)
    | none, .ok bs => (.ok (entryOf bs), s)

/-- Checks 2 to 5 of R125 on an entry: `off` and `n` in bytes, the alignment, the right; `mis` an index that is
misaligned in itself (R275). -/
def heCheck (e : HandleEntry) (h : Nat) (off : Int) (n align : Nat) (r : HRight) (mis : Bool := false) : Except AccFault Nat :=
  if !heValid e then .error { cause := .addrPerm, check := 2, hidx := h, addr := heBase e + off.toNat }
  else if off < 0 ∨ off + n > heSize e then .error { cause := .addrBounds, check := 3, hidx := h, addr := heBase e + off.toNat }
  else if !hRightOk e r then .error { cause := .addrPerm, check := 4, hidx := h, addr := heBase e + off.toNat }
  else if mis ∨ (heBase e + off.toNat) % align ≠ 0 then .error { cause := .misalign, check := 5, hidx := h, addr := heBase e + off.toNat }
  else .ok (heBase e + off.toNat)

/-- The parts of a range of virtual addresses, each translated (checks 6 and 7). DESIGN CHOICE (log entry 42): the parts are tested in turn, so that check
7 of one comes before check 6 of the next. -/
def hPartsGo (t : Team) (e : HandleEntry) (h : Nat) (r : Right) (grain : Nat) : Nat → Nat → Nat → List (Nat × Nat × Spot) → State →
    Except AccFault (List (Nat × Nat × Spot)) × State
  | 0, _, _, acc, s => (.ok acc, s)
  | fuel + 1, va, n, acc, s =>
      if n = 0 then (.ok acc, s) else
        let k := min n (grain - va % grain)
        let (x, s) := s.translate t.core t.root va r
        match x with
        | .error c => (.error { cause := c, check := 6, hidx := h, addr := va }, s)
        | .ok sp =>
            if !heKindOk e (keyPeer sp.key) then (.error { cause := .addrPerm, check := 7, hidx := h, addr := va }, s)
            else hPartsGo t e h r grain fuel (va + k) (n - k) (acc ++ [(va, k, { sp with policy := bitsOf (heAttr e) 5 4 })]) s

/-- An access through a handle: its parts (virtual address, bytes, place), or its first failing check (R125). -/
def State.access (s : State) (t : Team) (h : Nat) (off : Int) (n align : Nat) (r : HRight) (grain : Nat := 16) (mis : Bool := false) :
    Except AccFault (List (Nat × Nat × Spot)) × State :=
  let (e, s) := s.handle t h
  match e with
  | .error f => (.error { f with addr := if f.check = 1 then off.toNat else f.addr }, s)
  | .ok e =>
      match heCheck e h off n align r mis with
      | .error f => (.error f, s)
      | .ok va => hPartsGo t e h (hRight r) grain (n / grain + 2) va n [] s

/-! Instruction fetch (R87, R121, R122). -/

/-- A split refers to a lane line of a context on this core (R121). -/
def State.lineUsed (s : State) (core root : Nat) (line : Nat) : Bool :=
  (s.coreTeams core).any fun (_, t) => t.root == root && t.groups.any fun (_, g) =>
    g.splits.any fun sp => sp.st != .free && (t.desc.lbase.toNat + 96 * (sp.lpc.toNat / 8)) % 2 ^ 64 == line

/-- Drops the lane lines whose count has reached 0 since a LAUNCH invalidated them (R122). -/
def State.purgeLines (s : State) (core : Nat) : State :=
  let c := s.core core
  let gone := c.istale.filter fun x => !s.lineUsed core x.1 x.2
  if gone.isEmpty then s else
    s.setCore core { c with istale := c.istale.filter (fun x => !gone.contains x), icache := c.icache.filter fun l => !(l.lane && gone.contains (l.root, l.va)) }

/-- A LAUNCH packet starts: a core's scalar cache and its lane lines with count 0 are invalidated, the others when their count reaches 0
(R122). -/
def State.invalidateFetch (s : State) (core : Nat) : State :=
  let c := s.core core
  let kept := c.icache.filter fun l => l.lane && s.lineUsed core l.root l.va
  if c.icache.isEmpty then s else s.setCore core { c with icache := kept, istale := kept.map fun l => (l.root, l.va) }

/-- The n bytes of an instruction in memory, translated at each page they touch. -/
def State.wordNow (s : State) (core root va n : Nat) : Except Cause Nat × State :=
  let (r, s) := s.translate core root va .fetch
  match r with
  | .error c => (.error c, s)
  | .ok sp =>
      if va / 2 ^ 16 = (va + n - 1) / 2 ^ 16 then (.ok (s.numAt sp.key n), s)
      else
        let k := 2 ^ 16 - va % 2 ^ 16
        let (q, s) := s.translate core root (va + k) .fetch
        match q with
        | .error c => (.error c, s)
        | .ok sq => (.ok (s.numAt sp.key k + 2 ^ (8 * k) * s.numAt sq.key (n - k)), s)

/-- Words of a line, and bytes of a word: 8 lane instructions, or 32 scalar words (R121). -/
def lineShape (lane : Bool) : Nat × Nat := if lane then (8, 12) else (32, 4)

/-- A line as it is in memory: its words, none where one cannot be read. The first page of a line is translated once. -/
def State.readLine (s : State) (core root va : Nat) (lane : Bool) : InstrLine × State :=
  let (k, n) := lineShape lane
  let (r, s) := s.translate core root va .fetch
  let (ws, s) := (List.range k).foldl (fun (acc : List (Option U96) × State) i =>
    let a := va + n * i
    if a / 2 ^ 16 = va / 2 ^ 16 ∧ (a + n - 1) / 2 ^ 16 = va / 2 ^ 16 then
      match r with
      | .ok sp => (acc.1 ++ [some (BitVec.ofNat 96 (acc.2.numAt (sp.key + n * i) n))], acc.2)
      | .error _ => (acc.1 ++ [none], acc.2)
    else
      let (x, s) := acc.2.wordNow core root a n
      (acc.1 ++ [match x with | .ok w => some (BitVec.ofNat 96 w) | .error _ => none], s)) ([], s)
  ({ root := root, va := va, lane := lane, words := ws }, s)

/-- A line joins a core's lane buffer or scalar cache, latest used first. A full lane buffer loses its least recently used line with count 0 (R121).
DESIGN CHOICE (log entry 39): the scalar cache's 32 KiB are lines of 128 bytes, and a full one loses the least recently used (R20). -/
def State.fillLine (s : State) (core : Nat) (l : InstrLine) : State :=
  let c := s.core core
  let rest := c.icache.filter fun x => !(x.root == l.root && x.va == l.va && x.lane == l.lane)
  let mine := rest.filter fun x => x.lane == l.lane
  let gone := if mine.length < (if l.lane then Config.laneLines else Config.scalarLines) then none
    else mine.reverse.find? fun x => !l.lane || !s.lineUsed core x.root x.va
  s.setCore core { c with icache := l :: rest.filter (fun x => some x != gone) }

/-- The instruction of word `i` of the line at `va` (R121): the line that the core holds, or one it fetches. For a line changed since, the
fetch returns its old or its new content (R122); a line whose new content is used may be fetched again. -/
def State.fetch (s : State) (core root va i : Nat) (lane : Bool) : Except Cause Nat × State :=
  let s := s.purgeLines core
  let n := (lineShape lane).2
  let (now, s) := s.wordNow core root (va + n * i) n
  let refill (s : State) : State :=
    let (l, s) := s.readLine core root va lane
    s.fillLine core l
  match (s.core core).icache.find? fun x => x.root == root && x.va == va && x.lane == lane with
  | none => (now, refill s)
  | some l =>
      match nth l.words none i with
      | none => (now, refill s)
      | some w =>
          match now with
          | .ok x => if x = w.toNat then (.ok x, s.fillLine core l) else
              let (b, s) := s.freeBit
              if b then (.ok w.toNat, s.fillLine core l) else
                let (b, s) := s.freeBit
                (now, if b then s else refill s)
          | .error _ =>
              let (b, s) := s.freeBit
              (if b then .ok w.toNat else now, s.fillLine core l)

end Sys2Proof.Machine
end

