-- ==== Sys2Proof/Machine/Haeth.lean ====
section
/-!
DEFINITION. Machine/Haeth.lean: recording of events into chunks and the cistern, and the bridle that holds a replay to
its log (R375 to R389).
-/
namespace Sys2Proof.Machine

/-- One step of CRC-32C over a bit, least significant first (R381): reflected polynomial of 0x1EDC6F41. -/
def crcBit (c : U32) : U32 := if c.getLsbD 0 then (c >>> 1) ^^^ 0x82F63B78 else c >>> 1
def crcByte (c : U32) (b : Byte) : U32 :=
  crcBit (crcBit (crcBit (crcBit (crcBit (crcBit (crcBit (crcBit (c ^^^ b.setWidth 32))))))))
/-- CRC-32C of some bytes (R381). -/
def crc32c (bs : List Byte) : U32 := ~~~(bs.foldl crcByte 0xFFFFFFFF)

/-- Record level of a launch, 0 when it is not known (R375). After REPLAY_DIVERGE the replayed launch runs on unrecorded (R388). -/
def State.levelOf (s : State) (launch : Nat) : Nat := match s.launch? launch with
  | some l => if s.haeth.replay.any fun r => !r.gating && r.launch == some l.top then 0 else l.level
  | none => 0

/-- A launch is recorded at SYNC or FULL, and recording is on. Once STOP has ended it, the records go on being counted (R383). -/
def State.recorded (s : State) (launch : Nat) : Bool := s.haeth.enable && decide (s.levelOf launch ≥ 1)

/-- The context number and the identity of an agent of a team: launch, TEAMID, WHO (R377, R378). -/
structure Ctx where
  ctx : Nat
  launch : Nat
  team : Nat
  who : Nat
  lane : Nat
  icnt : Nat
  deriving DecidableEq, Repr

/-- The rider as an event's context. -/
def Team.riderCtx (t : Team) : Ctx := { ctx := 64 + t.ctx, launch := t.launch, team := t.teamId, who := 32, lane := 0, icnt := t.retired }
/-- A group's lowest active lane as an event's context. -/
def Team.laneCtx (t : Team) (g lane : Nat) : Ctx :=
  let x := (t.group? g).getD {}
  { ctx := x.slot, launch := t.launch, team := t.teamId, who := g, lane := lane, icnt := sparseGet 0 x.retired lane }

/-- Instructions that an agent of a team has retired: its rider, or a lane of a group (R379). -/
def Team.countOf (t : Team) (who lane : Nat) : Nat := if who = 32 then t.retired else (t.laneCtx who lane).icnt

/-- An agent reference (R378). -/
def aref (srcPeer launch team who : Nat) : U64 :=
  BitVec.ofNat 64 (srcPeer % 256 * 2 ^ 56 + launch % 2 ^ 16 * 2 ^ 40 + team % 2 ^ 32 * 2 ^ 8 + who % 64 * 4)

/-- An event header (R377). -/
def eventHeader (ety nx ctx lane icnt : Nat) : U64 :=
  BitVec.ofNat 64 (ety * 2 ^ 58 + nx * 2 ^ 52 + ctx * 2 ^ 45 + lane * 2 ^ 40 + icnt % 2 ^ 40)

/-- The counts of a rider or of a group's lanes, as a count-table entry holds them (R380). -/
def countEntry (t : Team) (groups : List (Nat × Group)) : List (List U64) :=
  let dw0 : U64 := BitVec.ofNat 64 t.launch
  let dw1 (who ctx : Nat) : U64 := BitVec.ofNat 64 (t.teamId * 2 ^ 32 + who * 2 ^ 26 + ctx * 2 ^ 19)
  let rider := [dw0, dw1 32 (64 + t.ctx), BitVec.ofNat 64 t.retired]
  let grp (p : Nat × Group) := [dw0, dw1 p.1 p.2.slot] ++ (List.range 16).map fun k =>
    pair64 (BitVec.ofNat 32 (sparseGet 0 p.2.retired (2 * k))) (BitVec.ofNat 32 (sparseGet 0 p.2.retired (2 * k + 1)))
  rider :: groups.map grp

/-- The entries of `b`, and those of `a` for other contexts. -/
def joinCounts (a b : List (List U64)) : List (List U64) := a.filter (fun x => !b.any fun y => y.take 2 == x.take 2) ++ b

/-- Count-table entries of a stream's chunk: every recorded context that was live on the core during it (R380). -/
def State.countTable (s : State) (stream : Nat) : List (List U64) :=
  if stream < 0x400 then
    joinCounts ((sparseFind stream s.haeth.chunks).elim [] (·.gone))
      (((s.coreTeams stream).filter fun p => s.levelOf p.2.launch ≥ 1).flatMap fun p => countEntry p.2 (p.2.gone ++ p.2.groups.filter fun g => g.2.placed))
  else []

/-- The counts of a rider and of some groups of its team, which leave a core, stay in its open chunk. -/
def State.noteCounts (s : State) (t : Team) (groups : List (Nat × Group)) : State :=
  if s.levelOf t.launch = 0 then s else
    { s with haeth := { s.haeth with chunks := sparseMod t.core (fun c => { c with gone := joinCounts c.gone (countEntry t groups) }) s.haeth.chunks } }

/-- The chunk record (R380), CRC included. -/
def chunkRecord (stream close : Nat) (c : Chunk) (table : List (List U64)) (endStamp : U128) : List Byte :=
  let words := table.flatMap id ++ c.events.flatMap id
  let len := 64 + 8 * words.length
  let w0 := 0x48544843 * 2 ^ 32 + stream * 2 ^ 20 + c.level * 2 ^ 18 + close * 2 ^ 15 + table.length
  let hdr (crc : Nat) := bytesOf w0 8 ++ bytesOf (c.id * 2 ^ 16) 8 ++ bytesOf (c.events.length * 2 ^ 32 + crc) 8 ++ bytesOf (len * 2 ^ 32) 8
    ++ bytesOf c.start.toNat 16 ++ bytesOf endStamp.toNat 16
  let body := words.flatMap fun w => bytesOf w.toNat 8
  hdr (crc32c (hdr 0 ++ body)).toNat ++ body

/-- A pad of at least 64 bytes (R383). -/
def padRecord (stream len : Nat) (stamp : U128) : List Byte :=
  let hdr (crc : Nat) := bytesOf (0x48544843 * 2 ^ 32 + stream * 2 ^ 20 + 7 * 2 ^ 15) 8 ++ bytesOf 0 8 ++ bytesOf crc 8 ++ bytesOf (len * 2 ^ 32) 8
    ++ bytesOf stamp.toNat 16 ++ bytesOf stamp.toNat 16
  let body := List.replicate (len - 64) (0 : Byte)
  hdr (crc32c (hdr 0 ++ body)).toNat ++ body

def Haeth.ring (h : Haeth) : Nat := 2 ^ h.slog2
/-- Bytes between TAIL and HEAD. -/
def Haeth.used (h : Haeth) : Nat := (h.head + h.ring - h.tail % h.ring) % h.ring

/-- Bytes a record takes at HEAD, with the pad before it (R383). -/
def Haeth.need (h : Haeth) (len : Nat) : Nat := if h.head + len ≤ h.ring then len else h.ring - h.head + len

/-- Advances TAIL past one whole record or pad (R383 WRAP); answers whether it was a record. -/
def State.skipRecord (s : State) : State × Bool :=
  let h := s.haeth
  let tail := h.tail % h.ring
  let left := h.ring - tail
  if left < 64 then ({ s with haeth := { h with tail := 0 } }, false) else
    let len := s.numAt (h.base.toNat + tail + 0x1C) 4
    let pad := bitsOf (s.numAt (h.base.toNat + tail) 8) 17 15 == 7
    let len := if len < 64 then 64 else len
    ({ s with haeth := { h with tail := (tail + len) % h.ring } }, !pad)

/-- WRAP: overwrites the oldest whole records until a record fits. -/
def makeRoom : Nat → Nat → State → State
  | 0, _, s => s
  | fuel + 1, len, s =>
      if s.haeth.used + s.haeth.need len < s.haeth.ring then s else
        let (s, r) := s.skipRecord
        makeRoom fuel len (if r then { s with haeth := { s.haeth with lost := min (2 ^ 24 - 1) (s.haeth.lost + 1) } } else s)

/-- Writes a record at HEAD, padding first where it does not fit before the end of the ring. -/
def State.putRecord (s : State) (stream : Nat) (rec : List Byte) : State :=
  let h := s.haeth
  let base := h.base.toNat
  let s :=
    if h.head + rec.length ≤ h.ring then s else
      let left := h.ring - h.head
      let pad := if left < 64 then List.replicate left (0 : Byte) else padRecord stream left s.stamp
      let s := (s.writeLong none (base + h.head) (pad.length + 1) pad).1
      { s with haeth := { s.haeth with head := 0 } }
  let at_ := s.haeth.head
  let s := (s.writeLong none (base + at_) (rec.length + 1) rec).1
  { s with haeth := { s.haeth with head := (at_ + rec.length) % s.haeth.ring } }

/-- The recorder that writes a stream: a cluster, a base die's ports, or the command processor (R376). -/
def recorderOf (stream : Nat) : Nat :=
  if stream < 0x400 then stream / 4
  else if stream < 0x800 then stream - 0x400
  else if stream < 0xC00 then 0x100 + (stream - 0x800) / 8
  else 0x200

/-- STALL holds back a recorder (R383). -/
def State.recorderStalled (s : State) (recorder : Nat) : Bool := s.haeth.stalled.any fun x => recorderOf x.1 == recorder

/-- Writes a record under the ring's policy (R383). -/
def State.emitRecord (s : State) (stream : Nat) (rec : List Byte) : State :=
  let h := s.haeth
  let lose (s : State) : State := { s with haeth := { s.haeth with lost := min (2 ^ 24 - 1) (s.haeth.lost + 1) } }
  if h.stopped then lose s
  else if h.used + h.need rec.length < h.ring && !s.recorderStalled (recorderOf stream) then s.putRecord stream rec
  else
    match h.policy.toNat with
    | 1 => (makeRoom (h.ring / 8) rec.length s).putRecord stream rec
    | 2 => lose { s with haeth := { h with stopped := true } }
    | _ => { s with haeth := { h with stalled := h.stalled ++ [(stream, rec)] } }

/-- After TAIL moves: writes the records that STALL held back, each recorder's in order, as far as they fit; `kept` are those that stay. -/
def drainStalled : List (Nat × List Byte) → List (Nat × List Byte) → State → State
  | [], kept, s => { s with haeth := { s.haeth with stalled := kept } }
  | (st, r) :: l, kept, s =>
      if s.haeth.used + s.haeth.need r.length < s.haeth.ring && !(kept.any fun x => recorderOf x.1 == recorderOf st) then
        drainStalled l kept (s.putRecord st r)
      else drainStalled l (kept ++ [(st, r)]) s

/-- A debug halt of this module's own is broadcast to the modules of a pod replay (R388). -/
def State.broadcastHalt (s : State) (diverged : Bool) : State :=
  if s.fab.self.isSome && s.haeth.replay.isSome then { s with haeth := { s.haeth with broadcast := s.haeth.broadcast ++ [diverged] } } else s

/-- A breakpoint on the opening of a chunk (R387). -/
def Haeth.armed (h : Haeth) (stream id : Nat) : Bool :=
  h.brk.any fun b => b.2.getLsbD 63 && bitsOf b.2.toNat 59 48 == stream && bitsOf b.2.toNat 47 0 == id

/-- Opens the next chunk of a stream: it takes the next CHUNKID, and a breakpoint on it fires in a recording (R380, R387). -/
def State.openChunk (s : State) (stream : Nat) : State :=
  let h := s.haeth
  let id := sparseGet 0 h.ids stream
  let s := { s with haeth := { h with chunks := sparsePut stream { id := id, start := s.stamp } h.chunks, ids := sparsePut stream (id + 1) h.ids } }
  if h.armed stream id && h.replay.isNone && !h.stopped then { s with debugHalt := s.debugHalt.orElse fun _ => some false } else s

/-- Closes the open chunk of a stream for good, and writes its record. -/
def State.endChunk (s : State) (stream code : Nat) : State :=
  match sparseFind stream s.haeth.chunks with
  | none => s
  | some c =>
      let rec_ := chunkRecord stream code c (s.countTable stream) s.stamp
      let s := { s with haeth := { s.haeth with chunks := sparseErase stream s.haeth.chunks } }
      s.emitRecord stream rec_

/-- Closes the open chunk of a stream with a code and writes its record; the next opens at once (R380). -/
def State.closeChunk (s : State) (stream code : Nat) : State :=
  if (sparseFind stream s.haeth.chunks).isSome then (s.endChunk stream code).openChunk stream else s

/-- Closes a core's chunk where one is open: on a trap, a pre-emption, a team start or exit (R380). -/
def State.closeCore (s : State) (core code : Nat) : State := if s.haeth.enable then s.closeChunk core code else s

/-- Bytes of the record that a chunk would have. -/
def State.recordSize (s : State) (stream : Nat) (c : Chunk) : Nat :=
  64 + 8 * ((s.countTable stream).foldl (fun n e => n + e.length) 0 + c.events.foldl (fun n e => n + e.length) 0)

/-- Closes a core's chunk where `n` more entries of its count table would take its record past 64 KiB or past 80 entries. DESIGN CHOICE (log entry 13):
it closes with code 6 in both cases; R380 gives no other code for the second. -/
def State.countRoom (s : State) (core n : Nat) : State :=
  match sparseFind core s.haeth.chunks with
  | some c => if s.recordSize core c + 144 * n > 65536 ∨ 80 < (s.countTable core).length + n then s.closeChunk core 6 else s
  | none => s

/-- Records an event of a stream at a launch's level (R375 to R378, R380). -/
def State.record (s : State) (stream level evLevel ety : Nat) (c : Ctx) (body : List U64) : State :=
  if !s.haeth.enable || decide (level < evLevel) then s else
    let s := if (sparseFind stream s.haeth.chunks).isSome then s else s.openChunk stream
    let seq := sparseGet 0 s.haeth.seqs stream
    let hd := if stream < 0x400 then eventHeader ety body.length c.ctx c.lane c.icnt else eventHeader ety body.length 0x7F 0 seq
    let ev := hd :: body
    let s := { s with haeth := { s.haeth with seqs := sparsePut stream (seq + 1) s.haeth.seqs } }
    let cur := sparseGet { id := 0 } s.haeth.chunks stream
    let s := if s.recordSize stream cur + 8 * ev.length > 65536 ∨ 80 < (s.countTable stream).length then s.closeChunk stream 6 else s
    { s with haeth := { s.haeth with chunks := sparseMod stream (fun c =>
        { c with events := c.events ++ [ev], level := max c.level evLevel, start := if c.events.isEmpty then s.stamp else c.start }) s.haeth.chunks } }

/-- The event of a core's stream for a team that is not resident there. DESIGN CHOICE (log entry 13): it carries the lowest rider context that no team
of the core has, for which the chunk's count table takes an entry with the team's count so far. -/
def State.recordAbsent (s : State) (core launch team ety : Nat) (body : List U64) : State :=
  let ctx := 64 + ((List.range 16).find? fun k => !(s.coreTeams core).any fun x => x.2.ctx == k).getD 15
  let n := ((s.cp.saved.find? fun x => x.team.launch == launch && x.team.teamId == team).map (·.team.retired)).getD 0
  let entry : List U64 := [BitVec.ofNat 64 launch, BitVec.ofNat 64 (team * 2 ^ 32 + 32 * 2 ^ 26 + ctx * 2 ^ 19), BitVec.ofNat 64 n]
  if !s.haeth.enable || s.levelOf launch = 0 then s else
    let s := (s.countRoom core 1).record core (s.levelOf launch) 1 ety { ctx := ctx, launch := launch, team := team, who := 32, lane := 0, icnt := n } body
    { s with haeth := { s.haeth with chunks := sparseMod core (fun c => { c with gone := joinCounts c.gone [entry] }) s.haeth.chunks } }

/-- Counts lane instructions retired by a core's recorded contexts in its open chunk. -/
def State.chunkRetire (s : State) (core launch n : Nat) : State :=
  if !s.recorded launch then s else
    let s := if (sparseFind core s.haeth.chunks).isSome then s else s.openChunk core
    { s with haeth := { s.haeth with chunks := sparseMod core (fun c => { c with retired := c.retired + n }) s.haeth.chunks } }

/-- A chunk has reached its count (R380, code 0). -/
def State.chunkDue (s : State) (stream : Nat) : Bool :=
  match sparseFind stream s.haeth.chunks with
  | none => false
  | some c => if stream < 0x400 then decide (2 ^ s.haeth.clog2 ≤ c.retired) else decide (4096 ≤ c.events.length)

/-! Reading a log back (R384). -/

/-- One record at the head of some bytes: MAGIC and LEN as R384 requires. -/
def logRecordOk (bs : List Byte) : Option Nat :=
  if bs.length < 64 then none else
    let len := ofBytes ((bs.drop 0x1C).take 4)
    if ofBytes ((bs.drop 4).take 4) = 0x48544843 ∧ 64 ≤ len ∧ len % 8 = 0 ∧ len ≤ bs.length then some len else none

/-- The words of a record's body. -/
def wordsOf (bs : List Byte) : Nat → List U64
  | 0 => []
  | n + 1 => BitVec.ofNat 64 (ofBytes (bs.take 8)) :: wordsOf (bs.drop 8) n

/-- Count-table entries at the head of a record's words. -/
def takeCounts : Nat → List U64 → List (Nat × Nat × Nat × Nat × List Nat) × List U64
  | 0, ws => ([], ws)
  | n + 1, a :: b :: ws =>
      let who := bitsOf b.toNat 31 26
      let k := if who = 32 then 1 else 16
      let counts := if who = 32 then [(nth ws 0 0).toNat] else (ws.take 16).flatMap fun w => [(lo32 w).toNat, (hi32 w).toNat]
      let (r, ws') := takeCounts n (ws.drop k)
      ((a.toNat, bitsOf b.toNat 63 32, who, bitsOf b.toNat 25 19, counts) :: r, ws')
  | _, ws => ([], ws)

/-- Events of a record, each with its header. -/
def takeEvents : Nat → List U64 → List (List U64)
  | 0, _ => []
  | _, [] => []
  | n + 1, h :: ws =>
      let nx := bitsOf h.toNat 57 52
      (h :: ws.take nx) :: takeEvents n (ws.drop nx)

/-- A record as a chunk of the log. -/
def parseRecord (bs : List Byte) : LogChunk :=
  let w0 := ofBytes (bs.take 8)
  let w1 := ofBytes ((bs.drop 8).take 8)
  let w2 := ofBytes ((bs.drop 16).take 8)
  let zeroed := bs.take 16 ++ [0, 0, 0, 0] ++ bs.drop 20
  let ws := wordsOf (bs.drop 64) ((bs.length - 64) / 8)
  let (counts, rest) := takeCounts (bitsOf w0 6 0) ws
  { stream := bitsOf w0 31 20, id := bitsOf w1 63 16, crcOk := (crc32c zeroed).toNat == bitsOf w2 31 0, counts := counts,
    events := takeEvents (bitsOf w2 63 32) rest }

/-- Walks a log record by record; none when a record is not well formed (R384). Pads are skipped. -/
def parseLog : Nat → List Byte → Option (List LogChunk)
  | 0, bs => if bs.isEmpty then some [] else none
  | fuel + 1, bs =>
      if bs.isEmpty then some [] else
        match logRecordOk bs with
        | none => none
        | some len =>
            match parseLog fuel (bs.drop len) with
            | none => none
            | some r => if bitsOf (ofBytes (bs.take 8)) 17 15 = 7 then some r else some (parseRecord (bs.take len) :: r)

/-- What a stream of a replay expects next. -/
inductive Expect
  | event (chunk idx : Nat) (ev : List U64) (counts : List (Nat × Nat × Nat × Nat × List Nat))
  | exhausted (chunk : Nat)
  | missing (chunk : Nat)
  | badCrc (chunk : Nat)
  deriving DecidableEq, Repr

/-- The chunk and index a stream stands at. -/
def Replay.pos (r : Replay) (stream : Nat) : Nat × Nat × Nat := sparseGet (0, 0, 0) r.next stream

/-- The next event of a stream, from chunk `c`, index `i` on. -/
def expectFrom (log : List LogChunk) (stream : Nat) : Nat → Nat → Nat → Expect
  | 0, c, _ => .exhausted c
  | fuel + 1, c, i =>
      match log.find? fun x => x.stream == stream && x.id == c with
      | none => if log.any fun x => x.stream == stream && decide (x.id > c) then .missing c else .exhausted c
      | some k =>
          if !k.crcOk then .badCrc c
          else if h : i < k.events.length then .event c i k.events[i] k.counts
          else expectFrom log stream fuel (c + 1) 0

def Replay.expect (r : Replay) (stream : Nat) : Expect :=
  let (c, i, _) := r.pos stream
  expectFrom r.log stream (r.log.length + 1) c i

/-- A core-stream event is of an agent, by its CTX and the chunk's count table (R377, R384). -/
def ofAgent (ev : List U64) (counts : List (Nat × Nat × Nat × Nat × List Nat)) (launch team who : Nat) : Bool :=
  counts.any fun c => c.2.2.2.1 == bitsOf (nth ev 0 0).toNat 51 45 && (c.1, c.2.1, c.2.2.1) == (launch, team, who)

/-- The identity of a core-stream event through the chunk's count table (R377, R384). -/
def eventAgent (ev : List U64) (counts : List (Nat × Nat × Nat × Nat × List Nat)) : Option (Nat × Nat × Nat) :=
  let ctx := bitsOf (nth ev 0 0).toNat 51 45
  (counts.find? fun c => c.2.2.2.1 == ctx).map fun c => (c.1, c.2.1, c.2.2.1)

def evType (ev : List U64) : Nat := bitsOf (nth ev 0 0).toNat 63 58
def evLane (ev : List U64) : Nat := bitsOf (nth ev 0 0).toNat 44 40
def evIcnt (ev : List U64) : Nat := bitsOf (nth ev 0 0).toNat 39 0
def evBody (ev : List U64) : List U64 := ev.drop 1

/-- Every remaining event of a stream. -/
def Replay.rest (r : Replay) (stream : Nat) : List (List U64 × List (Nat × Nat × Nat × Nat × List Nat)) :=
  let (c, i, _) := r.pos stream
  r.log.flatMap fun k => if k.stream ≠ stream ∨ k.id < c then [] else
    ((if k.id = c then k.events.drop i else k.events).map fun e => (e, k.counts))

/-- What the bridle says to a loggable event (R384, R386). -/
inductive Gate
  /-- no replay gates this agent -/
  | free
  /-- it is the next event: its following doublewords -/
  | go (body : List U64)
  /-- its turn has not come -/
  | hold
  /-- the case WHY with the observed type -/
  | diverge (why : Nat)
  deriving DecidableEq, Repr

/-- The replay that gates a launch: the replayed grid or a child grid below it. -/
def State.gating (s : State) (launch : Nat) : Option Replay :=
  match s.haeth.replay with
  | some r => if r.gating && r.launch == some (((s.launch? launch).map (·.top)).getD launch) then some r else none
  | none => none

/-- The log is of a recording at FULL. -/
def Replay.full (r : Replay) : Bool := r.log.any fun k => k.events.any fun e => evType e == 0x10 || evType e == 0x11

/-- The gate of an event of a core stream (R384). -/
def State.gateCore (s : State) (stream ety : Nat) (c : Ctx) : Gate :=
  match s.gating c.launch with
  | none => .free
  | some r =>
      let same (e : List U64) (counts : List (Nat × Nat × Nat × Nat × List Nat)) : Bool :=
        ofAgent e counts c.launch c.team c.who && evLane e == c.lane && evIcnt e == c.icnt % 2 ^ 40
      match r.expect stream with
      | .event _ _ ev counts =>
          if same ev counts then (if evType ev = ety then .go (evBody ev) else .diverge 3)
          else if (r.rest stream).any fun x => same x.1 x.2 && evType x.1 == ety then .hold
          else .diverge 2
      | .badCrc _ => .diverge 4
      | .missing _ => .diverge 5
      | .exhausted _ => .diverge 2

/-- Moves a stream of the replay past its next event. -/
def State.stepReplay (s : State) (stream : Nat) : State :=
  match s.haeth.replay with
  | none => s
  | some r =>
      match r.expect stream with
      | .event c i _ _ => { s with haeth := { s.haeth with replay := some { r with next := sparsePut stream (c, i + 1, s.clk.cycle) r.next } } }
      | _ => s

/-- REPLAY_DIVERGE: SY.DIVPOS and SY.DIVEVT take the event the stream expected, and a debug halt is broadcast (R386, R388). The first case is the one
reported; of several in one cycle, that of the lowest stream. -/
def State.diverge (s : State) (stream why obs : Nat) : State :=
  match s.haeth.replay with
  | none => s
  | some r =>
      let (exp, chunk, idx) := match r.expect stream with
        | .event c i ev _ => (evType ev, c, i)
        | .exhausted c => (0, c, 0)
        | .missing c => (0, c, 0)
        | .badCrc c => (0, c, 0)
      let obs := if why = 4 ∨ why = 5 then 0 else obs
      let later := match r.diverged with
        | none => false
        | some c => !(c == s.clk.cycle && decide (stream < bitsOf s.haeth.divpos.toNat 63 52))
      if later then s else
        let s := if r.diverged.isNone then s.broadcastHalt true else s
        { s with haeth := { s.haeth with divpos := BitVec.ofNat 64 (stream * 2 ^ 52 + chunk % 2 ^ 48),
                                         divevt := BitVec.ofNat 64 (exp * 2 ^ 58 + obs * 2 ^ 52 + why * 2 ^ 48 + idx),
                                         replay := some { r with diverged := some s.clk.cycle } },
                 debugHalt := some true }

/-- A loggable event of a core stream: recorded, or held to the replay's log. Answers the logged doublewords, whether
the event may go on, and the state. -/
def State.coreEvent (s : State) (core ety : Nat) (c : Ctx) (body : List U64) (evLevel : Nat := 1) : Option (List U64) × Bool × State :=
  match s.gateCore core ety c with
  | .free => (none, true, s.record core (s.levelOf c.launch) evLevel ety c body)
  | .go b => (some b, true, s.stepReplay core)
  | .hold => (none, false, s)
  | .diverge w => (none, false, s.diverge core w ety)

/-! ISSUE events (R378, R385): runs of CTX, SPLITID and a count, two per doubleword, the lower first. -/

/-- The runs of an ISSUE event: (CTX × 4 + SPLITID, instructions). -/
def issueRuns (ev : List U64) : List (Nat × Nat) :=
  (ev.drop 1).flatMap fun w => ([bitsOf w.toNat 31 0, bitsOf w.toNat 63 32].filter (· != 0)).map fun r => (r / 2 ^ 23, r % 2 ^ 23)

/-- An ISSUE event of some runs, under the header of `ev`. -/
def packRuns : List (Nat × Nat) → List U64
  | [] => []
  | [(k, n)] => [BitVec.ofNat 64 (k * 2 ^ 23 + n)]
  | (k, n) :: (j, m) :: l => BitVec.ofNat 64 ((j * 2 ^ 23 + m) * 2 ^ 32 + k * 2 ^ 23 + n) :: packRuns l

/-- An ISSUE event with one more instruction of `key`; none where it is full. -/
def joinRun (ev : List U64) (key : Nat) : Option (List U64) :=
  let rs := issueRuns ev
  let rs' := match rs.getLast? with
    | some (k, n) => if k = key ∧ n + 1 < 2 ^ 23 then rs.dropLast ++ [(k, n + 1)] else rs ++ [(key, 1)]
    | none => [(key, 1)]
  if rs'.length > 126 then none else
    let ws := packRuns rs'
    let h := (nth ev 0 0).toNat
    some (BitVec.ofNat 64 (h / 2 ^ 58 * 2 ^ 58 + ws.length * 2 ^ 52 + h % 2 ^ 52) :: ws)

/-- The run an ISSUE event has reached after `n` instructions. -/
def runAt : List (Nat × Nat) → Nat → Option Nat
  | [], _ => none
  | (k, m) :: l, n => if n < m then some k else runAt l (n - m)

/-- An instruction of a recorded context issues: at FULL, the run of its context and split grows (R385). -/
def State.recordIssue (s : State) (core : Nat) (c : Ctx) (split : Nat) : State :=
  if s.levelOf c.launch < 2 || (s.gating c.launch).isSome then s else
    let key := c.ctx * 4 + split
    let joined := match sparseFind core s.haeth.chunks with
      | none => none
      | some k => match k.events.getLast? with
        | some ev => if evType ev = 0x10 ∧ s.recordSize core k + 8 ≤ 65536 then (joinRun ev key).map fun e => k.events.dropLast ++ [e] else none
        | none => none
    match s.haeth.enable, joined with
    | true, some evs => { s with haeth := { s.haeth with chunks := sparseMod core (fun k => { k with events := evs }) s.haeth.chunks } }
    | _, _ => s.record core (s.levelOf c.launch) 2 0x10 c (packRuns [(key, 1)])

/-- A run of a log is of an agent: its CTX names it there. -/
def runOf (key : Nat) (counts : List (Nat × Nat × Nat × Nat × List Nat)) (launch team who : Nat) : Bool :=
  counts.any fun c => c.2.2.2.1 == key / 4 && (c.1, c.2.1, c.2.2.1) == (launch, team, who)

/-- In a replay at FULL, whether the log lets this context and split issue next on its core (R385). -/
def State.issueOpen (s : State) (core : Nat) (c : Ctx) (split : Nat) : Bool :=
  match s.gating c.launch with
  | none => true
  | some r =>
      if !r.full then true else
        match r.expect core with
        | .event _ _ ev counts =>
            if evType ev = 0x10 then
              match runAt (issueRuns ev) (sparseGet 0 r.run core) with
              | some k => runOf k counts c.launch c.team c.who && k % 4 == split
              | none => true
            else ofAgent ev counts c.launch c.team c.who
        | _ => true

/-- An instruction of a replayed context issued: the log's run is used up by one. -/
def State.replayIssue (s : State) (core : Nat) (c : Ctx) : State :=
  match s.gating c.launch with
  | none => s
  | some r =>
      if !r.full then s else
        match r.expect core with
        | .event _ _ ev _ =>
            if evType ev ≠ 0x10 then s else
              let n := sparseGet 0 r.run core + 1
              let total := (issueRuns ev).foldl (fun a x => a + x.2) 0
              let s' := { s with haeth := { s.haeth with replay := some { r with run := sparsePut core (if n < total then n else 0) r.run } } }
              if n < total then s' else s'.stepReplay core
        | _ => s

/-- An instruction of a context has issued. -/
def State.issued (s : State) (core : Nat) (c : Ctx) (split : Nat) : State := (s.recordIssue core c split).replayIssue core c

/-- Recording of a shared stream's event. -/
def State.sharedEvent (s : State) (stream level ety : Nat) (body : List U64) : State :=
  s.record stream level 1 ety { ctx := 0x7F, launch := 0, team := 0, who := 63, lane := 0, icnt := 0 } body

/-- A rider, or some lanes of a group, have reached their counts in a count table that lists them: `who` as there (R387). A group that is not there has
reached them once the lanes of its GROUPID had. -/
def Team.atCounts (t : Team) (who : Nat) (lanes : U32) (table : List (Nat × Nat × Nat × Nat × List Nat)) : Bool :=
  match table.find? fun c => c.1 == t.launch && c.2.1 == t.teamId && c.2.2.1 == who with
  | none => false
  | some (_, _, _, _, counts) =>
      if who = 32 then decide (nth counts 0 0 ≤ t.retired)
      else
        let retired := (t.countsOf who).2
        (lanesOf lanes).all fun l => decide (nth counts 0 l ≤ sparseGet 0 retired l % 2 ^ 32)

/-- An armed breakpoint of a replay that holds a context which has reached its counts: `who` as in a count table, with its lanes (R387). -/
def State.brkHolds (s : State) (t : Team) (who : Nat) (lanes : U32) : Bool :=
  match s.haeth.replay with
  | none => false
  | some r =>
      r.gating && (List.range 8).any fun n =>
        let b := sparseGet 0 s.haeth.brk n
        b.getLsbD 63 && !s.haeth.fired.contains n && bitsOf b.toNat 59 48 == t.core
          && match r.log.find? fun k => k.stream == t.core && k.id + 1 == bitsOf b.toNat 47 0 with
            | none => false
            | some k => t.atCounts who lanes k.counts

/-- The count table of the first chunk still to come of a core's stream that a team's pre-emption closes (R378, R380). -/
def Replay.preTable (r : Replay) (t : Team) : Option (List (Nat × Nat × Nat × Nat × List Nat)) :=
  let (c, i, _) := r.pos t.core
  let ks := r.log.filter fun k => k.stream == t.core && decide (c ≤ k.id) && (if k.id = c then k.events.drop i else k.events).any fun e =>
    evType e == 0x0A && ofAgent e k.counts t.launch t.teamId 32
  (ks.foldl (fun (b : Option LogChunk) k => match b with
    | none => some k
    | some x => if k.id < x.id then some k else b) none).map (·.counts)

/-- A replay holds a context that has reached its counts at its team's next logged pre-emption, which comes at the same counts (R378). -/
def State.preHolds (s : State) (t : Team) (who : Nat) (lanes : U32) : Bool :=
  ((s.gating t.launch).bind (·.preTable t)).any (t.atCounts who lanes)

/-- Every context of a team that a count table lists has reached its counts. -/
def Team.allAtCounts (t : Team) (table : List (Nat × Nat × Nat × Nat × List Nat)) : Bool :=
  table.all fun c => !(c.1 == t.launch && c.2.1 == t.teamId) || t.atCounts c.2.2.1 (BitVec.allOnes 32) table

/-- A team of a replay that is not resident has ended: it has been distributed, and is neither pending nor saved. -/
def State.teamOver (s : State) (r : Replay) (launch team : Nat) : Bool :=
  match s.launch? launch with
  | none => r.isOver.contains launch
  | some l => decide (team < l.next) && !(s.cores.any fun c => c.2.pending.any fun p => p.launch == launch && p.teamId == team)
      && !s.cp.saved.any fun x => x.team.launch == launch && x.team.teamId == team

/-- Every context in the count table of chunk `id - 1` has reached its counts (R387). -/
def State.countsReached (s : State) (r : Replay) (stream id : Nat) : Bool :=
  match r.log.find? fun k => k.stream == stream && k.id + 1 == id with
  | none => false
  | some k => k.counts.all fun (launch, team, who, _, _) =>
      match s.teams.find? fun p => p.2.launch == launch && p.2.teamId == team with
      | none => s.teamOver r launch team
      | some (_, t) => t.atCounts who (BitVec.allOnes 32) k.counts

/-- A replay's breakpoint that is due (R387): for CHUNKID 0 at a team start, on the stream's core where it is a core's. -/
def State.breakDue (s : State) (n : Nat) : Bool :=
  let b := sparseGet 0 s.haeth.brk n
  match s.haeth.replay with
  | none => false
  | some r =>
      let stream := bitsOf b.toNat 59 48
      let id := bitsOf b.toNat 47 0
      b.getLsbD 63 && r.gating && !s.haeth.fired.contains n &&
        (if id = 0 then s.teams.any fun p => (s.gating p.2.launch).isSome && (p.2.core == stream || decide (0x400 ≤ stream)) && p.2.retired == 0
         else s.countsReached r stream id)

end Sys2Proof.Machine
end

