-- ==== Sys2Proof/Machine/Ops.lean ====
section
/-!
DEFINITION. Machine/Ops.lean: the named operations every family shares: taking an exception and returning from one
(R351 to R360), killing a team (R353), retiring an instruction, issuing an operation in its order (R151 to R160) and
completing it (R136, R137).
-/
namespace Sys2Proof.Machine

/-- Trap cause codes (R351). -/
def causeCode : Cause → Nat
  | .illegal => 0x01 | .regEmpty => 0x02 | .addrTranslate => 0x03 | .addrPerm => 0x04 | .addrBounds => 0x05 | .misalign => 0x06
  | .stackOverflow => 0x07 | .nestOverflow => 0x08 | .atomicLost => 0x09 | .spawnLimit => 0x0A | .brk => 0x0B | .preempt => 0x10
  | .halt => 0x11 | .noProgress => 0x12 | .integrity => 0x13 | .replayDiverge => 0x14

/-- Engine status codes (R289). -/
def statusCode : EStatus → Nat
  | .ok => 1 | .badDesc => 2 | .bounds => 3 | .perm => 4 | .translate => 5 | .misalign => 6 | .refused => 7 | .cancelled => 8
  | .integrity => 9 | .timeout => 10

/-- The engine status of a failed access (R292). -/
def statusOf : Cause → EStatus
  | .addrTranslate => .translate
  | .addrPerm => .perm
  | .addrBounds => .bounds
  | .misalign => .misalign
  | _ => .badDesc

/-! The stack frames and the split table as doublewords (R100, R106). -/

def splitStCode : SplitSt → Nat
  | .free => 0 | .run => 1 | .park => 2
def depthCode : Option Nat → Nat
  | none => 0x1FF
  | some k => k
/-- An entry of the split table, 128 bits (R100). -/
def splitWord (x : Split) : Nat :=
  x.fmt.toNat * 2 ^ 96 + splitStCode x.st * 2 ^ 94 + depthCode x.frm * 2 ^ 85 + x.lpc.toNat * 2 ^ 32 + x.mask.toNat
def frameKindCode : FrameKind → Nat
  | .join => 0 | .serial => 1 | .call => 2
/-- A frame as its 32 bytes (R106). -/
def frameBytes (f : Frame) : List Byte :=
  bytesOf (frameKindCode f.kind * 2 ^ 62 + f.owner * 2 ^ 60 + depthCode f.parent * 2 ^ 51 + f.rpc.toNat * 2 ^ 24 + f.dpc.toNat) 8
    ++ bytesOf (f.park.toNat * 2 ^ 32 + f.full.toNat) 8 ++ bytesOf (f.dmask.toNat * 2 ^ 32 + f.fmt.toNat) 8 ++ bytesOf 0 8
/-- A frame from its bytes; the reserved bits of its FMT read as zero (R6, R57). -/
def frameOf (bs : List Byte) : Frame :=
  let w (i : Nat) := ofBytes ((bs.drop (8 * i)).take 8)
  let parent := bitsOf (w 0) 59 51
  { kind := match bitsOf (w 0) 63 62 with | 0 => .join | 1 => .serial | _ => .call
    owner := bitsOf (w 0) 61 60
    parent := if parent = 0x1FF then none else some parent
    rpc := BitVec.ofNat 24 (bitsOf (w 0) 47 24), dpc := BitVec.ofNat 24 (bitsOf (w 0) 23 0)
    park := BitVec.ofNat 32 (bitsOf (w 1) 63 32), full := BitVec.ofNat 32 (bitsOf (w 1) 31 0)
    dmask := BitVec.ofNat 32 (bitsOf (w 2) 63 32), fmt := BitVec.ofNat 32 (bitsOf (w 2) 19 0) }

/-! Operations in flight. -/

/-- Its results land in registers that stay allocated until then (R306). -/
def holdsGroup : OpBody → Bool
  | .qmma .. => true
  | _ => false

/-- Ends a group whose QMMAs have landed: its slot and registers are released, and what its stores and reads must wait for stays with the team
(R95, R156, R306). Its other operations in flight run on, under a number that no group has. -/
def Team.dropEnded (t : Team) (g : Nat) : Team :=
  match t.group? g with
  | some x =>
      if x.ended && !(t.ops.any fun o => o.group == some g && !o.done && holdsGroup o.body) then
        { t with groups := sparseErase g t.groups, endedV := max t.endedV (max x.vmax x.seen), gone := t.gone ++ [(g, x)],
                 counts := sparsePut g (x.icnt, x.retired) t.counts,
                 ops := t.ops.map fun o => if o.group = some g then { o with group := some (32 + g) } else o }
      else t
  | none => t

/-- An operation that ends with the group that waits for it: a wait on a value, or a stall on SPAWN. -/
def endsWithGroup : OpBody → Bool
  | .wait .. | .stall => true
  | _ => false

/-- A group has no live lane: its rein entries are discarded, its waits are over, and it ends once its operations have landed (R95). -/
def Team.endGroup (t : Team) (g : Nat) : Team :=
  let t := t.modGroup g fun x => { x with ended := true, live := 0, rein := [], frames := [], spilled := 0, traps := [], halted := false,
                                          splits := [{}, {}, {}, {}], stalls := [] }
  let waits := t.barWaits.filter fun (w : BarWait) => match w.who with
    | some p => p.1 != g
    | none => true
  let ops := t.ops.map fun (o : Op) => if o.group == some g && endsWithGroup o.body then { o with done := true } else o
  ({ t with barWaits := waits, ops := pruneOps ops } : Team).dropEnded g

/-- After EXIT, rein-fed groups that are idle with nothing queued end (R95). -/
def Team.settle (t : Team) : Team :=
  if !t.exited then t else
    (t.groups.filter fun p => !p.2.spawned && !p.2.ended && !p.2.halted && p.2.idle && p.2.rein.isEmpty).foldl (fun t p => t.endGroup p.1) t

/-- Completes an operation, on its path and in the group that issued it. -/
def Team.complete (t : Team) (id : Nat) : Team :=
  match t.op? id with
  | none => t
  | some o =>
      let t := t.opDone id
      let t := { t with groups := t.groups.map fun (g, x) => (g, { x with stalls := x.stalls.filter fun y => y.2 != id }) }
      match o.group with
      | some g => t.dropEnded g
      | none => t

/-- Removes an operation as though it had not issued. -/
def Team.withdraw (t : Team) (id : Nat) : Team := { t with ops := pruneOps (t.ops.filter fun o => o.id != id) }

/-- Frees the monitors of an operation (R140). -/
def State.freeMonitors (s : State) (team op : Nat) : State :=
  { s with coh := { s.coh with monitors := s.coh.monitors.filter fun m => !(m.team == team && m.op == op) } }

/-- Places an operation's parts touch, by lane: for the same-location rule (R151). -/
def bodyPlaces : OpBody → List (Nat × Place × Nat)
  | .load _ ps => ps.map fun p => (p.lane, p.place, p.n)
  | .store ps => ps.map fun p => (p.lane, p.place, p.n)
  | .range _ rs => rs.flatMap fun r => (List.range 32).map fun l => (l, .mem r.1, r.2)
  | .wait _ _ _ dbl ps => ps.map fun p => (p.lane, .mem p.key, if dbl then 8 else 4)
  | .atom _ _ _ _ _ _ ps => ps
  | .claim _ _ _ desc => [(0, .mem desc, 8)]
  | _ => []

/-- Two places meet. -/
def placesMeet (a : Place) (n : Nat) (b : Place) (m : Nat) : Bool :=
  let meet (x y : Nat) : Bool := decide (x < y + m) && decide (y < x + n)
  match a, b with
  | .mem x, .mem y => meet x y
  | .scr x, .scr y => meet x y
  | .acc x, .acc y => meet x y
  | _, _ => false

/-- How far a scope reaches: the lanes of one split, of a group, a team, the teams of a core, of a cluster, the agents of a die, of the module, of the
pod, or every agent (R148). An order of a reach below `allReach` holds towards the observers inside it alone. -/
def scopeReach : Scope → Nat
  | .split => 1 | .group => 2 | .team => 3 | .core => 4 | .cluster => 5 | .die => 6 | .device => 7 | .pod => 8 | .system => 9
def allReach : Nat := 9

/-- Scope of die or wider: its stores are ordered by the store queue, for every observer (R134). -/
def wideScope (sc : Scope) : Bool := decide (6 ≤ scopeReach sc)

/-- An access as R153 classes it. -/
structure AccClass where
  load : Bool
  store : Bool
  strong : Bool
  acq : Bool
  rel : Bool
  reach : Nat

/-- Class of an operation's accesses; none for operations of the engines. An RMW counts as a load of its kind where it is strong, acquire or
acq_rel; one of kind release counts as a release alone (R153). -/
def accClass (o : Op) : Option AccClass :=
  let k := o.kind
  let mk (l st : Bool) : AccClass :=
    { load := l, store := st, strong := k != .plain, acq := k == .acq || k == .acqrel, rel := k == .rel || k == .acqrel, reach := scopeReach o.scope }
  match o.body with
  | .load .. => some (mk true false)
  | .store .. | .range .. => some (mk false true)
  | .wait .. => some (mk true false)
  | .atom .. => some (mk (k != .rel) true)
  | .claim .. => some (mk true true)
  | _ => none

/-- The table of R153: whether access a is ordered before the later access b of the same agent, and the reach of the widest scope towards
which it is. A release and a strong store come after everything, in their own scope, and from die scope on after every store for everyone (R134);
after an acquire comes everything, in the acquire's; after a strong load come strong loads and acquires, in that load's; after a strong store a strong
store, in either's. -/
def orderedBefore (a b : AccClass) : Option Nat :=
  let strongStore := b.store && b.strong
  let byB := if !(b.rel || strongStore) then 0 else if a.store && b.store && decide (6 ≤ b.reach) then allReach else b.reach
  let byA := if a.acq || (a.strong && a.load && ((b.load && b.strong) || b.acq)) || (a.store && a.strong && strongStore) then a.reach else 0
  if max byA byB = 0 then none else some (max byA byB)

/-- Two operations share an agent: the rider, or a lane of one group. -/
def sharesAgent (a b : Op) : Bool :=
  a.group == b.group && (a.group == none || a.lanes &&& b.lanes != 0)

/-- They touch one location, lane for lane. -/
def sameLocation (a b : Op) : Bool :=
  (bodyPlaces a.body).any fun (l, p, n) => (bodyPlaces b.body).any fun (m, q, k) => (l == m || a.group == none) && placesMeet p n q k

/-- An operation that acts on the scratchpad or the accumulator memory: no agent outside the team sees it (R148). -/
def inTeamOnly (o : Op) : Bool := (bodyPlaces o.body).any fun x => match x.2.1 with
  | .mem _ => false
  | _ => true

/-- An operation has done its part in some lanes, or, the rider's, as a whole: what a later access of these lanes waits for (R147). -/
def Team.partsDone (t : Team) (id : Nat) (lanes : U32) : Bool :=
  match t.op? id with
  | none => true
  | some x => x.done || (x.group.isSome && (x.lanes &&& lanes == 0 || match x.body with
      | .load _ ps | .store ps => ps.all fun p => p.done || !laneIn lanes p.lane
      | _ => false))

/-- What a member's accesses come after as a whole, by the barriers and block ends it has observed (R155). -/
def Team.heldWhole (t : Team) (who : Option Nat) (lanes : U32) : List Nat :=
  match who with
  | none => t.riderFence
  | some g => ((t.group? g).map fun x => (x.fences.filter fun f => f.1 &&& lanes != 0).flatMap (·.2)).getD []

/-- What the fences of a member's lanes order before their accesses, with the reach of each fence's scope; the lanes of a split scope count as those of the
group where the access is made by others too (R148, R154). -/
def Team.heldLanes (t : Team) (o : Op) : List (Nat × Nat) :=
  match o.group with
  | none => t.riderNear
  | some g =>
      match t.group? g with
      | none => []
      | some x => (x.nearFences.filter fun f => f.1 &&& o.lanes != 0).flatMap fun f =>
          f.2.2.2.map fun id => (id, if f.2.2.1 = 1 ∧ f.2.1 &&& ~~~o.mask ≠ 0 then 2 else f.2.2.1)

/-- What a new operation of the team comes after as a whole: what its member has observed, and what class fences name (R155, R160). -/
def Team.depsOf (t : Team) (o : Op) : List Nat :=
  let held := if (accClass o).isSome then t.heldWhole o.group o.lanes else []
  let cls := t.cfences.flatMap fun (f : ClassFence) => if o.cls == some f.x || o.cls == some f.y then f.ids else []
  (held ++ cls).filter t.opLive

/-- What a new operation comes after, lane for lane: (operation, reach of the scope towards which it does) (R151, R153, R154). Operations on the team's
own memories are ordered towards everyone who can see them. -/
def Team.nearOf (t : Team) (o : Op) : List (Nat × Nat) :=
  let own := (t.ops.filter fun x => !x.done).filterMap fun x =>
    if !sharesAgent x o then none
    else if sameLocation x o then some (x.id, allReach)
    else match accClass x, accClass o with
      | some a, some b => (orderedBefore a b).map fun r => (x.id, r)
      | _, _ => none
  let held := if (accClass o).isSome then t.heldLanes o else []
  let all := (own ++ held).filter fun x => t.opLive x.1
  if inTeamOnly o then all.map fun x => (x.1, allReach)
  else all.map fun x => if ((t.op? x.1).map inTeamOnly).getD false then (x.1, allReach) else x

/-- A new operation comes after something that its lanes have still to do. -/
def Team.comesAfter (t : Team) (o : Op) : Bool := !(t.depsOf o).isEmpty || (t.nearOf o).any fun d => !t.partsDone d.1 o.lanes

/-- Instructions that an issuer has retired (R379). -/
def Team.issuedCount (t : Team) (who : Option Nat) : Nat :=
  match who with
  | none => t.retired
  | some g => ((t.group? g).map (·.icnt)).getD 0

/-- An operation as it issues: its number, what it comes after, and its issuer's count. -/
def Team.stamped (t : Team) (o : Op) (id : Nat) : Op :=
  { o with id := id, deps := t.depsOf o, near := t.nearOf o, icnt := t.issuedCount o.group }

/-- Issues an operation: it takes a number, and the operations it comes after. Answers the number. -/
def State.issueOp (s : State) (tk : Nat) (o : Op) : State × Nat :=
  let (id, s) := s.fresh
  (s.modTeam tk fun t => { t with ops := t.ops ++ [t.stamped o id] }, id)

/-- Every operation this one comes after, towards whomever, has performed. -/
def Team.depsMet (t : Team) (o : Op) : Bool := o.deps.all (fun d => !t.opLive d) && o.near.all fun d => t.partsDone d.1 o.lanes

/-- A store to memory that its agent's order lets the observers of a narrow scope see before it performs (R148): what it comes after has performed,
or is such a store itself. A strong or release store of die or wider scope is none (R134). -/
def Team.showable (t : Team) (o : Op) : Nat → Bool
  | 0 => false
  | fuel + 1 =>
      (match o.body with
       | .store _ => !inTeamOnly o && (o.kind == .plain || !wideScope o.scope)
       | _ => false)
        && o.deps.all (fun d => !t.opLive d)
        && o.near.all fun d => t.partsDone d.1 o.lanes || (decide (d.2 < allReach) && match t.op? d.1 with
          | some x => t.showable x fuel
          | none => true)

/-- A load or store may act in some lanes: what it comes after as a whole has performed; what it comes after lane for lane has done these lanes' part, or
is, towards a narrow scope, a store that this scope can already see. -/
def Team.readyIn (t : Team) (o : Op) (lanes : U32) : Bool :=
  o.deps.all (fun d => !t.opLive d) && o.near.all fun d => t.partsDone d.1 lanes || (decide (d.2 < allReach) && match t.op? d.1 with
    | some x => t.showable x t.ops.length
    | none => true)

/-- It may act in all of its lanes. -/
def Team.depsReady (t : Team) (o : Op) : Bool := t.readyIn o o.lanes

/-- Only an order of a scope that does not hold everyone keeps a load from acting in some lanes: observers outside it may see it act (R148). -/
def Team.aheadIn (t : Team) (o : Op) (lanes : U32) : Bool :=
  o.deps.all (fun d => !t.opLive d) && o.near.all fun d => t.partsDone d.1 lanes || decide (d.2 < allReach)

/-- The stores that an operation of some split lanes comes after become visible to the observers of their scopes (R148). -/
def Team.showNear (t : Team) (mask : U32) (near : List (Nat × Nat)) : Nat → Team
  | 0 => t
  | fuel + 1 => near.foldl (fun t d => match t.op? d.1 with
      | some x =>
          let r := if d.2 = 1 ∧ mask &&& ~~~x.mask ≠ 0 then 2 else d.2
          if x.done || decide (r ≤ x.vis) || decide (allReach ≤ r) then t
          else (t.showNear x.mask x.near fuel).modOp d.1 fun x => { x with vis := max x.vis r }
      | none => t) t

/-- The reach of the narrowest scope of an operation's issuer that holds the issuer of another (R148). -/
def reachTo (t : Team) (o : Op) (s : State) (t' : Team) (o' : Op) : Nat :=
  if t'.serial = t.serial then
    (if o.group ≠ o'.group then 3 else if o.group.isSome ∧ o'.lanes &&& ~~~o.mask = 0 then 1 else 2)
  else if t'.core = t.core then 4 else if t'.core / 4 = t.core / 4 then 5 else if s.dieOf t'.core = s.dieOf t.core then 6 else 7

/-- A counter would pass 65,535: the operation waits to issue (R137). -/
def Team.pathFull (t : Team) (p : Path) : Bool := decide (65535 ≤ t.pathCount p)

/-- Joins a visibility time to the VMAX of an issuer (R134). -/
def Team.joinV (t : Team) (who : Option Nat) (v : Nat) : Team :=
  match who with
  | none => { t with vmax := max t.vmax v }
  | some g =>
      if (t.group? g).isSome then t.modGroup g fun x => { x with vmax := max x.vmax v } else { t with endedV := max t.endedV v }

/-- Codes of the path classes (R160). -/
def classCode : PClass → Nat
  | .ls => 0 | .as => 1 | .cp => 2 | .mx => 3 | .ga => 4 | .cl => 5

/-- The V of an operation's write: kept for its class, and joined to the issuers of class fences that named it with LS (R160). -/
def Team.joinFenced (t : Team) (id v : Nat) : Team :=
  let t := match (t.op? id).bind (·.cls) with
    | some c => if v = 0 then t else { t with clsV := sparsePut (classCode c) (max v (sparseGet 0 t.clsV (classCode c))) t.clsV }
    | none => t
  (t.cfences.filter fun f => (f.x == .ls || f.y == .ls) && f.ids.contains id).foldl (fun t f => t.joinV f.who v) t

/-- Classes that an operation reaches as soon as it performs: a class fence named it while it was in flight (R160). -/
def Team.fencedTo (t : Team) (id : Nat) (cls : PClass) : List PClass :=
  (t.cfences.filter fun f => f.ids.contains id).filterMap fun f => if f.x == cls then some f.y else if f.y == cls then some f.x else none

/-- CFENCE and SCFENCE (R160): the operations of the two classes issued so far come before those issued after it; where LS is
named, the V returned to them joins the issuer's VMAX. -/
def Team.classFence (t : Team) (x y : PClass) (who : Option Nat) : Team :=
  let ids := (t.ops.filter fun o => !o.done && (o.cls == some x || o.cls == some y)).map (·.id)
  let t := if x == .ls || y == .ls then t.joinV who (max (sparseGet 0 t.clsV (classCode x)) (sparseGet 0 t.clsV (classCode y))) else t
  let reach (m : Sparse Stale) : Sparse Stale := m.map fun (k, e) =>
    (k, if e.cls == x then { e with reached := y :: e.reached } else if e.cls == y then { e with reached := x :: e.reached } else e)
  { t with stale := reach t.stale, staleAcc := reach t.staleAcc, cfences := (t.cfences.filter fun f => f.ids.any t.opLive) ++ [{ x := x, y := y, ids := ids, who := who }] }

/-! Killing a team (R353). -/

/-- What remains of an operation when its team is killed: stores perform, copies end CANCELLED, a running matrix command
runs to its end, and nothing else is left. -/
def killOp (o : Op) : Option Op :=
  match o.body with
  | .store _ | .range .. => some o
  | .copy c => some { o with body := .copy { c with status := c.status.orElse fun _ => some .cancelled } }
  | .matrix m true l => some { o with body := .matrix m true l }
  | .post .. | .fred .. | .fmc .. => some o
  | .child _ => some o
  | _ => if o.done then some o else none

/-- Frees the return slots of an operation: replies to them are discarded (R337). -/
def State.freeOpSlots (s : State) (core team op : Nat) : State :=
  s.modCore core fun c => { c with slots := c.slots.filter fun x => !(x.2.team == team && x.2.op == op) }

/-- What lies in the registers of groups that have ended is noted as left behind in their bay's register file (R166). -/
def leaveRegs (c : Core) (x : Group) : Core :=
  let keys := distinct (x.old.map (·.1) ++ x.v.map (·.1))
  { c with regs := keys.foldl (fun m k =>
      match x.units[k / 1024]? with
      | some u => sparseSet 0 (1024 * (64 * x.bay + u) + k % 1024) (x.vreg (k / 32) (k % 32)) m
      | none => m) c.regs }

/-- The same for every group of a team that has ended; its counts stay in the open chunk of its core. -/
def State.flushGone (s : State) (tk : Nat) : State :=
  match s.team? tk with
  | none => s
  | some t =>
      if t.gone.isEmpty then s
      else ((s.noteCounts t t.gone).modCore t.core fun c => t.gone.foldl (fun c x => leaveRegs c x.2) c).setTeam tk { t with gone := [] }

/-- Frees the return slots of a team: replies to them are discarded (R337). -/
def State.freeSlots (s : State) (core serial : Nat) : State :=
  s.modCore core fun c => { c with slots := c.slots.filter fun x => x.2.team != serial }

/-- Kills one team: it issues nothing further. -/
def State.killOne (s : State) (tk : Nat) : State :=
  match s.team? tk with
  | none => s
  | some t =>
      let s := s.modCore t.core fun c => { c with bins := c.bins.filter fun b => b.2.team != t.serial }
      let s := s.freeSlots t.core t.serial
      let s := { s with coh := { s.coh with monitors := s.coh.monitors.filter fun m => m.team != t.serial } }
      let s := s.modLaunch t.launch fun l => { l with faulted := some (match l.faulted with | none => t.teamId | some x => min x t.teamId) }
      s.setTeam tk { t with killed := true, blocked := none, leaveReq := none, leaveGot := false, roomWait := false, handler := false, handling := none,
                            riderTrap := none, riderKept := [], teamTrap := none, teamKept := [], barWaits := [], ops := t.ops.filterMap killOp,
                            groups := t.groups.map fun (g, x) => (g, { x with traps := [], halted := true, rein := [] }) }

/-- Teams of a launch that are killed before they run, or while they are saved: they retire at once, and the lowest TEAMID counts for the record
(R67, R84). -/
def Launch.lose (l : Launch) (ids : List Nat) : Launch :=
  { l with retired := l.retired + ids.length,
           faulted := ids.foldl (fun f n => some (match f with | none => n | some x => min x n)) l.faulted }

/-- The charge of a retiring team for the core-cycles it was resident (R69). DESIGN CHOICE (log entry 17): GROUPS and REGS are those of the descriptor
that it ran last. -/
def Team.charge (t : Team) (cycles : Nat) : Nat :=
  let up (a b : Nat) : Nat := (a + b - 1) / b
  let share := max (max (up (t.desc.groups * t.desc.regs * 32 * 65536) 8192) (up (t.scrBytes * 65536) (max 1 t.scrSize))) (up (t.groupsHeld * 65536) 64)
  up (cycles * share) 65536

/-- The queue of a team's launch is charged for it (R69). -/
def State.chargeTeam (s : State) (t : Team) (cycles : Nat) : State :=
  match s.launch? t.launch with
  | some l => s.modQueue l.queue fun q => { q with deficit := q.deficit - (t.charge cycles : Nat) }
  | none => s

/-- Kills the teams of a list of launches, resident, pending and saved, and those of the child grids below them (R84, R353). DESIGN CHOICE (log
entry 8): of a grid none of whose teams has been distributed, the record names the team that would have come next. -/
def killLaunches : Nat → List Nat → State → State
  | 0, _, s => s
  | fuel + 1, ls, s =>
      if ls.isEmpty then s else
        let hit := s.teams.filter fun p => ls.contains p.2.launch && !p.2.killed
        let kept := s.cp.saved.filter fun x => ls.contains x.team.launch
        let s := hit.foldl (fun s p => s.killOne p.1) s
        -- a saved team holds the cycles that it was resident
        let s := kept.foldl (fun s x => s.chargeTeam x.team x.team.admitted) s
        let s := ls.foldl (fun s n =>
          let waiting := s.cores.flatMap fun c => (c.2.pending.filter fun p => p.launch == n).map (·.teamId)
          let saved := (s.cp.saved.filter fun x => x.team.launch == n).map (·.team.teamId)
          s.modLaunch n fun l =>
            let l := l.lose (waiting ++ saved)
            { l with killed := true, faulted := l.faulted.orElse fun _ => some l.next }) s
        let s := { s with cores := s.cores.map fun (c, x) => (c, { x with pending := x.pending.filter fun p => !ls.contains p.launch })
                          cp := { s.cp with saved := s.cp.saved.filter fun x => !ls.contains x.team.launch } }
        let serials := hit.map (fun p => p.2.serial) ++ kept.map (·.team.serial)
        let kids := (s.cp.launches.filter fun l => match l.2.parent with
          | some (p, _) => serials.contains p
          | none => false).map (·.1)
        killLaunches fuel kids s

/-- Kills a team and its live child grids (R353). -/
def State.killTeam (s : State) (tk : Nat) : State :=
  match s.team? tk with
  | none => s
  | some t =>
      if t.killed then s else
        let s := s.killOne tk
        killLaunches 11 ((s.cp.launches.filter fun l => match l.2.parent with
          | some (p, _) => p == t.serial
          | none => false).map (·.1)) s

/-! Taking an exception. -/

/-- A trap joins those that a group holds, in the order raised; of the traps that one operation raises for several runs of its lanes, those not yet
being handled stand in lane order (R44, R356). -/
def insertTrap (x : Trap) : List Trap → List Trap
  | [] => [x]
  | y :: l => if x.op ≠ 0 ∧ y.op = x.op ∧ x.lane < y.lane then x :: y :: l else y :: insertTrap x l

def Team.holdTrap (t : Team) (x : Trap) : Team :=
  let handled := t.handling.any fun y => y.src == 0 && y.group == x.group
  t.modGroup x.group fun g =>
    { g with halted := true, traps := if handled then g.traps.take 1 ++ insertTrap x (g.traps.drop 1) else insertTrap x g.traps }

/-- A trap of a lane: the group halts and holds it, behind any it holds (R352, R356). With SY.TRAPVEC = 0 the team is
killed (R354). A trap closes the core's chunk (R380). -/
def State.trapLane (s : State) (tk : Nat) (trap : Trap) : State :=
  match s.team? tk with
  | none => s
  | some t =>
      let s := s.closeCore t.core 1
      if t.trapVec = 0 then s.killTeam tk
      else s.setTeam tk { t.holdTrap trap with trapAt := some s.clk.cycle }

/-- A trap of the rider: pending until the handler is entered. In the handler, and with SY.TRAPVEC = 0, the team is
killed (R354, R359). -/
def State.trapRider (s : State) (tk : Nat) (trap : Trap) : State :=
  match s.team? tk with
  | none => s
  | some t =>
      let s := s.closeCore t.core 1
      if t.handler || t.trapVec = 0 then s.killTeam tk
      else
        let t := { t with trapAt := some s.clk.cycle }
        s.setTeam tk (match t.riderTrap with
          | none => { t with riderTrap := some { trap with src := 1 } }
          | some _ => { t with riderKept := t.riderKept ++ [{ trap with src := 1 }] })

/-- A trap of the team as a whole (R352, R360), behind any that it holds (R356); PREEMPT is the first that a restored team takes (R369). -/
def State.trapTeam (s : State) (tk : Nat) (trap : Trap) : State :=
  match s.team? tk with
  | none => s
  | some t =>
      let s := s.closeCore t.core 1
      if t.trapVec = 0 then s.killTeam tk
      else
        let held := t.teamTrap.toList ++ t.teamKept
        let all := if trap.cause = .preempt then { trap with src := 2 } :: held else held ++ [{ trap with src := 2 }]
        s.setTeam tk { t with trapAt := some s.clk.cycle, teamTrap := all.head?, teamKept := all.drop 1 }

/-- A trap of the rider at its own word. -/
def State.riderFault (s : State) (tk : Nat) (c : Cause) (addr : U64 := 0) (hidx : Nat := 0) (check : Nat := 0) : State :=
  match s.team? tk with
  | none => s
  | some t => s.trapRider tk { cause := c, src := 1, loc := t.pc, addr := addr, hidx := hidx, check := check }

/-- The trap the handler takes next: the rider's, then the team's, then lane traps in ascending GROUPID (R356). -/
def Team.nextTrap (t : Team) : Option Trap :=
  match t.riderTrap with
  | some x => some x
  | none =>
      match t.teamTrap with
      | some x => some x
      | none => (t.groups.findSome? fun (_, g) => g.traps.head?)

/-- SY.TRAPCAUSE of a trap (R358). -/
def trapCauseWord (x : Trap) : U64 :=
  BitVec.ofNat 64 (x.check * 2 ^ 40 + x.hidx * 2 ^ 30 + x.src * 2 ^ 28 + x.split * 2 ^ 26 + x.group * 2 ^ 21 + x.lane * 2 ^ 16 + causeCode x.cause)

/-- The trap frame registers a handler finds, by number less 0x900 (R357). -/
def Team.frameFor (t : Team) (x : Trap) : Sparse U64 :=
  let g := if x.src = 0 then t.group? x.group else none
  let icnt := match g with
    | some g => g.icnt
    | none => t.retired
  let splt := match g with
    | some g => (List.range 8).map fun k => (0x8 + k, BitVec.ofNat 64 (splitWord (g.split (k / 2)) / 2 ^ (64 * (k % 2))))
    | none => (List.range 8).map fun k => (0x8 + k, (0 : U64))
  let ncs := match g with
    | some g => (List.range 4).map fun j => (0x10 + j, BitVec.ofNat 64 ((List.range 8).foldl (fun a i => a + g.ncOf (8 * j + i) * 2 ^ (8 * i)) 0))
    | none => (List.range 4).map fun j => (0x10 + j, (0 : U64))
  [(0x0, trapCauseWord x), (0x2, x.loc), (0x3, x.addr), (0x4, BitVec.ofNat 64 icnt)] ++ splt ++ ncs

/-- The team has been restored with an incomplete barrier: PREEMPT comes before its first instruction (R369). -/
def Team.preempted (t : Team) : Bool := (t.teamTrap.toList ++ t.teamKept).any fun x => x.cause == .preempt

/-- The rider has a bounded wait that must finish before the handler is entered (R355); one that has its power leave is not, once it waits for room. -/
def State.boundedWait (s : State) (t : Team) : Bool :=
  let own := t.ops.any fun o => o.group == none && !o.done && match o.body with
    | .load .. | .atom .. | .claim .. => true
    | .matrix (.taccStat _) .. => t.blocked == some o.id
    | _ => false
  own || ((t.leaveReq.isSome || (t.leaveGot && !t.roomWait)) && !t.preempted) || decide (s.clk.cycle < t.yieldUntil)

/-- Abandons a wait of the rider without any change (R355): an armed SWAITCMP is withdrawn with its return slots, a barrier wait forgotten. -/
def State.abandonWait (s : State) (tk : Nat) : State :=
  match s.team? tk with
  | none => s
  | some t =>
      let t1 := { t with barWaits := t.barWaits.filter fun w => w.who.isSome }
      match t.blocked with
      | none => s.setTeam tk t1
      | some id => ((s.freeMonitors t.serial id).freeOpSlots t.core t.serial id).setTeam tk { (t1.withdraw id) with blocked := none }

/-- Entering the handler: the frame registers are loaded, SY.TRAPPC names the word to resume at, the rider enters
handler mode and its PC becomes SY.TRAPVEC (R355). For a trap of the rider itself SY.TRAPPC names the trapping word. Where
SY.TRAPVEC has become 0 meanwhile, the team is killed (R354). -/
def State.enterHandler (s : State) (tk : Nat) : State :=
  match s.team? tk with
  | none => s
  | some t =>
      match t.nextTrap with
      | none => s
      | some x =>
          if t.trapVec = 0 then s.killTeam tk else
          let s := s.abandonWait tk
          s.modTeam tk fun t =>
            { t with frame := t.frameFor x, trapPc := t.pc, handling := some x, handler := true, pc := t.trapVec,
                     riderTrap := if x.src = 1 then none else t.riderTrap, roomWait := false,
                     teamTrap := if x.src = 2 then t.teamKept.head? else t.teamTrap, teamKept := if x.src = 2 then t.teamKept.drop 1 else t.teamKept }

/-- A group is killed (R313): it ends; its atomics are still performed, but their replies are discarded (R337). -/
def State.killGroup (s : State) (tk g : Nat) : State :=
  match s.team? tk with
  | none => s
  | some t =>
      let lost := t.ops.filter fun o => o.group == some g && !o.done && match o.body with
        | .atom .. | .wait .. => true
        | _ => false
      let s := lost.foldl (fun s o => (s.freeOpSlots t.core t.serial o.id).freeMonitors t.serial o.id) s
      let ops := t.ops.map fun (o : Op) => if lost.any fun x => x.id == o.id then { o with done := true } else o
      s.setTeam tk (({ t with ops := ops } : Team).endGroup g)

/-- Actions of TRET (R313). -/
inductive TretAct | retry | skip | killg | killt
  deriving DecidableEq, Repr

/-- A trap that is taken at a later instruction, where retry and skip both resume (R345, R360). -/
def lateCause : Cause → Bool
  | .atomicLost | .integrity => true
  | _ => false

/-- Words of the instruction at the rider's resume address: two for SLI (R313). -/
def State.riderStep (s : State) (t : Team) (pc : Nat) : Nat :=
  match (s.fetch t.core t.root (pc / 128 * 128) (pc % 128 / 4) false).1 with
  | .ok w => if bitsOf w 31 25 = 0x0A then 8 else 4
  | .error _ => 4

/-- The handled lane trap leaves its group; the next it holds becomes pending (R356). -/
def Group.popTrap (g : Group) : Group := { g with traps := g.traps.drop 1, halted := !(g.traps.drop 1).isEmpty }

/-- Leaves handler mode, the rider at a given address. -/
def Team.leaveHandler (t : Team) (pc : U64) : Team :=
  { t with handler := false, handling := none, pc := pc,
           riderTrap := t.riderTrap.orElse fun _ => t.riderKept.head?, riderKept := if t.riderTrap.isSome then t.riderKept else t.riderKept.drop 1 }

/-- Returning from the handler (R313, R356, R359, R360). -/
def State.trapReturn (s : State) (tk : Nat) (act : TretAct) : State :=
  match s.team? tk with
  | none => s
  | some t =>
      match t.handling with
      | none => s
      | some x =>
          let t := { t with retired := t.retired + 1, npc := 0 }
          let s := s.setTeam tk t
          match x.src, act with
          | 0, .retry => s.setTeam tk ((t.modGroup x.group Group.popTrap).leaveHandler t.trapPc).settle
          | 0, .skip =>
              let f (g : Group) : Group := if lateCause x.cause then g.popTrap else (g.popTrap).modSplit x.split fun sp => { sp with lpc := sp.lpc + 1 }
              s.setTeam tk ((t.modGroup x.group f).leaveHandler t.trapPc).settle
          | 0, .killg => (s.killGroup tk x.group).modTeam tk fun t => (t.leaveHandler t.trapPc).settle
          | 1, .retry => s.setTeam tk (t.leaveHandler t.trapPc)
          | 1, .skip =>
              s.setTeam tk (t.leaveHandler (if lateCause x.cause then t.trapPc else t.trapPc + BitVec.ofNat 64 (s.riderStep t t.trapPc.toNat)))
          | 2, .retry | 2, .skip => s.setTeam tk ({ t with npc := 0 }.leaveHandler t.trapPc)
          | _, _ => s.killTeam tk

/-! Retiring instructions. -/

/-- The rider's word retires and the next is at `pc` (R198, R379). -/
def State.retireTo (s : State) (tk : Nat) (pc : U64) : State :=
  match s.team? tk with
  | none => s
  | some t => (s.issued t.core t.riderCtx 0).setTeam tk { t with pc := pc, retired := t.retired + 1, npc := 0 }

/-- The rider's one-word instruction retires. -/
def State.retireRider (s : State) (tk : Nat) : State :=
  match s.team? tk with
  | none => s
  | some t => s.retireTo tk (t.pc + 4)

/-- The operation the rider waited for has completed: the waiting word retires. -/
def State.unblock (s : State) (tk id : Nat) : State :=
  match s.team? tk with
  | none => s
  | some t => if t.blocked = some id then (s.setTeam tk { t with blocked := none }).retireRider tk else s

/-- One more in the retired count of each lane of a mask (R379). -/
def bumpLanes (m : U32) (r : Sparse Nat) : Sparse Nat :=
  (lanesOf m).foldl (fun r l => sparsePut l (sparseGet 0 r l + 1) r) r

/-- The lane that an event of an instruction names: the lowest ACTIVE one (R377); of one with none, the lowest of its split (log entry 36). -/
def eventLane (m act : U32) : Nat := lowestLane (if act = 0 then m else act)

/-- An instruction of a split retires: the lanes of the mask it ran under count it, and the group changes by `f` (R379). -/
def State.retireWith (s : State) (tk g sp : Nat) (m act : U32) (f : Group → Group) : State :=
  match s.team? tk with
  | none => s
  | some t =>
      match t.group? g with
      | none => s
      | some x =>
          let s := s.issued t.core (t.laneCtx g (eventLane m act)) sp
          let x := { f x with retired := bumpLanes m x.retired, icnt := x.icnt + 1 }
          let s := s.setTeam tk { (t.setGroup g x) with npc := 0, laneRetired := t.laneRetired + 1 }
          s.chunkRetire t.core t.launch 1

/-- An instruction that leaves the split as it is retires, and the split goes to `lpc`. -/
def State.retireLane (s : State) (tk g sp : Nat) (lpc : BitVec 24) (act : U32) : State :=
  match s.team? tk with
  | none => s
  | some t =>
      match t.group? g with
      | none => s
      | some x => s.retireWith tk g sp (x.split sp).mask act fun y => y.modSplit sp fun z => { z with lpc := lpc }

/-- The rider waits: nothing changes (R191). -/
abbrev stay (s : State) : Out := .next s

/-- The rider that executes a scalar word. -/
def withRider (s : State) (f : Nat → Team → Out) : Out :=
  match s.cur with
  | .rider tk =>
      match s.team? tk with
      | some t => f tk t
      | none => .refused .noAgent
  | _ => .refused .noAgent

/-- The split that executes a lane word. -/
def withSplit (s : State) (f : Nat → Nat → Nat → Team → Group → Out) : Out :=
  match s.cur with
  | .split tk g sp =>
      match s.team? tk with
      | some t =>
          match t.group? g with
          | some x => f tk g sp t x
          | none => .refused .noAgent
      | none => .refused .noAgent
  | _ => .refused .noAgent

/-- A register whose load or atomic is in flight: an instruction that reads or writes it waits (R191). -/
def Team.sregBusy (t : Team) (r : SReg) : Bool :=
  r != 0 && t.ops.any fun o => o.group == none && !o.done && match o.body with
    | .load (.sreg d) _ => d == r.toNat
    | .atom (some d) .. => d == r.toNat
    | _ => false

/-- Runs a scalar word once none of the registers it names is in flight. -/
def withRegs (s : State) (rs : List SReg) (f : Nat → Team → Out) : Out :=
  withRider s fun tk t => if rs.any t.sregBusy then stay s else f tk t

/-! Management log and freezes (R361, R414). -/

/-- Appends a record of 64 bytes to the management log, a ring of 4,096 (R414). -/
def State.logMgmt (s : State) (fields : List Byte) : State :=
  let rec_ := bytesOf s.stamp.toNat 16 ++ fields.take 48 ++ List.replicate (48 - fields.length) 0
  let log := s.mgmt.log ++ [rec_]
  { s with mgmt := { s.mgmt with log := if log.length > 4096 then log.drop 1 else log } }

/-- Begins a halt (R370). -/
def State.beginHalt (s : State) (cause : Nat) (reason : U32) : State :=
  match s.halt with
  | some _ => s
  | none =>
      let s := s.logMgmt (bytesOf 2 8 ++ bytesOf cause 8 ++ bytesOf reason.toNat 8)
      let s := match s.cp.dumpArea with
        | some (b, _) => s.poke b 8 0
        | none => s
      { s with halt := some { cause := cause, reason := reason, stamp := s.stamp, at_ := s.clk.cycle } }

/-- A fault raised by a master while a halt's dump is being written joins the header's list (R374). -/
def State.noteSecondary (s : State) (mkind mnum cause addr : Nat) : State :=
  match s.halt with
  | some h => if h.dumped then s else { s with halt := some { h with secondary := h.secondary ++ [(h.sect.getD 0xFFFFFFFF, mnum, mkind, cause, addr)] } }
  | none => s

/-- Freezes a master: a freeze record names it, the cause, the address and the time (R361). A core freeze under the HALT
policy is a fatal fault (R362). -/
def State.freeze (s : State) (mkind mnum cause addr : Nat) : State :=
  let s := s.logMgmt (bytesOf 1 8 ++ bytesOf (mkind + mnum * 256) 8 ++ bytesOf cause 8 ++ bytesOf addr 8)
  let s := s.noteSecondary mkind mnum cause addr
  if mkind = 0 then
    let s := s.modCore mnum fun c => { c with frozen := true }
    if s.cp.freezeHalt then s.beginHalt cause 0 else s
  else { s with cp := { s.cp with frozen := if s.cp.frozen.contains (mkind, mnum) then s.cp.frozen else (mkind, mnum) :: s.cp.frozen } }

end Sys2Proof.Machine
end

