-- ==== Sys2Proof/Machine/Flags.lean ====
section
/-!
DEFINITION. Machine/Flags.lean: the bits of FLG and of MSTAT, and how instructions raise and clear them (R42, R43, R290).
-/
namespace Sys2Proof.Machine

/-- Flag bits of FLG (R42). -/
def flNX : Flags := 0x01#7
def flUF : Flags := 0x02#7
def flOF : Flags := 0x04#7
def flDZ : Flags := 0x08#7
def flNV : Flags := 0x10#7
def flSAT : Flags := 0x20#7
def flCHK : Flags := 0x40#7

/-- A flag when a condition holds. -/
def flagIf (b : Bool) (f : Flags) : Flags := if b then f else 0

/-- The flags of several elements together (R43). -/
def joinFlags (fs : List Flags) : Flags := fs.foldl (· ||| ·) 0

/-- FLG with some flags raised: bits are sticky (R42). -/
def Group.raise (x : Group) (f : Flags) : Group := { x with flg := x.flg ||| f, raised := x.raised ||| f }
/-- FLG with the flags of an instruction that a split issued earlier, as its results land. -/
def Group.landFlags (x : Group) (sp : Nat) (f : Flags) : Group := { x with flg := x.flg ||| f, landed := x.landed ++ [(sp, f)] }
/-- What other splits have raised in this cycle, by issuing or landing: a CLRFLG of `sp` comes first in its split's order in this cycle, but after
the instructions whose results landed for it (R43, R265). -/
def Group.raisedBeside (x : Group) (sp : Nat) : Flags := x.raised ||| joinFlags ((x.landed.filter fun y => y.1 != sp).map (·.2))
/-- CLRFLG: the bits of a mask are cleared, but for those that others have raised in this cycle. -/
def Group.clearFlags (x : Group) (sp : Nat) (m : BitVec 7) : Group := { x with flg := x.flg &&& (~~~m ||| x.raisedBeside sp) }

/-- Raises flags in a group of a team. -/
def State.raiseFlags (s : State) (tk g : Nat) (f : Flags) : State := s.modGroup tk g fun x => x.raise f

/-- Raises flags of the matrix engine in the team's MSTAT (R290). -/
def Team.raiseMstat (t : Team) (f : Flags) : Team := { t with mstat := t.mstat ||| f.setWidth 32 }

end Sys2Proof.Machine
end

