-- ==== Sys2Proof/Machine/Float.lean ====
section
/-!
DEFINITION. Machine/Float.lean: what a bit pattern of each floating format means, and the one rounding ROUND (R36 to R41).
An exact value is a signed fraction, an infinity or a NaN; nothing is rounded but in `roundTo` and `roundInt`.
-/
namespace Sys2Proof.Machine

/-- An exact value. A fraction n / d has d > 0; its sign stands apart, so that zeros keep theirs. A NaN keeps its payload of
`w` bits below the quiet bit. -/
inductive FVal
  | fin (neg : Bool) (n d : Nat)
  | inf (neg : Bool)
  | nan (neg quiet : Bool) (pay w : Nat)
  deriving DecidableEq, Repr

/-- Exponent and mantissa bits of a floating format (R36). -/
def expBits : Fmt → Nat
  | .e2m1 | .e2m3 => 2
  | .e3m2 => 3
  | .e4m3 => 4
  | .e5m2 | .f16 => 5
  | .bf16 | .f32 => 8
  | .f64 => 11
  | _ => 0
def manBits : Fmt → Nat
  | .e2m1 => 1
  | .e3m2 | .e5m2 => 2
  | .e2m3 | .e4m3 => 3
  | .bf16 => 7
  | .f16 => 10
  | .f32 => 23
  | .f64 => 52
  | _ => 0
def bias (f : Fmt) : Nat := 2 ^ (expBits f - 1) - 1

/-- Formats with IEEE infinities and NaNs (R36). -/
def hasInf : Fmt → Bool
  | .e5m2 | .f16 | .bf16 | .f32 | .f64 => true
  | _ => false
/-- FP4 and FP6 hold neither infinities nor NaNs. -/
def noSpecial : Fmt → Bool
  | .e2m1 | .e2m3 | .e3m2 => true
  | _ => false

/-- The pattern of the largest finite value, sign zero (R36). -/
def largestPat (f : Fmt) : Nat :=
  if hasInf f then (2 ^ expBits f - 1) * 2 ^ manBits f - 1
  else if noSpecial f then 2 ^ (expBits f + manBits f) - 1
  else 2 ^ (expBits f + manBits f) - 2
/-- The pattern of +infinity. -/
def infPat (f : Fmt) : Nat := (2 ^ expBits f - 1) * 2 ^ manBits f
/-- The sign bit. -/
def signPat (f : Fmt) (neg : Bool) : Nat := if neg then 2 ^ (expBits f + manBits f) else 0

/-- Canonical NaNs (R38). -/
def canonNan : Fmt → Nat
  | .f32 => 0x7FC00000
  | .f16 => 0x7E00
  | .bf16 => 0x7FC0
  | .f64 => 0x7FF8000000000000
  | .e5m2 => 0x7E
  | .e4m3 => 0x7F
  | _ => 0

/-- A number n · 2^e as a fraction. -/
def dyadic (neg : Bool) (n : Nat) (e : Int) : FVal := .fin neg (n * 2 ^ e.toNat) (2 ^ (-e).toNat)

/-- The meaning of a pattern of a floating format (R36, R38). -/
def decodeFloat (f : Fmt) (w : Nat) : FVal :=
  let eb := expBits f
  let mb := manBits f
  let neg := w / 2 ^ (eb + mb) % 2 == 1
  let e := w / 2 ^ mb % 2 ^ eb
  let m := w % 2 ^ mb
  if hasInf f && e == 2 ^ eb - 1 then
    (if m = 0 then .inf neg else .nan neg (m / 2 ^ (mb - 1) == 1) (m % 2 ^ (mb - 1)) (mb - 1))
  else if f == .e4m3 && e == 15 && m == 7 then .nan neg true 3 2
  else if e = 0 then dyadic neg m (1 - (bias f : Int) - mb)
  else dyadic neg (m + 2 ^ mb) ((e : Int) - bias f - mb)

/-- An integer as an exact value; zero is positive. -/
def intVal (v : Int) : FVal := .fin (decide (v < 0)) v.natAbs 1

/-- How a result is rounded: a mode, or SR with its word (R40, R41). -/
inductive Rnd
  | mode (m : RMode)
  | sr (w : Nat)
  deriving DecidableEq, Repr

/-- Whether a magnitude k + rem / den rounds away from zero to k + 1. -/
def roundsUp (r : Rnd) (neg : Bool) (k rem den : Nat) : Bool :=
  if rem = 0 then false else
    match r with
    | .mode .rne => decide (den < 2 * rem) || (decide (2 * rem = den) && k % 2 == 1)
    | .mode .rz => false
    | .mode .ru => !neg
    | .mode .rd => neg
    | .sr w => if neg then !decide (w < (den - rem) * 2 ^ 32 / den) else decide (w < rem * 2 ^ 32 / den)

/-- floor(log2(n / d)) for n > 0. -/
def floorLog2 (n d : Nat) : Int :=
  let t : Int := (Nat.log2 n : Int) - Nat.log2 d
  if n * 2 ^ (-t).toNat < d * 2 ^ t.toNat then t - 1 else t

/-- |x| = n / d rounded to a multiple of 2^q: the multiple, and whether it differs from x. -/
def roundMag (r : Rnd) (neg : Bool) (n d : Nat) (q : Int) : Nat × Bool :=
  let n := n * 2 ^ (-q).toNat
  let d := d * 2 ^ q.toNat
  let k := n / d
  (k + (if roundsUp r neg k (n % d) d then 1 else 0), n % d != 0)

/-- ROUND of a finite value to a floating format (R40, R41), with R39 for formats without infinities and R37 when `ftz`. DESIGN CHOICE (log entry
20): under SR a value between the largest finite one and the next multiple of the grid is rounded stochastically to either, and overflows where it
rounds away; the overflow itself follows the row of RNE. In every mode what lies beyond the largest finite value is judged on the result of the
rounding, also where R39 says 'finite beyond range' of an input: what rounds back to the largest finite value is inexact and no overflow. -/
def roundFin (f : Fmt) (r : Rnd) (sat ftz : Bool) (neg : Bool) (n d : Nat) : Nat × Flags :=
  if n = 0 then (signPat f neg, 0) else
    let mb := manBits f
    let emin : Int := 1 - (bias f : Int)
    let t := floorLog2 n d
    let q := max t emin - mb
    let (k, inexact) := roundMag r neg n d q
    let body := (q - (emin - mb)).toNat * 2 ^ mb + k
    if body > largestPat f then
      let away := match r with
        | .mode .rz => false
        | .mode .ru => !neg
        | .mode .rd => neg
        | _ => true
      let fl := flOF ||| flNX
      if !hasInf f then (signPat f neg + largestPat f, fl)
      else if sat then (signPat f neg + largestPat f, fl ||| flSAT)
      else (signPat f neg + (if away then infPat f else largestPat f), fl)
    else
      let tiny := decide (t < emin) && decide ((roundMag r neg n d (t - mb)).1 < 2 ^ (emin - t + mb).toNat)
      if tiny && ftz && f == .f32 then (signPat f neg, flUF ||| flNX)
      else (signPat f neg + body, flagIf inexact flNX ||| flagIf (tiny && inexact) flUF)

/-- A NaN written to a format: quiet, sign and payload kept, cut or padded at the low end (R38, R39). -/
def nanPat (f : Fmt) (neg : Bool) (pay w : Nat) : Nat :=
  if f == .e4m3 then signPat f neg + 0x7F
  else if !hasInf f then 0
  else
    let p := manBits f - 1
    signPat f neg + infPat f + 2 ^ p + (if p < w then pay / 2 ^ (w - p) else pay * 2 ^ (p - w))

/-- ROUND of an exact value to a floating format, with R39 for what the format lacks. -/
def roundTo (f : Fmt) (r : Rnd) (sat ftz : Bool) : FVal → Nat × Flags
  | .fin neg n d => roundFin f r sat ftz neg n d
  | .inf neg => if hasInf f then (signPat f neg + infPat f, 0) else (signPat f neg + largestPat f, flNV)
  | .nan neg quiet pay w => if noSpecial f then (0, flNV) else (nanPat f neg pay w, flagIf (!quiet) flNV)

/-- ROUND of a finite value to an integer. -/
def roundInt (r : Rnd) (neg : Bool) (n d : Nat) : Int × Bool :=
  let (k, inexact) := roundMag r neg n d 0
  (if neg then -(k : Int) else k, inexact)

/-- Range of a w-bit integer (R32). -/
def intRange (unsigned : Bool) (w : Nat) : Int × Int :=
  if unsigned then (0, (2 ^ w : Nat) - 1) else (-((2 ^ (w - 1) : Nat) : Int), (2 ^ (w - 1) : Nat) - 1)

/-- A conversion to a w-bit integer (R39): it clamps to the range, with NV. -/
def roundToInt (w : Nat) (unsigned : Bool) (r : Rnd) (x : FVal) : Nat × Flags :=
  let (lo, hi) := intRange unsigned w
  match x with
  | .nan .. => (0, flNV)
  | .inf neg => (wrapTo w (if neg then lo else hi), flNV)
  | .fin neg n d =>
      let (v, inexact) := roundInt r neg n d
      if v < lo then (wrapTo w lo, flNV)
      else if hi < v then (wrapTo w hi, flNV)
      else (wrapTo w v, flagIf inexact flNX)

/-- W(v, n) of R221: an exact integer written in n bits, wrapping or clamped by SAT. -/
def writeInt (v : Int) (n : Nat) (unsigned sat : Bool) : Nat × Flags :=
  let (lo, hi) := intRange unsigned n
  if !sat then (wrapTo n v, 0)
  else if v < lo then (wrapTo n lo, flSAT)
  else if hi < v then (wrapTo n hi, flSAT)
  else (wrapTo n v, 0)

/-! Exact arithmetic. -/

def FVal.isNan : FVal → Bool
  | .nan .. => true
  | _ => false
def FVal.isSnan : FVal → Bool
  | .nan _ q _ _ => !q
  | _ => false
def FVal.neg? : FVal → Bool
  | .fin n _ _ | .inf n | .nan n _ _ _ => n
def FVal.isZero : FVal → Bool
  | .fin _ n _ => n == 0
  | _ => false
/-- The value with its sign changed. -/
def FVal.negate : FVal → FVal
  | .fin n a b => .fin (!n) a b
  | .inf n => .inf (!n)
  | .nan n q p w => .nan n q p w

/-- A signed numerator. -/
def signedNum (neg : Bool) (n : Nat) : Int := if neg then -(n : Int) else n

/-- The exact product; none for 0 × ∞. NaNs are no inputs. -/
def FVal.mul (x y : FVal) : Option FVal :=
  let neg := x.neg? != y.neg?
  match x, y with
  | .fin _ a b, .fin _ c d => some (.fin neg (a * c) (b * d))
  | .inf _, z | z, .inf _ => if z.isZero then none else some (.inf neg)
  | _, _ => none

/-- The exact sum; none for ∞ − ∞. The sign of an exact zero sum is that of R40. NaNs are no inputs. -/
def FVal.add (rd : Bool) (x y : FVal) : Option FVal :=
  match x, y with
  | .inf a, .inf b => if a = b then some (.inf a) else none
  | .inf a, _ => some (.inf a)
  | _, .inf b => some (.inf b)
  | .fin s a b, .fin t c d =>
      let v := signedNum s a * d + signedNum t c * b
      if v = 0 then some (.fin (if a = 0 ∧ c = 0 ∧ s = t then s else rd) 0 1)
      else some (.fin (decide (v < 0)) v.natAbs (b * d))
  | _, _ => none

/-- Three-way comparison of values that are no NaNs; zeros are equal. -/
def FVal.cmp (x y : FVal) : Ordering :=
  match x, y with
  | .inf a, .inf b => if a = b then .eq else if a then .lt else .gt
  | .inf a, _ => if a then .lt else .gt
  | _, .inf b => if b then .gt else .lt
  | .fin s a b, .fin t c d => compare (signedNum s a * d) (signedNum t c * b)
  | _, _ => .eq

/-- The first NaN of the operands, in the order A, B, C (R38). -/
def firstNan (xs : List FVal) : Option FVal := xs.find? FVal.isNan

/-- An arithmetic result (R250): `x` is the exact value of the operands, none where it is invalid; `inv` an invalid product
among operands of which another is a NaN. -/
def arith (f : Fmt) (r : RMode) (sat ftz : Bool) (ins : List FVal) (inv : Bool) (x : Option FVal) : Nat × Flags :=
  let sn := flagIf (ins.any FVal.isSnan || inv) flNV
  match firstNan ins with
  | some (.nan neg _ pay w) => (nanPat f neg pay w, sn)
  | some _ => (canonNan f, sn)
  | none =>
      match x with
      | none => (canonNan f, sn ||| flNV)
      | some v => let (w, fl) := roundTo f (.mode r) sat ftz v
                  (w, sn ||| fl)

/-- An FP32 input under FTZ: a subnormal is a zero of its sign (R37). -/
def flushIn (ftz : Bool) (w : Nat) : Nat := if ftz && w / 2 ^ 23 % 256 == 0 then w / 2 ^ 31 % 2 * 2 ^ 31 else w

/-- A float operand of an instruction: FTZ acts on FP32 only. -/
def operandVal (f : Fmt) (ftz : Bool) (w : Nat) : FVal := decodeFloat f (if f == .f32 then flushIn ftz w else w)

/-- The four expressions of R250. -/
inductive FExpr | add | sub | mul | fma
  deriving DecidableEq, Repr

/-- R250, in any floating format. -/
def floatOp (f : Fmt) (e : FExpr) (r : RMode) (sat ftz : Bool) (a b c : Nat) : Nat × Flags :=
  let x := operandVal f ftz a
  let y := operandVal f ftz b
  let z := operandVal f ftz c
  let rd := r == .rd
  match e with
  | .add => arith f r sat ftz [x, y] false (x.add rd y)
  | .sub => arith f r sat ftz [x, y] false (x.add rd y.negate)
  | .mul => arith f r sat ftz [x, y] false (x.mul y)
  | .fma =>
      let inv := !x.isNan && !y.isNan && (x.mul y).isNone
      arith f r sat ftz [x, y, z] inv (match x.mul y with
        | none => none
        | some p => p.add rd z)

/-- FMIN (`hi` false) and FMAX (R251): one of the operands unchanged. -/
def floatMinMax (f : Fmt) (hi ftz : Bool) (a b : Nat) : Nat × Flags :=
  let a := if f == .f32 then flushIn ftz a else a
  let b := if f == .f32 then flushIn ftz b else b
  let x := decodeFloat f a
  let y := decodeFloat f b
  let fl := flagIf (x.isSnan || y.isSnan) flNV
  match x, y with
  | .nan neg _ pay w, .nan .. => (nanPat f neg pay w, fl)
  | .nan .., _ => (b, fl)
  | _, .nan .. => (a, fl)
  | _, _ =>
      let less := match x.cmp y with
        | .lt => true
        | .gt => false
        | .eq => x.neg? && !y.neg?
      let greater := match x.cmp y with
        | .lt => false
        | .gt => true
        | .eq => !x.neg? && y.neg?
      (if (if hi then less else greater) then b else a, fl)

/-- FCMP and DCMP (R252). -/
def floatCmp (f : Fmt) (ftz : Bool) (cc : FCmp) (a b : Nat) : Bool × Flags :=
  let x := operandVal f ftz a
  let y := operandVal f ftz b
  let un := x.isNan || y.isNan
  let o := x.cmp y
  let r := match cc with
    | .eq => !un && o == .eq
    | .ne => !un && o != .eq
    | .lt => !un && o == .lt
    | .le => !un && o != .gt
    | .gt => !un && o == .gt
    | .ge => !un && o != .lt
    | .num => !un
    | .nan => un
    | .equ => un || o == .eq
    | .neu => un || o != .eq
    | .ltu => un || o == .lt
    | .leu => un || o != .gt
    | .gtu => un || o == .gt
    | .geu => un || o != .lt
  (r, flagIf (x.isSnan || y.isSnan) flNV)

/-- FCLASS: the bit of R253 that a pattern belongs to. -/
def floatClass (w : Nat) : Nat :=
  let sub := w / 2 ^ 23 % 256 == 0
  match decodeFloat .f32 w with
  | .inf neg => if neg then 0 else 7
  | .nan _ q _ _ => if q then 9 else 8
  | .fin neg n _ =>
      if n = 0 then (if neg then 3 else 4)
      else if sub then (if neg then 2 else 5)
      else if neg then 1 else 6

/-- FRND: rounding to an integral value (R254). -/
def floatRound (r : RMode) (ftz : Bool) (a : Nat) : Nat × Flags :=
  let a := flushIn ftz a
  match decodeFloat .f32 a with
  | .inf _ => (a, 0)
  | .nan neg q pay w => (nanPat .f32 neg pay w, flagIf (!q) flNV)
  | .fin neg n d =>
      let (k, inexact) := roundMag (.mode r) neg n d 0
      ((roundFin .f32 (.mode .rz) false false neg k 1).1, flagIf inexact flNX)

/-! Block scales (R47 to R50). -/

/-- Value of a scale code: SC10, or E8M0 when `mx`; none for NaN (R47). -/
def scaleVal (mx : Bool) (code : Nat) : Option FVal :=
  let e := if mx then code % 256 else code / 4 % 256
  let m := if mx then 0 else code % 4
  if e = 255 then none else some (dyadic false (4 + m) ((e : Int) - 127 - 2))

/-- The NaN scale code (R49, R263). -/
def scaleNan (mx : Bool) : Nat := if mx then 0xFF else 0x3FC

/-- The scale of steps 2 to 4 of R49 for a ratio amax / Fmax = n / d, and whether step 4 applies. -/
def chooseScale (mx : Bool) (n d : Nat) : Nat × Bool :=
  if n * 2 ^ 127 < d then (0, false)
  else
    let t := floorLog2 n d
    let unit : Int := t - 2
    -- quarter steps of 2^t needed, rounded up: 4 to 8
    let q := (n * 2 ^ (-unit).toNat + d * 2 ^ unit.toNat - 1) / (d * 2 ^ unit.toNat)
    let e := (t + 127).toNat
    let code := if mx then (if q = 4 then e else e + 1) else (if q = 8 then (e + 1) * 4 else e * 4 + (q - 4))
    let top := if mx then 0xFE else 0x3FB
    if code > top then (top, true) else (code, false)

/-- Largest finite value of an element format, as a fraction: 7 for I4X, 127 × 2^−6 for MXINT8 (R49, R261). -/
def fmax : Fmt → Nat × Nat
  | .e2m1 => (6, 1)
  | .e2m3 => (15, 2)
  | .e3m2 => (28, 1)
  | .e4m3 => (448, 1)
  | .e5m2 => (57344, 1)
  | .i4x => (7, 1)
  | _ => (127, 64)

/-! I4X (R45, R46). -/

/-- Value of a lone I4X code that is no valid marker. -/
def i4xVal (c : Nat) : Int := if c = 8 then 0 else if c < 8 then c else (c : Int) - 16

/-- The four values of a group in bytes b0 and b1, and whether CHK is set. -/
def i4xGroup (b0 b1 : Nat) : List FVal × Bool :=
  let el := [b0 % 16, b0 / 16 % 16, b1 % 16, b1 / 16 % 16]
  let at_ (i : Nat) : Nat := nth el 0 i
  let marks := (List.range 4).filter fun i => at_ i == 8
  match marks with
  | [] => (el.map fun c => intVal (i4xVal c), false)
  | i :: rest =>
      let nb := 1 - i / 2
      let free := at_ (2 * nb) != 8 && at_ (2 * nb + 1) != 8
      let byte := if nb = 0 then b0 % 256 else b1 % 256
      let v := decodeFloat .e4m3 byte
      let vals := (List.range 4).map fun j =>
        if free && j / 2 == nb then intVal 0
        else if j = i then (if free && !v.isNan then v else intVal 0)
        else intVal (i4xVal (at_ j))
      (vals, !rest.isEmpty || !free || v.isNan)

end Sys2Proof.Machine
end

