-- ==== Sys2Proof/Machine/Transc.lean ====
section
/-!
DEFINITION. Machine/Transc.lean: the correctly rounded functions of OP 0x41 (R51, R52, R255), RSMERGE's step and the RSM
merge built on FEXP2 (R264), and the Philox generator (R234).
FRCP, FSQRT, FRSQ and FDIV round exact fractions. FEXP2, FLOG2, FSIN and FCOS have irrational values but at the arguments
treated apart; elsewhere a 512-bit fixed-point value, taken half a unit above its floor, is rounded. UNVERIFIED: that 512
bits decide every rounding (log entry 22).
-/
namespace Sys2Proof.Machine

/-- Fraction bits of the fixed-point values. -/
def fixBits : Nat := 512

/-- Integer square root by Newton's steps from above. -/
def sqrtGo (n : Nat) : Nat → Nat → Nat
  | 0, x => x
  | fuel + 1, x => let y := (x + n / x) / 2
                   if y < x then sqrtGo n fuel y else x
/-- floor(√n). -/
def isqrt (n : Nat) : Nat := if n = 0 then 0 else sqrtGo n (2 * Nat.log2 n + 8) (2 ^ (Nat.log2 n / 2 + 1))

/-- A value that is no multiple of its last place: half a unit above `k`. -/
def between (neg : Bool) (k bits : Nat) : FVal := .fin neg (2 * k + 1) (2 ^ (bits + 1))

/-- √(n / d) for an exact fraction: itself a fraction when both are squares after scaling by an even power of two. -/
def sqrtVal (n d : Nat) : FVal :=
  -- n / d = n d / d²; 2^(2 fixBits) fraction bits keep the root's fixBits
  let m := n * d * 2 ^ (2 * fixBits)
  let k := isqrt m
  if k * k = m then .fin false k (d * 2 ^ fixBits) else .fin false (2 * k + 1) (d * 2 ^ (fixBits + 1))

/-- Terms x^(2i+1) / (2i+1) of an odd series, signs alternating when `alt`; arguments and sum in fixed point. -/
def oddSeries (sq : Nat) (alt : Bool) : Nat → Nat → Nat → Int → Int
  | 0, _, _, acc => acc
  | fuel + 1, i, pw, acc =>
      let t : Int := pw / (2 * i + 1)
      oddSeries sq alt fuel (i + 1) (pw * sq / 2 ^ fixBits) (if alt && i % 2 == 1 then acc - t else acc + t)

/-- atan(1/m) and atanh(z) in fixed point. -/
def atanInv (m : Nat) : Int := oddSeries (2 ^ fixBits / (m * m)) true 260 0 (2 ^ fixBits / m) 0
def atanhFix (z : Nat) : Int := oddSeries (z * z / 2 ^ fixBits) false 260 0 z 0

/-- ln 2 = 2 atanh(1/3), and π by Machin's formula, in fixed point. -/
def ln2Fix : Nat := (2 * atanhFix (2 ^ fixBits / 3)).toNat
def piFix : Nat := (16 * atanInv 5 - 4 * atanInv 239).toNat

/-- e^y for y in fixed point, 0 ≤ y < 1: terms y^i / i!. -/
def expGo (y : Nat) : Nat → Nat → Nat → Nat → Nat
  | 0, _, _, acc => acc
  | fuel + 1, i, t, acc => expGo y fuel (i + 1) (t * y / 2 ^ fixBits / i) (acc + t)
def expFix (y : Nat) : Nat := expGo y 120 1 (2 ^ fixBits) 0

/-- sin y for y in fixed point, 0 ≤ y ≤ 2. -/
def sinGo (y2 : Nat) : Nat → Nat → Nat → Int → Int
  | 0, _, _, acc => acc
  | fuel + 1, i, t, acc =>
      sinGo y2 fuel (i + 1) (t * y2 / 2 ^ fixBits / ((2 * i + 2) * (2 * i + 3))) (if i % 2 = 1 then acc - t else acc + t)
def sinFix (y : Nat) : Nat := (sinGo (y * y / 2 ^ fixBits) 70 0 y 0).toNat

/-- 2^x for a finite x = ± n / d. Beyond ±2000 every result rounds as 2^±2000 does. -/
def exp2Val (neg : Bool) (n d : Nat) : FVal :=
  if n ≥ 2000 * d then (if neg then .fin false 1 (2 ^ 2000) else .fin false (2 ^ 2000) 1)
  else
    let v := signedNum neg n
    let k := v / (d : Int)
    let f := (v - k * d).toNat
    if f = 0 then dyadic false 1 k
    else
      let m := expFix (f * ln2Fix / d)
      .fin false ((2 * m + 1) * 2 ^ k.toNat) (2 ^ (fixBits + 1 + (-k).toNat))

/-- log2 of n / d > 0. -/
def log2Val (n d : Nat) : FVal :=
  let k := floorLog2 n d
  let a := n * 2 ^ (-k).toNat
  let b := d * 2 ^ k.toNat
  -- a / b in [1, 2)
  if a = b then intVal k
  else
    let z := (a - b) * 2 ^ fixBits / (a + b)
    let l := (2 * atanhFix z).toNat * 2 ^ fixBits / ln2Fix
    let v : Int := k * (2 ^ fixBits : Nat) + l
    if v < 0 then .fin true (2 * v.natAbs - 1) (2 ^ (fixBits + 1)) else between false v.toNat fixBits

/-- sin(2πt) for a fraction t = n / d of a turn, 0 ≤ t < 1; exact at quarters. -/
def sinTurn (n d : Nat) : FVal :=
  let q := 4 * n / d
  let r := 4 * n % d
  let neg := q ≥ 2
  if r = 0 then (if q % 2 = 0 then .fin false 0 1 else .fin neg 1 1)
  else
    -- angle within the quarter, mirrored in odd quarters: u = r / (4 d) or (d - r) / (4 d)
    let u := if q % 2 = 0 then r else d - r
    between neg (sinFix (2 * piFix * u / (4 * d))) fixBits

/-- The special functions of R255 by FN. -/
inductive SFun | rcp | rsq | sqrt | div | exp2 | log2 | sin | cos
  deriving DecidableEq, Repr

/-- The exact result of a special function on values that are no NaNs (R52), and the flags of its special cases; none for
an invalid operation. -/
def sfunExact (f : SFun) (x y : FVal) : Option (FVal × Flags) :=
  match f with
  | .rcp =>
      match x with
      | .fin s n d => if n = 0 then some (.inf s, flDZ) else some (.fin s d n, 0)
      | .inf s => some (.fin s 0 1, 0)
      | v => some (v, 0)
  | .rsq =>
      match x with
      | .fin s n d =>
          if n = 0 then some (.inf s, flDZ) else if s then none
          else match sqrtVal n d with
            | .fin _ a b => some (.fin false b a, 0)
            | v => some (v, 0)
      | .inf s => if s then none else some (.fin false 0 1, 0)
      | v => some (v, 0)
  | .sqrt =>
      match x with
      | .fin s n d => if n = 0 then some (.fin s 0 1, 0) else if s then none else some (sqrtVal n d, 0)
      | .inf s => if s then none else some (.inf false, 0)
      | v => some (v, 0)
  | .div =>
      let s := x.neg? != y.neg?
      match x, y with
      | .inf _, .inf _ => none
      | .inf _, _ => some (.inf s, 0)
      | _, .inf _ => some (.fin s 0 1, 0)
      | .fin _ a b, .fin _ c d =>
          if c = 0 then (if a = 0 then none else some (.inf s, flDZ)) else some (.fin s (a * d) (b * c), 0)
      | v, _ => some (v, 0)
  | .exp2 =>
      match x with
      | .fin s n d => some (exp2Val s n d, 0)
      | .inf s => some (if s then .fin false 0 1 else .inf false, 0)
      | v => some (v, 0)
  | .log2 =>
      match x with
      | .fin s n d => if n = 0 then some (.inf true, flDZ) else if s then none else some (log2Val n d, 0)
      | .inf s => if s then none else some (.inf false, 0)
      | v => some (v, 0)
  | .sin =>
      match x with
      | .fin s n d =>
          if 2 * n % d = 0 then some (.fin s 0 1, 0)
          else
            let r := n % d
            some (sinTurn (if s then d - r else r) d, 0)
      | .inf _ => none
      | v => some (v, 0)
  | .cos =>
      match x with
      | .fin _ n d =>
          -- cos(2πx) = sin(2π(|x| + 1/4))
          some (sinTurn ((4 * (n % d) + d) % (4 * d)) (4 * d), 0)
      | .inf _ => none
      | v => some (v, 0)

/-- A special function of FP32 patterns (R51, R255). -/
def sfun (f : SFun) (r : RMode) (sat ftz : Bool) (a b : Nat) : Nat × Flags :=
  let x := operandVal .f32 ftz a
  let y := operandVal .f32 ftz b
  let ins := if f = .div then [x, y] else [x]
  match firstNan ins with
  | some _ => arith .f32 r sat ftz ins false none
  | none =>
      match sfunExact f x y with
      | none => (canonNan .f32, flNV)
      | some (v, fl) => let (w, g) := roundTo .f32 (.mode r) sat ftz v
                        (w, fl ||| g)

/-! RSMERGE and RSM (R264). -/

/-- FP32 multiplication and addition, RNE, subnormals kept. -/
def mul32 (a b : Nat) : Nat × Flags := floatOp .f32 .mul .rne false false a b 0
def add32 (a b : Nat) : Nat × Flags := floatOp .f32 .add .rne false false a b 0

/-- The greater of two m, +0 above −0; a NaN follows R38. -/
def rsmMax (m1 m2 : Nat) : Nat × Flags :=
  let x := decodeFloat .f32 m1
  let y := decodeFloat .f32 m2
  match firstNan [x, y] with
  | some (.nan neg _ pay w) => (nanPat .f32 neg pay w, flagIf (x.isSnan || y.isSnan) flNV)
  | _ => floatMinMax .f32 true false m1 m2

/-- A factor f_i. −∞ is 0xFF800000; equality with m is that of values. -/
def rsmFactor (mi m : Nat) : Nat × Flags :=
  if mi = 0xFF800000 then (0, 0)
  else if (floatCmp .f32 false .eq mi m).1 then (0x3F800000, 0)
  else
    let (d, fl) := floatOp .f32 .sub .rne false false mi m 0
    let (e, gl) := sfun .exp2 .rne false false d 0
    (e, fl ||| gl)

/-- One scaled sum. -/
def rsmSum (f1 f2 a b : Nat) : Nat × Flags :=
  let (p, x) := mul32 a f1
  let (q, y) := mul32 b f2
  let (s, z) := add32 p q
  (s, x ||| y ||| z)

/-- The merge of two triples m, s, v[0..] as lists of words (R264). -/
def rsmMerge (a b : List U32) : List U32 × Flags :=
  let m1 := (nth a 0 0).toNat
  let m2 := (nth b 0 0).toNat
  let (m, f0) := rsmMax m1 m2
  let (g1, e1) := rsmFactor m1 m
  let (g2, e2) := rsmFactor m2 m
  let rest := (a.drop 1).zip (b.drop 1) |>.map fun p => rsmSum g1 g2 p.1.toNat p.2.toNat
  (BitVec.ofNat 32 m :: rest.map fun p => BitVec.ofNat 32 p.1, rest.foldl (fun f p => f ||| p.2) (f0 ||| e1 ||| e2))

/-! Philox-4×32 (R234). -/

/-- Rounds of the generator. -/
def philoxGo : Nat → Nat × Nat × Nat × Nat → Nat → Nat → Nat × Nat × Nat × Nat
  | 0, x, _, _ => x
  | n + 1, (x0, x1, x2, x3), j0, j1 =>
      let p := 0xD2511F53 * x0
      let q := 0xCD9E8D57 * x2
      philoxGo n ((q / 2 ^ 32) ^^^ x1 ^^^ j0, q % 2 ^ 32, (p / 2 ^ 32) ^^^ x3 ^^^ j1, p % 2 ^ 32)
        ((j0 + 0x9E3779B9) % 2 ^ 32) ((j1 + 0xBB67AE85) % 2 ^ 32)

/-- The four words of a draw. -/
def philox (rounds : Nat) (x : Nat × Nat × Nat × Nat) (seed : U64) : List U32 :=
  let k0 := (lo32 seed).toNat
  let k1 := (hi32 seed).toNat
  let (x0, x1, x2, x3) := philoxGo rounds x k0 k1
  [BitVec.ofNat 32 (x0 ^^^ k0), BitVec.ofNat 32 (x1 ^^^ k1), BitVec.ofNat 32 (x2 ^^^ k0), BitVec.ofNat 32 (x3 ^^^ k1)]

end Sys2Proof.Machine
end

