-- ==== Sys2Proof/Machine/Operands.lean ====
section
/-!
DEFINITION. Machine/Operands.lean: every operand form of a lane word (R178 to R183, R92), the checks that depend on the team
and on FMT (R58, R167, R185), ACTIVE and FE_CHECK (R11, R119), and the frame every lane instruction runs in (R186, R223).
-/
namespace Sys2Proof.Machine

/-! Inline constants (R181). -/

/-- Integer use of an inline constant. -/
def constInt (k : Nat) : Int :=
  if k ≤ 32 then k else if k ≤ 48 then 32 - (k : Int) else
    nth [64, 128, 255, 256, 1023, 1024, 4095, 65535, 2 ^ 16, 2 ^ 20, 2 ^ 24, 0x7FFFFFFF, 0x80000000, 0x0F0F0F0F, 0xFF00FF00] 0 (k - 49)

/-- Ten to the fortieth: the irrational constants are given to forty decimals. -/
def tenTo40 : Nat := 10 ^ 40

/-- Floating use of codes 49 to 61, as fractions: 1/2, 1/4, 1/8, 1/16, 1/3, 1/5, 1/7, 1/9, ln 2, log2 e, pi, 1/pi, 2^-24. -/
def constFrac (k : Nat) : Nat × Nat :=
  nth [(1, 2), (1, 4), (1, 8), (1, 16), (1, 3), (1, 5), (1, 7), (1, 9),
       (6931471805599453094172321214581765680755, tenTo40), (14426950408889634073599246810018921374266, tenTo40),
       (31415926535897932384626433832795028841972, tenTo40), (3183098861837906715377675267450287240689, tenTo40),
       (1, 2 ^ 24)] (0, 1) (k - 49)

/-- Floating use of an inline constant: its pattern in a format, rounded by RNE. -/
def constFloat (f : Fmt) (k : Nat) : Nat :=
  if k = 62 then largestPat f
  else if k = 63 then (roundTo f (.mode .rne) false false (.inf false)).1
  else
    let v : FVal := if k ≤ 48 then intVal (constInt k) else let (n, d) := constFrac k
                                                          .fin false n d
    (roundTo f (.mode .rne) false false v).1

/-! FMT (R57). -/

def fmtFA (w : U32) : BitVec 4 := w.extractLsb' 0 4
def fmtFB (w : U32) : BitVec 4 := w.extractLsb' 4 4
def fmtFD (w : U32) : BitVec 4 := w.extractLsb' 8 4
def fmtSGA (w : U32) : Bool := w.getLsbD 12
def fmtSGB (w : U32) : Bool := w.getLsbD 13
def fmtBSM (w : U32) : BitVec 2 := w.extractLsb' 14 2
def fmtRM (w : U32) : RMode := decodeRMode (w.extractLsb' 16 2)
def fmtSRN (w : U32) : Bool := w.getLsbD 18
def fmtFTZ (w : U32) : Bool := w.getLsbD 19

/-- CVT with its formats, signedness and rounding taken from FMT where FMTSEL says so (R258). -/
def resolveCvt (fmt : U32) (o : LaneOps) (x : CvtExt) : Option (LaneOps × CvtExt) :=
  if !o.fmtsel then some (o, x) else
    match decodeFmt (fmtFA fmt), decodeFmt (fmtFD fmt) with
    | some sf, some df =>
        if fmtBSM fmt != 0 then none else
          let sr := fmtSRN fmt && decide (fmtWidth df ≤ 16) && !(fmtIsInt sf && fmtIsInt df)
          some ({ o with fmtsel := false, rm := if sr then .rne else fmtRM fmt, sga := o.sga || (fmtIsInt sf && fmtSGA fmt) },
                { x with sf := sf, df := df, srx := sr })
    | _, _ => none

/-- PACKN under FMTSEL (R260). -/
def resolvePack (fmt : U32) (o : LaneOps) (x : PackExt) : Option (LaneOps × PackExt) :=
  if !o.fmtsel then some (o, x) else
    match decodeFmt (fmtFD fmt), decodeBsm (fmtBSM fmt) with
    | some df, some b =>
        some ({ o with fmtsel := false, rm := if fmtSRN fmt then .rne else fmtRM fmt }, { x with df := df, bsm := b, srx := fmtSRN fmt })
    | _, _ => none

/-- UNPACKN under FMTSEL (R262). -/
def resolveUnpack (fmt : U32) (o : LaneOps) (x : UnpackExt) : Option (LaneOps × UnpackExt) :=
  if !o.fmtsel then some (o, x) else
    match decodeFmt (fmtFA fmt), decodeBsm (fmtBSM fmt) with
    | some sf, some b =>
        some ({ o with fmtsel := false, rm := fmtRM fmt, sga := o.sga || (fmtIsInt sf && sf != .i4x && b != .mx && fmtSGA fmt) },
              { x with sf := sf, bsm := b })
    | _, _ => none

/-- The format of a packed instruction: EXT[0], or FMT.FA under FMTSEL (R256). -/
def packedFmt (fmt : U32) (o : LaneOps) (bf : Bool) : Option Fmt :=
  if !o.fmtsel then some (if bf then .bf16 else .f16)
  else if fmtBSM fmt != 0 then none
  else match decodeFmt (fmtFA fmt) with
    | some .f16 => some .f16
    | some .bf16 => some .bf16
    | _ => none

/-- A format with its mode and signedness. -/
structure MatFmt where
  fmt : Fmt
  bsm : Bsm
  unsigned : Bool

/-- The formats of a QMMA under FMT, and the width of the wider; none where R304 or, for the signedness of an operand read as floating, R180 does
not accept them. DEDUCED (log entry 34): FD may be FP32 for every pair, and I32 for every pair of I4 and I8, scaled or not. -/
def qmmaFmts (fmt : U32) (sga sgb : Bool) : Option (MatFmt × MatFmt × Nat) :=
  let ok (f : Fmt) : Bool := match f with
    | .f16 | .bf16 | .e4m3 | .e5m2 | .i8 | .e2m1 | .i4 | .i4x => true
    | _ => false
  match decodeFmt (fmtFA fmt), decodeFmt (fmtFB fmt), decodeFmt (fmtFD fmt), decodeBsm (fmtBSM fmt) with
  | some a, some b, some d, some m =>
      let ints := (a == .i4 || a == .i8) && (b == .i4 || b == .i8)
      if ok a && ok b && bsmOk m a && bsmOk m b && (d == .f32 || (d == .i32 && ints))
          && (!sga || fmtIsInt a) && (!sgb || fmtIsInt b) then
        let w := max (fmtWidth a) (fmtWidth b)
        some ({ fmt := a, bsm := m, unsigned := sga || fmtSGA fmt }, { fmt := b, bsm := m, unsigned := sgb || fmtSGB fmt }, w)
      else none
  | _, _, _, _ => none

/-- K of a QMMA whose wider format has w bits, and the registers of a row of A (R304). -/
def qmmaK (w : Nat) : Nat := if w = 4 then 64 else 32
def qmmaRA (w : Nat) : Nat := qmmaK w * w / 32

/-- The registers a QMMA names lie in the allocation and do not overlap as R304 forbids. -/
def qmmaRegsOk (lim : Nat) (o : LaneOps) (vs : VReg) (ra : Nat) (scaled : Bool) : Bool :=
  match o.a, o.c with
  | .reg a, .reg c =>
      decide (a.toNat % 8 = 0 ∧ a.toNat + ra ≤ lim ∧ c.toNat + 8 ≤ lim ∧ o.d.toNat + 8 ≤ lim)
        && decide (o.d.toNat + 8 ≤ a.toNat ∨ a.toNat + ra ≤ o.d.toNat) && (if scaled then decide (vs.toNat < lim) else vs == 0)
  | _, _ => false

/-- The limits of R304 that depend on FMT and the allocation. -/
def formLegal (lim : Nat) (fmt : U32) : Instr → Bool
  | .qmma o vs =>
      match qmmaFmts fmt o.sga o.sgb with
      | some (fa, _, w) => qmmaRegsOk lim o vs (qmmaRA w) (fa.bsm != .none)
      | none => false
  | _ => true

/-- The instruction whose shape its fields must fit, with FMT's formats in place under FMTSEL; none for the cases of R58. -/
def effective (fmt : U32) (i : Instr) : Option Instr :=
  match i with
  | .cvt o x => (resolveCvt fmt o x).map fun p => .cvt p.1 p.2
  | .packn o x => (resolvePack fmt o x).map fun p => .packn p.1 p.2
  | .unpackn o x => (resolveUnpack fmt o x).map fun p => .unpackn p.1 p.2
  | .hadd2 o bf | .hsub2 o bf | .hmul2 o bf | .hfma2 o bf => (packedFmt fmt o bf).map fun _ => i
  | .qmma _ _ => some i
  | _ =>
      match laneOps i with
      | some o => if o.fmtsel && fmtBSM fmt != 0 then none else some i
      | none => none

/-! Registers within the allocation (R167). -/

/-- Registers a source use names. -/
def useSpan : SrcUse → Nat
  | .none | .pred => 0
  | .any w | .addr w => if w then 2 else 1
  | .reg _ k => k
  | .dbl => 2

def srcWithin (lim : Nat) (u : SrcUse) : Src → Bool
  | .reg n => useSpan u == 0 || decide (n.toNat + useSpan u ≤ lim)
  | _ => true

def dstWithin (lim : Nat) : DstUse → VReg → Bool
  | .vec _ k, d => decide (d.toNat + k ≤ lim)
  | _, _ => true

/-- Registers an instruction names outside D, A, B and C: (first, count). -/
def extraRegs : Instr → List (Nat × Nat)
  | .packn _ x => if x.bsm == .none then [] else [(x.sd.toNat, 1)]
  | .ldsub .. => []
  | _ => []

def srcIsRein : Src → Bool
  | .rein _ => true
  | _ => false

/-- Registers of a team's lanes. -/
def Team.regLimit (t : Team) : Nat := t.desc.regs * 32

/-- The checks of R185 that depend on the team and its group. -/
def laneLegal (lim : Nat) (spawned : Bool) (i : Instr) : Bool :=
  wellFormed i &&
  match laneShape i, laneOps i with
  | some sh, some o =>
      dstWithin lim sh.d o.d && srcWithin lim sh.a o.a && srcWithin lim sh.b o.b && srcWithin lim sh.c o.c
        && (extraRegs i).all (fun r => decide (r.1 + r.2 ≤ lim))
        && !(spawned && (srcIsRein o.a || srcIsRein o.b || srcIsRein o.c))
  | _, _ => false

/-! ACTIVE, the wait on an empty destination and FE_CHECK (R11, R119). -/

def guardHolds (x : Group) : Guard → Nat → Bool
  | .always, _ => true
  | .pos n, l => x.preg n.toNat l
  | .neg n, l => !x.preg n.toNat l

/-- Lanes a guard selects from a split, in COUNT mode among the enabled ones (R11, R113). -/
def activeMask (t : Team) (x : Group) (sp : Nat) (g : Guard) : U32 :=
  let m := (x.split sp).mask
  maskWhere fun l => laneIn m l && guardHolds x g l && (!t.desc.count || x.ncOf l == 0)

/-- Lanes of a split that are enabled. -/
def enabledMask (t : Team) (x : Group) (sp : Nat) : U32 := activeMask t x sp .always

/-- Every destination register is full. -/
def dstFull (x : Group) (i : Instr) : Bool :=
  (match laneShape i, laneOps i with
   | some sh, some o => (match sh.d with | .vec _ k => x.allFull o.d.toNat k | _ => true)
   | _, _ => true) && (extraRegs i).all fun r => x.allFull r.1 r.2

inductive FeResult | ok | wait | trap
  deriving DecidableEq, Repr

/-- FE_CHECK of one source. -/
def feOne (x : Group) (u : SrcUse) (fe : Bool) : Src → FeResult
  | .reg n => if useSpan u == 0 || x.allFull n.toNat (useSpan u) then .ok else if fe then .trap else .wait
  | _ => .ok

/-- FE_CHECK of the sources A, B and C in turn. -/
def feCheck (x : Group) (i : Instr) : FeResult :=
  match laneShape i, laneOps i with
  | some sh, some o =>
      match feOne x sh.a o.fea o.a with
      | .ok => (match feOne x sh.b o.feb o.b with
          | .ok => feOne x sh.c o.fec o.c
          | r => r)
      | r => r
  | _, _ => .ok

/-! The frame of a lane instruction. -/

/-- What a lane instruction runs in. -/
structure LaneEnv where
  s : State
  tk : Nat
  g : Nat
  sp : Nat
  t : Team
  x : Group
  /-- the ACTIVE lanes -/
  act : U32

def LaneEnv.split (e : LaneEnv) : Split := e.x.split e.sp
def LaneEnv.fmt (e : LaneEnv) : U32 := e.split.fmt
def LaneEnv.ftz (e : LaneEnv) : Bool := fmtFTZ e.fmt
def LaneEnv.lanes (e : LaneEnv) : List Nat := lanesOf e.act
def LaneEnv.low (e : LaneEnv) : Nat := lowestLane e.act
/-- The rounding mode of an instruction: MOD, or FMT.RM under FMTSEL. -/
def LaneEnv.rm (e : LaneEnv) (o : LaneOps) : RMode := if o.fmtsel then fmtRM e.fmt else o.rm

/-- A lane trap of a split's instruction. -/
def laneTrap (s : State) (tk g sp : Nat) (lpc : BitVec 24) (c : Cause) (lane : Nat) (addr : U64 := 0) (hidx check : Nat := 0) : State :=
  s.trapLane tk { cause := c, src := 0, group := g, split := sp, lane := lane, loc := lpc.setWidth 64, addr := addr, hidx := hidx, check := check }

def LaneEnv.trap (e : LaneEnv) (c : Cause) (lane : Nat) (addr : U64 := 0) (hidx check : Nat := 0) : Out :=
  .next (laneTrap e.s e.tk e.g e.sp e.split.lpc c lane addr hidx check)

/-- Runs a lane instruction: decoded before its guard (R186), then the waits and FE_CHECK. -/
def laneRun (i : Instr) (s : State) (f : LaneEnv → Out) : Out :=
  withSplit s fun tk g sp t x =>
    let y := x.split sp
    let illegal : Out := .next (laneTrap s tk g sp y.lpc .illegal (lowestLane y.mask))
    match effective y.fmt i with
    | none => illegal
    | some j =>
        if !laneLegal t.regLimit x.spawned j || !formLegal t.regLimit y.fmt j then illegal
        else if !dstFull x j then stay s
        else
          let act := activeMask t x sp ((laneOps i).getD {}).g
          match (if act = 0 then .ok else feCheck x j) with
          | .wait => stay s
          | .trap => .next (laneTrap s tk g sp y.lpc .regEmpty (lowestLane act))
          | .ok => f { s := s, tk := tk, g := g, sp := sp, t := t, x := x, act := act }

/-- The instruction completes: the group becomes `x`, the team's other state `t`, and the split goes on. -/
def LaneEnv.doneIn (e : LaneEnv) (s : State) (t : Team) (x : Group) : Out :=
  .next ((s.setTeam e.tk (t.setGroup e.g x)).retireLane e.tk e.g e.sp (e.split.lpc + 1) e.act)

/-- The instruction completes, having changed the group alone. -/
def LaneEnv.done (e : LaneEnv) (x : Group) : Out := e.doneIn e.s e.t x

/-- The instruction completes having changed nothing. -/
def LaneEnv.skip (e : LaneEnv) : Out := e.done e.x

/-! Source values. -/

/-- Launch identifier, tiles or teams, of a team's launch. -/
def LaneEnv.teamsOfGrid (e : LaneEnv) : Nat := match e.s.launch? e.t.launch with
  | some l => l.nx * l.ny * l.nz
  | none => 0

/-- Draw count of a lane (R235). -/
def Team.drawOf (t : Team) (g l : Nat) : U32 := sparseGet 0 t.draws (32 * g + l)

/-- A lane special (R179). -/
def LaneEnv.special (e : LaneEnv) (l : Nat) : LaneSpecial → U32
  | .laneid => BitVec.ofNat 32 l
  | .quarter => BitVec.ofNat 32 (l / 8)
  | .splitid => BitVec.ofNat 32 e.sp
  | .groupid => BitVec.ofNat 32 e.g
  | .teamid => BitVec.ofNat 32 e.t.teamId
  | .gridid => BitVec.ofNat 32 e.t.launch
  | .gridhi => BitVec.ofNat 32 (e.t.launch / 2 ^ 32)
  | .nteams => BitVec.ofNat 32 e.teamsOfGrid
  | .ngroups => BitVec.ofNat 32 e.t.desc.groups
  | .ltmask => BitVec.ofNat 32 (2 ^ l - 1)
  | .livemask => e.x.live
  | .splitmask => e.split.mask
  | .core => BitVec.ofNat 32 e.t.core
  | .drawcnt => e.t.drawOf e.g l

/-- A rein word (R92), as it stood before the current cycle (R218). -/
def LaneEnv.reinWord (e : LaneEnv) (k : Nat) : U64 := sparseGet 0 e.t.reinWas ((e.x.fbase.toNat + k) % 256)

/-- A 32-bit operand of a lane, as a bit pattern. -/
def LaneEnv.val (e : LaneEnv) (l : Nat) : Src → U32
  | .reg n => e.x.vreg n.toNat l
  | .const k => BitVec.ofInt 32 (constInt k.toNat)
  | .rein k => lo32 (e.reinWord k.toNat)
  | .special p => e.special l p
  | .imm w => w

/-- A 64-bit operand of a lane. -/
def LaneEnv.val64 (e : LaneEnv) (l : Nat) : Src → U64
  | .reg n => e.x.vpair n.toNat l
  | .const k => BitVec.ofInt 64 (constInt k.toNat)
  | .rein k => e.reinWord k.toNat
  | .special p => (e.special l p).setWidth 64
  | .imm w => w.setWidth 64

/-- A predicate operand of a lane. -/
def LaneEnv.pred (e : LaneEnv) (l : Nat) : Src → Bool
  | .reg n => e.x.preg n.toNat l
  | _ => false

/-- A 32-bit integer operand read with its signedness (R221). -/
def readInt (n : Nat) (unsigned : Bool) (w : Nat) : Int := if unsigned then (w % 2 ^ n : Nat) else signedOf n w
def LaneEnv.int (e : LaneEnv) (l : Nat) (unsigned : Bool) (src : Src) : Int := readInt 32 unsigned (e.val l src).toNat

/-- A floating operand of a lane, as a pattern of its format. -/
def LaneEnv.fl (e : LaneEnv) (l : Nat) (f : Fmt) : Src → Nat
  | .const k => constFloat f k.toNat
  | src => if f = .f64 then (e.val64 l src).toNat else (e.val l src).toNat

/-- A pattern in every element slot of a register. -/
def inEvery (slot w : Nat) : Nat := (List.range (32 / slot)).foldl (fun a i => a + w * 2 ^ (slot * i)) 0

/-- A register of elements of a format: a constant is converted or truncated into every element (R181). -/
def LaneEnv.packed (e : LaneEnv) (l : Nat) (f : Fmt) : Src → Nat
  | .const k =>
      if fmtWidth f ≥ 32 then (if fmtIsInt f then (BitVec.ofInt (fmtWidth f) (constInt k.toNat)).toNat else constFloat f k.toNat)
      else inEvery (fmtSlot f) (if fmtIsInt f then wrapTo (fmtWidth f) (constInt k.toNat) else constFloat f k.toNat)
  | src => if fmtWidth f = 64 then (e.val64 l src).toNat else (e.val l src).toNat

/-! Destinations. -/

/-- Writes D of every ACTIVE lane, with the flags each lane raises. -/
def LaneEnv.writeD (e : LaneEnv) (d : VReg) (f : Nat → U32 × Flags) : Group :=
  e.lanes.foldl (fun x l => (x.setVreg d.toNat l (f l).1).raise (f l).2) e.x

/-- Writes the pair D of every ACTIVE lane. -/
def LaneEnv.writePair (e : LaneEnv) (d : VReg) (f : Nat → U64 × Flags) : Group :=
  e.lanes.foldl (fun x l => (x.setVpair d.toNat l (f l).1).raise (f l).2) e.x

/-- Writes the predicate D of every ACTIVE lane. -/
def LaneEnv.writeP (e : LaneEnv) (d : VReg) (f : Nat → Bool × Flags) : Group :=
  e.lanes.foldl (fun x l => (x.setPreg d.toNat l (f l).1).raise (f l).2) e.x

/-- A lane instruction that writes a register of every ACTIVE lane from that lane's operands. -/
def laneD (i : Instr) (d : VReg) (s : State) (f : LaneEnv → Nat → U32 × Flags) : Out :=
  laneRun i s fun e => e.done (e.writeD d (f e))
def lanePair (i : Instr) (d : VReg) (s : State) (f : LaneEnv → Nat → U64 × Flags) : Out :=
  laneRun i s fun e => e.done (e.writePair d (f e))
def laneP (i : Instr) (d : VReg) (s : State) (f : LaneEnv → Nat → Bool × Flags) : Out :=
  laneRun i s fun e => e.done (e.writeP d (f e))

/-! Draws (R41, R233 to R235). -/

/-- The launch's seed. -/
def LaneEnv.seed (e : LaneEnv) : U64 := match e.s.launch? e.t.launch with
  | some l => l.seed
  | none => 0

/-- The k-th next draw of a lane. -/
def LaneEnv.draw (e : LaneEnv) (rounds l k : Nat) : List U32 :=
  philox rounds (((e.t.drawOf e.g l).toNat + k) % 2 ^ 32, e.g * 32 + l, e.t.teamId % 2 ^ 32, e.t.launch % 2 ^ 32) e.seed

/-- Word of result j of a conversion under SR. -/
def LaneEnv.srWord (e : LaneEnv) (l j : Nat) : Nat := (nth (e.draw 10 l (j / 4)) 0 (j % 4)).toNat

/-- The team with the draw counts of the ACTIVE lanes advanced by n. -/
def LaneEnv.drawn (e : LaneEnv) (n : Nat) : Team :=
  { e.t with draws := e.lanes.foldl (fun m l => sparseSet 0 (32 * e.g + l) (e.t.drawOf e.g l + BitVec.ofNat 32 n) m) e.t.draws }

end Sys2Proof.Machine
end

