-- ==== Sys2Proof/Machine/Mem.lean ====
section
/-!
DEFINITION. Machine/Mem.lean: what the memory instructions of riders and lanes share: the parts of an access, the token
and lease moves of a line, landing and performing (R125 to R142, R149 to R160), the return slots and requests of the atomic
service (R334 to R337), and the named barriers (R139).
-/
namespace Sys2Proof.Machine

/-! Parts of an access. -/

/-- The parts of an access to handle memory, `data` and `mask` from the lowest byte. -/
def partsOf (lane : Nat) (data mask : Nat) : Nat → List (Nat × Nat × Spot) → List Part
  | _, [] => []
  | sh, (va, n, sp) :: l =>
      { lane := lane, place := .mem sp.key, n := n, data := BitVec.ofNat 128 (data / 2 ^ sh), mask := BitVec.ofNat 128 (mask / 2 ^ sh),
        va := va, cached := sp.mode == 2, policy := sp.policy, migrate := sp.migrate }
        :: partsOf lane data mask (sh + 8 * n) l

/-- The 16-byte parts of a range of offsets (R150). -/
def splitRange (lane : Nat) (mk : Nat → Place) (data mask : Nat) : Nat → Nat → Nat → Nat → List Part
  | 0, _, _, _ => []
  | fuel + 1, off, n, sh =>
      if n = 0 then [] else
        let k := min n (16 - off % 16)
        { lane := lane, place := mk off, n := k, data := BitVec.ofNat 128 (data / 2 ^ sh), mask := BitVec.ofNat 128 (mask / 2 ^ sh), va := off }
          :: splitRange lane mk data mask fuel (off + k) (n - k) (sh + 8 * k)

/-- Of the parts of one access in one line, the first is counted on a MIGRATE page (R397). -/
def countOnce (ps : List Part) : List Part :=
  ps.zipIdx.map fun (p, i) => if (ps.take i).any fun q => q.va / 128 == p.va / 128 then { p with migrate := none } else p

/-- An access through a handle, as parts. -/
def State.handleParts (s : State) (t : Team) (lane h : Nat) (off : Int) (n align : Nat) (r : HRight) (data : Nat := 0)
    (mask : Nat := 2 ^ 128 - 1) (mis : Bool := false) : Except AccFault (List Part) × State :=
  let (x, s) := s.access t h off n align r 16 mis
  (x.map fun l => countOnce (partsOf lane data mask 0 l), s)

/-- An access to the scratchpad: its bounds, then its alignment (R127). -/
def Team.scratchParts (t : Team) (lane : Nat) (off : Int) (n align : Nat) (data : Nat := 0) (mask : Nat := 2 ^ 128 - 1)
    (mis : Bool := false) : Except AccFault (List Part) :=
  if off < 0 ∨ off + n > t.scrBytes then .error { cause := .addrBounds, addr := wrapTo 64 off }
  else if mis ∨ off.toNat % align ≠ 0 then .error { cause := .misalign, addr := off.toNat }
  else .ok (splitRange lane .scr data mask (n + 1) off.toNat n 0)

/-- An access to accumulator memory (R129, R274). -/
def Team.accParts (t : Team) (lane : Nat) (off : Int) (n : Nat) (data : Nat := 0) : Except AccFault (List Part) :=
  if off < 0 ∨ off + n > t.desc.acc * 65536 then .error { cause := .addrBounds, addr := wrapTo 64 off }
  else if off.toNat % n ≠ 0 then .error { cause := .misalign, addr := off.toNat }
  else .ok (splitRange lane .acc data (2 ^ 128 - 1) (n + 1) off.toNat n 0)

/-! Tokens, leases and migration counts (R131, R132, R378, R397). -/

/-- The doublewords of a TOKEN event (R378). -/
def tokenBody (m : TokenMove) : List U64 :=
  [BitVec.ofNat 64 (m.line * 128), BitVec.ofNat 64 ((if m.lease then 2 ^ 32 else 0) + m.dst * 2 ^ 16 + m.src)]

/-- The stream of a local line's TOKEN events: its owner's service. -/
def State.tokenStream (s : State) (line : Nat) : Nat := 0x400 + s.ownerOn (homeDie (line * 128)) (line * 128)

/-- Records the moves of lines, or holds them to the log of a replay; none while their turn has not come. DEDUCED (log entry 9): the moves of a
line of a peer, which no service of this module owns, are not events. -/
def State.tokenEvents (launch : Nat) : List TokenMove → State → Option State
  | [], s => some s
  | m :: ms, s =>
      if 2 ^ 52 ≤ m.line * 128 then State.tokenEvents launch ms s else
      let stream := s.tokenStream m.line
      match s.gating launch with
      | none => if s.levelOf launch < 2 then some s else State.tokenEvents launch ms (s.record stream (s.levelOf launch) 2 0x11
            { ctx := 0x7F, launch := 0, team := 0, who := 63, lane := 0, icnt := 0 } (tokenBody m))
      | some r =>
          if !r.full then some s else
            match r.expect stream with
            | .event _ _ ev _ => if evType ev = 0x11 ∧ evBody ev = tokenBody m then State.tokenEvents launch ms (s.stepReplay stream) else none
            | _ => none

/-- A core moves the line of an access; none while a replay holds it. -/
def State.moveLine (s : State) (launch core key : Nat) (write alloc l1 : Bool) : Option State :=
  let (s', ms) := s.lineMoves core key write alloc l1
  State.tokenEvents launch ms s'

/-- Whether the copy of a line that a die holds has meanwhile been evicted, so that a read fetches the line again (R24, R132): a free choice
where the copy differs from its home; in the replay of a recording at FULL, what the log says (R165). -/
def State.evictStale (s : State) (launch core key : Nat) : State :=
  let die := s.dieOf core
  let line := key / 128
  match s.liveCopy die line with
  | none => s
  | some c =>
      let logged : Option Bool := (s.gating launch).bind fun r =>
        if !r.full || keyPeer key != 0 then none else
          match r.expect (s.tokenStream line) with
          | .event _ _ ev _ => some (evType ev == 0x11 && evBody ev == tokenBody { line := line, lease := true, dst := core, src := 0x1FF })
          | _ => some false
      match logged with
      | some b => if b then s.dropCopy die line else s
      | none =>
          if c.data = s.bytesAt (line * 128) 128 then s else
            let (b, s) := s.freeBit
            if b then s.dropCopy die line else s

/-- A core reads bytes of one line: its tokens and its lease move, and a copy or the home answers (R130 to R132); none while a replay
holds the read. -/
def State.readKey (s : State) (launch core key n : Nat) (cached : Bool) (k : Kind) (sc : Scope) (policy : Nat) (l1 : Bool) :
    Option (List Byte × State) :=
  let die := s.dieOf core
  let via := rdcAllowed s die key cached k sc
  let s := if via then s.evictStale launch core key else s
  (s.moveLine launch core key false (via && policy != 2) (l1 && policy == 0)).map fun s => s.readVia die key n cached k sc policy

/-- Threshold of a class (R397). -/
def migThreshold : Nat → Option Nat
  | 0 => some 256
  | 1 => some 4096
  | 2 => some 65535
  | _ => none

/-- The entry that a new key replaces in a full table: the lowest count, at the lowest index (R397). -/
def replaceLowest (l : List MigCount) (x : MigCount) : List MigCount :=
  let low := l.foldl (fun m e => if e.die = x.die then min m e.count else m) 0x10000
  modNth (fun _ => x) (l.findIdx fun e => e.die == x.die && e.count == low) l

/-- One more access to a line of a MIGRATE page (R397). -/
def State.countMigrate (s : State) (die key tclass : Nat) : State :=
  match migThreshold tclass with
  | none => s
  | some th =>
      let frame := keyPa key / 2 ^ 16
      let same (e : MigCount) : Bool := e.die == die && e.peer == keyPeer key && e.frame == frame
      let old := s.fab.mig.find? same
      let n := (match old with | some e => e.count | none => 0) + 1
      let e : MigCount := { die := die, peer := keyPeer key, frame := frame, count := n }
      let kept := { e with count := if n ≥ th then 0 else n }
      let mig :=
        if old.isSome then s.fab.mig.map fun x => if same x then kept else x
        else if (s.fab.mig.filter fun x => x.die == die).length < 4096 then s.fab.mig ++ [kept]
        else replaceLowest s.fab.mig kept
      { s with fab := { s.fab with mig := mig, crossings := if n ≥ th then s.fab.crossings ++ [e] else s.fab.crossings } }

def State.countPart (s : State) (die : Nat) (p : Part) : State :=
  match p.place, p.migrate with
  | .mem k, some tc => s.countMigrate die k tc
  | _, _ => s

/-! Reading and writing one part. -/

/-- What the lease clock must exceed before a release or fence of a member: the VMAX of every member of the team, ended groups
included, with the visibility of what they have read, so that a release covers each write that happens before it (R134, R156). -/
def Team.cover (t : Team) : Nat := t.groups.foldl (fun v g => max v (max g.2.vmax g.2.seen)) (max t.endedV (max t.vmax t.seen))

/-- A line has been written by a member of a team: its readers take over what the team's releases cover (R156). -/
def State.noteWriter (s : State) (t : Team) (k : Nat) : State :=
  if t.cover ≤ s.lease then s else
    let line := s.storeKey k / 128
    { s with coh := { s.coh with relV := sparsePut line (max t.cover (sparseGet 0 s.coh.relV line)) s.coh.relV } }

/-- The content that a class may still read of a byte or word, where a write of another class has not reached it (R160); a TMMAG's gather reads what the
matrix commands before it left (R297). -/
def staleFor (m : Sparse Stale) (cls : PClass) (k : Nat) : Option U32 :=
  match sparseFind k m with
  | some e => if e.cls != cls && !e.reached.contains cls && !(e.cls == .mx && cls == .ga) then some e.old else none
  | none => none

/-- What names one read of an operation, whenever it happens: its issuer and the issuer's count, and the place (R165). -/
def Op.readKey (t : Team) (o : Op) (off : Nat) : List Nat := [t.launch, t.teamId, o.group.getD 32, o.icnt, off]

/-- Scratchpad bytes of one 16-byte part as a class reads them: those in place, or older ones (R160, R161). -/
def State.scrPart (s : State) (t : Team) (o : Op) (cls : PClass) (off n : Nat) : List Byte :=
  let now := (List.range n).map fun i => s.scrByte t (off + i)
  if (List.range n).all fun i => (staleFor t.stale cls (off + i)).isNone then now
  else if Config.staleRead (0 :: o.readKey t off) then now
  else (List.range n).map fun i => match staleFor t.stale cls (off + i) with
    | some w => w.setWidth 8
    | none => s.scrByte t (off + i)

/-- Scratchpad bytes of a range as a class reads them, part by part. -/
def State.scrRead (s : State) (t : Team) (o : Op) (cls : PClass) : Nat → Nat → Nat → List Byte
  | 0, _, _ => []
  | fuel + 1, off, n =>
      if n = 0 then [] else
        let k := min n (16 - off % 16)
        s.scrPart t o cls off k ++ s.scrRead t o cls fuel (off + k) (n - k)
def State.scrBytesFor (s : State) (t : Team) (o : Op) (cls : PClass) (off n : Nat) : List Byte := s.scrRead t o cls (n + 1) off n

/-- An accumulator word as the matrix path reads it. -/
def State.accFor (s : State) (t : Team) (o : Op) (w : Nat) : U32 :=
  match staleFor t.staleAcc .mx w with
  | none => s.accWord t w
  | some old => if Config.staleRead (1 :: o.readKey t w) then s.accWord t w else old

/-- A write of a class covers a byte or word: what other classes may still read is kept; `reached` are the classes it reaches at once. -/
def noteStale (m : Sparse Stale) (cls : PClass) (reached : List PClass) (k : Nat) (now : U32) : Sparse Stale :=
  match sparseFind k m with
  | some e => if e.cls == cls && e.reached == reached then m else sparsePut k { old := now, cls := cls, reached := reached } m
  | none => sparsePut k { old := now, cls := cls, reached := reached } m

/-- Writes scratchpad bytes under masks. -/
def State.scrMasked (s : State) (t : Team) : Nat → List (Byte × Byte) → State
  | _, [] => s
  | off, (d, m) :: l => State.scrMasked (s.setScrByte t off ((s.scrByte t off &&& ~~~m) ||| (d &&& m))) t (off + 1) l

/-- An operation of a class stores scratchpad bytes under masks (LS: lanes and rider; MX: TEPI). A class fence that named it in flight has it
reach the other class at once (R160). -/
def State.scrStore (s : State) (t : Team) (id : Nat) (cls : PClass) (off : Nat) (bs : List (Byte × Byte)) : State :=
  let reached := t.fencedTo id cls
  let keep := (List.range bs.length).foldl (fun m i => noteStale m cls reached (off + i) ((s.scrByte t (off + i)).setWidth 32))
  (s.scrMasked t off bs).modTeam t.key fun t => { t with stale := keep t.stale }

/-- A copy's bytes land in the scratchpad: no class reads what was there before. -/
def State.scrLand (s : State) (t : Team) (off : Nat) (bs : List Byte) : State :=
  let drop := (List.range bs.length).foldl (fun m i => sparseErase (off + i) m)
  (s.scrMasked t off (bs.map fun b => (b, 0xFF))).modTeam t.key fun t => { t with stale := if t.stale.isEmpty then [] else drop t.stale }

/-- A lane stores an accumulator word. -/
def State.accStore (s : State) (t : Team) (id w : Nat) (x : U32) : State :=
  let old := s.accWord t w
  let reached := t.fencedTo id .ls
  (s.setAccWord t w x).modTeam t.key fun t => { t with staleAcc := noteStale t.staleAcc .ls reached w old }

/-- A matrix command leaves an accumulator word: later commands read what it left (R129, R297). -/
def State.accLeave (s : State) (t : Team) (w : Nat) (x : U32) : State :=
  let s := s.setAccWord t w x
  if (sparseFind w t.staleAcc).isNone then s else s.modTeam t.key fun t => { t with staleAcc := sparseErase w t.staleAcc }

/-- A path wait: what the operations of a class have written reaches the LS class (R155). -/
def Team.pathWaited (t : Team) (p : Path) : Team :=
  let c : PClass := match p with
    | .mx => .mx
    | .cp => .cp
    | _ => .ls
  { t with stale := t.stale.map fun (k, e) => (k, if e.cls == c then { e with reached := .ls :: e.reached } else e) }

/-- The bytes of a part as a read returns them; none while a replay or the fabric holds the read. -/
def State.readPart (s : State) (t : Team) (o : Op) (p : Part) : Option (List Byte × State) :=
  match p.place with
  | .mem key =>
      if !s.crosses key p.n 0 then none
      else (s.countPart (s.dieOf t.core) p).readKey t.launch t.core key p.n p.cached o.kind o.scope p.policy true
  | .scr off => some (s.scrBytesFor t o .ls off p.n, s)
  | .acc off => some ((List.range (p.n / 4)).flatMap fun i => bytesOf (s.accWord t (off / 4 + i)).toNat 4, s)

/-- Bytes with the masks of a part. -/
def Part.masked (p : Part) : List (Byte × Byte) := (bytesOf p.data.toNat p.n).zip (bytesOf p.mask.toNat p.n)

/-- Bytes are written by an agent that lies inside a scope of reach `need` of a load's issuer: what loads have read of them early, ahead of an order
of such a scope, no longer counts (R148). -/
def State.dropSamples (s : State) (need : Team → Op → Nat) (key n : Nat) : State :=
  let hit (p : Part) : Bool := p.early.isSome && placesMeet p.place p.n (.mem key) n
  let reach (o : Op) : Nat := o.near.foldl (fun r d => if d.2 < allReach then max r d.2 else r) 0
  let ofOp (t : Team) (o : Op) : Op := match o.body with
    | .load d ps => if ps.any hit && decide (need t o ≤ reach o) then { o with body := .load d (ps.map fun p => if hit p then { p with early := none } else p) } else o
    | _ => o
  if s.teams.any fun x => x.2.ops.any fun o => o.near != [] then { s with teams := s.teams.map fun x => (x.1, { x.2 with ops := x.2.ops.map (ofOp x.2) }) }
  else s

/-- A part of a store performs; answers V, or none while a replay or the fabric holds it. -/
def State.writePart (s : State) (t : Team) (o : Op) (p : Part) : Option (State × Nat) :=
  match p.place with
  | .mem key =>
      let die := s.dieOf t.core
      let k := s.storeKey key
      if !s.crosses key p.n 1 then none else
      match s.moveLine t.launch t.core k true false (p.policy == 0) with
      | none => none
      | some s => some ((((s.countPart die p).noteWriter t k).dropSamples (fun t' o' => reachTo t' o' s t o) k p.n).writeMasked (some die) key p.masked)
  | .scr off => some (s.scrStore t o.id .ls off p.masked, 0)
  | .acc off =>
      some ((List.range (p.n / 4)).foldl (fun s i => s.accStore t o.id (off / 4 + i) (BitVec.ofNat 32 (p.data.toNat / 2 ^ (32 * i)))) s, 0)

/-- A part's scratchpad lines are full (R138). -/
def Team.partReady (t : Team) (p : Part) : Bool :=
  match p.place with
  | .scr off => t.linesFull off p.n
  | _ => true

/-! Order of a scope (R148): a store that is held back from the world may already be visible to the observers of a narrow scope. -/

/-- Performs the chosen parts of a store in turn; a part waits for the earlier parts it meets (R270). -/
def writeParts (t : Team) (o : Op) (pick : Part → Bool) : List Part → List Part → Nat → State → Option (List Part × Nat × State)
  | [], before, v, s => some (before, v, s)
  | p :: ps, before, v, s =>
      let blocked := before.any fun q => !q.done && placesMeet q.place q.n p.place p.n
      if p.done || !pick p || blocked || !t.partReady p then writeParts t o pick ps (before ++ [p]) v s
      else
        match s.writePart t o p with
        | none => none
        | some (s, w) => writeParts t o pick ps (before ++ [{ p with done := true }]) (max v w) s

/-- Parts of a store perform: V joins VMAX, of those too who saw the store before, and the operation completes with the last; none while a replay
holds them. -/
def State.commitStore (s : State) (tk : Nat) (t : Team) (o : Op) (ps : List Part) (pick : Part → Bool) : Option State :=
  (writeParts t o pick ps [] 0 s).map fun (ps', v, s) =>
    let s := if o.vis < 4 ∨ v = 0 then s else
      { s with teams := s.teams.map fun x => if x.2.core / 4 = t.core / 4 then (x.1, { x.2 with endedV := max x.2.endedV v }) else x }
    -- the retest of monitors may have changed the team
    s.modTeam tk fun t =>
      let t := (t.joinV o.group v).joinFenced o.id v
      let t := t.modOp o.id fun o => { o with body := .store ps' }
      if ps'.all (·.done) then t.complete o.id else t

/-- The stores in flight that a member already sees, as the issuer of an operation: (team's key, store) (R148). -/
def State.shownTo (s : State) (t : Team) (o : Op) : List (Nat × Op) :=
  s.teams.flatMap fun x => (x.2.ops.filter fun y => !y.done && y.id != o.id && decide (0 < y.vis ∧ reachTo x.2 y s t o ≤ y.vis)).map fun y => (x.1, y)

/-- The stores that a member already sees at some places perform before it acts there; none while a replay holds them. -/
def State.drainSeen (s : State) (t : Team) (o : Op) (places : List (Place × Nat)) : Option State :=
  let meets (p : Part) : Bool := places.any fun q => placesMeet q.1 q.2 p.place p.n
  (s.shownTo t o).foldl (fun (acc : Option State) y => acc.bind fun s =>
    match (s.team? y.1).bind fun t' => (t'.op? y.2.id).map fun x => (t', x) with
    | some (t', x) => (match x.body with
        | .store ps => if ps.any fun p => !p.done && meets p then s.commitStore y.1 t' x ps meets else some s
        | _ => some s)
    | none => some s) (some s)

/-- Some stores of a team become visible to the observers of given scopes, each after those it could itself see at its place (R148); none while a
replay holds them. -/
def State.showSome (s : State) (tk : Nat) (mask : U32) (near : List (Nat × Nat)) : Option State :=
  match s.team? tk with
  | none => some s
  | some t =>
      let t' := t.showNear mask near t.ops.length
      let fresh := t'.ops.filter fun x => !x.done && ((t.op? x.id).map (·.vis)) != some x.vis
      let s := fresh.foldl (fun (acc : Option State) x => acc.bind fun s => s.drainSeen t x ((bodyPlaces x.body).map fun q => q.2)) (some s)
      s.map fun s => s.modTeam tk fun t => t.showNear mask near t.ops.length

/-- A strong or release store, and its reach: before it, everything that its issuer has seen becomes visible to its observers (R156, R157). -/
def releaseReach (o : Op) : Nat :=
  match accClass o with
  | some a => if a.store && (a.rel || a.strong) then a.reach else 0
  | none => 0

/-- Before an operation acts, the stores that it comes after become visible to the observers of their scopes, and before a release of a narrow scope those
that its issuer has seen to the observers of that scope (R148, R156); none while a replay holds them. -/
def State.enterNear (s : State) (tk : Nat) (o : Op) : Option State :=
  match s.team? tk with
  | none => some s
  | some t =>
      let r := releaseReach o
      let s := if o.near.isEmpty then some s else s.showSome tk o.mask o.near
      s.bind fun s => if r = 0 ∨ 6 ≤ r then some s else
        ((s.shownTo t o).filter fun y => decide (y.2.vis < r)).foldl (fun (acc : Option State) y => acc.bind fun s => s.showSome y.1 o.mask [(y.2.id, r)]) (some s)

/-! Issuing, landing and performing. -/

/-- Rider as an issuer: its instruction's address is the operation's place. -/
def Team.riderOp (t : Team) (path : Path) (cls : PClass) (k : Kind) (sc : Scope) (body : OpBody) : Op :=
  { id := 0, path := some path, cls := some cls, group := none, lpc := t.pc.toNat, kind := k, scope := sc, body := body }

/-- Scope of pod or wider (R159). -/
def podScope : Scope → Bool
  | .pod | .system => true
  | _ => false

/-- The lease clock exceeds the issuer's VMAX (R134). -/
def State.vmaxPassed (s : State) (t : Team) : Bool := t.cover == 0 || decide (t.cover < s.lease)

/-- Accesses in flight that come before what a member does next: its own, and those its fences and barriers hold it behind (R154, R155). -/
def Team.priorIds (t : Team) (who : Option Nat) (lanes : U32) : List Nat :=
  let own := t.ops.filter fun o => !o.done && o.group == who && (who == none || o.lanes &&& lanes != 0) && (accClass o).isSome
  let fenced := match who with
    | none => t.riderNear.map (·.1)
    | some g => ((t.group? g).map fun x => (x.nearFences.filter fun f => f.1 &&& lanes != 0).flatMap (·.2.2.2)).getD []
  distinct ((own.map (·.id) ++ t.heldWhole who lanes ++ fenced).filter t.opLive)

/-- Holds a member's later accesses behind some operations as a whole (R155). -/
def Team.holdBehind (t : Team) (who : Option Nat) (lanes : U32) (ids : List Nat) : Team :=
  let live := ids.filter t.opLive
  match who with
  | none => { t with riderFence := distinct (t.riderFence.filter t.opLive ++ live) }
  | some g => t.modGroup g fun x => { x with fences := (x.fences.filter fun f => f.2.any t.opLive) ++ (if live.isEmpty then [] else [(lanes, live)]) }

/-- A FENCE of some scope orders some operations of a member before its later accesses, lane for lane, towards the observers in its scope; those on the
team's own memories towards everyone (R154). -/
def Team.holdScoped (t : Team) (who : Option Nat) (lanes mask : U32) (sc : Scope) (ids : List Nat) : Team :=
  let r := scopeReach sc
  let live := ids.filter t.opLive
  if live.isEmpty then t else
    match who with
    | none => { t with riderNear := (t.riderNear.filter fun d => t.opLive d.1) ++ live.map fun d => (d, r) }
    | some g => t.modGroup g fun x => { x with nearFences := (x.nearFences.filter fun f => f.2.2.2.any t.opLive) ++ [(lanes, mask, r, live)] }

/-- A read joins the visibility time of what it returned to its issuer (R156). -/
def Team.joinSeen (t : Team) (who : Option Nat) (v : Nat) : Team :=
  match who with
  | none => { t with seen := max t.seen v }
  | some g => t.modGroup g fun x => { x with seen := max x.seen v }

/-- The split that holds a lane now. -/
def Group.splitOf (x : Group) (l : Nat) (d : Nat) : Nat :=
  ((List.range 4).find? fun k => (x.split k).st != .free && laneIn (x.split k).mask l).getD d

/-- Agent of an operation, for an event. -/
def Team.opCtx (t : Team) (o : Op) (lane : Nat) : Ctx :=
  match o.group with
  | none => t.riderCtx
  | some g => t.laneCtx g lane

/-- ATOMIC_LOST or INTEGRITY is raised for an issuer: it is taken at the issuer's next instruction (R345, R356, R360). None
while a replay holds it; one that its log does not hold diverges, and is raised as what was issued before (R386, R388). -/
def State.raiseLate (s : State) (tk : Nat) (o : Op) (c : Cause) (lane : Nat) (addr : Nat) : Option State :=
  match s.team? tk with
  | none => some s
  | some t =>
      let cx := t.opCtx o lane
      if s.gateCore t.core 0x09 cx == .hold then none else
        let (_, _, s) := s.coreEvent t.core 0x09 cx [BitVec.ofNat 64 addr, BitVec.ofNat 64 (causeCode c)]
        match o.group with
        | some g =>
            match t.group? g with
            | none => some s
            | some x =>
                if x.ended then some s else
                  some (s.trapLane tk { cause := c, src := 0, group := g, split := x.splitOf lane o.split, lane := lane, loc := BitVec.ofNat 64 o.lpc,
                                        addr := BitVec.ofNat 64 addr, op := o.id })
        | none =>
            let s := s.closeCore t.core 1
            let trap : Trap := { cause := c, src := 1, loc := BitVec.ofNat 64 o.lpc, addr := BitVec.ofNat 64 addr }
            if t.trapVec = 0 then some (s.killTeam tk)
            else some (s.modTeam tk fun t =>
              if t.riderTrap.isNone && !t.handler then { t with riderTrap := some trap } else { t with riderKept := t.riderKept ++ [trap] })

/-- In a replay, the log holds an INTEGRITY of this issuer at this line; otherwise the line's check value fails (R360, R378). -/
def State.checkFails (s : State) (t : Team) (o : Op) (p : Part) : Bool :=
  match p.place with
  | .mem key =>
      match s.gating t.launch with
      | none => s.lineBad key
      | some r => (r.rest t.core).any fun x => evType x.1 == 0x09 && evBody x.1 == [BitVec.ofNat 64 (p.va / 128 * 128), 0x13]
          && ofAgent x.1 x.2 t.launch t.teamId (t.opCtx o p.lane).who
  | _ => false

/-- The reach of the widest scope whose order keeps an operation from acting, short of everyone's (R148). -/
def aheadReach (o : Op) : Nat := o.near.foldl (fun r d => if d.2 < allReach then max r d.2 else r) 0

/-- A part may be read ahead of such an order: from the home's own content, where observers on other dies are inside its scope (R148, R158). -/
def State.mayRunAhead (s : State) (t : Team) (o : Op) (p : Part) : Bool :=
  match p.place with
  | .mem key =>
      let k := s.storeKey key
      decide (aheadReach o ≤ 6) || (keyPeer k == 0 && match s.liveCopy (s.dieOf t.core) (k / 128) with
        | some c => (c.data.drop (k % 128)).take p.n == s.bytesAt k p.n
        | none => true)
  | _ => false

/-- Reads the chosen parts of a load in turn, for good or, `early`, ahead of an order of narrow scope. A part that fails its check value is marked. -/
def readParts (t : Team) (o : Op) (early : Bool) (pick : Part → Bool) : List Part → State → Option (List Part × State)
  | [], s => some ([], s)
  | p :: ps, s =>
      if p.done || !pick p || !t.partReady p || (early && (p.early.isSome || !s.mayRunAhead t o p)) then
        (readParts t o early pick ps s).map fun r => (p :: r.1, r.2)
      else
        match (match p.early with
          | some v => some (bytesOf v.toNat p.n, s)
          | none => s.readPart t o p) with
        | none => none
        | some (bs, s) =>
            let v := BitVec.ofNat 128 (ofBytes bs)
            let p := if early then { p with early := some v } else { p with data := v, done := true, bad := s.checkFails t o p }
            (readParts t o early pick ps s).map fun r => (p :: r.1, r.2)

/-- The bytes of a lane's parts, low first, as a number; 0 where one of them failed its check value (R360). -/
def laneData (ps : List Part) (lane : Nat) : Nat :=
  let mine := ps.filter fun p => p.lane == lane
  if mine.any (·.bad) then 0 else ofBytes (mine.flatMap fun p => bytesOf p.data.toNat p.n)

/-- The lowest lane whose parts failed their check value, and the line of the first that did (R44, R360). -/
def badLane (ps : List Part) : Option (Nat × Nat) :=
  ((List.range 32).findSome? fun l => ps.find? fun p => p.lane == l && p.bad).map fun p => (p.lane, p.va / 128 * 128)

/-- Elements of a run in their register (R34, R247, R275). -/
def subValue (six : Bool) (v : Nat) : U32 :=
  if six then BitVec.ofNat 32 ((List.range 4).foldl (fun a i => a + v / 2 ^ (6 * i) % 2 ^ 6 * 2 ^ (8 * i)) 0) else BitVec.ofNat 32 v

/-- Writes a lane's loaded value to its registers (R268, R275). -/
def Group.land (x : Group) (dst : LoadDst) (lane v : Nat) : Group :=
  match dst with
  | .sreg _ => x
  | .sub d six => x.setVreg d lane (subValue six v)
  | .vreg d n sx =>
      if n ≤ 4 then x.setVreg d lane (BitVec.ofInt 32 (if sx then signedOf (8 * n) v else (v : Int)))
      else (List.range (n / 4)).foldl (fun x i => x.setVreg (d + i) lane (BitVec.ofNat 32 (v / 2 ^ (32 * i)))) x

/-- Registers a load fills: first and count. -/
def loadSpan : LoadDst → Nat × Nat
  | .sreg _ => (0, 0)
  | .sub d _ => (d, 1)
  | .vreg d n _ => (d, (n + 3) / 4)

/-- An acquire of pod or system scope drops the CACHED lines of its die (R159). -/
def State.acquired (s : State) (t : Team) (k : Kind) (sc : Scope) : State :=
  if (k == .acq || k == .acqrel) && podScope sc then s.dropCached (s.dieOf t.core) else s

/-- What a reader of a line takes over: its visibility time, and the VMAX its writers had (R156). -/
def State.readV (s : State) (k : Nat) : Nat :=
  let k := s.storeKey k
  max (if keyPeer k = 0 then s.visibility (k / 128) else 0) (sparseGet 0 s.coh.relV (k / 128))

/-- The same, over the lines that some parts read. -/
def State.partsVis (s : State) (ps : List Part) : Nat :=
  ps.foldl (fun v p => match p.place with
    | .mem k => max v (s.readV k)
    | _ => v) 0

/-- What parts of a load return, once what it comes after allows: the parts as they stand then. `early`: it may not yet act, but an observer
outside the scope of what holds it back may see it read now (R148). None while a replay holds it. -/
def State.loadParts (s : State) (tk : Nat) (o : Op) (ps : List Part) (mask : U32) (early : Bool) : Option (List Part × State) :=
  let pick (p : Part) : Bool := laneIn mask p.lane
  (if early then some s else s.enterNear tk o).bind fun s =>
    (s.team? tk).bind fun t => (s.drainSeen t o ((ps.filter pick).map fun p => (p.place, p.n))).bind fun s =>
      -- a store that has just become visible may have undone what was read early
      (s.team? tk).bind fun t => readParts t o early pick (match (t.op? o.id).map (·.body) with
        | some (OpBody.load _ now) => now
        | _ => ps) s

/-- The lanes that have just landed take their values; with the last part the operation completes. -/
def Team.landParts (t : Team) (o : Op) (dst : LoadDst) (ps ps' : List Part) : Team :=
  let fin (l : Nat) : Bool := (ps'.filter fun p => p.lane == l).all (·.done)
  let now := (distinct ((ps.filter fun p => !p.done).map (·.lane))).filter fin
  let all := ps'.all (·.done)
  let t := t.modOp o.id fun o => { o with body := .load dst ps' }
  let t := match o.group, dst with
    | some g, _ => t.modGroup g fun x => now.foldl (fun x l => x.land dst l (laneData ps' l)) x
    | none, .sreg d => if all then t.setSreg (BitVec.ofNat 6 d) (BitVec.ofNat 64 (laneData ps' 0)) else t
    | none, _ => t
  if !all then t else
    match o.group with
    | some g => (t.modGroup g fun x => x.markFull (loadSpan dst).1 (loadSpan dst).2).complete o.id
    | none => t.complete o.id

/-- A load lands in the lanes of a mask (bit 0 for the rider): their registers take their values, and the operation completes
with the last; a failed check value is then reported once, for the lowest lane (R44, R360). -/
def State.landLoad (s : State) (tk : Nat) (t : Team) (o : Op) (dst : LoadDst) (ps : List Part) (mask : U32) : State :=
  let ready := mask &&& maskWhere fun l => t.readyIn o (1#32 <<< l)
  if ready = 0 then
    match s.loadParts tk o ps (mask &&& maskWhere fun l => t.aheadIn o (1#32 <<< l)) true with
    | none => s
    | some (ps', s') => s'.modTeam tk fun t => t.modOp o.id fun o => { o with body := .load dst ps' }
  else
    match s.loadParts tk o ps ready false with
    | none => s
    | some (ps', s') =>
        let v := s'.partsVis (ps'.filter fun p => laneIn ready p.lane)
        let s' := (s'.modTeam tk fun t => (t.joinSeen o.group v).landParts o dst ps ps').acquired t o.kind o.scope
        if !ps'.all (·.done) then s' else
          match badLane ps' with
          | none => s'
          | some (l, a) => (s'.raiseLate tk o .integrity l a).getD s

/-- A strong or release store of die or wider scope may leave the store queue: the lease clock has passed what its team has stored and read, and what its
issuer sees of the stores in flight has performed (R134, R156). -/
def State.storeReady (s : State) (t : Team) (o : Op) : Bool :=
  !wideScope o.scope || o.kind == .plain || (s.vmaxPassed t && (s.shownTo t o).isEmpty)

/-- A store performs for the lanes of a mask, those of them that its order allows (R147, R151, R153, R154). -/
def State.performStore (s : State) (tk : Nat) (o : Op) (ps : List Part) (mask : U32) : State :=
  match s.team? tk with
  | none => s
  | some t =>
      let pick (p : Part) : Bool := laneIn mask p.lane && t.readyIn o (1#32 <<< p.lane)
      if !s.storeReady t o || !ps.any (fun p => !p.done && pick p) then s else
        let go : Option State := (s.enterNear tk o).bind fun s => (s.drainSeen t o ((ps.filter pick).map fun p => (p.place, p.n))).bind fun s =>
          (s.team? tk).bind fun t => s.commitStore tk t o ps pick
        go.getD s

/-- INVD or WBK acts on its ranges (R142): (key, bytes) of one line each. -/
def State.performRanges (s : State) (tk : Nat) (o : Op) (inv : Bool) (rs : List (Nat × Nat)) : State :=
  match s.team? tk with
  | none => s
  | some t =>
      if !t.depsMet o || !rs.all fun r => s.crosses r.1 r.2 (if inv then 1 else 0) then s else
        let v := rs.foldl (fun v r => if keyPeer r.1 = 0 then max v (s.visibility (r.1 / 128)) else v) 0
        let s := rs.foldl (fun s r =>
          if !inv then s.wbkLine (r.1 / 128) false
          else if r.2 = 128 then s.invdLine (r.1 / 128) else s.wbkLine (r.1 / 128) true) s
        s.modTeam tk fun t => ((t.joinV o.group v).joinFenced o.id v).complete o.id

/-! Return slots and requests (R334 to R337, R341). -/

/-- Free return slots of a core. -/
def Core.freeSlotList (c : Core) : List Nat := (List.range 256).filter fun i => (sparseFind i c.slots).isNone

/-- Owner of a word (R334): a logical cluster here, or 0x400 + the peer. -/
def State.ownerOf (s : State) (key : Nat) : Nat :=
  let p := keyPeer key
  if p = 0 then s.ownerOn (homeDie (keyPa key)) (keyPa key)
  else if p ≤ 144 then 0x400 + p
  else s.ownerOn 0 (keyPa key)

/-- One run of an instruction: the lanes that name one word (R337). -/
structure AtomRun where
  key : Nat
  va : Nat
  segs : List (Nat × Nat)
  operands : List AtomOperand
  /-- the TCLASS of a MIGRATE page (R397) -/
  migrate : Option Nat := none
  deriving DecidableEq, Repr

/-- The runs of an instruction, in the order of their lowest lanes. -/
def groupRuns : List AtomRun → List AtomRun
  | rs => (distinct (rs.map (·.key))).filterMap fun k =>
      match rs.filter fun r => r.key == k with
      | [] => none
      | r :: l => some { r with operands := r.operands ++ l.flatMap (·.operands) }

/-- Takes a return slot: its SEQ is advanced. -/
def State.takeSlot (s : State) (core slot : Nat) (x : RetSlot) : State × Nat :=
  let seq := (sparseGet 0 (s.core core).seqs slot + 1) % 2 ^ 16
  (s.modCore core fun c => { c with seqs := sparsePut slot seq c.seqs, slots := sparsePut slot { x with seq := seq } c.slots }, seq)

/-- What a request is, apart from its runs. -/
structure AtomKind where
  op : AtomOp
  ty : AtomType
  rn : Nat
  red : Bool

/-- The sum of the operands before each of a run's lanes (R337). -/
def operandPrefixes (sum : U64) : List AtomOperand → List U64
  | [] => []
  | o :: l => sum :: operandPrefixes (sum + o.x) l

/-- Sends the requests of an operation, one for each run, each with a free return slot; answers the slots. -/
def sendRuns (t : Team) (o : Op) (k : AtomKind) (c : Ctx) : List (AtomRun × Nat) → State → State
  | [], s => s
  | (r, slot) :: l, s =>
      let svc := s.ownerOf r.key
      let key := r.key
      let seq := (sparseGet 0 (s.core t.core).seqs slot + 1) % 2 ^ 16
      let m : Member := { core := t.core, ctx := c.ctx, slot := slot, seq := seq, red := k.red, operands := r.operands, launch := c.launch,
                          team := c.team, who := c.who, icnt := t.countOf c.who ((r.operands.head?.map (·.lane)).getD 0), recorded := decide (s.levelOf c.launch ≥ 1) }
      let q : AtomReq := { op := k.op, ty := k.ty, peer := keyPeer key, pa := keyPa key, segs := r.segs, rn := k.rn, svc := svc, members := [m],
                           stage := .credit }
      let (s, _) := s.takeSlot t.core slot
        { seq := seq, team := t.serial, op := o.id, lanes := r.operands.map (·.lane), sent := s.clk.cycle, peer := keyPeer key, pa := keyPa key,
          va := r.va, svc := svc, prefixes := if k.op = .add ∧ k.ty ≠ .f32 then operandPrefixes 0 r.operands else [], run := some q }
      let (id, s) := s.fresh
      sendRuns t o k c l { s with net := { s.net with reqs := sparsePut id q s.net.reqs } }

/-- The words an atomic's runs name, by lane. -/
def runPlaces (runs : List AtomRun) : List (Nat × Place × Nat) :=
  runs.flatMap fun r => r.operands.flatMap fun x => r.segs.map fun g => (x.lane, .mem g.1, g.2)

/-- The body of an atomic with the places of its words. -/
def OpBody.atPlaces (ps : List (Nat × Place × Nat)) : OpBody → OpBody
  | .atom a b c d e f _ => .atom a b c d e f ps
  | x => x

/-- The lines that the lanes of some runs access are counted on MIGRATE pages (R397). -/
def State.countRuns (s : State) (die : Nat) (runs : List AtomRun) : State :=
  runs.foldl (fun s r => match r.migrate with
    | none => s
    | some tc => r.operands.foldl (fun s _ => r.segs.foldl (fun s g => s.countMigrate die g.1 tc) s) s) s

/-- Issues an atomic: the operation, its slots and its requests. The caller has seen that there are enough free slots. -/
def State.issueAtomic (s : State) (tk : Nat) (o : Op) (k : AtomKind) (c : Ctx) (runs : List AtomRun) (body : List Nat → OpBody) : State × Nat :=
  match s.team? tk with
  | none => (s, 0)
  | some t =>
      let slots := ((s.core t.core).freeSlotList).take runs.length
      let (s, id) := s.issueOp tk { o with body := (body slots).atPlaces (runPlaces runs) }
      (sendRuns t { o with id := id } k c (runs.zip slots) (s.countRuns (s.dieOf t.core) runs), id)

/-- Bytes of an atomic type. -/
def atomBytes : AtomType → Nat
  | .i64 => 8
  | _ => 4

/-! Waits on a value (R140, R203, R280). -/

/-- Monitors a die's home slice holds: one table of 256 to a compute die. -/
def State.monitorsFull (s : State) (key : Nat) : Bool :=
  decide (256 ≤ (s.coh.monitors.filter fun m => homeDie (keyPa m.key) == homeDie (keyPa key)).length)

/-- A wait reads a word as its access does: a local one at the home slice, which leaves the die no older copy (R140, R151); another by the
mode and policy of its page and handle (R130, R159). What the waiter already sees there performs first. -/
def State.readWait (s : State) (t : Team) (o : Op) (ps : List WaitPart) (k n : Nat) : List Byte × State :=
  let s := (s.drainSeen t o [(.mem k, n)]).getD s
  if keyPeer k = 0 then (s.bytesAt k n, s.dropCopy (s.dieOf t.core) (k / 128)) else
    let p := ps.find? fun p => p.key == k
    ((s.readKey t.launch t.core k n ((p.map (·.cached)).getD false) o.kind o.scope ((p.map (·.policy)).getD 0) true).getD (s.bytesAt k n, s))

/-- Arms the words of a wait in turn: each is tested, and a monitor installed, or the wait polls. -/
def armWords (tk : Nat) (cc : Cmp) (dbl : Bool) (o : Op) : List Nat → List WaitPart → State → List WaitPart × State
  | [], ps, s => (ps, s)
  | k :: ks, ps, s =>
      match s.team? tk with
      | none => (ps, s)
      | some t =>
          let n := waitBits dbl / 8
          if !s.crosses k n 0 then armWords tk cc dbl o ks (ps.map fun p => if p.key = k then { p with polls := true, lastPoll := 0 } else p) s else
          let (bs, s) := s.readWait t o ps k n
          let ps := satisfyParts cc dbl k (ofBytes bs) ps
          if wordSatisfied k ps then armWords tk cc dbl o ks ps s
          else if keyPeer k == 0 && !s.monitorsFull k then
            armWords tk cc dbl o ks ps { s with coh := { s.coh with monitors := s.coh.monitors ++ [{ key := k, n := n, team := t.serial, op := o.id }] } }
          else
            armWords tk cc dbl o ks (ps.map fun p => if p.key = k then { p with polls := true, lastPoll := s.clk.cycle } else p) s

/-- Arms, or arms again, a wait from the start. -/
def State.armWait (s : State) (tk : Nat) (o : Op) : State :=
  match o.body with
  | .wait sr vr cc dbl ps =>
      let ps := ps.map fun p => { p with got := none, polls := false }
      let (ps, s) := armWords tk cc dbl o (distinct (ps.map (·.key))) ps s
      s.modTeam tk fun t => t.modOp o.id fun o => { o with body := .wait sr vr cc dbl ps }
  | _ => s

/-- Slots of a wait: one to each word; its accesses are counted on MIGRATE pages (R397). -/
def State.waitSlots (s : State) (t : Team) (o : Op) (ps : List WaitPart) : State :=
  let s := ps.foldl (fun s p => match p.migrate with
    | some tc => s.countMigrate (s.dieOf t.core) p.key tc
    | none => s) s
  let ks := (distinct (ps.map (·.key)))
  (ks.zip ((s.core t.core).freeSlotList)).foldl (fun s (k, slot) =>
    (s.takeSlot t.core slot { seq := 0, team := t.serial, op := o.id, lanes := (ps.filter fun p => p.key == k).map (·.lane), sent := s.clk.cycle,
                              peer := keyPeer k, pa := keyPa k, va := 0, svc := 0xFFFF }).1) s

/-- A wait that is still waiting is withdrawn: its monitors and slots are freed, and its destination is as before issue. -/
def State.withdrawWait (s : State) (tk : Nat) (t : Team) (o : Op) : State :=
  match o.body with
  | .wait _ vreg _ dbl _ =>
      let s := (s.freeMonitors t.serial o.id).freeOpSlots t.core t.serial o.id
      s.modTeam tk fun t =>
        let t := match o.group, vreg with
          | some g, some d => t.modGroup g fun x => { x.markFull d (if dbl then 2 else 1) with stalls := x.stalls.filter fun y => y.2 != o.id }
          | _, _ => t
        { t.withdraw o.id with blocked := if t.blocked = some o.id then none else t.blocked }
  | _ => s

/-- What a stopped team gives up: its waits, and a pending request for leave, which it makes again when it is restored; leave that it has been
granted it keeps (R333, R366). -/
def State.stopTeam (s : State) (tk : Nat) : State :=
  match s.team? tk with
  | none => s
  | some t =>
      let s := (t.ops.filter fun o => !o.done).foldl (fun s o => s.withdrawWait tk t o) s
      s.modTeam tk fun t => { t with leaveReq := none, leaveAgain := t.leaveAgain || t.leaveReq.isSome, barWaits := [] }

/-! Named barriers (R139, R208). -/

/-- A barrier at a cycle: what the cycle has added starts afresh. -/
def Barrier.tick (b : Barrier) (now : Nat) : Barrier := if b.cyc = now then b else { b with cyc := now, cycCount := 0, cycExp := 0, cycArr := 0 }

def Barrier.arrive (b : Barrier) (now n : Nat) (prior : List Nat) : Barrier :=
  let b := b.tick now
  { b with count := b.count + BitVec.ofNat 16 n, cycCount := b.cycCount + n, arrIds := distinct (b.arrIds ++ prior) }
def Barrier.expect (b : Barrier) (now n : Nat) : Barrier :=
  let b := b.tick now
  { b with expb := b.expb + BitVec.ofNat 32 n, cycExp := b.cycExp + n }
/-- Bytes land; those of a multicast count in the generation of a later SBARI of the same cycle (R209). -/
def Barrier.bytes (b : Barrier) (now n : Nat) (mcast : Bool) : Barrier :=
  let b := b.tick now
  { b with arrb := b.arrb + BitVec.ofNat 32 n, cycArr := if mcast then b.cycArr + n else b.cycArr }
/-- SBARI: it applies before the other events of its cycle (R208). -/
def Barrier.init (b : Barrier) (now : Nat) (target : BitVec 16) : Barrier :=
  let b := b.tick now
  { b with target := target, count := BitVec.ofNat 16 b.cycCount, expb := BitVec.ofNat 32 b.cycExp, arrb := BitVec.ofNat 32 b.cycArr,
           inc := false, gen := b.gen + 1 }

/-- The test at the end of a cycle. -/
def Barrier.due (b : Barrier) : Bool := b.target != 0 && decide (b.target ≤ b.count) && !(b.arrb - b.expb).getLsbD 31

/-- A phase completes: at most once in a cycle. -/
def Barrier.complete (b : Barrier) (now : Nat) : Barrier :=
  { b with phase := !b.phase, count := b.count - b.target, arrb := b.arrb - b.expb, expb := 0, last := some now,
           arrIds := [], doneIds := distinct (b.doneIds ++ b.arrIds) }

/-- Waiting at a barrier for its next toggle; answers whether the wait is over, and the team. -/
def Team.barWait (t : Team) (who : Option (Nat × Nat)) (bar : Nat) (phase : Bool) (lanes : U32 := 0) : Bool × Team :=
  if t.barWaits.any fun w => w.who == who then (false, t)
  else if (t.bar bar).phase != phase then (true, t)
  else (false, { t with barWaits := t.barWaits ++ [{ who := who, bar := bar, lanes := lanes }] })

/-- Tiles that a matrix command writes: they are busy while it is in flight (R129, R297). -/
def MatCmd.written : MatCmd → List Nat
  | .tmma _ _ c _ => [bitsOf c.toNat 1 0]
  | .taccZero b | .taccScale b | .taccAdd b | .taccIadd b | .taccMove b => [bitsOf b.toNat 1 0]
  | .taccStat _ | .tepi .. => []

def Team.tileBusy (t : Team) (tile : Nat) : Bool :=
  t.ops.any fun o => !o.done && match o.body with
    | .matrix m _ _ => m.written.contains tile
    | _ => false

end Sys2Proof.Machine
end

