-- ==== Sys2Proof/Machine/LaneMem.lean ====
section
/-!
DEFINITION. Machine/LaneMem.lean: lane accesses to handle memory, the scratchpad and the accumulator memory, range operations,
sub-byte access, and lane atomics (R266 to R279).
-/
namespace Sys2Proof.Machine

/-! The frame of a lane memory instruction. -/

/-- Checks of every lane in ascending order: the parts of all, or the lowest failing lane with its first failing check (R146). -/
def checkLanes {α : Type} (f : Nat → State → Except AccFault (List α) × State) : List Nat → List α → State → Except (Nat × AccFault) (List α) × State
  | [], acc, s => (.ok acc, s)
  | l :: ls, acc, s =>
      let (r, s) := f l s
      match r with
      | .error x => (.error (l, x), s)
      | .ok ps => checkLanes f ls (acc ++ ps) s

/-- The trap of a failed check. -/
def LaneEnv.accTrap (e : LaneEnv) (s : State) (l : Nat) (x : AccFault) : Out :=
  .next (laneTrap s e.tk e.g e.sp e.split.lpc x.cause l (BitVec.ofNat 64 x.addr) x.hidx x.check)

/-- Runs a memory instruction (R269, R270): nothing without an ACTIVE lane; it waits while its path's counter is full; every
ACTIVE lane is checked before any performs. -/
def LaneEnv.access {α : Type} (e : LaneEnv) (path : Path) (f : Nat → State → Except AccFault (List α) × State) (k : State → List α → Out) : Out :=
  if e.act = 0 then e.skip
  else if e.t.pathFull path then stay e.s
  else
    let (r, s) := checkLanes f e.lanes [] e.s
    match r with
    | .error (l, x) => e.accTrap s l x
    | .ok ps => k s ps

/-- The operation of a lane instruction. -/
def LaneEnv.op (e : LaneEnv) (path : Path) (cls : PClass) (k : Kind) (sc : Scope) (body : OpBody) : Op :=
  { id := 0, path := some path, cls := some cls, group := some e.g, lanes := e.act, split := e.sp, mask := e.split.mask, lpc := e.split.lpc.toNat,
    kind := k, scope := sc, body := body }

/-- Issues an operation that marks registers empty (none: n = 0), and goes on. -/
def LaneEnv.issue (e : LaneEnv) (s : State) (o : Op) (d n : Nat) : Out :=
  let s := s.setTeam e.tk (e.t.setGroup e.g (e.x.markEmpty d n))
  let (s, _) := s.issueOp e.tk o
  .next (s.retireLane e.tk e.g e.sp (e.split.lpc + 1) e.act)

/-- Offset of a lane (R267). -/
def LaneEnv.offset (e : LaneEnv) (l : Nat) (a64 : Bool) (a : Src) (imm : BitVec 18) : Int :=
  (if a64 then (e.val64 l a).toNat else (e.val l a).toNat : Nat) + imm.toInt

/-- A lane's store data: n bytes from register d on (R268). -/
def LaneEnv.data (e : LaneEnv) (l d n : Nat) : Nat :=
  (List.range ((n + 3) / 4)).foldl (fun a i => a + (e.x.vreg (d + i) l).toNat * 2 ^ (32 * i)) 0 % 2 ^ (8 * n)

/-! Handle loads and stores (R271). -/

def execLdg (o : LaneOps) (x : MemExt) (s : State) : Out :=
  laneRun (.ldg o x) s fun e =>
    let n := msizeBytes x.size
    e.access .ld (fun l s => s.handleParts e.t l x.h.toNat (e.offset l x.a64 o.a x.imm) n n .rr) fun s ps =>
      e.issue s (e.op .ld .ls x.kind x.scope (.load (.vreg o.d.toNat n x.sx) ps)) o.d.toNat (msizeRegs x.size)

def execStg (o : LaneOps) (x : MemExt) (s : State) : Out :=
  laneRun (.stg o x) s fun e =>
    let n := msizeBytes x.size
    e.access .st (fun l s => s.handleParts e.t l x.h.toNat (e.offset l x.a64 o.a x.imm) n n .rw (e.data l o.d.toNat n)) fun s ps =>
      e.issue s (e.op .st .ls x.kind x.scope (.store ps)) 0 0

/-- PREF of one lane (R272): its line is fetched into the L1, or with `l2` into the L2 or RDC, as far as the handle's POLICY allocates there (R126); one
that would fail a check does nothing (R125). None while a replay holds the transfer. -/
def LaneEnv.prefetch (e : LaneEnv) (o : LaneOps) (l2 : Bool) (x : RangeExt) (s : State) (l : Nat) : Option State :=
  let (r, s) := s.access e.t x.h.toNat (e.offset l x.a64 o.a x.imm) 1 1 .rr
  match r with
  | .ok [(_, _, sp)] =>
      if sp.policy = 2 then some s
      else if !s.crosses sp.key 1 0 then some s
      else (s.readKey e.t.launch e.t.core sp.key 0 (sp.mode == 2) .plain .split sp.policy (!l2)).map (·.2)
  | _ => some s

/-- PREF: no check, no fault, and no architectural state changes (R272). -/
def execPref (o : LaneOps) (l2 : Bool) (x : RangeExt) (s : State) : Out :=
  laneRun (.pref o l2 x) s fun e =>
    match e.lanes.foldl (fun (acc : Option State) l => acc.bind fun s => e.prefetch o l2 x s l) (some s) with
    | some s' => e.doneIn s' e.t e.x
    | none => stay s

/-- INVD and WBK: the lines of every ACTIVE lane's range (R142, R273). -/
def laneRange (i : Instr) (o : LaneOps) (x : RangeExt) (inv : Bool) (s : State) : Out :=
  laneRun i s fun e =>
    let f (l : Nat) (s : State) : Except AccFault (List (Nat × Nat)) × State :=
      let len := (e.x.vreg o.d.toNat l).toNat
      if len = 0 then (.ok [], s) else
        let (r, s) := s.access e.t x.h.toNat (e.offset l x.a64 o.a x.imm) len 1 (if inv then .disc else .rr) 128
        (r.map fun ps => ps.map fun p => (p.2.2.key, p.2.1), s)
    e.access .st f fun s rs => e.issue s (e.op .st .ls .plain .split (.range inv rs)) 0 0

def execInvd (o : LaneOps) (x : RangeExt) (s : State) : Out := laneRange (.invd o x) o x true s
def execWbk (o : LaneOps) (x : RangeExt) (s : State) : Out := laneRange (.wbk o x) o x false s

/-! Scratchpad and accumulator (R274). -/

/-- The scope of an access to a team's own memories: one wider than the team acts as the team's (R148). -/
def teamScope (sc : Scope) : Scope := if scopeReach sc ≤ 3 then sc else .team

def execLds (o : LaneOps) (x : MemExt) (s : State) : Out :=
  laneRun (.lds o x) s fun e =>
    let n := msizeBytes x.size
    e.access .ld (fun l s => (e.t.scratchParts l (e.offset l false o.a x.imm) n n, s)) fun s ps =>
      e.issue s (e.op .ld .ls x.kind (teamScope x.scope) (.load (.vreg o.d.toNat n x.sx) ps)) o.d.toNat (msizeRegs x.size)

def execSts (o : LaneOps) (x : MemExt) (s : State) : Out :=
  laneRun (.sts o x) s fun e =>
    let n := msizeBytes x.size
    e.access .st (fun l s => (e.t.scratchParts l (e.offset l false o.a x.imm) n n (e.data l o.d.toNat n), s)) fun s ps =>
      e.issue s (e.op .st .ls x.kind (teamScope x.scope) (.store ps)) 0 0

/-- A part lies in a tile that a matrix command is to write. -/
def Team.partBusy (t : Team) (p : Part) : Bool :=
  match p.place with
  | .acc off => t.tileBusy (off / 65536)
  | _ => false

def execLda (o : LaneOps) (x : MemExt) (s : State) : Out :=
  laneRun (.lda o x) s fun e =>
    let n := msizeBytes x.size
    e.access .ld (fun l s => (e.t.accParts l (e.offset l false o.a x.imm) n, s)) fun s ps =>
      if ps.any e.t.partBusy then stay s
      else e.issue s (e.op .ld .ls .plain .split (.load (.vreg o.d.toNat n false) ps)) o.d.toNat (msizeRegs x.size)

def execSta (o : LaneOps) (x : MemExt) (s : State) : Out :=
  laneRun (.sta o x) s fun e =>
    let n := msizeBytes x.size
    e.access .st (fun l s => (e.t.accParts l (e.offset l false o.a x.imm) n (e.data l o.d.toNat n), s)) fun s ps =>
      if ps.any e.t.partBusy then stay s else e.issue s (e.op .st .ls .plain .split (.store ps)) 0 0

/-! Sub-byte access (R275). -/

/-- Width of an element, and elements of a run. -/
def subWidth : SubFmt → Nat
  | .e2m3 | .e3m2 => 6
  | _ => 4
def subCount (f : SubFmt) : Nat := if subWidth f = 6 then 4 else 8

/-- The parts of a lane's run. -/
def LaneEnv.subParts (e : LaneEnv) (o : LaneOps) (x : SubExt) (r : HRight) (data mask l : Nat) (s : State) : Except AccFault (List Part) × State :=
  let w := subWidth x.fmt
  let n := subCount x.fmt
  let idx := if x.a64 then (e.val64 l o.a).toNat else (e.val l o.a).toNat
  let bytes := n * w / 8
  let align := if w = 4 then 4 else 1
  let mis := decide (idx % n ≠ 0)
  if x.sp then (e.t.scratchParts l (idx * w / 8 : Nat) bytes align data mask mis, s)
  else s.handleParts e.t l x.h.toNat (idx * w / 8 : Nat) bytes align r data mask mis

def execLdsub (o : LaneOps) (x : SubExt) (s : State) : Out :=
  laneRun (.ldsub o x) s fun e =>
    e.access .ld (fun l s => e.subParts o x .rr 0 0 l s) fun s ps =>
      e.issue s (e.op .ld .ls x.kind (if x.sp then teamScope x.scope else x.scope) (.load (.sub o.d.toNat (subWidth x.fmt == 6)) ps)) o.d.toNat 1

/-- The bits that a STSUB writes: element i of the register, in the places of memory, and its enables. -/
def subBits (f : SubFmt) (v en : Nat) : Nat × Nat :=
  let w := subWidth f
  let slot := if w = 6 then 8 else 4
  (List.range (subCount f)).foldl (fun (d, m) i =>
    (d + v / 2 ^ (slot * i) % 2 ^ w * 2 ^ (w * i), if en / 2 ^ i % 2 = 1 then m + (2 ^ w - 1) * 2 ^ (w * i) else m)) (0, 0)

def execStsub (o : LaneOps) (x : SubExt) (s : State) : Out :=
  laneRun (.stsub o x) s fun e =>
    let en := (e.val e.low o.b).toNat
    let f (l : Nat) (s : State) :=
      let (d, m) := subBits x.fmt (e.x.vreg o.d.toNat l).toNat en
      e.subParts o x .rw d m l s
    e.access .st f fun s ps => e.issue s (e.op .st .ls x.kind (if x.sp then teamScope x.scope else x.scope) (.store ps)) 0 0

/-! Atomics (R276 to R279, R337). -/

/-- One lane's word, as a run of one lane. -/
def LaneEnv.atomWord (e : LaneEnv) (o : LaneOps) (h n align : Nat) (mk : Nat → AtomOperand) (l : Nat) (s : State) :
    Except AccFault (List AtomRun) × State :=
  let (r, s) := s.access e.t h ((e.val l o.a).toNat : Nat) n align .ra 128
  (r.map fun ps =>
    match ps with
    | [] => []
    | p :: _ => [{ key := p.2.2.key, va := p.1, segs := ps.map fun p => (p.2.2.key, p.2.1), operands := [mk l], migrate := p.2.2.migrate }], s)

/-- Issues the runs of an atomic once there is a return slot for each; with a destination, it becomes empty. -/
def LaneEnv.atomics (e : LaneEnv) (path : Path) (h n align : Nat) (o : LaneOps) (k : AtomKind) (kind : Kind) (sc : Scope)
    (mk : Nat → AtomOperand) (d c : Nat) (body : List Nat → OpBody) : Out :=
  e.access path (e.atomWord o h n align mk) fun s rs =>
    let runs := groupRuns rs
    if ((s.core e.t.core).freeSlotList).length < runs.length then stay s
    else
      let s := s.setTeam e.tk (e.t.setGroup e.g (e.x.markEmpty d c))
      let (s, _) := s.issueAtomic e.tk (e.op path .as kind sc .stall) k (e.t.laneCtx e.g e.low) runs body
      .next (s.retireLane e.tk e.g e.sp (e.split.lpc + 1) e.act)

/-- An operand of a lane, of the type's width. -/
def LaneEnv.atomVal (e : LaneEnv) (ty : AtomType) (l : Nat) (src : Src) : U64 :=
  match ty with
  | .i64 => e.val64 l src
  | .f32 => BitVec.ofNat 64 (e.fl l .f32 src)
  | .i32 => (e.val l src).setWidth 64

def atomRegs (ty : AtomType) : Nat := if ty = .i64 then 2 else 1

def execAtom (o : LaneOps) (op : AtomOp) (x : AtomExt) (s : State) : Out :=
  laneRun (.atom o op x) s fun e =>
    e.atomics .at x.h.toNat (atomBytes x.ty) (atomBytes x.ty) o { op := op, ty := x.ty, rn := 0, red := false } x.kind x.scope
      (fun l => { lane := l, x := e.atomVal x.ty l o.b }) o.d.toNat (atomRegs x.ty)
      fun slots => .atom none (some o.d.toNat) none (x.ty == .i64) slots []

def execAtomcas (o : LaneOps) (pf : BitVec 3) (x : AtomExt) (s : State) : Out :=
  laneRun (.atomcas o pf x) s fun e =>
    e.atomics .at x.h.toNat (atomBytes x.ty) (atomBytes x.ty) o { op := .cas, ty := x.ty, rn := 0, red := false } x.kind x.scope
      (fun l => { lane := l, x := e.atomVal x.ty l o.b, e := e.atomVal x.ty l o.c }) o.d.toNat (atomRegs x.ty)
      fun slots => .atom none (some o.d.toNat) (some pf.toNat) (x.ty == .i64) slots (e.lanes.map fun l => (l, e.atomVal x.ty l o.c))

def execRed (o : LaneOps) (op : AtomOp) (x : AtomExt) (s : State) : Out :=
  laneRun (.red o op x) s fun e =>
    e.atomics .st x.h.toNat (atomBytes x.ty) (atomBytes x.ty) o { op := op, ty := x.ty, rn := 0, red := true } x.kind x.scope
      (fun l => { lane := l, x := e.atomVal x.ty l o.b }) 0 0 fun slots => .atom none none none (x.ty == .i64) slots []

/-- RED.rsm: each lane's triple from registers vb on (R279). -/
def execRedRsm (o : LaneOps) (n : BitVec 7) (x : AtomExt) (s : State) : Out :=
  laneRun (.redRsm o n x) s fun e =>
    let k := n.toNat + 2
    let vb := match o.b with
      | .reg r => r.toNat
      | _ => 0
    e.atomics .st x.h.toNat (4 * k) 128 o { op := .rsm, ty := .f32, rn := n.toNat, red := true } x.kind x.scope
      (fun l => { lane := l, rsm := (List.range k).map fun i => e.x.vreg (vb + i) l }) 0 0 fun slots => .atom none none none false slots []

end Sys2Proof.Machine
end

