-- ==== Sys2Proof/Machine/LaneSync.lean ====
section
/-!
DEFINITION. Machine/LaneSync.lean: lane waits, fences, barriers and SPAWN (R280 to R286).
-/
namespace Sys2Proof.Machine

/-! WAITCMP (R280). -/

/-- The split waits until the words satisfy its lanes: it stalls on the operation. -/
def execWaitcmp (o : LaneOps) (x : WaitExt) (s : State) : Out :=
  laneRun (.waitcmp o x) s fun e =>
    let n := if x.dbl then 8 else 4
    let f (l : Nat) (s : State) : Except AccFault (List WaitPart) × State :=
      let (r, s) := s.access e.t x.h.toNat ((e.val l o.a).toNat : Nat) n n .rr
      (r.map fun ps => ps.map fun p =>
        { lane := l, key := p.2.2.key, val := if x.dbl then e.val64 l o.b else (e.val l o.b).setWidth 64, polls := false,
          lastPoll := 0, va := p.1, cached := p.2.2.mode == 2, policy := p.2.2.policy,
          migrate := p.2.2.migrate }, s)
    e.access .at f fun s ps =>
      let o' := e.op .at .as x.kind x.scope (.wait none (some o.d.toNat) x.cc x.dbl ps)
      if ((s.core e.t.core).freeSlotList).length < (distinct (ps.map (·.key))).length then stay s
      else if e.t.comesAfter o' then stay s
      else
        let k := if x.dbl then 2 else 1
        let s := s.setTeam e.tk (e.t.setGroup e.g (e.x.markEmpty o.d.toNat k))
        let (s, id) := s.issueOp e.tk o'
        let s := s.modGroup e.tk e.g fun y => { y with stalls := y.stalls ++ [(e.sp, id)] }
        -- the split retires the word once every lane is satisfied
        .next ((s.waitSlots e.t { o' with id := id } ps).armWait e.tk { o' with id := id })

/-! FENCE, CFENCE and WAITP (R281 to R283). -/

/-- Accesses of the ACTIVE lanes in flight. -/
def LaneEnv.accesses (e : LaneEnv) : List Op :=
  e.t.ops.filter fun o => !o.done && o.group == some e.g && o.lanes &&& e.act != 0 && (accClass o).isSome

/-- What a fence of die or wider scope waits for beside its issuer's own stores: the lease clock has passed what the team has stored and read, and the
stores that its issuer sees have performed (R134, R156). -/
def State.fenceReady (s : State) (t : Team) (who : Op) : Bool := s.vmaxPassed t && (s.shownTo t who).isEmpty

/-- A store in flight has not replied. -/
def storesLive (ops : List Op) : Bool := ops.any fun o => match accClass o with
  | some a => a.store
  | none => false

def execFence (o : LaneOps) (sc : Scope) (s : State) : Out :=
  laneRun (.fence o sc) s fun e =>
    if e.act = 0 then e.skip
    else if wideScope sc && (storesLive e.accesses || !s.fenceReady e.t (e.op .ld .ls .plain .split .stall)) then stay s
    else
      let t := e.t.holdScoped (some e.g) e.act e.split.mask sc (e.accesses.map (·.id))
      e.doneIn s t ((t.group? e.g).getD e.x)

/-- CFENCE acts whether or not a lane is ACTIVE. -/
def execCfence (o : LaneOps) (x y : PClass) (s : State) : Out :=
  laneRun (.cfence o x y) s fun e =>
    .next ((s.setTeam e.tk (e.t.classFence x y (some e.g))).retireLane e.tk e.g e.sp (e.split.lpc + 1) e.act)

def execWaitp (o : LaneOps) (p : Path) (s : State) : Out :=
  laneRun (.waitp o p) s fun e =>
    if e.act = 0 then e.skip
    else if e.t.pathCount p ≤ (e.val e.low o.b).toNat then e.doneIn s (e.t.pathWaited p) e.x
    else stay s

/-! Lane barriers (R284). -/

/-- A lane barrier instruction: a number the team does not own traps; nothing without an ACTIVE lane. -/
def laneBar (i : Instr) (n : BitVec 6) (s : State) (f : LaneEnv → Out) : Out :=
  laneRun i s fun e =>
    if e.act = 0 then e.skip
    else if n.toNat ≥ e.t.desc.nbar then e.trap .addrBounds e.low
    else f e

/-- The doubleword of a BARR event (R378). -/
def barrBody (b : Barrier) (n : Nat) : List U64 := [BitVec.ofNat 64 ((if b.phase then 2 ^ 16 else 0) + b.gen.toNat * 2 ^ 8 + n)]

def execBara (o : LaneOps) (n : BitVec 6) (ln : Bool) (s : State) : Out :=
  laneBar (.bara o n ln) n s fun e =>
    let b := e.t.bar n.toNat
    let (_, ok, s') := s.coreEvent e.t.core 0x03 (e.t.laneCtx e.g e.low) (barrBody b n.toNat)
    if !ok then .next s' else
      let t := e.t.setBar n.toNat (b.arrive s.clk.cycle (if ln then (lanesOf e.act).length else 1) (e.t.priorIds (some e.g) e.act))
      e.doneIn s' t (e.writeD o.d fun _ => (if b.phase then 1 else 0, 0))

/-- The phase a lane barrier names: bit 0 of A of the lowest ACTIVE lane. -/
def LaneEnv.barPhase (e : LaneEnv) (a : Src) : Bool := (e.val e.low a).getLsbD 0

def execBarw (o : LaneOps) (n : BitVec 6) (s : State) : Out :=
  laneBar (.barw o n) n s fun e =>
    let (isOver, t) := e.t.barWait (some (e.g, e.sp)) n.toNat (e.barPhase o.a) e.act
    if isOver then
      let t := t.holdBehind (some e.g) e.split.mask (t.bar n.toNat).doneIds
      e.doneIn s t ((t.group? e.g).getD e.x)
    else .next (s.setTeam e.tk t)

def execBart (o : LaneOps) (n : BitVec 6) (s : State) : Out :=
  laneBar (.bart o n) n s fun e =>
    let b := e.t.bar n.toNat
    let (_, ok, s') := s.coreEvent e.t.core 0x03 (e.t.laneCtx e.g e.low) (barrBody b n.toNat)
    if !ok then .next s' else
      let passed := b.phase != e.barPhase o.a
      let x := e.writeP o.d fun _ => (passed, 0)
      let t := e.t.setGroup e.g x
      let t := if passed then t.holdBehind (some e.g) e.act b.doneIds else t
      e.doneIn s' t ((t.group? e.g).getD x)

def execBarx (o : LaneOps) (n : BitVec 6) (s : State) : Out :=
  laneBar (.barx o n) n s fun e =>
    e.doneIn s (e.t.setBar n.toNat ((e.t.bar n.toNat).expect s.clk.cycle (e.val e.low o.b).toNat)) e.x

/-! SPAWN (R79, R285). -/

/-- The bin of a key, or a free one. -/
def Core.binFor (c : Core) (team : Nat) (lpc : BitVec 24) : Option Nat :=
  let held (b : Nat) : Option Bin := (sparseFind b c.bins).filter fun x => !x.threads.isEmpty
  match (List.range 8).find? fun b => match held b with
    | some x => x.team == team && x.lpc == lpc
    | none => false with
  | some b => some b
  | none => (List.range 8).find? fun b => (held b).isNone

/-- A split's stall on SPAWN. -/
def Team.stallOf (t : Team) (g sp : Nat) : Option Op :=
  t.ops.find? fun o => !o.done && o.group == some g && o.split == sp && o.path == some .sp && match o.body with
    | .stall => true
    | _ => false

/-- Every running split of a group is stalled on SPAWN. -/
def Team.groupStalled (t : Team) (g : Nat) (x : Group) : Bool :=
  let run := (List.range 4).filter fun k => (x.split k).st == .run
  !run.isEmpty && run.all fun k => (t.stallOf g k).isSome

/-- The threads of the ACTIVE lanes enter a bin (R79). -/
def State.enterBin (s : State) (t : Team) (b : Nat) (lpc : BitVec 24) (ths : List Thread) : State :=
  s.modCore t.core fun c =>
    let old := (sparseFind b c.bins).filter fun x => !x.threads.isEmpty
    let x : Bin := old.getD { team := t.serial, lpc := lpc, threads := [], expiry := s.clk.cycle + t.spawnTmo.toNat }
    let all := x.threads ++ ths
    { c with bins := sparsePut b { x with threads := all, due := x.due || decide (32 ≤ all.length) } c.bins }

/-- The bin that a SPAWN of a team enters now with n threads; none while a stall condition of R79 holds. DEDUCED (log entry 38): a bin has at most 256
threads (R20), so threads that would pass 256 wait as for a full bin. -/
def State.spawnBin (s : State) (t : Team) (lpc : BitVec 24) (n : Nat) : Option Nat :=
  let core := s.core t.core
  (core.binFor t.serial lpc).filter fun b => decide (t.groups.length < 32) && match sparseFind b core.bins with
    | some x => decide (x.threads.length + n ≤ 256)
    | none => true

/-- Every other group of the team is stalled on SPAWN. -/
def Team.othersStalled (t : Team) (g : Nat) : Bool := (t.groups.filter fun p => p.1 != g).all fun p => t.groupStalled p.1 p.2

/-- A split is stalled on SPAWN, and the stall lasts (R79, R85). -/
def State.spawnStalled (s : State) (t : Team) (g sp : Nat) : Bool :=
  match t.stallOf g sp with
  | some o => (s.spawnBin t (BitVec.ofNat 24 o.lpc) (lanesOf o.lanes).length).isNone && !t.othersStalled g
  | none => false

def execSpawn (o : LaneOps) (toff : BitVec 23) (s : State) : Out :=
  laneRun (.spawn o toff) s fun e =>
    if e.act = 0 then e.skip else
      let lpc := e.split.lpc + toff.signExtend 24
      let va := match o.a with
        | .reg r => r.toNat
        | _ => 0
      let stalled (s : State) : Out :=
        if e.t.othersStalled e.g then
          let t := match e.t.stallOf e.g e.sp with
            | some op => e.t.complete op.id
            | none => e.t
          .next (laneTrap (s.setTeam e.tk t) e.tk e.g e.sp e.split.lpc .spawnLimit e.low)
        else if (e.t.stallOf e.g e.sp).isSome || e.t.pathFull .sp then stay s
        else .next (s.issueOp e.tk { id := 0, path := some .sp, cls := none, group := some e.g, lanes := e.act, split := e.sp, lpc := lpc.toNat, body := .stall }).1
      match s.spawnBin e.t lpc (lanesOf e.act).length with
      | none => stalled s
      | some b =>
          let (_, ok, s') := s.coreEvent e.t.core 0x04 (e.t.laneCtx e.g e.low) [BitVec.ofNat 64 ((lanesOf e.act).length * 2 ^ 8 + b)]
          if !ok then .next s' else
            let ths := e.lanes.map fun l => ({ pay := (List.range 4).map fun i => e.x.vreg (va + i) l } : Thread)
            let t := match e.t.stallOf e.g e.sp with
              | some op => e.t.complete op.id
              | none => e.t
            e.doneIn (s'.enterBin e.t b lpc ths) t e.x

end Sys2Proof.Machine
end

