-- ==== Sys2Proof/Machine/Scalar.lean ====
section
/-!
DEFINITION. Machine/Scalar.lean: the rider's integer group, immediates, long constants and branches (R193 to R199).
-/
namespace Sys2Proof.Machine

/-- Runs a scalar word: a form no encoding stands for is illegal (R185), and a word waits for the registers in flight that
it names (R191). -/
def scalarRun (i : Instr) (regs : List SReg) (s : State) (f : Nat → Team → Out) : Out :=
  withRider s fun tk t =>
    if !wellFormed i then .next (s.riderFault tk .illegal)
    else if regs.any t.sregBusy then stay s else f tk t

/-- A scalar word that writes a register from the team's registers and goes on. -/
def scalarD (i : Instr) (d : SReg) (regs : List SReg) (s : State) (f : Team → U64) : Out :=
  scalarRun i (d :: regs) s fun tk t => .next ((s.setTeam tk (t.setSreg d (f t))).retireRider tk)

/-- The two-operand form SR. -/
def scalarSR (i : Instr) (d a b : SReg) (s : State) (f : U64 → U64 → U64) : Out :=
  scalarD i d [a, b] s fun t => f (t.sreg a) (t.sreg b)

/-- The immediate form SI. -/
def scalarSI (i : Instr) (d a : SReg) (s : State) (f : U64 → U64) : Out := scalarD i d [a] s fun t => f (t.sreg a)

/-- A branch: `link` takes the address of the next word, and the PC goes to `f`. -/
def scalarJump (i : Instr) (link : SReg) (regs : List SReg) (s : State) (f : Team → U64) : Out :=
  scalarRun i (link :: regs) s fun tk t => .next ((s.setTeam tk (t.setSreg link (t.pc + 4))).retireTo tk (f t))

/-- Truncated quotient and its remainder, signed; b = 0 gives all ones and a (R194). -/
def divS (a b : U64) : U64 := if b = 0 then BitVec.allOnes 64 else BitVec.ofInt 64 (a.toInt.tdiv b.toInt)
def remS (a b : U64) : U64 := if b = 0 then a else BitVec.ofInt 64 (a.toInt.tmod b.toInt)
def divU (a b : U64) : U64 := if b = 0 then BitVec.allOnes 64 else a / b
def remU (a b : U64) : U64 := if b = 0 then a else a % b

/-- Bits 127 to 64 of a product. -/
def mulHighS (a b : U64) : U64 := BitVec.ofInt 64 (a.toInt * b.toInt / 2 ^ 64)
def mulHighU (a b : U64) : U64 := BitVec.ofNat 64 (a.toNat * b.toNat / 2 ^ 64)

/-- Leading zero bits of an n-bit number. -/
def leadingZeros (n x : Nat) : Nat := if x = 0 then n else n - 1 - Nat.log2 x

/-- Comparison of 64-bit registers (R195). -/
def cmp64 (cc : Cmp) (a b : U64) : Bool := cmpHolds cc 64 a.toNat b.toNat

def execSadd (d a b : SReg) (s : State) : Out := scalarSR (.sadd d a b) d a b s fun x y => x + y
def execSsub (d a b : SReg) (s : State) : Out := scalarSR (.ssub d a b) d a b s fun x y => x - y
def execSmul (d a b : SReg) (s : State) : Out := scalarSR (.smul d a b) d a b s fun x y => x * y
def execSmulh (d a b : SReg) (s : State) : Out := scalarSR (.smulh d a b) d a b s fun x y => mulHighS x y
def execSmulhU (d a b : SReg) (s : State) : Out := scalarSR (.smulhU d a b) d a b s fun x y => mulHighU x y
def execSdiv (d a b : SReg) (s : State) : Out := scalarSR (.sdiv d a b) d a b s fun x y => divS x y
def execSdivU (d a b : SReg) (s : State) : Out := scalarSR (.sdivU d a b) d a b s fun x y => divU x y
def execSrem (d a b : SReg) (s : State) : Out := scalarSR (.srem d a b) d a b s fun x y => remS x y
def execSremU (d a b : SReg) (s : State) : Out := scalarSR (.sremU d a b) d a b s fun x y => remU x y
def execSand (d a b : SReg) (s : State) : Out := scalarSR (.sand d a b) d a b s fun x y => x &&& y
def execSor (d a b : SReg) (s : State) : Out := scalarSR (.sor d a b) d a b s fun x y => x ||| y
def execSxor (d a b : SReg) (s : State) : Out := scalarSR (.sxor d a b) d a b s fun x y => x ^^^ y
def execSshl (d a b : SReg) (s : State) : Out := scalarSR (.sshl d a b) d a b s fun x y => x <<< (y.toNat % 64)
def execSshr (d a b : SReg) (s : State) : Out := scalarSR (.sshr d a b) d a b s fun x y => x >>> (y.toNat % 64)
def execSsra (d a b : SReg) (s : State) : Out := scalarSR (.ssra d a b) d a b s fun x y => x.sshiftRight (y.toNat % 64)
def execSmin (d a b : SReg) (s : State) : Out := scalarSR (.smin d a b) d a b s fun x y => if y.slt x then y else x
def execSminU (d a b : SReg) (s : State) : Out := scalarSR (.sminU d a b) d a b s fun x y => if y < x then y else x
def execSmax (d a b : SReg) (s : State) : Out := scalarSR (.smax d a b) d a b s fun x y => if x.slt y then y else x
def execSmaxU (d a b : SReg) (s : State) : Out := scalarSR (.smaxU d a b) d a b s fun x y => if x < y then y else x
def execSpopc (d a : SReg) (s : State) : Out := scalarD (.spopc d a) d [a] s fun t => BitVec.ofNat 64 (popCount (t.sreg a).toNat 64)
def execSclz (d a : SReg) (s : State) : Out := scalarD (.sclz d a) d [a] s fun t => BitVec.ofNat 64 (leadingZeros 64 (t.sreg a).toNat)

/-- SCMP writes a scalar predicate (R195). -/
def execScmp (cc : Cmp) (q : BitVec 3) (a b : SReg) (s : State) : Out :=
  scalarRun (.scmp cc q a b) [a, b] s fun tk t => .next ((s.setTeam tk (t.setQreg q (cmp64 cc (t.sreg a) (t.sreg b)))).retireRider tk)

def execSsel (q : BitVec 3) (d a b : SReg) (s : State) : Out :=
  scalarD (.ssel q d a b) d [a, b] s fun t => if t.qreg q then t.sreg a else t.sreg b

def execSaddi (d a : SReg) (imm : BitVec 13) (s : State) : Out := scalarSI (.saddi d a imm) d a s fun x => x + imm.signExtend 64
def execSandi (d a : SReg) (imm : BitVec 13) (s : State) : Out := scalarSI (.sandi d a imm) d a s fun x => x &&& imm.signExtend 64
def execSori (d a : SReg) (imm : BitVec 13) (s : State) : Out := scalarSI (.sori d a imm) d a s fun x => x ||| imm.signExtend 64
def execSxori (d a : SReg) (imm : BitVec 13) (s : State) : Out := scalarSI (.sxori d a imm) d a s fun x => x ^^^ imm.signExtend 64
def execSshli (d a : SReg) (sh : BitVec 6) (s : State) : Out := scalarSI (.sshli d a sh) d a s fun x => x <<< sh.toNat
def execSshri (d a : SReg) (sh : BitVec 6) (s : State) : Out := scalarSI (.sshri d a sh) d a s fun x => x >>> sh.toNat
def execSsrai (d a : SReg) (sh : BitVec 6) (s : State) : Out := scalarSI (.ssrai d a sh) d a s fun x => x.sshiftRight sh.toNat

/-- SLUI: imm19 × 2^13, sign-extended (R197). -/
def execSlui (d : SReg) (imm : BitVec 19) (s : State) : Out :=
  scalarD (.slui d imm) d [] s fun _ => (imm ++ 0#13 : BitVec 32).signExtend 64

/-- SLI: the 51-bit constant of two words; the next word is at PC + 8 (R197). -/
def execSli (d : SReg) (hi : BitVec 19) (lo : U32) (s : State) : Out :=
  scalarRun (.sli d hi lo) [d] s fun tk t =>
    .next ((s.setTeam tk (t.setSreg d ((hi ++ lo : BitVec 51).signExtend 64))).retireTo tk (t.pc + 8))

/-- A word offset from a branch, in bytes. -/
def wordsAway {n : Nat} (off : BitVec n) : U64 := off.signExtend 64 * 4

def execSjmp (off : BitVec 19) (s : State) : Out := scalarJump (.sjmp off) 0 [] s fun t => t.pc + wordsAway off
def execScall (d : SReg) (off : BitVec 19) (s : State) : Out := scalarJump (.scall d off) d [] s fun t => t.pc + wordsAway off
def execSjmpr (d a : SReg) (imm : BitVec 13) (s : State) : Out := scalarJump (.sjmpr d a imm) d [a] s fun t => t.sreg a + wordsAway imm
def execSret (a : SReg) (s : State) : Out := scalarJump (.sret a) 0 [a] s fun t => t.sreg a
def execSbr (neg : Bool) (q : BitVec 3) (off : BitVec 21) (s : State) : Out :=
  scalarJump (.sbr neg q off) 0 [] s fun t => if t.qreg q != neg then t.pc + wordsAway off else t.pc + 4

end Sys2Proof.Machine
end

