-- ==== Sys2Proof/Machine/ScalarMem.lean ====
section
/-!
DEFINITION. Machine/ScalarMem.lean: the rider's loads, stores, atomics and waits (R200 to R203).
-/
namespace Sys2Proof.Machine

/-- A rider's failed check. -/
def riderTrapOf (s : State) (tk : Nat) (x : AccFault) : Out := .next (s.riderFault tk x.cause (BitVec.ofNat 64 x.addr) x.hidx x.check)

/-- Handle and offset of [sa + sb]: a[63:54], and a[53:0] + b without wrapping (R200). -/
def scalarHandle (a : U64) : Nat := bitsOf a.toNat 63 54
def scalarOffset (a b : U64) : Int := (bitsOf a.toNat 53 0 + b.toNat : Nat)

/-- Runs a scalar memory word: it waits for registers in flight and while its path's counter is full; then its parts are
checked. -/
def scalarMem {α : Type} (i : Instr) (regs : List SReg) (path : Path) (s : State) (f : Team → Except AccFault α × State)
    (k : State → Nat → Team → α → Out) : Out :=
  scalarRun i regs s fun tk t =>
    if t.pathFull path then stay s
    else
      let (r, s') := f t
      match r with
      | .error x => riderTrapOf s' tk x
      | .ok ps => k s' tk t ps

/-- Issues a rider's operation, and the word retires. -/
def riderIssue (s : State) (tk : Nat) (o : Op) : Out := .next ((s.issueOp tk o).1.retireRider tk)

def execSld (sz : BitVec 2) (d a b : SReg) (k : Kind) (sc : Scope) (s : State) : Out :=
  let n := 2 ^ sz.toNat
  scalarMem (.sld sz d a b k sc) [d, a, b] .ld s
    (fun t => s.handleParts t 0 (scalarHandle (t.sreg a)) (scalarOffset (t.sreg a) (t.sreg b)) n n .rr)
    fun s tk t ps => riderIssue s tk (t.riderOp .ld .ls k sc (.load (.sreg d.toNat) ps))

def execSst (sz : BitVec 2) (d a b : SReg) (k : Kind) (sc : Scope) (s : State) : Out :=
  let n := 2 ^ sz.toNat
  scalarMem (.sst sz d a b k sc) [d, a, b] .st s
    (fun t => s.handleParts t 0 (scalarHandle (t.sreg a)) (scalarOffset (t.sreg a) (t.sreg b)) n n .rw (t.sreg d).toNat)
    fun s tk t ps => riderIssue s tk (t.riderOp .st .ls k sc (.store ps))

/-- Scratchpad offset a + sext(imm13), a 64-bit value (R201). -/
def scalarScratch (t : Team) (a : SReg) (imm : BitVec 13) : Int := ((t.sreg a + imm.signExtend 64).toNat : Nat)

def execSlds (sz : BitVec 2) (d a : SReg) (imm : BitVec 13) (s : State) : Out :=
  let n := 2 ^ sz.toNat
  scalarMem (.slds sz d a imm) [d, a] .ld s (fun t => (t.scratchParts 0 (scalarScratch t a imm) n n, s))
    fun s tk t ps =>
      let o := t.riderOp .ld .ls .plain .split (.load (.sreg d.toNat) ps)
      if d ≠ 0 then riderIssue s tk o
      else
        -- the rider waits for the line
        let (s, id) := s.issueOp tk o
        .next (s.modTeam tk fun t => { t with blocked := some id })

def execSsts (sz : BitVec 2) (d a : SReg) (imm : BitVec 13) (s : State) : Out :=
  let n := 2 ^ sz.toNat
  scalarMem (.ssts sz d a imm) [d, a] .st s (fun t => (t.scratchParts 0 (scalarScratch t a imm) n n (t.sreg d).toNat, s))
    fun s tk t ps => riderIssue s tk (t.riderOp .st .ls .plain .split (.store ps))

/-- A register of the type's width. -/
def atomReg (ty : AtomType) (v : U64) : U64 := if ty = .i64 then v else (lo32 v).setWidth 64

/-- SATOM: one word, one slot; the rider goes on, and waits where it names d (R191, R202). -/
def execSatom (ty : AtomType) (op : AtomOp) (d a b : SReg) (k : Kind) (sc : Scope) (s : State) : Out :=
  let n := atomBytes ty
  scalarMem (.satom ty op d a b k sc) [d, a, b] .at s
    (fun t =>
      let (r, s) := s.access t (scalarHandle (t.sreg a)) (bitsOf (t.sreg a).toNat 53 0 : Nat) n n .ra
      (r.map fun ps => ps.map fun p => (p.2.2.key, p.1, p.2.2.migrate), s))
    fun s tk t ps =>
      match ps with
      | [] => stay s
      | (key, va, mig) :: _ =>
          if (s.core t.core).freeSlotList.isEmpty then stay s
          else
            let run : AtomRun := { key := key, va := va, segs := [(key, n)], migrate := mig,
                                   operands := [{ lane := 0, x := atomReg ty (t.sreg b), e := atomReg ty (t.sreg d) }] }
            let (s, _) := s.issueAtomic tk (t.riderOp .at .as k sc .stall) { op := op, ty := ty, rn := 0, red := false } t.riderCtx [run]
              fun slots => .atom (some d.toNat) none none (ty == .i64) slots []
            .next (s.retireRider tk)

/-- SWAITCMP: the rider waits for the operation it issues (R203). -/
def execSwaitcmp (dbl : Bool) (cc : Cmp) (d a b : SReg) (k : Kind) (sc : Scope) (s : State) : Out :=
  let n := if dbl then 8 else 4
  scalarMem (.swaitcmp dbl cc d a b k sc) [d, a, b] .at s
    (fun t =>
      let (r, s) := s.access t (scalarHandle (t.sreg a)) (scalarOffset (t.sreg a) (t.sreg b)) n n .rr
      (r.map fun ps => ps.map fun p =>
        ({ lane := 0, key := p.2.2.key, val := if dbl then t.sreg d else (lo32 (t.sreg d)).setWidth 64, polls := false, lastPoll := 0,
           va := p.1, cached := p.2.2.mode == 2, policy := p.2.2.policy,
           migrate := p.2.2.migrate } : WaitPart), s))
    fun s tk t ps =>
      let o := t.riderOp .at .as k sc (.wait (some d.toNat) none cc dbl ps)
      if (s.core t.core).freeSlotList.isEmpty || t.comesAfter o then stay s
      else
        let (s, id) := s.issueOp tk o
        let s := s.modTeam tk fun t => { t with blocked := some id }
        .next ((s.waitSlots t { o with id := id } ps).armWait tk { o with id := id })

end Sys2Proof.Machine
end

