-- ==== Sys2Proof/Machine/AtomService.lean ====
section
/-!
DEFINITION. Machine/AtomService.lean: the atomic services, combining, replies and the journal (R334 to R345), and the combining
packets that carry requests between modules (R349, R350).
-/
namespace Sys2Proof.Machine

/-! Packets (R349, R350, R392). -/

def tagOf (m : Member) : Nat := m.core * 2 ^ 31 + m.ctx * 2 ^ 24 + m.slot * 2 ^ 16 + m.seq
def tagCore (t : Nat) : Nat := bitsOf t 39 31
def tagCtx (t : Nat) : Nat := bitsOf t 30 24
def tagSlot (t : Nat) : Nat := bitsOf t 23 16
def tagSeq (t : Nat) : Nat := bitsOf t 15 0

/-- The module's peer number, 0 before the pod command. -/
def State.selfPeer (s : State) : Nat := s.fab.self.getD 0

/-- Sends a packet on the plane of its address; a packet for a dead plane waits at the port (R391, R392, R394). -/
def State.sendPacket (s : State) (p : Packet) : State :=
  let pl := s.planeNow p.addr
  let p := { p with src := s.selfPeer, plane := pl }
  if s.fab.dead.contains pl then { s with fab := { s.fab with held := s.fab.held ++ [p] } }
  else
    let seq := (sparseGet 0 s.fab.pseqOut pl + 1) % 2 ^ 16
    let p := { p with pseq := seq }
    { s with fab := { s.fab with pseqOut := sparsePut pl seq s.fab.pseqOut, out := s.fab.out ++ [p], unacked := s.fab.unacked ++ [p] } }

/-- A packet of a type, to a peer, for an address. -/
def packetFor (ptype dst addr : Nat) : Packet :=
  { ptype := ptype, src := 0, dst := dst, plane := 0, opc := 0, ty := 0, det := false, n := 0, rn := 0, addr := addr, rid := 0, pseq := 0, cid := 0,
    status := 0, members := [], payload := [] }

def opCode (o : AtomOp) : Nat := (encodeAtomOp o).toNat
def tyCode (t : AtomType) : Nat := (encodeAtomType t).toNat

/-- The bytes of a packet as its plane carries them: the header, the member records, the payload (R349, R350). -/
def packetBytes (p : Packet) : List Byte :=
  let word0 := p.ptype % 256 * 2 ^ 56 + p.src % 256 * 2 ^ 48 + p.dst % 256 * 2 ^ 40 + p.plane % 16 * 2 ^ 36 + p.opc % 16 * 2 ^ 32 + p.ty % 4 * 2 ^ 30
    + (if p.det then 2 ^ 29 else 0) + p.members.length % 32 * 2 ^ 24 + p.n % 256 * 2 ^ 16 + p.rn % 256 * 2 ^ 8
  bytesOf word0 8 ++ bytesOf p.addr 8 ++ bytesOf (p.rid % 2 ^ 16 * 2 ^ 48 + p.pseq % 2 ^ 16 * 2 ^ 32 + p.cid % 2 ^ 32) 8 ++ bytesOf (p.status % 256) 8
    ++ p.members.flatMap (fun m => bytesOf (m.1 % 2 ^ 40 * 2 ^ 24 + m.2.1 % 256 * 2 ^ 16 + m.2.2.1 % 256 * 2 ^ 8) 8 ++ bytesOf m.2.2.2.toNat 8)
    ++ p.payload

/-- A packet from its bytes: none where its PTYPE is unassigned, a reserved field is set or its records are cut short (R349, R350). -/
def packetOf (bs : List Byte) : Option Packet :=
  let word (i : Nat) : Nat := ofBytes ((bs.drop (8 * i)).take 8)
  let nmem := bitsOf (word 0) 28 24
  let ptype := bitsOf (word 0) 63 56
  let recs := (List.range nmem).map fun i => (word (4 + 2 * i), word (5 + 2 * i))
  let reserved := bitsOf (word 0) 7 0 + bitsOf (word 1) 63 52 + bitsOf (word 3) 63 8 + recs.foldl (fun a r => a + bitsOf r.1 7 0) 0
  if bs.length < 32 + 16 * nmem ∨ 16 < nmem ∨ ptype = 0 ∨ 8 < ptype ∨ bitsOf (word 0) 31 30 = 3 ∨ reserved ≠ 0 then none
  else some {
    ptype := ptype, src := bitsOf (word 0) 55 48, dst := bitsOf (word 0) 47 40, plane := bitsOf (word 0) 39 36, opc := bitsOf (word 0) 35 32,
    ty := bitsOf (word 0) 31 30, det := bitsOf (word 0) 29 29 == 1, n := bitsOf (word 0) 23 16, rn := bitsOf (word 0) 15 8,
    addr := bitsOf (word 1) 51 0, rid := bitsOf (word 2) 63 48, pseq := bitsOf (word 2) 47 32, cid := bitsOf (word 2) 31 0,
    status := bitsOf (word 3) 7 0
    members := recs.map fun r => (bitsOf r.1 63 24, bitsOf r.1 23 16, bitsOf r.1 15 8, BitVec.ofNat 64 r.2)
    payload := bs.drop (32 + 16 * nmem) }

/-- Values of a type as payload bytes, and back. -/
def packVals (n : Nat) (vs : List U64) : List Byte := vs.flatMap fun x => bytesOf x.toNat n
def unpackVals (n : Nat) (bs : List Byte) : List U64 := (List.range (bs.length / n)).map fun i => BitVec.ofNat 64 (ofBytes ((bs.drop (n * i)).take n))

/-! One step of a word's serial order (R202, R277). -/

/-- The new value of a word. -/
def atomNew (op : AtomOp) (ty : AtomType) (m x e : U64) : U64 :=
  let n := 8 * atomBytes ty
  let w (v : Int) : U64 := BitVec.ofNat 64 (wrapTo n v)
  let um := m.toNat % 2 ^ n
  let ux := x.toNat % 2 ^ n
  let sm := signedOf n m.toNat
  let sx := signedOf n x.toNat
  if ty = .f32 then
    match op with
    | .add => BitVec.ofNat 64 (floatOp .f32 .add .rne false false um ux 0).1
    | .min => BitVec.ofNat 64 (floatMinMax .f32 false false um ux).1
    | _ => BitVec.ofNat 64 (floatMinMax .f32 true false um ux).1
  else
    match op with
    | .add => w (um + ux)
    | .sub => w ((um : Int) - ux)
    | .min => if sx < sm then x else m
    | .max => if sm < sx then x else m
    | .minu => if ux < um then x else m
    | .maxu => if um < ux then x else m
    | .and => m &&& x
    | .or => m ||| x
    | .xor => m ^^^ x
    | .exch => x
    | .incw => if um ≥ ux then 0 else w (um + 1)
    | .cas => if um = e.toNat % 2 ^ n then x else m
    | .rsm => m

/-- The bytes of a location, and writing them (R279). -/
def State.segBytes (s : State) (segs : List (Nat × Nat)) : List Byte := segs.flatMap fun g => s.bytesAt g.1 g.2
def State.putSegs (s : State) (die : Option Nat) : List (Nat × Nat) → List Byte → State
  | [], _ => s
  | (k, n) :: l, bs => ((s.writeLong die k (n + 1) (bs.take n)).1).putSegs die l (bs.drop n)

/-- One operand's step: the values before it, and the state after it. Writing retests the line's monitors (R336, R140). -/
def State.atomStep (s : State) (die : Option Nat) (q : AtomReq) (o : AtomOperand) : List U64 × State :=
  let old := s.segBytes q.segs
  if q.op = .rsm then
    let words := unpackVals 4 (old.take (4 * (q.rn + 2)))
    (words, s.putSegs die q.segs ((rsmMerge (words.map lo32) o.rsm).1.flatMap fun w => bytesOf w.toNat 4))
  else
    let m := BitVec.ofNat 64 (ofBytes old)
    ([m], s.putSegs die q.segs (bytesOf (atomNew q.op q.ty m o.x o.e).toNat (atomBytes q.ty)))

def stepOperands (die : Option Nat) (q : AtomReq) : List AtomOperand → List U64 → State → List U64 × State
  | [], acc, s => (acc, s)
  | o :: l, acc, s => let (v, s) := s.atomStep die q o
                      stepOperands die q l (acc ++ v) s

/-- The operation that holds a member's return slot. -/
def State.slotOp (s : State) (m : Member) : Option (Nat × Team × Op × RetSlot) :=
  if m.srcPeer ≠ 0 then none else
    match sparseFind m.slot (s.core m.core).slots with
    | none => none
    | some sl =>
        if sl.seq ≠ m.seq then none else
          match s.teamBySerial sl.team with
          | none => none
          | some (tk, t) => (t.op? sl.op).map fun o => (tk, t, o, sl)

/-- The die that a member's writes come from. -/
def State.memberDie (s : State) (m : Member) : Option Nat := if m.srcPeer = 0 then some (s.dieOf m.core) else none

/-- What a member already sees at its word performs before its steps, and what others have read of it early no longer counts (R148); its line's
readers take over what its team's releases cover (R156). None while a replay holds it. -/
def State.beforeSteps (s : State) (q : AtomReq) (m : Member) : Option State :=
  let drained : Option State := match s.slotOp m with
    | some (tk, t, o, _) => (s.drainSeen t o (q.segs.map fun g => (Place.mem g.1, g.2))).map fun s =>
        let s := q.segs.foldl (fun (s : State) g => s.noteWriter t g.1) s
        s.modTeam tk fun t => t.modOp o.id fun o => { o with routed := true }
    | none => some s
  let need (s : State) (t' : Team) (o' : Op) : Nat := match s.slotOp m with
    | some (_, t, o, _) => reachTo t' o' s t o
    | none => if m.srcPeer = 0 then 7 else 8
  drained.map fun s => q.segs.foldl (fun (s : State) g => s.dropSamples (need s) g.1 g.2) s

/-- Whether a request's operands are summed as they travel: an integer ADD (R339). -/
def AtomReq.sums (q : AtomReq) : Bool := q.op == .add && q.ty != .f32

/-- The members' steps in member order (R336), with each member's share. -/
def stepMembers (q : AtomReq) : List Member → List Share → State → Option (List Share × State)
  | [], acc, s => some (acc, s)
  | m :: l, acc, s =>
      match s.beforeSteps q m with
      | none => none
      | some s =>
          let (vs, s) := stepOperands (s.memberDie m) q m.operands [] s
          stepMembers q l (acc ++ [{ member := m, vals := if q.sums then vs.take 1 else vs, bad := q.segs.any fun g => s.lineBad g.1 }]) s

/-! Combining (R338 to R340). -/

/-- The points on a request's way: routers are 0 to 75, the fabric port of plane p is 0x100 + p, its switch 0x200 + p. Input ports of a point:
0 to 3 the cores of a router's cluster, 4 to 7 what other points send. -/
def portPoint (p : Nat) : Nat := 0x100 + p
def switchPoint (p : Nat) : Nat := 0x200 + p

/-- A request's operation, and whether it may combine at a point (R338): no scalar request does, whose tag names a rider's context (R341). -/
def AtomReq.combines (q : AtomReq) (point : Nat) : Bool :=
  let lanes := q.members.all fun m => decide (m.ctx < 64)
  let reds := q.members.all (·.red)
  lanes && match q.op with
    | .add => true
    | .min | .max | .minu | .maxu => reds && q.ty != .f32
    | .rsm => decide (0x100 ≤ point)
    | _ => false

def AtomReq.sameKey (a b : AtomReq) : Bool := a.peer == b.peer && a.pa == b.pa && a.op == b.op && a.ty == b.ty && a.rn == b.rn

/-- List operands of a request, F32 ADD operands or RSM triples, and the bytes of one. -/
def AtomReq.listed (q : AtomReq) : Nat := if q.ty = .f32 then q.members.foldl (fun n m => n + m.operands.length) 0 else 0
def AtomReq.listBytes (q : AtomReq) : Nat := if q.ty ≠ .f32 then 0 else if q.op = .rsm then 4 * (q.rn + 2) else 4

/-- Bytes of the packet a combining request would be. -/
def AtomReq.bytes (q : AtomReq) : Nat := 32 + 16 * q.members.length + q.listBytes * q.listed

/-- Bytes of nine flits (R393). -/
def nineFlits : Nat := 9 * 64

/-- A merge within the limits of R339. -/
def AtomReq.fits (a b : AtomReq) (point : Nat) : Bool :=
  decide (a.members.length + b.members.length ≤ 16) && decide (a.listed + b.listed ≤ 32)
    && (decide (point < 0x100) || decide (a.bytes + b.bytes - 32 ≤ nineFlits))

/-- An entry is full, or no further merge is possible (R339). -/
def AtomReq.entryFull (q : AtomReq) (point : Nat) : Bool :=
  decide (16 ≤ q.members.length) || decide (32 ≤ q.listed) || (decide (0x100 ≤ point) && decide (nineFlits < q.bytes + 16 + q.listBytes))

/-- Sum of integer operands, or the number of list operands (R340). -/
def Member.weight (q : AtomReq) (m : Member) : Nat :=
  if q.ty = .f32 then m.operands.length
  else if q.op = .add then m.operands.foldl (fun a o => (a + o.x.toNat) % 2 ^ (8 * atomBytes q.ty)) 0
  else 0

def prefixesFrom (q : AtomReq) (start : Nat) : List Member → List U64
  | [] => []
  | m :: l => BitVec.ofNat 64 start :: prefixesFrom q ((start + m.weight q) % 2 ^ (if q.sums then 8 * atomBytes q.ty else 64)) l

/-- The record of a merge: the members, each with the port it arrived on. -/
def recordOf (cid : Nat) (q : AtomReq) (ports : List Nat) (lost : Bool) : DecombRec :=
  { cid := cid, tags := q.members.map fun m => (m.core, m.ctx, m.slot, m.seq), srcPeers := q.members.map (·.srcPeer), ports := ports,
    prefixes := prefixesFrom q 0 q.members, lost := lost }

/-- A run's operand as one integer: summed, or folded (R339). -/
def Member.folded (q : AtomReq) (m : Member) : U64 :=
  if q.op = .add then BitVec.ofNat 64 (m.weight q)
  else match m.operands with
    | [] => 0
    | o :: l => l.foldl (fun a x => atomNew q.op q.ty a x.x 0) o.x

/-- Whether each run of a request is one integer operand in its packet. -/
def AtomReq.oneOperand (q : AtomReq) : Bool :=
  q.ty != .f32 && match q.op with
    | .add => true
    | .min | .max | .minu | .maxu => q.members.all (·.red)
    | _ => false

/-- Operands of a run in the order a packet carries them: of CAS the new value, then the expected one. -/
def Member.listOperands (q : AtomReq) (m : Member) : List U64 := m.operands.flatMap fun o => if q.op = .cas then [o.x, o.e] else [o.x]

/-- The operand in the member record of a run (R350). -/
def AtomReq.operandOf (q : AtomReq) (m : Member) : U64 :=
  if q.ty = .f32 then 0 else if q.oneOperand then m.folded q else nth (m.listOperands q) 0 0

/-- The member record of a run. -/
def AtomReq.recordFor (q : AtomReq) (self : Nat) (m : Member) : Nat × Nat × Nat × U64 := (tagOf m, self, m.operands.length, q.operandOf m)

/-- A member as the owner at another module is told of it (R375, R378). -/
def Member.agent (m : Member) : RemoteAgent :=
  { recorded := m.recorded, launch := m.launch, team := m.team, who := m.who, lane := (m.operands.head?.map (·.lane)).getD 0, icnt := m.icnt }

/-- The AREQ of a request (R350). DESIGN CHOICE (log entry 11): a run of several operands that neither sum nor fold carries its first operand in its
record, and the others, with the expected values of CAS, in the payload. -/
def AtomReq.packet (q : AtomReq) (self cid : Nat) : Packet :=
  let n := atomBytes q.ty
  { packetFor 0x01 q.peer q.pa with
    opc := opCode q.op, ty := tyCode q.ty, rn := q.rn, cid := cid
    members := q.members.map (q.recordFor self)
    agents := q.members.map Member.agent
    payload := if q.oneOperand then []
      else if q.op = .rsm then packVals 4 (q.members.flatMap fun m => m.operands.flatMap fun o => o.rsm.map fun w => w.setWidth 64)
      else packVals n (q.members.flatMap fun m => (m.listOperands q).drop (if q.ty = .f32 then 0 else 1)) }

/-- The outermost record that holds a run. -/
def outerRecord (rs : List DecombRec) (m : Member) : Option DecombRec :=
  (rs.filter fun r => (r.tags.zip r.srcPeers).contains ((m.core, m.ctx, m.slot, m.seq), m.srcPeer)).foldl (fun b r => match b with
    | none => some r
    | some x => if x.tags.length < r.tags.length then some r else b) none

def AtomNet.outerCid (n : AtomNet) (ms : List Member) : Option Nat :=
  match ms with
  | [] => none
  | m :: _ => (outerRecord n.recs m).map (·.cid)

/-- A request that has passed its last point enters its owner's queue, where it keeps one entry and returns its other members' credits (R335), or
leaves for its peer. -/
def State.arriveAt (s : State) (id : Nat) (q : AtomReq) : State :=
  if q.svc < 0x400 then
    { s with net := { s.net with reqs := sparsePut id { q with stage := .queued, credits := 1 } s.net.reqs
                                 queues := sparsePut q.svc (sparseGet [] s.net.queues q.svc ++ [id]) s.net.queues } }
  else
    let s := { s with net := { s.net with reqs := sparsePut id { q with stage := .sent } s.net.reqs } }
    s.sendPacket (q.packet s.selfPeer ((s.net.outerCid q.members).getD 0))

/-- The input port of a point that faces another point. -/
def facing (a b : Nat) : Nat := 4 + Config.meshPort a b % 4

/-- A request goes on from a point; the next point sees it on the port that faces the one it comes from. -/
def State.passOn (s : State) (id : Nat) (q : AtomReq) (p : Nat) (rest : List Nat) : State :=
  let q := { q with stage := .route rest, port := facing p (rest.headD 0) }
  match rest with
  | [] => s.arriveAt id q
  | _ => { s with net := { s.net with reqs := sparsePut id q s.net.reqs } }

/-- An entry is sent on. -/
def State.sendEntry (s : State) (x : CombEntry) : State :=
  let s := { s with net := { s.net with entries := s.net.entries.filter (· != x) } }
  match sparseFind x.req s.net.reqs with
  | none => s
  | some q => match q.stage with
    | .route (p :: rest) => s.passOn x.req q p rest
    | _ => s

/-- A request merges into an entry: its members are appended and its credits travel with them. A full entry is sent on at once. -/
def State.mergeInto (s : State) (x : CombEntry) (e : AtomReq) (id : Nat) (q : AtomReq) : State :=
  let serial := sparseGet 0 s.net.serials x.point
  let (cid, fresh) := match x.cid with
    | some c => (c, false)
    | none => (x.point * 2 ^ 20 + serial % 2 ^ 20, true)
  let before := if fresh then none else s.net.recs.find? fun r => r.cid == cid
  let ports := match before with
    | some r => r.ports
    | none => e.members.map fun _ => x.port
  let m := { e with members := e.members ++ q.members, credits := e.credits + q.credits }
  let rec' := recordOf cid m (ports ++ q.members.map fun _ => q.port) ((before.map (·.lost)).getD false)
  let x' := { x with cid := some cid }
  let s := { s with net := { s.net with
    reqs := sparseErase id (sparsePut x.req m s.net.reqs)
    entries := s.net.entries.map fun y => if y = x then x' else y
    recs := s.net.recs.filter (fun r => r.cid != cid) ++ [rec']
    serials := if fresh then sparsePut x.point (serial + 1) s.net.serials else s.net.serials } }
  if m.entryFull x.point then s.sendEntry x' else s

/-! Credits (R335). -/

/-- Who asks a service for a credit: a core, or 0x400 + the plane of the fabric port that a peer's request waits at. -/
def AtomReq.asker (q : AtomReq) : Nat :=
  match q.members with
  | [] => 0
  | m :: _ => match m.pkt with
    | some p => 0x400 + p.plane
    | none => m.core

/-- The entries of a service that its credits stand for: those of requests on their way or in its queue. -/
def State.creditsOut (s : State) (svc : Nat) : Nat :=
  (s.net.reqs.filter fun x => x.2.svc == svc && x.2.stage != .credit).foldl (fun n x => n + x.2.credits) 0

/-- A request waits for nothing but its credit: what its access comes after has performed, and its release duties are done (R134, R151). -/
def State.asksCredit (s : State) (q : AtomReq) : Bool :=
  q.stage == .credit && match q.members.head?.bind s.slotOp with
    | some (_, t, o, _) => t.depsMet o && s.storeReady t o
    | none => true

/-- The requester that a service serves next: round-robin from the one it served last. -/
def State.nextAsker (s : State) (svc : Nat) : Option Nat :=
  let last := sparseGet 0x3FF s.net.grants svc
  let asking := distinct ((s.net.reqs.filter fun x => x.2.svc == svc && s.asksCredit x.2).map fun x => x.2.asker)
  let turn (a : Nat) : Nat := (a + 0x800 - last - 1) % 0x800
  asking.foldl (fun (b : Option Nat) a => match b with
    | some x => if turn x ≤ turn a then some x else some a
    | none => some a) none

/-- The routers that a request passes between two points. DESIGN CHOICE (log entry 24): the spec does not lay the mesh out, and they are any
others of the module. -/
def State.meshWay (s : State) (a b : Nat) : List Nat :=
  distinct ((Config.meshPath s.free a b).filter fun r => decide (r < Config.cores / 4) && r != a && r != b)

/-- The combining points ahead of a request that has its credit: the routers from its own cluster's to its owner's, or to the port of its plane, and
the plane's switch; for a request of another module the port and the routers to its owner's (R338). -/
def State.pointsOf (s : State) (q : AtomReq) : List Nat :=
  match q.members.head?.bind (·.pkt) with
  | some p => portPoint p.plane :: s.meshWay (portPoint p.plane) q.svc ++ [q.svc]
  | none =>
      let own := (q.members.head?.map (·.core)).getD 0 / 4
      let port := portPoint (s.planeNow q.pa)
      if q.svc = own then [own]
      else if q.svc < 0x400 then own :: s.meshWay own q.svc ++ [q.svc]
      else own :: s.meshWay own port ++ [port, switchPoint (s.planeNow q.pa)]

/-- The slot of a request notes when it left, or that it waits for the remap of a dead plane (R344, R394). -/
def State.slotLeft (s : State) (m : Member) : State :=
  let waits (sl : RetSlot) : Bool := s.fab.quiesce && decide (0x400 ≤ sl.svc) && s.fab.dead.contains (s.planeNow sl.pa)
  match s.slotOp m with
  | some _ => s.modCore m.core fun c => { c with slots := sparseMod m.slot (fun sl =>
      { sl with left := true, held := waits sl, sent := if waits sl then 0 else s.clk.cycle }) c.slots }
  | none => s

/-- CREDIT_GRANT: a service of this module gives a free queue entry to the requester whose turn it is; a request to a peer leaves once the peer's
service has given its port a credit (R335). -/
def execCreditGrant (svc req : Nat) (s : State) : Out :=
  match sparseFind req s.net.reqs with
  | none => .next s
  | some q =>
      -- what comes from a peer holds a credit for each of its members
      let n := if (q.members.any fun m => m.pkt.isSome) then q.members.length else 1
      if q.svc ≠ svc ∨ !s.asksCredit q ∨ (svc < 0x400 ∧ (512 < s.creditsOut svc + n ∨ s.nextAsker svc ≠ some q.asker)) then .next s
      else
        let port := if q.asker < 0x400 then q.asker % 4 else facing (switchPoint (q.asker - 0x400)) (portPoint (q.asker - 0x400))
        let s := q.members.foldl (fun s m => s.slotLeft m) s
        .next { s with free := s.free + 1, net := { s.net with
          reqs := sparsePut req { q with stage := .route (s.pointsOf q), port := port, credits := n, left := s.clk.cycle } s.net.reqs
          grants := if svc < 0x400 then sparsePut svc q.asker s.net.grants else s.net.grants } }

/-- A request that holds a credit has travelled for as long as it may: no point holds it any longer (R335). -/
def State.overdue (s : State) (q : AtomReq) : Bool :=
  (match q.stage with | .route _ => true | _ => false) && decide (q.left + (if q.svc < 0x400 then 2048 else 16384) ≤ s.clk.cycle)

/-- COMBINE_ARRIVE: a request at a combining point merges into the open entry of its key that opened first; where there is none, or that one may not
take it, it opens one in the table of its port, or passes (R339); one that is full is sent on. In a replay no point combines (R336). -/
def execCombineArrive (req : Nat) (s : State) : Out :=
  match sparseFind req s.net.reqs with
  | none => .next s
  | some q =>
      match q.stage with
      | .route (p :: rest) =>
          if s.net.entries.any fun x => x.req == req then .next s
          else if !q.combines p || s.overdue q || (s.haeth.replay.map (·.gating)).getD false then .next (s.passOn req q p rest)
          else
            let here := s.net.entries.filter fun x => x.point == p
            let mine := here.filterMap fun x => match sparseFind x.req s.net.reqs with
              | some e => if e.sameKey q then some (x, e) else none
              | none => none
            let first := mine.foldl (fun b x => match b with
              | none => some x
              | some y => if x.1.opened < y.1.opened then some x else b) none
            (match first.filter fun y => y.2.fits q p with
             | some (x, e) => .next (s.mergeInto x e req q)
             | none =>
                 if (here.filter fun x => x.port == q.port).length < 64 ∧ !q.entryFull p then
                   .next { s with net := { s.net with entries := s.net.entries ++ [{ point := p, port := q.port, opened := s.clk.cycle, req := req }] } }
                 else .next (s.passOn req q p rest))
      | _ => .next s

/-- The window has passed: 32 mesh cycles, of 33 / 20 arithmetic cycles each (R25); at a switch what it has set, 64 ns at the most (R338). -/
def State.windowOver (s : State) (x : CombEntry) : Bool :=
  if x.point < 0x200 then decide ((s.clk.cycle - x.opened) * 20 ≥ 32 * 33)
  else decide ((s.clk.cycle - x.opened) * 10 ≥ min Config.switchWindow 64 * 33)

/-- An entry is due to be sent on: its window has passed, or its request may be held no longer (R335). -/
def State.entryDue (s : State) (x : CombEntry) : Bool := s.windowOver x || ((sparseFind x.req s.net.reqs).map s.overdue).getD false

/-- COMBINE_WINDOW_EXPIRE: the entry that holds request `entry` at a point is sent on. -/
def execCombineWindowExpire (point entry : Nat) (s : State) : Out :=
  match s.net.entries.find? fun x => x.point == point && x.req == entry with
  | some x => if s.entryDue x then .next (s.sendEntry x) else .next s
  | none => .next s

/-! The service (R334, R336). -/

/-- The doublewords of an SVC event (R378). -/
def svcBody (q : AtomReq) : List U64 :=
  let one (m : Member) : List U64 :=
    let lane := (m.operands.head?.map (·.lane)).getD 0
    let who := if m.recorded then m.who else 63
    [if m.recorded then aref m.srcPeer m.launch m.team who else aref m.srcPeer 0 0 63,
     BitVec.ofNat 64 ((if m.recorded then lane else 0) * 2 ^ 59 + (if m.recorded then m.icnt % 2 ^ 40 else 0))]
  BitVec.ofNat 64 (q.members.length * 2 ^ 58 + tyCode q.ty * 2 ^ 56 + opCode q.op * 2 ^ 52 + q.pa % 2 ^ 52) :: q.members.flatMap one

/-- The service takes every token of a local location (R334); none while a replay holds a move. -/
def State.serviceTokens (s : State) (q : AtomReq) : Option State :=
  if q.peer ≠ 0 then some s
  else
    let launch := (q.members.head?.map (·.launch)).getD 0
    (distinct (q.segs.map fun g => g.1 / 128)).foldl (fun s line => s.bind fun s =>
      let (s', ms) := s.returnTokens line (List.range 8)
      State.tokenEvents launch ms s') (some s)

/-- A request is performed: its members' steps, the journal and the reply; none while a replay holds it. -/
def State.performReq (s : State) (svc id : Nat) (q : AtomReq) : Option State :=
  (stepMembers q q.members [] s).map fun (shares, s) =>
    let v := if q.peer = 0 then q.segs.foldl (fun v g => max v (s.visibility (g.1 / 128))) 0 else 0
    let journal := shares.map fun x => ({ svc := svc, time := s.clk.cycle, share := x, op := q.op, ty := q.ty, v := v } : JournalEntry)
    let (rid, s) := s.fresh
    let reply : AtomReply := { op := q.op, ty := q.ty, v := v, shares := shares, cid := s.net.outerCid q.members }
    { s with net := { s.net with
      reqs := sparseErase id s.net.reqs
      queues := sparsePut svc ((sparseGet [] s.net.queues svc).filter (· != id)) s.net.queues
      replies := sparsePut rid reply s.net.replies
      journal := s.net.journal ++ journal } }

/-- A replay that gates runs here. -/
def State.replaying (s : State) : Bool := s.haeth.replay.any (·.gating)

/-- A member that a replay gates: of the replayed launches here, or of a recorded issuer at another module of the replay (R384, R389). -/
def State.gatedMember (s : State) (m : Member) : Bool := if m.pkt.isSome then s.replaying && m.recorded else (s.gating m.launch).isSome

/-- A request of a gated launch. -/
def State.gatedReq (s : State) (q : AtomReq) : Bool := q.members.any s.gatedMember

/-- A member as an SVC event names it: agent, lane and count. -/
def Member.key (m : Member) : U64 × Nat × Nat :=
  (aref m.srcPeer m.launch m.team m.who, (m.operands.head?.map (·.lane)).getD 0, m.icnt % 2 ^ 40)

/-- The members of an SVC event that are gated: agent, lane and count. -/
def svcMembers : List U64 → List (U64 × Nat × Nat)
  | a :: w :: l => if bitsOf a.toNat 7 2 = 63 then svcMembers l else (a, bitsOf w.toNat 63 59, bitsOf w.toNat 39 0) :: svcMembers l
  | _ => []

/-- The queued request of a member that a log names. -/
def State.findRun (s : State) (ids : List Nat) (x : U64 × Nat × Nat) : Option (Nat × AtomReq) :=
  ids.findSome? fun id => match sparseFind id s.net.reqs with
    | some q => (match q.members with
      | [m] => if m.key == x then some (id, q) else none
      | _ => none)
    | none => none

/-- A run in a service's queue that the replay gates and no SVC event still to come names (R386, WHY 2). -/
def State.unloggedRun (s : State) (svc : Nat) : Bool :=
  match s.haeth.replay.filter (·.gating) with
  | none => false
  | some r =>
      let logged := (r.rest (0x400 + svc)).flatMap fun x => if evType x.1 = 0x01 then svcMembers ((evBody x.1).drop 1) else []
      (sparseGet [] s.net.queues svc).any fun id => match sparseFind id s.net.reqs with
        | some q => q.members.any fun m => s.gatedMember m && !logged.contains m.key
        | none => false

def performAll (svc : Nat) : List (Nat × AtomReq) → State → Option State
  | [], s => some s
  | (id, q) :: l, s => (s.serviceTokens q).bind fun s => (s.performReq svc id q).bind (performAll svc l)

/-- ATOMIC_DEQUEUE: the service performs the next request. In a replay the runs of the next SVC event are performed together, once
all of them are in the queue; requests that nothing gates go on by themselves (R336, R384). -/
def execAtomicDequeue (svc : Nat) (s : State) : Out :=
  let ids := sparseGet [] s.net.queues svc
  let stream := 0x400 + svc
  let next := ids.findSome? fun id => match sparseFind id s.net.reqs with
    | some q => if s.gatedReq q then none else some (id, q)
    | none => none
  let forced : Option (Option (List (Nat × AtomReq))) := match s.haeth.replay with
    | none => none
    | some r => if !r.gating then none else match r.expect stream with
      | .event _ _ ev _ =>
          if evType ev = 0x01 then
            let xs := (svcMembers ((evBody ev).drop 1)).map (s.findRun ids)
            if xs.all (·.isSome) then some (some (xs.filterMap id)) else some none
          else some none
      | _ => none
  match forced with
  | some (some qs) => .next (((performAll svc qs s).map fun s => s.stepReplay stream).getD s)
  | _ =>
      match next with
      | none => .next s
      | some (id, q) =>
          let logged := q.members.any (·.recorded)
          if s.recorderStalled (recorderOf stream) then .next s
          else
            let done := (s.serviceTokens q).bind fun s =>
              (if logged then s.sharedEvent stream 1 0x01 (svcBody q) else s).performReq svc id q
            .next (done.getD s)

/-! Replies (R337, R342, R343). -/

/-- DECOMBINE: a reply is split among the members of a record, or dropped where the record is lost. What goes back to another module goes as one
reply for each packet. -/
def execDecombine (cid : Nat) (s : State) : Out :=
  match s.net.replies.find? fun r => r.2.cid == some cid with
  | none => .next s
  | some (id, r) =>
      match s.net.recs.find? fun x => x.cid == cid with
      | none => .next s
      | some x =>
          let recs := s.net.recs.filter fun y => y.cid != cid
          let s := { s with net := { s.net with recs := recs, replies := sparseErase id s.net.replies } }
          if x.lost then
            .next { s with net := { s.net with losses := sparsePut (cid / 2 ^ 20) (sparseGet 0 s.net.losses (cid / 2 ^ 20) + 1) s.net.losses } }
          else
            let outer (sh : Share) : Option Nat := (outerRecord recs sh.member).map (·.cid)
            let put (cid : Option Nat) (shares : List Share) (s : State) : State :=
              let (n, s) := s.fresh
              { s with net := { s.net with replies := sparsePut n { r with shares := shares, cid := cid } s.net.replies } }
            let s := (distinct (r.shares.filterMap outer)).foldl (fun s c => put (some c) (r.shares.filter fun sh => outer sh == some c) s) s
            let last := r.shares.filter fun sh => (outer sh).isNone
            let s := (distinct (last.filterMap fun sh => sh.member.pkt)).foldl (fun s p => put none (last.filter fun sh => sh.member.pkt == some p) s) s
            .next ((last.filter fun sh => sh.member.pkt.isNone).foldl (fun s sh => put none [sh] s) s)

/-- A lane takes the value that an answer gives it. -/
def Group.takeOld (x : Group) (d : Nat) (wide : Bool) (lv : Nat × U64) : Group :=
  if wide then x.setVpair d lv.1 lv.2 else x.setVreg d lv.1 (lo32 lv.2)

/-- QPOST: the claim is answered; the rider goes on, and the packet is to be written into its slot, whose translation is read with the claim. A fault
on the slot leaves its valid word unwritten, sets CLERR, and CL falls (R162, R307). -/
def State.claimAnswered (s : State) (tk : Nat) (t : Team) (o : Op) (sreg slot : Nat) (image : List U64) (desc : Nat) (i : U64) : State :=
  let ring := (s.dwordAt (desc + 0x10)).toNat
  let log2n := bitsOf (s.dwordAt (desc + 0x18)).toNat 4 0
  let word := bitsOf (nth image 0 0).toNat 11 0
  let word := i.toNat % 2 ^ 16 * 2 ^ 16 + i.toNat / 2 ^ 16 % 16 * 2 ^ 12 + word
  let image := match image with
    | [] => []
    | a :: l => pair64 (BitVec.ofNat 32 word) (hi32 a) :: l
  let s := ((s.setTeam tk (t.setSreg (BitVec.ofNat 6 sreg) i)).modCore t.core fun c => { c with slots := sparseErase slot c.slots })
  let (sp, s) := s.spots (some t.core) t.root (ring + 64 * (i.toNat % 2 ^ log2n)) 64 .write
  let s := s.modTeam tk fun t =>
    let deps := distinct (o.deps ++ (t.priorIds none 0).filter (· != o.id))
    let body : OpBody := .post image (sp.toOption.getD []) 0
    t.modOp o.id fun o => { o with path := some .cl, kind := .rel, scope := .system, deps := deps, body := body }
  let s := s.unblock tk o.id
  match sp with
  | .ok _ => s
  | .error _ => s.modTeam tk fun t => ({ t with mstat := t.mstat ||| BitVec.ofNat 32 (2 ^ 10) }).complete o.id

/-- In a replay, the log holds an ATOMIC_LOST of this issuer at this address (R345, R378). -/
def State.lossLogged (s : State) (t : Team) (o : Op) (lane va : Nat) : Bool :=
  match s.gating t.launch with
  | none => false
  | some r => (r.rest t.core).any fun x => evType x.1 == 0x09 && evBody x.1 == [BitVec.ofNat 64 va, BitVec.ofNat 64 (causeCode .atomicLost)]
      && ofAgent x.1 x.2 t.launch t.teamId (t.opCtx o lane).who

/-- The same, of an INTEGRITY (R360). -/
def State.badLogged (s : State) (t : Team) (o : Op) (lane va : Nat) : Bool :=
  match s.gating t.launch with
  | none => false
  | some r => (r.rest t.core).any fun x => evType x.1 == 0x09 && evBody x.1 == [BitVec.ofNat 64 (va / 128 * 128), BitVec.ofNat 64 (causeCode .integrity)]
      && ofAgent x.1 x.2 t.launch t.teamId (t.opCtx o lane).who

/-- The values of a slot's lanes: of an integer ADD run each lane's prefix is added to the value before the run (R337, R342). -/
def RetSlot.laneVals (sl : RetSlot) (vals : List U64) : List U64 :=
  if sl.prefixes.isEmpty then vals else sl.prefixes.map fun p => nth vals 0 0 + p

/-- The destination of an atomic takes the values of one slot's lanes. -/
def Team.takeVals (t : Team) (o : Op) (sreg vreg pf : Option Nat) (wide : Bool) (expected : List (Nat × U64)) (lv : List (Nat × U64)) : Team :=
  match o.group, sreg, vreg with
  | none, some d, _ => t.setSreg (BitVec.ofNat 6 d) (nth (lv.map (·.2)) 0 0)
  | some g, _, some d => t.modGroup g fun x =>
      let x := lv.foldl (fun x y => x.takeOld d wide y) x
      match pf with
      | some p => lv.foldl (fun x y => x.setPreg p y.1 (match expected.find? fun e => e.1 == y.1 with
          | some e => y.2 != e.2
          | none => false)) x
      | none => x
  | _, _, _ => t

/-- The lowest of the lanes that failed. -/
def lowestLate : List (Nat × Nat) → Option (Nat × Nat)
  | [] => none
  | x :: l => some (l.foldl (fun b y => if y.1 < b.1 then y else b) x)

/-- An answer reaches a return slot: the lanes take their values, and with the last slot the operation completes (R337). An answer
to a freed slot, or under another SEQ, is discarded. `lost`: the answer is GONE, which each run reports for itself (R345); a failed check value is
reported once, for the lowest lane (R44, R360). None while a replay holds what it raises. -/
def State.slotAnswer (s : State) (core slot seq : Nat) (vals : List U64) (v : Nat) (lost bad : Bool) : Option State :=
  match sparseFind slot (s.core core).slots with
  | none => some s
  | some sl =>
      if sl.seq ≠ seq then some s else
        match s.teamBySerial sl.team with
        | none => some s
        | some (tk, t) =>
            match t.op? sl.op with
            | none => some s
            | some o =>
                match o.body with
                | .claim sreg _ image desc => some (s.claimAnswered tk t o sreg slot image desc (nth vals 0 0))
                | .atom sreg vreg pf wide slots expected places =>
                    let lane := nth sl.lanes 0 0
                    let red := sreg.isNone && vreg.isNone
                    let gone := !red && (lost || s.lossLogged t o lane sl.va)
                    let bad := !red && !gone && (match s.gating t.launch with
                      | none => bad
                      | some _ => s.badLogged t o lane sl.va)
                    let vals := if gone || bad then sl.lanes.map fun _ => 0 else sl.laneVals vals
                    let rest := slots.filter (· != slot)
                    let lates := o.lates ++ (if bad then [(lane, sl.va / 128 * 128)] else [])
                    let t := (t.joinV o.group v).joinFenced o.id v
                    let t := t.joinSeen o.group (s.readV (keyOf sl.peer sl.pa))
                    let t := t.modOp o.id fun o => { o with routed := true, lates := lates, body := .atom sreg vreg pf wide rest expected places }
                    let t := t.takeVals o sreg vreg pf wide expected (sl.lanes.zip vals)
                    let t := if !rest.isEmpty then t else
                      let t := match o.group, vreg with
                        | some g, some d => t.modGroup g fun x => x.markFull d (if wide then 2 else 1)
                        | _, _ => t
                      t.complete o.id
                    let s' := (s.setTeam tk t).modCore core fun c => { c with slots := sparseErase slot c.slots }
                    let s' := if rest.isEmpty then s'.acquired t o.kind o.scope else s'
                    let s' := if gone then s'.raiseLate tk o .atomicLost lane sl.va else some s'
                    if !rest.isEmpty then s' else
                      match lowestLate lates with
                      | some x => s'.bind fun s' => s'.raiseLate tk o .integrity x.1 x.2
                      | none => s'
                | _ => some s

/-- The lease clock has passed a visibility time: what it belongs to may be acknowledged outside this module, where no V can be carried (R159,
R336). -/
def State.settled (s : State) (v : Nat) : Bool := v == 0 || decide (v < s.lease)

/-- The values that an AREP returns, in member order (R342, R350): none for the members of a combined MIN or MAX. DESIGN CHOICE (log entry 11): each
value has the size of the type, and the members of another operation than an integer ADD return a value for each operand. -/
def AtomReply.payload (r : AtomReply) : List Byte :=
  let fold := r.ty != .f32 && (r.op == .min || r.op == .max || r.op == .minu || r.op == .maxu)
  if fold && decide (2 ≤ r.shares.length) then [] else packVals (atomBytes r.ty) (r.shares.flatMap (·.vals))

/-- ATOMIC_REPLY: a reply that no record splits any further reaches its slots, or goes back to the module that asked. DEDUCED (log entry 12): a packet
carries no visibility time, so the reply leaves once the lease clock has passed it. -/
def execAtomicReply (rep : Nat) (s : State) : Out :=
  match sparseFind rep s.net.replies with
  | none => .next s
  | some r =>
      if r.cid.isSome then .next s else
        let taken := { s with net := { s.net with replies := sparseErase rep s.net.replies } }
        match r.shares.head?.bind fun x => x.member.pkt with
        | some p =>
            if !s.settled r.v then .next s
            else .next (taken.sendPacket { packetFor 0x02 p.src p.addr with
              opc := p.opc, ty := p.ty, rn := p.rn, cid := p.cid, members := p.members, payload := r.payload })
        | none =>
            .next ((r.shares.foldl (fun (a : Option State) x => a.bind fun s =>
              s.slotAnswer x.member.core x.member.slot x.member.seq x.vals r.v false x.bad) (some taken)).getD s)

/-! Queries and the journal (R344, R345). -/

/-- The journal's entry of a run. -/
def State.journalFind (s : State) (srcPeer tag : Nat) : Option JournalEntry :=
  s.net.journal.find? fun j => j.share.member.srcPeer == srcPeer && tagOf j.share.member == tag

/-- A request that still holds a run. -/
def State.runLive (s : State) (srcPeer tag : Nat) : Bool :=
  s.net.reqs.any fun x => x.2.stage != .sent && x.2.members.any fun m => m.srcPeer == srcPeer && tagOf m == tag

/-- Cycles a slot waits before it queries: T_reply; four times that for the first query of a request to a peer. -/
def State.queryWait (s : State) (sl : RetSlot) : Nat := 2 ^ s.cp.tReply * (if sl.svc < 0x400 || sl.asked then 1 else 4)

/-- A slot of an atomic whose reply is overdue. -/
def State.queryDue (s : State) (sl : RetSlot) : Bool :=
  sl.svc != 0xFFFF && sl.left && !sl.held && decide (s.clk.cycle ≥ sl.sent + s.queryWait sl)

/-- The tag of a slot's run: its request names the context, which a team or a group gives. -/
def State.slotTag (s : State) (core slot : Nat) (sl : RetSlot) : Nat :=
  let ctx := match s.teamBySerial sl.team with
    | some (_, t) => (match t.op? sl.op with
      | some o => (t.opCtx o (nth sl.lanes 0 0)).ctx
      | none => 127)
    | none => 127
  core * 2 ^ 31 + ctx * 2 ^ 24 + slot * 2 ^ 16 + sl.seq

/-- REPLY_QUERY_TIMEOUT: a slot without a reply asks its owner, and takes the answer (R344). -/
def execReplyQueryTimeout (core slot : Nat) (s : State) : Out :=
  match sparseFind slot (s.core core).slots with
  | none => .next s
  | some sl =>
      if !s.queryDue sl then .next s else
        let again (s : State) : State :=
          s.modCore core fun c => { c with slots := sparsePut slot { sl with sent := s.clk.cycle, asked := true } c.slots }
        let tag := s.slotTag core slot sl
        if sl.svc < 0x400 then
          match s.journalFind 0 tag with
          | some j => .next ((s.slotAnswer core slot sl.seq j.share.vals j.v false j.share.bad).getD (again s))
          | none => if s.runLive 0 tag then .next (again s) else .next ((s.slotAnswer core slot sl.seq [] 0 true false).getD (again s))
        else
          match sl.run with
          | some q => .next ((again s).sendPacket { packetFor 0x03 sl.peer sl.pa with
              opc := opCode q.op, ty := tyCode q.ty, rn := q.rn, members := q.members.map (q.recordFor s.selfPeer), agents := q.members.map Member.agent })
          | none => .next (again s)

/-- JOURNAL_ENTRY_EXPIRE: entries of a service older than 65,536 cycles go. -/
def execJournalEntryExpire (svc : Nat) (s : State) : Out :=
  .next { s with net := { s.net with
    journal := s.net.journal.filter fun j => j.svc != svc || decide (s.clk.cycle < j.time + Config.journalCycles) } }

/-! Packets that arrive (R349, R350, R384, R396, R399). -/

/-- A packet of this module's own is the next that its port delivers to the port it is for: what one port sends to another arrives in order, the
contributions at the switch (R392). -/
def State.outTurn (s : State) (p : Packet) : Bool :=
  let same (q : Packet) : Bool := q.plane == p.plane && q.src == p.src && (q.ptype == 5) == (p.ptype == 5) && (p.ptype == 5 || q.dst == p.dst)
  !s.fab.out.contains p || s.fab.out.find? same == some p

/-- A packet has arrived where it was sent. -/
def State.tookOut (s : State) (p : Packet) : State :=
  { s with fab := { s.fab with out := s.fab.out.filter (· != p), unacked := s.fab.unacked.filter (· != p) } }

/-- Packets that have been answered are not sent again (R394). -/
def State.answered (s : State) (which : Packet → Bool) : State := { s with fab := { s.fab with unacked := s.fab.unacked.filter fun p => !which p } }

/-- The source port whose numbers a PSEQ belongs to, at a port and from a peer. -/
def seqKey (port src : Nat) (resent : Bool) : Nat := 256 * (if resent then port ^^^ 1 else port) + src

/-- A PSEQ is at or below the highest that was performed of its source port (R394). -/
def State.seqOld (s : State) (k seq : Nat) : Bool := match sparseFind k s.fab.pseqIn with
  | some n => decide ((n + 2 ^ 16 - seq) % 2 ^ 16 < 2 ^ 15)
  | none => false

/-- A packet that its header can hold, of an assigned type (R349). -/
def packetOk (p : Packet) : Bool :=
  decide (1 ≤ p.ptype) && decide (p.ptype ≤ 8) && decide (p.ty < 3) && decide (p.opc ≤ 12) && decide (p.members.length ≤ 16) && decide (p.addr < 2 ^ 52)

/-- A malformed packet is discarded, and its port is frozen (R349, R361). -/
def State.badPacket (s : State) (port addr : Nat) : State := s.freeze 2 port (causeCode .integrity) addr

/-- An arriving packet as the port's log sees it: held until its turn in a replay; a wrong PTYPE diverges (R378, R384, R386). -/
inductive PortGate
  | go (s : State)
  | hold

/-- The launch of this module that a packet answers: that of its first run's slot, or of the FRED of its unit. -/
def State.answeredLaunch (s : State) (p : Packet) : Option Nat :=
  if p.ptype = 2 ∨ p.ptype = 4 then
    p.members.head?.bind fun m => (sparseFind (tagSlot m.1) (s.core (tagCore m.1)).slots).bind fun sl => (s.teamBySerial sl.team).map fun x => x.2.launch
  else if p.ptype = 7 ∨ p.ptype = 8 then
    (s.teams.find? fun x => x.2.ops.any fun o => !o.done && match o.body with
      | .fred _ _ ctl _ _ _ _ => bitsOf ctl.toNat 23 8 == p.rid
      | _ => false).map fun x => x.2.launch
  else none

/-- A packet whose issuer's launch is recorded, here or at the module that sent it (R375). -/
def State.recordedPacket (s : State) (p : Packet) : Bool :=
  p.agents.any (·.recorded) || (s.answeredLaunch p).any fun l => decide (1 ≤ s.levelOf l)

/-- A packet that a replay gates (R384, R389). -/
def State.gatedPacket (s : State) (p : Packet) : Bool :=
  s.replaying && (p.agents.any (·.recorded) || (s.answeredLaunch p).any fun l => (s.gating l).isSome)

/-- The FARR event of a packet: recorded where its issuer is, and in a replay met as the next event of its port's stream; only that one is looked at, so
that a PSEQ names one packet although it wraps (R384, R389). -/
def State.portArrive (s : State) (p : Packet) : PortGate :=
  let stream := 0x800 + p.plane
  let body := BitVec.ofNat 64 (p.src % 256 * 2 ^ 56 + p.pseq % 2 ^ 16 * 2 ^ 40 + p.ptype % 256 * 2 ^ 32)
  let hi (w : U64) : Nat := bitsOf w.toNat 63 40
  match s.haeth.replay.filter (·.gating) with
  | some r =>
      if !s.gatedPacket p then .go s else
        match r.expect stream with
        | .event _ _ ev _ =>
            let w := nth (evBody ev) 0 0
            if evType ev ≠ 0x02 ∨ hi w ≠ hi body then .hold
            else if bitsOf w.toNat 63 32 = bitsOf body.toNat 63 32 then .go (s.stepReplay stream)
            else .go (s.diverge stream 3 0x02)
        | _ => .hold
  | none =>
      if s.recorderStalled (recorderOf stream) then .hold
      else .go (if s.recordedPacket p then s.sharedEvent stream 1 0x02 [body] else s)

/-- A packet is taken in at its port: frozen ports and held packets wait, malformed packets freeze the port, and a packet that was
performed before is a duplicate (R361, R394). -/
def takePacket (ptype : Nat) (p : Packet) (s : State) (dup fresh : State → Out) : Out :=
  if s.frozenMaster 2 p.plane || !s.outTurn p then .next s
  else if !packetOk p || p.ptype != ptype then .next ((s.tookOut p).badPacket p.plane p.addr)
  else
    match s.portArrive p with
    | .hold => .next s
    | .go s =>
        let s := s.tookOut p
        let k := seqKey p.plane p.src p.resent
        if s.seqOld k p.pseq then dup s
        else fresh { s with fab := { s.fab with pseqIn := sparsePut k p.pseq s.fab.pseqIn } }

/-- An answer that the forwarding table gives instead of performing an access, as bytes: the new PEER and FRAME (R399). -/
def State.replyForward (s : State) (kind num peer frame : Nat) : State :=
  { s with fab := { s.fab with replies := s.fab.replies ++ [(kind, num, bytesOf (peer * 2 ^ 52 + frame * 65536) 8)] } }

/-- The answer to a query for a run (R344). -/
def State.answerQuery (s : State) (p : Packet) (m : Nat × Nat × Nat × U64) : State :=
  let ans (st : Nat) (vals : List Byte) : Packet :=
    { packetFor 0x04 p.src p.addr with opc := p.opc, ty := p.ty, rn := p.rn, status := st, members := [m], payload := vals }
  match s.journalFind m.2.1 m.1 with
  | some j => s.sendPacket (ans 1 (packVals (atomBytes j.ty) j.share.vals))
  | none => s.sendPacket (ans (if s.runLive m.2.1 m.1 then 2 else 3) [])

/-- Every journal entry that a packet asks for has a visibility time that the lease clock has passed (log entry 12). -/
def State.answersSettled (s : State) (p : Packet) : Bool := p.members.all fun m => match s.journalFind m.2.1 m.1 with
  | some j => s.settled j.v
  | none => true

/-- Operands of a run in an AREQ, with what is left of the payload's values (R350). -/
def areqOperands (op : AtomOp) (ty : AtomType) (rn n : Nat) (operand : U64) (vals : List U64) : List AtomOperand × List U64 :=
  if op = .rsm then
    ((List.range n).map fun i => { lane := i, rsm := ((vals.drop (i * (rn + 2))).take (rn + 2)).map lo32 }, vals.drop (n * (rn + 2)))
  else if ty = .f32 then ((List.range n).map fun i => { lane := i, x := nth vals 0 i }, vals.drop n)
  else if vals.isEmpty then ([{ lane := 0, x := operand }], [])
  else
    let k := if op = .cas then 2 else 1
    let all : List U64 := operand :: vals
    ((List.range n).map fun i => { lane := i, x := nth all 0 (k * i), e := if op = .cas then nth all 0 (2 * i + 1) else 0 }, vals.drop (k * n - 1))

/-- The members of an AREQ, with what the packet brings of their issuers: one that is not recorded is an unrecorded agent (R378, R389). -/
def areqMembers (p : Packet) (op : AtomOp) (ty : AtomType) : List (Nat × Nat × Nat × U64) → List RemoteAgent → List U64 → List Member
  | [], _, _ => []
  | (tag, src, n, v) :: l, as, vs =>
      let (os, vs) := areqOperands op ty p.rn n v vs
      let a := as.head?.getD { recorded := false, launch := 0, team := 0, who := 63, lane := 0, icnt := 0 }
      let os := os.zipIdx.map fun x => if x.2 = 0 then { x.1 with lane := a.lane } else x.1
      { core := tagCore tag, ctx := tagCtx tag, slot := tagSlot tag, seq := tagSeq tag, srcPeer := src,
        red := decide (2 ≤ p.members.length), operands := os, launch := a.launch, team := a.team, who := if a.recorded then a.who else 63,
        icnt := a.icnt, recorded := a.recorded, pkt := some p }
        :: areqMembers p op ty l (as.drop 1) vs

/-- AREQ: a request of another module waits at its port for a credit of its owner here (R334, R335, R349, R394, R396). -/
def execAreq (p : Packet) (s : State) : Out :=
  if !s.answersSettled p then .next s else
  takePacket 0x01 p s
    (fun s => .next (p.members.foldl (fun s m => s.answerQuery p m) s))
    fun s =>
      match decodeAtomOp (BitVec.ofNat 4 p.opc), decodeAtomType (BitVec.ofNat 2 p.ty) with
      | some op, some ty =>
          let n := if op = .rsm then 4 * (p.rn + 2) else atomBytes ty
          (match s.forwardOf p.addr with
           | some (peer, frame) => .next (s.replyForward 2 p.plane peer frame)
           | none =>
               if !s.inWindow 2 p.plane p.addr n 2 then .next (s.freeze 2 p.plane (causeCode .addrPerm) p.addr)
               else
                 let ms := areqMembers p op ty p.members p.agents (unpackVals (atomBytes ty) p.payload)
                 let (id, s) := s.fresh
                 let q : AtomReq := { op := op, ty := ty, peer := 0, pa := p.addr, segs := [(p.addr, n)], rn := p.rn, svc := s.ownerOn (homeDie p.addr) p.addr,
                                      members := ms, stage := .credit }
                 .next { s with net := { s.net with reqs := sparsePut id q s.net.reqs } })
      | _, _ => .next (s.badPacket p.plane p.addr)

/-- Values that an AREP returns for a member. -/
def AtomReq.valuesOf (q : AtomReq) (m : Member) : Nat :=
  if q.sums then 1
  else if q.oneOperand then (if q.members.length = 1 then 1 else 0)
  else m.operands.length * (if q.op = .rsm then q.rn + 2 else 1)

/-- Splits the values of an answer among members. -/
def splitValues (q : AtomReq) : List Member → List U64 → List Share
  | [], _ => []
  | m :: l, vs => { member := m, vals := vs.take (q.valuesOf m) } :: splitValues q l (vs.drop (q.valuesOf m))

/-- The members of a sent request that no query has answered. -/
def AtomReq.waiting (q : AtomReq) : List Member := q.members.filter fun m => !q.answered.contains (tagOf m)

/-- The request sent to a peer that holds a run. -/
def State.sentRun (s : State) (tag : Nat) : Option (Nat × AtomReq) :=
  s.net.reqs.find? fun x => x.2.stage == .sent && x.2.members.any fun m => tagOf m == tag

/-- The operands of a member as the owner stepped them, each with the values that were there before it, where the answer gives them. -/
def stepsOf (q : AtomReq) (m : Member) (vals : List U64) : List (Option (List U64) × AtomOperand) :=
  if q.oneOperand then [(if vals.isEmpty then none else some (vals.take 1), { lane := 0, x := m.folded q })]
  else
    let k := if q.op = .rsm then q.rn + 2 else 1
    (m.operands.zip (List.range m.operands.length)).map fun x =>
      (if vals.length < k * (x.2 + 1) then none else some ((vals.drop (k * x.2)).take k), x.1)

/-- A peer's word, as this module sees it, takes a member's steps: the values that the answer returned, then its operands (R150, R151). -/
def State.peerSteps (s : State) (q : AtomReq) (x : Share) : State :=
  let s := (s.beforeSteps q x.member).getD s
  let die := s.memberDie x.member
  (stepsOf q x.member x.vals).foldl (fun (s : State) y =>
    let s := match y.1 with
      | some vs => s.putSegs die q.segs (packVals (atomBytes q.ty) vs)
      | none => s
    (s.atomStep die q y.2).2) s

/-- AREP: a peer's reply goes back through the records of this module (R342); each member's share lies at its place, whether or not a query has been
answered before (R344). -/
def execArep (p : Packet) (s : State) : Out :=
  takePacket 0x02 p s (fun s => .next s) fun s =>
    let s := s.answered fun q => (q.ptype == 1 || q.ptype == 3) && q.dst == p.src && q.members.any fun m => p.members.any fun n => n.1 == m.1
    match p.members.head?.bind fun m => s.sentRun m.1 with
    | none => .next s
    | some (id, q) =>
        let shares := splitValues q q.members (unpackVals (atomBytes q.ty) p.payload)
        let s := if s.fab.self == some q.peer then s else (shares.filter fun x => q.waiting.contains x.member).foldl (fun s x => s.peerSteps q x) s
        let (rid, s) := s.fresh
        let r : AtomReply := { op := q.op, ty := q.ty, v := 0, shares := shares, cid := s.net.outerCid q.members }
        .next { s with net := { s.net with reqs := sparseErase id s.net.reqs, replies := sparsePut rid r s.net.replies } }

/-- QUERY: a peer asks for the outcome of its run. -/
def execQuery (p : Packet) (s : State) : Out :=
  if !s.answersSettled p then .next s else
  let go (s : State) : Out := .next (p.members.foldl (fun s m => s.answerQuery p m) s)
  takePacket 0x03 p s go go

/-- QANS: the answer FOUND, PENDING or GONE reaches the slot that asked. -/
def execQans (p : Packet) (s : State) : Out :=
  takePacket 0x04 p s (fun s => .next s) fun s =>
    match p.members with
    | [] => .next s
    | (tag, _, _, _) :: _ =>
        let core := tagCore tag
        let slot := tagSlot tag
        let s := s.answered fun q => q.ptype == 3 && q.dst == p.src && q.members.any fun m => m.1 == tag
        match (sparseFind slot (s.core core).slots).filter fun sl => sl.seq == tagSeq tag with
        | none => .next s
        | some sl =>
            if p.status = 2 then
              .next (s.modCore core fun c => { c with slots := sparsePut slot { sl with sent := s.clk.cycle } c.slots })
            else
              let found := p.status == 1
              let vals := unpackVals (((decodeAtomType (BitVec.ofNat 2 p.ty)).map atomBytes).getD 4) p.payload
              let s' := match s.sentRun tag with
                | some (id, q) =>
                    let s := match q.waiting.find? fun m => tagOf m == tag with
                      | some m => if found && s.fab.self != some q.peer then s.peerSteps q { member := m, vals := vals } else s
                      | none => s
                    let q := { q with answered := tag :: q.answered }
                    let s := if q.waiting.isEmpty then s.answered fun x => x.ptype == 1 && x.members.any fun m => m.1 == tag else s
                    { s with net := { s.net with reqs := if q.waiting.isEmpty then sparseErase id s.net.reqs else sparsePut id q s.net.reqs } }
                | none => s
              .next ((s'.slotAnswer core slot (tagSeq tag) vals 0 (!found) false).getD s)

/-! QPOST (R307). -/

/-- Issues the claim of a QPOST; the rider waits for its index. -/
def execQpost (d b c : SReg) (s : State) : Out :=
  scalarMem (.qpost d b c) ([d, b] ++ (List.range 8).map fun i => c + BitVec.ofNat 6 i) .cl s
    (fun t =>
      let (r, s) := s.access t (scalarHandle (t.sreg b)) (bitsOf (t.sreg b).toNat 53 0 : Nat) 8 8 .ra
      (r.map fun ps => ps.map fun p => (p.2.2.key, p.1, p.2.2.migrate), s))
    fun s tk t ps =>
      match ps with
      | [] => stay s
      | (key, va, mig) :: _ =>
          if (s.core t.core).freeSlotList.isEmpty then stay s
          else
            let image := (List.range 8).map fun i => t.sreg (c + BitVec.ofNat 6 i)
            let run : AtomRun := { key := key, va := va, segs := [(key, 8)], operands := [{ lane := 0, x := 1 }], migrate := mig }
            let o := { t.riderOp .cl .cl .strong .system .stall with path := none }
            let (s, id) := s.issueAtomic tk o { op := .add, ty := .i64, rn := 0, red := false } t.riderCtx [run]
              fun slots => .claim d.toNat (nth slots 0 0) image key
            .next (s.modTeam tk fun t => { t with blocked := some id })

/-- Bytes at an offset of a slot's places, as the parts of a store. -/
def slotParts (spots : List (Nat × Nat)) (off n : Nat) (bs : List Byte) : List Part :=
  (List.range (n / 4)).filterMap fun i =>
    let o := off + 4 * i
    let x := spots.foldl (fun (a : Option Nat × Nat) g => if a.1.isSome then a else if o < a.2 + g.2 then (some (g.1 + (o - a.2)), 0) else (none, a.2 + g.2)) (none, 0)
    x.1.map fun k => { lane := 0, place := .mem k, n := 4, data := BitVec.ofNat 128 (ofBytes ((bs.drop (4 * i)).take 4)), mask := 0xFFFFFFFF }

/-- The parts of a store perform in turn: the largest V; none while a replay holds one. -/
def State.writeAll (s : State) (t : Team) (o : Op) : List Part → Nat → Option (State × Nat)
  | [], v => some (s, v)
  | p :: l, v => (s.writePart t o p).bind fun r => r.1.writeAll t o l (max v r.2)

/-- The two stores of a QPOST's packet: its body, then its valid word as a release of system scope (R307). -/
def State.performPost (s : State) (tk : Nat) (t : Team) (o : Op) (image : List U64) (spots : List (Nat × Nat)) (stage : Nat) : State :=
  let bytes := image.flatMap fun w => bytesOf w.toNat 8
  if stage = 0 then
    if !t.depsReady o then s else
      match s.writeAll t o (slotParts spots 4 60 (bytes.drop 4)) 0 with
      | none => s
      | some (s, v) => s.modTeam tk fun t => ((t.joinV none v).joinFenced o.id v).modOp o.id fun o => { o with body := .post image spots 1 }
  else if !t.depsMet o || !s.vmaxPassed t then s
  else
    match s.writeAll t o (slotParts spots 0 4 (bytes.take 4)) 0 with
    | none => s
    | some (s, v) => s.modTeam tk fun t => ((t.joinV none v).joinFenced o.id v).complete o.id

end Sys2Proof.Machine
end

