-- ==== Sys2Proof/Machine/Desc.lean ====
section
/-!
DEFINITION. Machine/Desc.lean: the task descriptor (R66), the live-range table of a compatibility save (R368), and the reading and
writing of system registers (R92, R110, R168, R218, R357, R382, R383, R387, R402).
-/
namespace Sys2Proof.Machine

/-! Task descriptors. -/

/-- A descriptor from its 64 bytes; none where it breaks R66. -/
def descOf (bs : List Byte) : Option TaskDesc :=
  let d (i : Nat) := ofBytes ((bs.drop i).take 8)
  let w0 := ofBytes ((bs.drop 0x18).take 4)
  let w1 := ofBytes ((bs.drop 0x1C).take 4)
  let regs := bitsOf w0 28 24
  let groups := bitsOf w0 21 16
  let nh := bitsOf w0 10 0
  let nbar := bitsOf w1 21 16
  let acc := bitsOf w1 10 8
  let scr := bitsOf w1 7 0
  let reserved := bitsOf w0 31 29 == 0 && bitsOf w0 23 22 == 0 && bitsOf w0 15 11 == 0 && bitsOf w1 31 23 == 0 && bitsOf w1 15 11 == 0 && d 0x38 == 0
  let ranges := decide (1 ≤ regs ∧ regs ≤ 16 ∧ 1 ≤ groups ∧ groups ≤ 32 ∧ nh ≤ 1024 ∧ nbar ≤ 48 ∧ acc ≤ 4 ∧ scr ≤ 224)
  let aligned := d 0 % 4 == 0 && d 8 % 64 == 0 && d 0x10 % 32 == 0 && d 0x30 % 2 ^ 13 == 0
  if reserved && ranges && aligned then
    some { spc := BitVec.ofNat 64 (d 0), lbase := BitVec.ofNat 64 (d 8), htab := BitVec.ofNat 64 (d 0x10), regs := regs, groups := groups,
           nhandle := nh, count := bitsOf w1 22 22 == 1, nbar := nbar, acc := acc, scr := scr, arg := BitVec.ofNat 64 (d 0x20), work := d 0x28,
           spill := BitVec.ofNat 64 (d 0x30) }
  else none

/-- SY.SPILLBASE as SPILL or a write gives it: its reserved bits read as zero (R6, R109). -/
def spillOf (w : U64) : U64 := BitVec.ofNat 64 (bitsOf w.toNat 56 13 * 2 ^ 13)

/-- Reads a descriptor at a virtual address aligned on 64 bytes. -/
def State.readDesc (s : State) (core : Option Nat) (root va : Nat) : Option TaskDesc × State :=
  if va % 64 ≠ 0 then (none, s) else
    let (r, s) := s.readVa core root va 64
    match r with
    | .error _ => (none, s)
    | .ok bs => (descOf bs, s)

/-! The live-range table (R368). -/

/-- One entry: (kind, start, length), checked against the allocation. DESIGN CHOICE (log entry 44): a reserved bit or a length that is not allowed is
BAD_DESC, a range past the allocation BOUNDS. -/
def rangeOf (t : TaskDesc) (w : Nat) : Except EStatus (Nat × Nat × Nat) :=
  let k := bitsOf w 63 62
  let start := bitsOf w 55 28
  let len := bitsOf w 27 0
  if bitsOf w 61 56 ≠ 0 ∨ len = 0 then .error .badDesc
  else
    let lim := match k with
      | 0 => t.regs * 32
      | 1 => 64
      | 2 => t.scr * 4096
      | _ => t.acc * 65536
    if start + len ≤ lim then .ok (k, start, len) else .error .bounds

def rangesOf (t : TaskDesc) : List Nat → Except EStatus (List (Nat × Nat × Nat))
  | [] => .ok []
  | w :: ws => match rangeOf t w with
    | .error e => .error e
    | .ok r => (rangesOf t ws).map (r :: ·)

/-- The table at an address. DESIGN CHOICE (log entry 44): of the codes of R289, which R368 leaves open, an address that is not aligned gives MISALIGN,
a wrong MAGIC, reserved bit or number of ranges BAD_DESC, and a failed read its own code. -/
def State.readRanges (s : State) (t : Team) (va : Nat) : Except EStatus (List (Nat × Nat × Nat)) × State :=
  if va % 64 ≠ 0 then (.error .misalign, s) else
    let (r, s) := s.readVaNum (some t.core) t.root va 8
    match r with
    | .error c => (.error (statusOf c), s)
    | .ok h =>
        let n := bitsOf h 15 0
        if bitsOf h 63 48 ≠ 0x5A37 ∨ bitsOf h 47 16 ≠ 0 ∨ n = 0 ∨ n > 64 then (.error .badDesc, s) else
          let (r, s) := s.readVa (some t.core) t.root (va + 8) (8 * n)
          match r with
          | .error c => (.error (statusOf c), s)
          | .ok bs => (rangesOf t.desc ((List.range n).map fun i => ofBytes ((bs.drop (8 * i)).take 8)), s)

/-! System registers. -/

/-- The group whose trap the handler handles, where that is a lane trap (R110). -/
def Team.trapGroup (t : Team) : Option (Nat × Group) :=
  match t.handling with
  | some x => if x.src = 0 then (t.group? x.group).map fun g => (x.group, g) else none
  | none => none

/-- SY.STKCTL (R110). -/
def Team.stkctl (t : Team) : U64 :=
  match t.trapGroup with
  | some (_, g) => BitVec.ofNat 64 (g.stkErr * 2 ^ 30 + g.spilled * 2 ^ 16)
  | none => 0

/-- SY.TRAPPEND (R357). -/
def Team.trapPend (t : Team) : U64 :=
  let lanes := t.groups.foldl (fun a p =>
    -- behind the trap that is handled the group's others are kept, not pending (R356)
    let pending := !p.2.traps.isEmpty && !t.handling.any fun x => x.src == 0 && x.group == p.1
    if pending then a + 2 ^ p.1 else a) 0
  BitVec.ofNat 64 (lanes + if t.teamTrap.isSome then 2 ^ 32 else 0)

/-- SY.CISCTL (R383). -/
def Haeth.ctl (h : Haeth) : U64 :=
  BitVec.ofNat 64 ((if h.enable then 2 ^ 63 else 0) + h.policy.toNat * 2 ^ 58 + (if h.stopped then 2 ^ 57 else 0) + h.lost * 2 ^ 32 + h.clog2 * 2 ^ 8
    + h.slog2)
/-- SY.BRCTL (R382). -/
def Haeth.brctl (h : Haeth) : U64 := BitVec.ofNat 64 ((if h.replay.isSome then 2 ^ 63 else 0) + h.bound * 2 ^ 48)

/-- Trap frame registers that are assigned: 0x900 to 0x906, 0x908 to 0x913 (R357). -/
def frameReg (n : Nat) : Bool := decide ((0x900 ≤ n ∧ n ≤ 0x906) ∨ (0x908 ≤ n ∧ n ≤ 0x913))

/-- The value of a system register as a rider reads it, apart from the clocks; none for a number that R168 does not assign,
or that is privileged, outside the handler (R218). -/
def State.sysValue (s : State) (t : Team) (n : Nat) : Option U64 :=
  if n < 0x100 then some (sparseGet 0 t.rein n)
  else if n = 0x100 then some ((s.place t.core).setWidth 64)
  else if n = 0x101 then some s.ptpReg
  else if n = 0x102 then some (BitVec.ofNat 64 s.lease)
  else if !t.handler then none
  else if n = 0x800 then some t.spillBase
  else if n = 0x801 then some t.stkctl
  else if n = 0x802 then some (t.spawnTmo.setWidth 64)
  else if n = 0x803 then some ((s.dieCfg (s.dieOf t.core)).setWidth 64)
  else if n = 0x901 then some t.trapPc
  else if n = 0x905 then some t.trapVec
  else if n = 0x906 then some t.trapPend
  else if frameReg n then some (sparseGet 0 t.frame (n - 0x900))
  else if n = 0xA00 then some s.haeth.base
  else if n = 0xA01 then some s.haeth.ctl
  else if n = 0xA02 then some (BitVec.ofNat 64 s.haeth.head)
  else if n = 0xA03 then some (BitVec.ofNat 64 s.haeth.tail)
  else if n = 0xA08 then some s.haeth.brctl
  else if n = 0xA09 then some s.haeth.brbase
  else if n = 0xA0A then some s.haeth.divpos
  else if n = 0xA0B then some s.haeth.divevt
  else if 0xA10 ≤ n ∧ n ≤ 0xA17 then some (sparseGet 0 s.haeth.brk (n - 0xA10))
  else none

/-- SY.CISTAIL takes a value, which the ring is read by modulo its size: what STALL held back is written as far as it fits (R383). -/
def State.writeTail (s : State) (w : U64) : State :=
  let s := { s with haeth := { s.haeth with tail := w.toNat } }
  drainStalled s.haeth.stalled [] s

/-- SY.CISBASE while recording is off: HEAD and TAIL become 0 (R383). -/
def State.writeCisBase (s : State) (w : U64) : State :=
  if s.haeth.enable then s else { s with haeth := { s.haeth with base := w, head := 0, tail := 0 } }

/-- ENABLE is set: CHUNKIDs restart, LOST is cleared and every core's and shared stream opens a chunk (R380, R383). -/
def State.enableHaeth (s : State) : State :=
  let s := { s with haeth := { s.haeth with enable := true, lost := 0, ids := [], seqs := [], chunks := [] } }
  let streams := List.range s.numCores ++ (List.range s.clusterList.length).map (0x400 + ·) ++ (List.range 16).map (0x800 + ·) ++ [0xC00]
  streams.foldl (fun s k => s.openChunk k) s

/-- ENABLE is cleared: every open chunk closes as a flush under the policy in force, and recording stops (R383). -/
def State.disableHaeth (s : State) : State :=
  let s := (s.haeth.chunks.map (·.1)).foldl (fun s k => s.endChunk k 5) s
  { s with haeth := { s.haeth with enable := false } }

/-- SY.CISCTL takes a value (R383): POLICY, CLOG2 and SLOG2 where their values are allowed, STOPPED cleared by a 1, then
ENABLE. -/
def State.writeCisctl (s : State) (w : U64) : State :=
  let h := s.haeth
  let pol := bitsOf w.toNat 59 58
  let cl := bitsOf w.toNat 12 8
  let sl := bitsOf w.toNat 5 0
  let en := w.getLsbD 63
  let slOk := !h.enable && decide (30 ≤ sl ∧ sl ≤ 36)
  let h := { h with policy := if pol = 3 then h.policy else BitVec.ofNat 2 pol
                    stopped := h.stopped && !w.getLsbD 57
                    clog2 := if 12 ≤ cl ∧ cl ≤ 24 then cl else h.clog2
                    slog2 := if slOk then sl else h.slog2
                    head := if !h.enable && slOk && sl ≠ h.slog2 then 0 else h.head
                    tail := if !h.enable && slOk && sl ≠ h.slog2 then 0 else h.tail }
  if h.enable && !en then
    -- the chunks close under the policy in force before the write
    let s := s.disableHaeth
    { s with haeth := { s.haeth with policy := h.policy, stopped := s.haeth.stopped && !w.getLsbD 57, clog2 := h.clog2, slog2 := h.slog2 } }
  else
    let s := { s with haeth := h }
    if en && !h.enable then s.enableHaeth else s

/-- Moves the n oldest frames on chip to the spill area (R110): device-scope stores, each whole or none. -/
def State.spillFrames (s : State) (tk g n : Nat) : State :=
  match s.team? tk with
  | none => s
  | some t =>
      match t.group? g with
      | none => s
      | some x =>
          let err (e : Nat) : State := s.modGroup tk g fun x => { x with stkErr := e }
          if n = 0 then s
          else if n > 16 ∨ x.spilled + n > 256 then err 1
          else if n > x.frames.length then err 3
          else
            let va := t.spillBase.toNat + g * 8192 + 32 * x.spilled
            let bytes := (x.frames.take n).flatMap frameBytes
            let (r, s) := s.writeVa (some t.core) (some (s.dieOf t.core)) t.root va bytes
            match r with
            | .error _ => s.modGroup tk g fun x => { x with stkErr := 2 }
            | .ok v => s.modTeam tk fun t =>
                (t.joinV none v).modGroup g fun x => { x with frames := x.frames.drop n, spilled := x.spilled + n, spilledRpc := x.spilledRpc.take x.spilled ++ (x.frames.take n).map (·.rpc) }

/-- A write of SY.STKCTL: ERR is cleared by ones, then SPILL acts. -/
def State.writeStkctl (s : State) (tk : Nat) (w : U64) : State :=
  match s.team? tk with
  | none => s
  | some t =>
      match t.trapGroup with
      | none => s
      | some (g, _) =>
          let clear := bitsOf w.toNat 31 30
          let s := s.modGroup tk g fun x => { x with stkErr := ((BitVec.ofNat 2 x.stkErr) &&& ~~~(BitVec.ofNat 2 clear)).toNat }
          s.spillFrames tk g (bitsOf w.toNat 4 0)

/-- A write to a system register that has no behaviour of its own (R218): a read-only register or field ignores it. -/
def State.writePlain (s : State) (tk n : Nat) (w : U64) : State :=
  if n < 0x100 then s.modTeam tk fun t => { t with rein := sparseSet 0 n w t.rein }
  else if n = 0x800 then s.modTeam tk fun t => { t with spillBase := spillOf w }
  else if n = 0x802 then s.modTeam tk fun t => { t with spawnTmo := if bitsOf w.toNat 19 0 = 0 then 1 else BitVec.ofNat 20 w.toNat }
  else if n = 0x901 then s.modTeam tk fun t => { t with trapPc := w }
  else if n = 0x905 then s.modTeam tk fun t => { t with trapVec := w }
  else if n = 0xA08 then
    let b := bitsOf w.toNat 55 48
    if 16 ≤ b ∧ b ≤ 40 then { s with haeth := { s.haeth with bound := b } } else s
  else if 0xA10 ≤ n ∧ n ≤ 0xA17 then
    { s with haeth := { s.haeth with brk := sparseSet 0 (n - 0xA10) (w &&& 0x8FFFFFFFFFFFFFFF) s.haeth.brk, fired := s.haeth.fired.filter (· != n - 0xA10) } }
  else s

/-- A write to a system register by a rider that may write it. -/
def State.writeSys (s : State) (tk n : Nat) (w : U64) : State :=
  if n = 0x801 then s.writeStkctl tk w
  else if n = 0xA00 then s.writeCisBase w
  else if n = 0xA01 then s.writeCisctl w
  else if n = 0xA03 then s.writeTail w
  else s.writePlain tk n w

end Sys2Proof.Machine
end

