-- ==== Sys2Proof/Machine/LaneInt.lean ====
section
/-!
DEFINITION. Machine/LaneInt.lean: lane integer, logic, shift and random instructions (R221 to R235).
-/
namespace Sys2Proof.Machine

/-- A result of W in 32 bits (R221). -/
def w32 (v : Int) (unsigned sat : Bool) : U32 × Flags := let (w, f) := writeInt v 32 unsigned sat
                                                         (BitVec.ofNat 32 w, f)

/-- d := W(f(a, b), 32), a and b read with their signedness. -/
def laneInt2 (i : Instr) (o : LaneOps) (s : State) (f : Int → Int → Int) : Out :=
  laneD i o.d s fun e l => w32 (f (e.int l o.sga o.a) (e.int l o.sgb o.b)) (o.sga && o.sgb) o.sat

/-- d := W(f(a), 32), with ds := sa. -/
def laneInt1 (i : Instr) (o : LaneOps) (s : State) (f : Int → Int) : Out :=
  laneD i o.d s fun e l => w32 (f (e.int l o.sga o.a)) o.sga o.sat

/-- d := f(a, b) on bit patterns, no flag. -/
def laneBits2 (i : Instr) (o : LaneOps) (s : State) (f : U32 → U32 → U32) : Out :=
  laneD i o.d s fun e l => (f (e.val l o.a) (e.val l o.b), 0)
def laneBits1 (i : Instr) (o : LaneOps) (s : State) (f : U32 → U32) : Out := laneD i o.d s fun e l => (f (e.val l o.a), 0)
def laneBits3 (i : Instr) (o : LaneOps) (s : State) (f : U32 → U32 → U32 → U32) : Out :=
  laneD i o.d s fun e l => (f (e.val l o.a) (e.val l o.b) (e.val l o.c), 0)

/-! OP 0x10 (R224 to R227). -/

def execIadd (o : LaneOps) (s : State) : Out := laneInt2 (.iadd o) o s fun a b => a + b
def execIsub (o : LaneOps) (s : State) : Out := laneInt2 (.isub o) o s fun a b => a - b
def execImul (o : LaneOps) (s : State) : Out := laneInt2 (.imul o) o s fun a b => a * b

/-- IMULH: bits 63 to 32 of the exact product. -/
def execImulh (o : LaneOps) (s : State) : Out :=
  laneD (.imulh o) o.d s fun e l => (BitVec.ofInt 32 (e.int l o.sga o.a * e.int l o.sgb o.b / 2 ^ 32), 0)

def execImad (o : LaneOps) (s : State) : Out :=
  laneD (.imad o) o.d s fun e l =>
    w32 (e.int l o.sga o.a * e.int l o.sgb o.b + e.int l (o.sga && o.sgb) o.c) (o.sga && o.sgb) o.sat

/-- IMAD.wide: C and D are pairs (R225). -/
def execImadWide (o : LaneOps) (s : State) : Out :=
  lanePair (.imadWide o) o.d s fun e l =>
    let ds := o.sga && o.sgb
    let (w, f) := writeInt (e.int l o.sga o.a * e.int l o.sgb o.b + readInt 64 ds (e.val64 l o.c).toNat) 64 ds o.sat
    (BitVec.ofNat 64 w, f)

/-- IDIV and IREM (R226). -/
def execIdiv (o : LaneOps) (s : State) : Out :=
  laneD (.idiv o) o.d s fun e l =>
    let b := e.int l o.sgb o.b
    (if b = 0 then 0xFFFFFFFF else BitVec.ofInt 32 ((e.int l o.sga o.a).tdiv b), 0)
def execIrem (o : LaneOps) (s : State) : Out :=
  laneD (.irem o) o.d s fun e l =>
    let b := e.int l o.sgb o.b
    (if b = 0 then e.val l o.a else BitVec.ofInt 32 ((e.int l o.sga o.a).tmod b), 0)

def execImin (o : LaneOps) (s : State) : Out :=
  laneD (.imin o) o.d s fun e l => (if e.int l o.sgb o.b < e.int l o.sga o.a then e.val l o.b else e.val l o.a, 0)
def execImax (o : LaneOps) (s : State) : Out :=
  laneD (.imax o) o.d s fun e l => (if e.int l o.sga o.a < e.int l o.sgb o.b then e.val l o.b else e.val l o.a, 0)

def execIabs (o : LaneOps) (s : State) : Out := laneInt1 (.iabs o) o s fun a => a.natAbs
def execIneg (o : LaneOps) (s : State) : Out := laneInt1 (.ineg o) o s fun a => -a

/-- Carry or borrow in of a lane (R227). -/
def LaneEnv.carryIn (e : LaneEnv) (l : Nat) (x : CarryExt) : Nat := if x.cie && e.x.preg x.ci.toNat l then 1 else 0

/-- Writes D and the carry predicate of every ACTIVE lane. -/
def LaneEnv.writeCarry (e : LaneEnv) (d : VReg) (co : BitVec 3) (f : Nat → Int) : Group :=
  e.lanes.foldl (fun x l => (x.setVreg d.toNat l (BitVec.ofInt 32 (f l))).setPreg co.toNat l (decide (f l < 0 ∨ 2 ^ 32 ≤ f l))) e.x

def execIadds (o : LaneOps) (x : CarryExt) (s : State) : Out :=
  laneRun (.iadds o x) s fun e => e.done (e.writeCarry o.d x.co fun l => (e.val l o.a).toNat + (e.val l o.b).toNat + e.carryIn l x)
def execIsubs (o : LaneOps) (x : CarryExt) (s : State) : Out :=
  laneRun (.isubs o x) s fun e =>
    e.done (e.writeCarry o.d x.co fun l => ((e.val l o.a).toNat : Int) - (e.val l o.b).toNat - e.carryIn l x)

/-! OP 0x11 (R228). -/

/-- An exact comparison. -/
def icmpHolds (cc : ICmp) (a b : Int) : Bool :=
  match cc with
  | .eq => a == b
  | .ne => a != b
  | .lt => decide (a < b)
  | .le => decide (a ≤ b)
  | .gt => decide (b < a)
  | .ge => decide (b ≤ a)

/-- Accumulation into a predicate. -/
def accumulate (acc : Acc) (p r : Bool) : Bool :=
  match acc with
  | .set => r
  | .and => p && r
  | .or => p || r
  | .xor => p != r

def execIcmp (o : LaneOps) (cc : ICmp) (acc : Acc) (s : State) : Out :=
  laneP (.icmp o cc acc) o.d s fun e l =>
    (accumulate acc (e.x.preg o.d.toNat l) (icmpHolds cc (e.int l o.sga o.a) (e.int l o.sgb o.b)), 0)

def bitNat (b : Bool) : Nat := if b then 1 else 0

def execPbool (o : LaneOps) (tt : BitVec 8) (s : State) : Out :=
  laneP (.pbool o tt) o.d s fun e l =>
    (tt.getLsbD (bitNat (e.pred l o.a) + 2 * bitNat (e.pred l o.b) + 4 * bitNat (e.pred l o.c)), 0)

def execPick (o : LaneOps) (s : State) : Out :=
  laneD (.pick o) o.d s fun e l => (if e.pred l o.c then e.val l o.a else e.val l o.b, 0)
def execMov (o : LaneOps) (s : State) : Out := laneBits1 (.mov o) o s fun a => a
def execMovD (o : LaneOps) (s : State) : Out := lanePair (.movD o) o.d s fun e l => (e.val64 l o.a, 0)
def execMovi (o : LaneOps) (s : State) : Out := laneD (.movi o) o.d s fun e l => (e.val l o.b, 0)

/-! OP 0x20 (R229). -/

/-- Element i of w bits of a register, read with its signedness. -/
def elemInt (w : Nat) (unsigned : Bool) (x : U32) (i : Nat) : Int := readInt w unsigned (x.toNat / 2 ^ (w * i))

/-- Two sums of halves. -/
def lanePack2 (i : Instr) (o : LaneOps) (s : State) (f : Int → Int → Int) : Out :=
  laneD i o.d s fun e l =>
    let h (k : Nat) := writeInt (f (elemInt 16 o.sga (e.val l o.a) k) (elemInt 16 o.sgb (e.val l o.b) k)) 16 (o.sga && o.sgb) o.sat
    (BitVec.ofNat 32 ((h 0).1 + (h 1).1 * 2 ^ 16), (h 0).2 ||| (h 1).2)

def execPadd2 (o : LaneOps) (s : State) : Out := lanePack2 (.padd2 o) o s fun a b => a + b
def execPsub2 (o : LaneOps) (s : State) : Out := lanePack2 (.psub2 o) o s fun a b => a - b

/-- d := W(c + Σ a_i b_i, 32) with elements of w bits; under FMTSEL the signedness joins FMT's (R177). -/
def laneDot (i : Instr) (o : LaneOps) (w : Nat) (s : State) : Out :=
  laneD i o.d s fun e l =>
    let sa := o.sga || (o.fmtsel && fmtSGA e.fmt)
    let sb := o.sgb || (o.fmtsel && fmtSGB e.fmt)
    let sum := (List.range (32 / w)).foldl (fun (n : Int) k => n + elemInt w sa (e.val l o.a) k * elemInt w sb (e.val l o.b) k)
      (e.int l (sa && sb) o.c)
    w32 sum (sa && sb) o.sat

def execPmac2 (o : LaneOps) (s : State) : Out := laneDot (.pmac2 o) o 16 s
def execDot4 (o : LaneOps) (s : State) : Out := laneDot (.dot4 o) o 8 s
def execDot8 (o : LaneOps) (s : State) : Out := laneDot (.dot8 o) o 4 s

/-! OP 0x30 and 0x31 (R230 to R232). -/

def execLand (o : LaneOps) (s : State) : Out := laneBits2 (.land o) o s fun a b => a &&& b
def execLor (o : LaneOps) (s : State) : Out := laneBits2 (.lor o) o s fun a b => a ||| b
def execLxor (o : LaneOps) (s : State) : Out := laneBits2 (.lxor o) o s fun a b => a ^^^ b
def execLnot (o : LaneOps) (s : State) : Out := laneBits1 (.lnot o) o s fun a => ~~~a
def execBlut (o : LaneOps) (tt : BitVec 8) (s : State) : Out :=
  laneBits3 (.blut o tt) o s fun a b c =>
    maskWhere fun k => tt.getLsbD (bitNat (a.getLsbD k) + 2 * bitNat (b.getLsbD k) + 4 * bitNat (c.getLsbD k))

/-- Shifts by an unsigned 32-bit amount. -/
def shlBy (a b : U32) : U32 := if b.toNat < 32 then a <<< b.toNat else 0
def shrBy (a b : U32) : U32 := if b.toNat < 32 then a >>> b.toNat else 0
def sraBy (a b : U32) : U32 := a.sshiftRight (min b.toNat 31)
def shfdBy (a b c : U32) : U32 := if b.toNat < 64 then ((c ++ a : U64) >>> b.toNat).setWidth 32 else 0

def execShl (o : LaneOps) (s : State) : Out := laneBits2 (.shl o) o s shlBy
def execShr (o : LaneOps) (s : State) : Out := laneBits2 (.shr o) o s shrBy
def execSra (o : LaneOps) (s : State) : Out := laneBits2 (.sra o) o s sraBy
def execRotl (o : LaneOps) (s : State) : Out := laneBits2 (.rotl o) o s fun a b => a.rotateLeft (b.toNat % 32)
def execShfd (o : LaneOps) (s : State) : Out := laneBits3 (.shfd o) o s shfdBy
def execPopc (o : LaneOps) (s : State) : Out := laneBits1 (.popc o) o s fun a => BitVec.ofNat 32 (popCount a.toNat 32)
def execClz (o : LaneOps) (s : State) : Out := laneBits1 (.clz o) o s fun a => BitVec.ofNat 32 (leadingZeros 32 a.toNat)
def execCtz (o : LaneOps) (s : State) : Out :=
  laneBits1 (.ctz o) o s fun a => BitVec.ofNat 32 (((List.range 32).find? fun k => a.getLsbD k).getD 32)
def execBrev (o : LaneOps) (s : State) : Out := laneBits1 (.brev o) o s fun a => maskWhere fun k => a.getLsbD (31 - k)

/-- BFE: bits pos to pos + len − 1; above bit 31 stand zeros, or the sign (R231). -/
def bfe (unsigned : Bool) (a b : U32) : U32 :=
  let pos := b.toNat % 256
  let len := b.toNat / 256 % 256
  let at_ (j : Nat) : Bool := if j < 32 then a.getLsbD j else !unsigned && a.getLsbD 31
  if len = 0 then 0 else maskWhere fun k => if k < len then at_ (pos + k) else !unsigned && at_ (pos + len - 1)
/-- BFI: bits of c replaced by the low bits of a (R231). -/
def bfi (a b c : U32) : U32 :=
  let pos := b.toNat % 256
  let len := b.toNat / 256 % 256
  maskWhere fun k => if pos ≤ k ∧ k < pos + len then a.getLsbD (k - pos) else c.getLsbD k

def execBfe (o : LaneOps) (s : State) : Out := laneBits2 (.bfe o) o s (bfe o.sga)
def execBfi (o : LaneOps) (s : State) : Out := laneBits3 (.bfi o) o s bfi

/-- Bits of a RSHR result (R232). -/
def rshrBits : RshrSize → Nat
  | .w => 32 | .h => 16 | .b => 8

/-- RSHR: beyond 40 places the quotient rounds as at 40. -/
def execRshr (o : LaneOps) (sz : RshrSize) (s : State) : Out :=
  laneD (.rshr o sz) o.d s fun e l =>
    let a := e.int l o.sga o.a
    let n := rshrBits sz
    let q := (roundInt (.mode o.rm) (decide (a < 0)) a.natAbs (2 ^ min (e.val l o.b).toNat 40)).1
    let (t, f) := writeInt q n o.sga o.sat
    (BitVec.ofInt 32 (readInt n o.sga t), f)

/-! OP 0xD0 (R233 to R235). -/

/-- Writes the first words of a draw to consecutive registers of each ACTIVE lane. -/
def LaneEnv.writeWords (e : LaneEnv) (d : VReg) (n : Nat) (f : Nat → List U32) : Group :=
  e.lanes.foldl (fun x l => (List.range n).foldl (fun x k => x.setVreg (d.toNat + k) l (nth (f l) 0 k)) x) e.x

def execRand (o : LaneOps) (n : RandCount) (rounds : BitVec 4) (s : State) : Out :=
  laneRun (.rand o n rounds) s fun e => e.doneIn e.s (e.drawn 1) (e.writeWords o.d (randRegs n) fun l => e.draw rounds.toNat l 0)

def execRandCtr (o : LaneOps) (n : RandCount) (rounds : BitVec 4) (s : State) : Out :=
  laneRun (.randCtr o n rounds) s fun e =>
    e.done (e.writeWords o.d (randRegs n) fun l =>
      philox rounds.toNat ((e.val l o.a).toNat, (e.val l o.b).toNat, (e.val l o.c).toNat, 0) e.seed)

end Sys2Proof.Machine
end

