-- ==== Sys2Proof/Machine/LaneFloat.lean ====
section
/-!
DEFINITION. Machine/LaneFloat.lean: lane floating point in FP32, FP16, BF16 and FP64, and the correctly rounded functions
(R246 to R257).
-/
namespace Sys2Proof.Machine

/-- A pattern and flags as a lane result. -/
def out32 (r : Nat × Flags) : U32 × Flags := (BitVec.ofNat 32 r.1, r.2)
def out64 (r : Nat × Flags) : U64 × Flags := (BitVec.ofNat 64 r.1, r.2)

/-- R250 in FP32. -/
def laneF32 (i : Instr) (o : LaneOps) (x : FExpr) (s : State) : Out :=
  laneD i o.d s fun e l => out32 (floatOp .f32 x (e.rm o) o.sat e.ftz (e.fl l .f32 o.a) (e.fl l .f32 o.b) (e.fl l .f32 o.c))

def execFadd (o : LaneOps) (s : State) : Out := laneF32 (.fadd o) o .add s
def execFsub (o : LaneOps) (s : State) : Out := laneF32 (.fsub o) o .sub s
def execFmul (o : LaneOps) (s : State) : Out := laneF32 (.fmul o) o .mul s
def execFfma (o : LaneOps) (s : State) : Out := laneF32 (.ffma o) o .fma s
def execFmin (o : LaneOps) (s : State) : Out :=
  laneD (.fmin o) o.d s fun e l => out32 (floatMinMax .f32 false e.ftz (e.fl l .f32 o.a) (e.fl l .f32 o.b))
def execFmax (o : LaneOps) (s : State) : Out :=
  laneD (.fmax o) o.d s fun e l => out32 (floatMinMax .f32 true e.ftz (e.fl l .f32 o.a) (e.fl l .f32 o.b))

/-- A floating comparison into a predicate (R252). -/
def laneFcmp (i : Instr) (o : LaneOps) (f : Fmt) (cc : FCmp) (acc : Acc) (s : State) : Out :=
  laneP i o.d s fun e l =>
    let (r, fl) := floatCmp f e.ftz cc (e.fl l f o.a) (e.fl l f o.b)
    (accumulate acc (e.x.preg o.d.toNat l) r, fl)

def execFcmp (o : LaneOps) (cc : FCmp) (acc : Acc) (s : State) : Out := laneFcmp (.fcmp o cc acc) o .f32 cc acc s

/-- FCLASS reads the pattern and ignores FTZ (R253). -/
def execFclass (o : LaneOps) (set : BitVec 10) (s : State) : Out :=
  laneP (.fclass o set) o.d s fun e l => (set.getLsbD (floatClass (e.fl l .f32 o.a)), 0)

def execFrnd (o : LaneOps) (s : State) : Out :=
  laneD (.frnd o) o.d s fun e l => out32 (floatRound (e.rm o) e.ftz (e.fl l .f32 o.a))

/-! OP 0x41: long-latency producers (R248, R255). -/

/-- Issues a long-latency producer: its registers become empty until the operation lands. With no ACTIVE lane it does
nothing. -/
def LaneEnv.produce (e : LaneEnv) (d : VReg) (n : Nat) (body : OpBody) (path : Option Path := none) : Out :=
  if e.act = 0 then e.skip else
    let s := e.s.setTeam e.tk (e.t.setGroup e.g (e.x.markEmpty d.toNat n))
    let (s, _) := s.issueOp e.tk { id := 0, path := path, cls := none, group := some e.g, lanes := e.act, split := e.sp, lpc := e.split.lpc.toNat, body := body }
    .next (s.retireLane e.tk e.g e.sp (e.split.lpc + 1) e.act)

/-- A special function of every ACTIVE lane: results and flags land later. -/
def laneSfu (i : Instr) (o : LaneOps) (f : SFun) (s : State) : Out :=
  laneRun i s fun e =>
    let rs := e.lanes.map fun l => (l, sfun f (e.rm o) o.sat e.ftz (e.fl l .f32 o.a) (e.fl l .f32 o.b))
    e.produce o.d 1 (.land (rs.map fun r => (o.d.toNat, r.1, BitVec.ofNat 32 r.2.1)) (joinFlags (rs.map fun r => r.2.2)))

def execFrcp (o : LaneOps) (s : State) : Out := laneSfu (.frcp o) o .rcp s
def execFrsq (o : LaneOps) (s : State) : Out := laneSfu (.frsq o) o .rsq s
def execFsqrt (o : LaneOps) (s : State) : Out := laneSfu (.fsqrt o) o .sqrt s
def execFdiv (o : LaneOps) (s : State) : Out := laneSfu (.fdiv o) o .div s
def execFexp2 (o : LaneOps) (s : State) : Out := laneSfu (.fexp2 o) o .exp2 s
def execFlog2 (o : LaneOps) (s : State) : Out := laneSfu (.flog2 o) o .log2 s
def execFsin (o : LaneOps) (s : State) : Out := laneSfu (.fsin o) o .sin s
def execFcos (o : LaneOps) (s : State) : Out := laneSfu (.fcos o) o .cos s

/-! OP 0x50: packed FP16 and BF16 (R256). -/

/-- The same computation on both halves of a register. -/
def laneHalves (i : Instr) (o : LaneOps) (bf : Bool) (s : State) (g : LaneEnv → Fmt → Nat → Nat → Nat → Nat × Flags) : Out :=
  laneD i o.d s fun e l =>
    let f := (packedFmt e.fmt o bf).getD .f16
    let h (k : Nat) := g e f (e.packed l f o.a / 2 ^ (16 * k) % 2 ^ 16) (e.packed l f o.b / 2 ^ (16 * k) % 2 ^ 16) (e.packed l f o.c / 2 ^ (16 * k) % 2 ^ 16)
    (BitVec.ofNat 32 ((h 0).1 + (h 1).1 * 2 ^ 16), (h 0).2 ||| (h 1).2)

def execHadd2 (o : LaneOps) (bf : Bool) (s : State) : Out :=
  laneHalves (.hadd2 o bf) o bf s fun e f a b c => floatOp f .add (e.rm o) o.sat false a b c
def execHsub2 (o : LaneOps) (bf : Bool) (s : State) : Out :=
  laneHalves (.hsub2 o bf) o bf s fun e f a b c => floatOp f .sub (e.rm o) o.sat false a b c
def execHmul2 (o : LaneOps) (bf : Bool) (s : State) : Out :=
  laneHalves (.hmul2 o bf) o bf s fun e f a b c => floatOp f .mul (e.rm o) o.sat false a b c
def execHfma2 (o : LaneOps) (bf : Bool) (s : State) : Out :=
  laneHalves (.hfma2 o bf) o bf s fun e f a b c => floatOp f .fma (e.rm o) o.sat false a b c
def execHmin2 (o : LaneOps) (bf : Bool) (s : State) : Out :=
  laneHalves (.hmin2 o bf) o bf s fun _ f a b _ => floatMinMax f false false a b
def execHmax2 (o : LaneOps) (bf : Bool) (s : State) : Out :=
  laneHalves (.hmax2 o bf) o bf s fun _ f a b _ => floatMinMax f true false a b

/-! OP 0x51: FP64 (R257). -/

def laneF64 (i : Instr) (o : LaneOps) (x : FExpr) (s : State) : Out :=
  lanePair i o.d s fun e l => out64 (floatOp .f64 x (e.rm o) o.sat false (e.fl l .f64 o.a) (e.fl l .f64 o.b) (e.fl l .f64 o.c))

def execDadd (o : LaneOps) (s : State) : Out := laneF64 (.dadd o) o .add s
def execDmul (o : LaneOps) (s : State) : Out := laneF64 (.dmul o) o .mul s
def execDfma (o : LaneOps) (s : State) : Out := laneF64 (.dfma o) o .fma s
def execDcmp (o : LaneOps) (cc : FCmp) (acc : Acc) (s : State) : Out := laneFcmp (.dcmp o cc acc) o .f64 cc acc s

end Sys2Proof.Machine
end

