-- ==== Sys2Proof/Machine/LaneConv.lean ====
section
/-!
DEFINITION. Machine/LaneConv.lean: conversions between formats, block scales, RSMERGE and the reading and clearing of FLG
(R258 to R265).
-/
namespace Sys2Proof.Machine

/-! CVT (R258, R259). -/

/-- One element as an exact value. -/
def elemVal (f : Fmt) (unsigned : Bool) (w : Nat) : FVal :=
  if fmtIsInt f then intVal (readInt (fmtWidth f) unsigned w) else decodeFloat f (w % 2 ^ fmtWidth f)

/-- One conversion: the pattern in DF and its flags. -/
def cvtElem (sf df : Fmt) (su du : Bool) (r : Rnd) (sat ftz : Bool) (w : Nat) : Nat × Flags :=
  let flush := sf == .f32 && (df == .f64 || fmtIsInt df)
  let w := if flush then flushIn ftz (w % 2 ^ 32) else w
  if fmtIsInt sf && fmtIsInt df then writeInt (readInt (fmtWidth sf) su w) (fmtWidth df) du sat
  else
    let x := elemVal sf su w
    if fmtIsInt df then roundToInt (fmtWidth df) du r x else roundTo df r sat ftz x

def execCvt (o : LaneOps) (x : CvtExt) (s : State) : Out :=
  laneRun (.cvt o x) s fun e =>
    match resolveCvt e.fmt o x with
    | none => e.skip
    | some (o', x') =>
        let res (l : Nat) : Nat × Flags :=
          let a := e.packed l x'.sf o'.a
          let w := if fmtWidth x'.sf < 32 then a / 2 ^ (fmtSlot x'.sf * x'.sel.toNat) else a
          let r : Rnd := if x'.srx then .sr (e.srWord l 0) else .mode o'.rm
          cvtElem x'.sf x'.df o'.sga x'.du r o'.sat e.ftz w
        let grp :=
          if fmtWidth x'.df = 64 then e.writePair o.d fun l => out64 (res l)
          else if fmtWidth x'.df = 32 then e.writeD o.d fun l => out32 (res l)
          else e.writeD o.d fun l =>
            let (v, f) := res l
            let sl := fmtSlot x'.df
            let at_ := sl * x'.dsel.toNat
            let old := (e.x.vreg o.d.toNat l).toNat
            (BitVec.ofNat 32 (old - old / 2 ^ at_ % 2 ^ sl * 2 ^ at_ + v * 2 ^ at_), f)
        e.doneIn e.s (if x'.srx then e.drawn 1 else e.t) grp

/-! PACKN (R260, R261). -/

/-- Magnitude of a finite value as a fraction. -/
def magOf : FVal → Nat × Nat
  | .fin _ n d => (n, d)
  | _ => (0, 1)
def fracLt (a b : Nat × Nat) : Bool := decide (a.1 * b.2 < b.1 * a.2)
/-- The largest of some magnitudes. -/
def maxMag (xs : List (Nat × Nat)) : Nat × Nat := xs.foldl (fun m x => if fracLt m x then x else m) (0, 1)

def isFinite : FVal → Bool
  | .fin .. => true
  | _ => false

/-- x / s for a scale of value n / d. -/
def overScale (x : FVal) (sc : FVal) : FVal :=
  match x, sc with
  | .fin neg n d, .fin _ a b => .fin neg (n * b) (d * a)
  | v, _ => v

/-- SAT of a value to ± hi, below −lo where the sign is negative (R49 step 4). -/
def clampVal (lo hi : Nat × Nat) (x : FVal) : FVal × Flags :=
  match x with
  | .fin neg n d =>
      let lim := if neg then lo else hi
      if fracLt lim (n, d) then (.fin neg lim.1 lim.2, flSAT) else (x, 0)
  | v => (v, 0)

/-- The candidate of an aligned group of four, and the runner-up's magnitude (R50). -/
def i4xCandidate (xs : List FVal) : Nat × (Nat × Nat) :=
  let m (i : Nat) := magOf (nth xs (intVal 0) i)
  let c := [1, 2, 3].foldl (fun b i => if fracLt (m b) (m i) then i else b) 0
  (c, maxMag (([0, 1, 2, 3].filter (· != c)).map m))

/-- An element rounded to −7..7 (R50 step 4). -/
def i4xRound (r : Rnd) (y : FVal) : Nat × Flags :=
  match y with
  | .fin neg n d =>
      let (v, inexact) := roundInt r neg n d
      let c := if v < -7 then -7 else if 7 < v then 7 else v
      (wrapTo 4 c, flagIf inexact flNX ||| flagIf (c != v) flSAT)
  | _ => (0, flNV)

/-- Codes of a group of four finite inputs divided by the scale (R50); `rnd j` rounds element j. DESIGN CHOICE (log entry 19): an outlier whose E4M3
byte has a nibble 0b1000 is written as it rounds, though decoding then finds that marker in the dropped pair (R46). -/
def i4xPack (xs : List FVal) (sc : FVal) (rnd : Nat → Rnd) : List Nat × Flags :=
  let y (j : Nat) := overScale (nth xs (intVal 0) j) sc
  let c := (i4xCandidate xs).1
  let big := match y c with
    | .fin neg n d => decide (7 < (roundInt (rnd c) neg n d).1.natAbs)
    | _ => false
  let nb := 1 - c / 2
  if big then
    let (byte, f) := roundTo .e4m3 (rnd c) false false (y c)
    let j := c ^^^ 1
    let (w, g) := i4xRound (rnd j) (y j)
    let dropped := !(nth xs (intVal 0) (2 * nb)).isZero || !(nth xs (intVal 0) (2 * nb + 1)).isZero
    ((List.range 4).map fun i => if i = c then 8 else if i = j then w else if i = 2 * nb then byte % 16 else byte / 16,
     f ||| g ||| flagIf dropped flNX)
  else
    let rs := (List.range 4).map fun i => i4xRound (rnd i) (y i)
    (rs.map (·.1), joinFlags (rs.map (·.2)))

/-- The scale of a block, from its inputs by groups of four for I4X (R49, R50). -/
def blockScale (df : Fmt) (mx : Bool) (xs : List FVal) : Nat :=
  let amax := if df = .i4x then
      maxMag ((List.range (xs.length / 4)).map fun g => (i4xCandidate ((xs.drop (4 * g)).take 4)).2)
    else maxMag (xs.map magOf)
  let fm := fmax df
  (chooseScale mx (amax.1 * fm.2) (amax.2 * fm.1)).1

/-- One lane of a PACKN: codes of its m inputs. -/
def packLane (df : Fmt) (bsm : Bsm) (du : Bool) (sat : Bool) (sc : FVal) (xs : List FVal) (rnd : Nat → Rnd) : List Nat × Flags :=
  if df = .i4x then
    let gs := (List.range (xs.length / 4)).map fun g =>
      let q := (xs.drop (4 * g)).take 4
      if q.all isFinite then i4xPack q sc fun j => rnd (4 * g + j) else ([0, 0, 0, 0], flNV)
    (gs.flatMap (·.1), joinFlags (gs.map (·.2)))
  else
    let rs := (List.range xs.length).map fun i =>
      let x := nth xs (intVal 0) i
      if bsm = .none then
        (if fmtIsInt df then roundToInt (fmtWidth df) du (rnd i) x else roundTo df (rnd i) sat false x)
      else if df = .i8 then
        let (y, f) := clampVal (128, 64) (127, 64) (overScale x sc)
        let (w, g) := roundToInt 8 false (rnd i) (overScale y (.fin false 1 64))
        (w, f ||| g)
      else
        let (y, f) := clampVal (fmax df) (fmax df) (overScale x sc)
        let (w, g) := roundTo df (rnd i) sat false y
        (w, f ||| g)
    (rs.map (·.1), joinFlags (rs.map (·.2)))

/-- Codes in the slots of a register. -/
def inSlots (slot : Nat) (cs : List Nat) : Nat := (List.range cs.length).foldl (fun a i => a + nth cs 0 i * 2 ^ (slot * i)) 0

def execPackn (o : LaneOps) (x : PackExt) (s : State) : Out :=
  laneRun (.packn o x) s fun e =>
    match resolvePack e.fmt o x with
    | none => e.skip
    | some (o', x') =>
        let m := (packCount x'.df).getD 1
        let k := 32 / m
        let ins (l : Nat) : List FVal := (List.range m).map fun i => match o.a with
          | .reg n => decodeFloat .f32 (e.x.vreg (n.toNat + i) l).toNat
          | _ => intVal 0
        let rnd (l j : Nat) : Rnd := if x'.srx then .sr (e.srWord l j) else .mode o'.rm
        let mx := x'.bsm == .mx
        -- per lane: codes, scale code, flags
        let res (l : Nat) : Nat × Nat × Flags :=
          if x'.bsm = .none then
            let (cs, f) := packLane x'.df .none x'.du o'.sat (.fin false 1 1) (ins l) (rnd l)
            (inSlots (fmtSlot x'.df) cs, 0, f)
          else
            let block := e.lanes.filter fun i => i / k == l / k
            let all := block.flatMap ins
            if !all.all isFinite then (0, scaleNan mx, flNV)
            else
              let code := blockScale x'.df mx all
              let (cs, f) := packLane x'.df x'.bsm x'.du o'.sat ((scaleVal mx code).getD (.fin false 1 1)) (ins l) (rnd l)
              (inSlots (fmtSlot x'.df) cs, code, f)
        let grp := e.lanes.foldl (fun g l =>
          let (w, code, f) := res l
          let g := (g.setVreg o.d.toNat l (BitVec.ofNat 32 w)).raise f
          if x'.bsm = .none then g else g.setVreg x'.sd.toNat l (BitVec.ofNat 32 code)) e.x
        e.doneIn e.s (if x'.srx then e.drawn ((m + 3) / 4) else e.t) grp

/-! UNPACKN (R262). -/

/-- The exact elements of a register, and whether CHK is raised. -/
def unpackElems (sf : Fmt) (unsigned : Bool) (w : Nat) : List FVal × Bool :=
  if sf = .i4x then
    let (a, p) := i4xGroup (w % 256) (w / 2 ^ 8 % 256)
    let (b, q) := i4xGroup (w / 2 ^ 16 % 256) (w / 2 ^ 24 % 256)
    (a ++ b, p || q)
  else ((List.range ((packCount sf).getD 1)).map fun i => elemVal sf unsigned (w / 2 ^ (fmtSlot sf * i)), false)

/-- One element scaled and rounded to FP32. -/
def unpackOne (bsm : Bsm) (mxint : Bool) (sc : Option FVal) (r : RMode) (sat ftz : Bool) (y : FVal) : Nat × Flags :=
  let y := if mxint then overScale y (.fin false 64 1) else y
  if bsm = .none then roundTo .f32 (.mode r) sat ftz y
  else
    match sc with
    | none => (canonNan .f32, flagIf y.isSnan flNV)
    | some v => arith .f32 r sat ftz [y] false (y.mul v)

def execUnpackn (o : LaneOps) (x : UnpackExt) (s : State) : Out :=
  laneRun (.unpackn o x) s fun e =>
    match resolveUnpack e.fmt o x with
    | none => e.skip
    | some (o', x') =>
        let m := (packCount x'.sf).getD 1
        let mx := x'.bsm == .mx
        let grp := e.lanes.foldl (fun g l =>
          let (ys, chk) := unpackElems x'.sf o'.sga (e.packed l x'.sf o'.a)
          let sc := scaleVal mx (e.val l o'.b).toNat
          (List.range m).foldl (fun g i =>
            let (w, f) := unpackOne x'.bsm (mx && x'.sf == .i8) sc o'.rm o'.sat e.ftz (nth ys (intVal 0) i)
            (g.setVreg (o.d.toNat + i) l (BitVec.ofNat 32 w)).raise f) (g.raise (flagIf chk flCHK))) e.x
        e.done grp

/-! QSCALE (R263). -/

def execQscalePick (o : LaneOps) (bsm : Bsm) (f : Fmt) (s : State) : Out :=
  laneD (.qscalePick o bsm f) o.d s fun e l =>
    let mx := bsm == .mx
    match operandVal .f32 e.ftz (e.fl l .f32 o.a) with
    | .fin _ n d => let fm := fmax f
                    (BitVec.ofNat 32 (chooseScale mx (n * fm.2) (d * fm.1)).1, 0)
    | _ => (BitVec.ofNat 32 (scaleNan mx), flNV)

def execQscaleVal (o : LaneOps) (bsm : Bsm) (s : State) : Out :=
  laneD (.qscaleVal o bsm) o.d s fun e l =>
    match scaleVal (bsm == .mx) (e.val l o.a).toNat with
    | none => (BitVec.ofNat 32 (canonNan .f32), 0)
    | some v => out32 (roundTo .f32 (.mode .rne) false e.ftz v)

def execQscaleRcp (o : LaneOps) (bsm : Bsm) (s : State) : Out :=
  laneD (.qscaleRcp o bsm) o.d s fun e l =>
    match scaleVal (bsm == .mx) (e.val l o.a).toNat with
    | some (.fin _ n d) => out32 (roundTo .f32 (.mode o.rm) false e.ftz (.fin false d n))
    | _ => (BitVec.ofNat 32 (canonNan .f32), 0)

/-! RSMERGE (R264): a long-latency producer over n + 2 registers. -/

/-- A triple in consecutive registers of a lane. -/
def LaneEnv.triple (e : LaneEnv) (src : Src) (n l : Nat) : List U32 :=
  match src with
  | .reg r => (List.range (n + 2)).map fun i => e.x.vreg (r.toNat + i) l
  | _ => []

def execRsmerge (o : LaneOps) (n : BitVec 7) (s : State) : Out :=
  laneRun (.rsmerge o n) s fun e =>
    let rs := e.lanes.map fun l => (l, rsmMerge (e.triple o.a n.toNat l) (e.triple o.b n.toNat l))
    let writes := rs.flatMap fun r => (List.range (n.toNat + 2)).map fun i => (o.d.toNat + i, r.1, nth r.2.1 0 i)
    e.produce o.d (n.toNat + 2) (.land writes (joinFlags (rs.map fun r => r.2.2)))

/-! CLRFLG and RDFLG (R265). -/

/-- A producer whose flags have not landed was issued earlier by the split, or by lanes that are now in it. -/
def LaneEnv.flagsDue (e : LaneEnv) : Bool :=
  e.t.ops.any fun o => o.group == some e.g && !o.done && (o.split == e.sp || o.lanes &&& e.split.mask != 0) && match o.body with
    | .land .. | .qmma .. => true
    | _ => false

def execClrflg (o : LaneOps) (m : BitVec 7) (s : State) : Out :=
  laneRun (.clrflg o m) s fun e =>
    if e.act = 0 then e.skip else if e.flagsDue then stay s else e.done (e.x.clearFlags e.sp m)

def execRdflg (o : LaneOps) (s : State) : Out :=
  laneRun (.rdflg o) s fun e => if e.act ≠ 0 && e.flagsDue then stay s else e.done (e.writeD o.d fun _ => (e.x.flg.setWidth 32, 0))

end Sys2Proof.Machine
end

