-- ==== Sys2Proof/Machine/RiderSys.lean ====
section
/-!
DEFINITION. Machine/RiderSys.lean: the rider's system words: reins, waits, barriers, fences, regions, exit, clocks, system registers
and traps (R204 to R219, R311 to R314), TRAPL, and the events of the system registers.
-/
namespace Sys2Proof.Machine

/-! Feeding the groups (R91 to R96, R204 to R206). -/

/-- Rein-fed groups of a mask that have not ended. -/
def Team.reinGroups (t : Team) (m : U32) : List (Nat × Group) :=
  t.groups.filter fun p => laneIn m p.1 && decide (p.1 < t.desc.groups) && !p.2.spawned && !p.2.ended

/-- Operations of the rider that perform before a block of a later LDISP runs (R93). -/
def Team.ldispIds (t : Team) : List Nat :=
  let own := t.ops.filter fun o => !o.done && o.group == none && match o.body with
    | .store _ | .atom .. => true
    | _ => false
  distinct (own.map (·.id) ++ t.riderFence.filter t.opLive)

def execLdisp (a b c : SReg) (s : State) : Out :=
  scalarRun (.ldisp a b c) [a, b, c] s fun tk t =>
    let gs := t.reinGroups (lo32 (t.sreg a))
    if gs.any fun p => decide (16 ≤ p.2.rein.length) then stay s
    else
      let e : ReinEntry := { fmt := t.reinFmt, lpc := (t.sreg b).setWidth 24, fbase := (t.sreg c).setWidth 8, deps := t.ldispIds,
                             wrote := some s.clk.cycle }
      let t := gs.foldl (fun t p => t.modGroup p.1 fun x => { x with rein := x.rein ++ [e] }) t
      .next ((s.setTeam tk t).retireRider tk)

/-- Stores of some groups that are still to perform: they come before what an LWAITG's rider does next (R96, R155). -/
def Team.blockStores (t : Team) (m : U32) : List Nat :=
  -- a group's number, or 32 + that of a group that has ended
  (t.ops.filter fun o => !o.done && (match o.group with | some g => laneIn m (g % 32) | none => false) && (match accClass o with
    | some a => a.store
    | none => false)).map (·.id)

def execLwaitg (a : SReg) (s : State) : Out :=
  scalarRun (.lwaitg a) [a] s fun tk t =>
    let m := lo32 (t.sreg a)
    let named := t.groups.filter fun p => laneIn m p.1 && decide (p.1 < t.desc.groups) && !p.2.ended
    if named.all fun p => p.2.idle && p.2.rein.isEmpty && !p.2.halted then
      .next ((s.setTeam tk (t.holdBehind none 0 (t.blockStores m))).retireRider tk)
    else stay s

def execSetfmt (a : SReg) (s : State) : Out :=
  scalarRun (.setfmt a) [a] s fun tk t => .next ((s.setTeam tk { t with reinFmt := lo32 (t.sreg a) &&& 0xFFFFF }).retireRider tk)

/-! Waits, barriers and fences (R207 to R212). -/

def execSwaitp (p : Path) (b : SReg) (s : State) : Out :=
  scalarRun (.swaitp p b) [b] s fun tk t => if t.pathCount p ≤ (t.sreg b).toNat then .next ((s.setTeam tk (t.pathWaited p)).retireRider tk) else stay s

/-- A scalar barrier word: a number the team does not own takes ADDR_BOUNDS. -/
def scalarBar (i : Instr) (regs : List SReg) (bar : SReg) (s : State) (f : Nat → Team → Nat → Barrier → Out) : Out :=
  scalarRun i regs s fun tk t =>
    let n := (t.sreg bar).toNat
    if n ≥ t.desc.nbar then .next (s.riderFault tk .addrBounds) else f tk t n (t.bar n)

def execSbari (a b : SReg) (s : State) : Out :=
  scalarBar (.sbari a b) [a, b] a s fun tk t n x =>
    .next ((s.setTeam tk (t.setBar n (x.init s.clk.cycle ((t.sreg b).setWidth 16)))).retireRider tk)

def execSbara (a b : SReg) (s : State) : Out :=
  scalarBar (.sbara a b) [a, b] b s fun tk t n x =>
    let (_, ok, s') := s.coreEvent t.core 0x03 t.riderCtx (barrBody x n)
    if !ok then .next s' else
      let t := (t.setBar n (x.arrive s.clk.cycle 1 (t.priorIds none 0))).setSreg a (if x.phase then 1 else 0)
      .next ((s'.setTeam tk t).retireRider tk)

def execSbarw (a b : SReg) (s : State) : Out :=
  scalarBar (.sbarw a b) [a, b] a s fun tk t n _ =>
    let (isOver, t) := t.barWait none n ((t.sreg b).getLsbD 0)
    if isOver then .next ((s.setTeam tk (t.holdBehind none 0 (t.bar n).doneIds)).retireRider tk) else .next (s.setTeam tk t)

def execSbarx (a b : SReg) (s : State) : Out :=
  scalarBar (.sbarx a b) [a, b] a s fun tk t n x =>
    .next ((s.setTeam tk (t.setBar n (x.expect s.clk.cycle (lo32 (t.sreg b)).toNat))).retireRider tk)

/-- A store of the team to its handle table is in flight. -/
def State.tableStore (s : State) (t : Team) : Bool :=
  match (s.spots none t.root t.desc.htab.toNat (32 * t.desc.nhandle) .read).1 with
  | .ok ks => t.ops.any fun o => !o.done && match o.body with
      | .store ps => ps.any fun p => !p.done && ks.any fun k => placesMeet p.place p.n (.mem k.1) k.2
      | _ => false
  | .error _ => false

/-- SFENCE (R154, R210): after SFENCE.team no entry of the handle table as it was before is used (R126), so it waits until the team's stores to the
table have performed. -/
def execSfence (sc : Scope) (s : State) : Out :=
  scalarRun (.sfence sc) [] s fun tk t =>
    let mine := t.ops.filter fun o => !o.done && o.group == none && (accClass o).isSome
    if wideScope sc && (storesLive mine || !s.fenceReady t (t.riderOp .ld .ls .plain .split .stall)) then stay s
    else if sc = .team && s.tableStore t then stay s
    else
      let s := if sc = .team then s.captureHandles t else s
      .next ((s.setTeam tk (t.holdScoped none 0 0 sc (mine.map (·.id)))).retireRider tk)

def execScfence (x y : PClass) (s : State) : Out :=
  scalarRun (.scfence x y) [] s fun tk t => .next ((s.setTeam tk (t.classFence x y none)).retireRider tk)

/-- YIELD: not ready for the next 16 cycles of the front-end. -/
def execYield (s : State) : Out :=
  scalarRun .yield [] s fun tk t => .next ((s.setTeam tk { t with yieldUntil := s.clk.cycle + 17 }).retireRider tk)

def execYieldExpire (tk : Nat) (s : State) : Out :=
  match s.team? tk with
  | none => stay s
  | some t => if t.yieldUntil ≠ 0 ∧ t.yieldUntil ≤ s.clk.cycle then .next (s.setTeam tk { t with yieldUntil := 0 }) else stay s

/-! Regions, checkpoints and exit (R213 to R215). -/

/-- Child grids of a team that have not completed. -/
def State.liveChildren (s : State) (t : Team) : List Nat :=
  (s.cp.launches.filter fun l => match l.2.parent with
    | some (p, _) => p == t.serial
    | none => false).map (·.1)

/-- What IDEM and IDEME wait for. -/
def State.regionQuiet (s : State) (t : Team) : Bool :=
  t.groups.all (fun p => !p.2.spawned && p.2.idle && p.2.rein.isEmpty && !p.2.halted) && (s.liveChildren t).isEmpty
    && [Path.ld, .st, .at, .cp, .mx, .ga].all fun p => t.pathCount p == 0

def execIdem (s : State) : Out :=
  scalarRun .idem [] s fun tk t =>
    if !s.regionQuiet t then stay s
    else
      let r : IdemRec := { pc := t.pc + 4, s := t.s, q := t.q, draws := t.draws, sdraw := t.sdraw, r := t.laneRetired }
      .next ((s.setTeam tk { t with idem := some r }).retireRider tk)

def execIdeme (s : State) : Out :=
  scalarRun .ideme [] s fun tk t =>
    if t.idem.isNone then .next (s.retireRider tk)
    else if !s.regionQuiet t then stay s
    else .next ((s.setTeam tk { t with idem := none }).retireRider tk)

/-- CHKPT: the team becomes compatible; a compatibility save that is pending takes place here, over the ranges of the table,
or in full where the table fails (R214, R368); the team gives up its waits (R366). In the handler none takes place (R369). -/
def execChkpt (a : SReg) (s : State) : Out :=
  scalarRun (.chkpt a) [a] s fun tk t =>
    let t := { t with chkptSeen := true }
    match t.pre with
    | some p =>
        if p.compat && p.stopped.isNone && !t.handler then
          let (r, s) := s.readRanges t (t.sreg a).toNat
          let p := match r with
            | .ok rs => { p with ranges := some rs, stopped := some s.clk.cycle }
            | .error e => { p with fallback := some e, stopped := some s.clk.cycle }
          .next (((s.setTeam tk { t with pre := some p }).retireRider tk).stopTeam tk)
        else .next ((s.setTeam tk t).retireRider tk)
    | none => .next ((s.setTeam tk t).retireRider tk)

/-- EXIT ends the rider's stream (R82, R83, R215); in the handler it acts as TRET.killt (R359). -/
def execExit (a : SReg) (s : State) : Out :=
  scalarRun (.exit a) [a] s fun tk t =>
    if t.handler then .next ((s.issued t.core t.riderCtx 0).trapReturn tk .killt)
    else
      let (succ, s) :=
        if t.sreg a = 0 then (none, s) else
          let (d, s) := s.readDesc (some t.core) t.root (t.sreg a).toNat
          let ok := d.filter fun d => d.scr == t.desc.scr && d.acc == t.desc.acc && d.nbar == t.desc.nbar
          (some ok, s)
      let s := s.retireRider tk
      let s := s.closeCore t.core 4
      .next (s.modTeam tk fun t => ({ t with exited := true, st := .draining, succ := succ }).settle)

/-! Clocks, random words and system registers (R216 to R218). -/

/-- A clock crossing: logged, and in a replay the logged value takes its place (R216, R378). -/
def scalarClock (i : Instr) (d : SReg) (regs : List SReg) (src : Nat) (s : State) (f : Team → U64) : Out :=
  scalarRun i (d :: regs) s fun tk t =>
    let v := f t
    let (b, ok, s') := s.coreEvent t.core 0x08 t.riderCtx [BitVec.ofNat 64 src, v]
    if !ok then .next s' else
      let v := match b with
        | some ws => nth ws v 1
        | none => v
      .next ((s'.setTeam tk (t.setSreg d v)).retireRider tk)

def execStime (d : SReg) (s : State) : Out := scalarClock (.stime d) d [] 0 s fun _ => BitVec.ofNat 64 s.clk.cycle

/-- SRAND: one draw with lane identifier 0xFFFF_FFFF and the rider's own count (R217). -/
def execSrand (d : SReg) (s : State) : Out :=
  scalarRun (.srand d) [d] s fun tk t =>
    let seed := match s.launch? t.launch with
      | some l => l.seed
      | none => 0
    let ws := philox 10 (t.sdraw.toNat, 0xFFFFFFFF, t.teamId % 2 ^ 32, t.launch % 2 ^ 32) seed
    let t := { t.setSreg d (pair64 (nth ws 0 0) (nth ws 0 1)) with sdraw := t.sdraw + 1 }
    .next ((s.setTeam tk t).retireRider tk)

def execSyrd (d : SReg) (num : BitVec 12) (s : State) : Out :=
  let clock (src : Nat) : Out := scalarClock (.syrd d num) d [] src s fun t => (s.sysValue t num.toNat).getD 0
  if num = 0x101 then clock 1
  else if num = 0x102 then clock 2
  else
    scalarRun (.syrd d num) [d] s fun tk t =>
      match s.sysValue t num.toNat with
      | none => .next (s.riderFault tk .illegal)
      | some v => .next ((s.setTeam tk (t.setSreg d v)).retireRider tk)

def execSywr (num : BitVec 12) (a : SReg) (s : State) : Out :=
  scalarRun (.sywr num a) [a] s fun tk t =>
    match s.sysValue t num.toNat with
    | none => .next (s.riderFault tk .illegal)
    | some _ => .next ((s.writeSys tk num.toNat (t.sreg a)).retireRider tk)

/-! The writes of system registers as events of their own. -/

def execSysregWrite (tk : Nat) (num : BitVec 12) (w : U64) (s : State) : Out :=
  match s.team? tk with
  | none => stay s
  | some t =>
      match s.sysValue t num.toNat with
      | none => stay s
      | some _ => .next (s.writePlain tk num.toNat w)

def execStkctlSpill (tk : Nat) (n : BitVec 5) (s : State) : Out :=
  match s.team? tk with
  | none => stay s
  | some t =>
      match t.trapGroup with
      | none => stay s
      | some (g, _) => .next (s.spillFrames tk g n.toNat)

def execCisctlEnable (w : U64) (s : State) : Out := if w.getLsbD 63 && !s.haeth.enable then .next (s.writeCisctl w) else stay s
def execCisctlDisable (w : U64) (s : State) : Out := if !w.getLsbD 63 && s.haeth.enable then .next (s.writeCisctl w) else stay s
def execCisbaseWrite (w : U64) (s : State) : Out := .next (s.writeCisBase w)
def execCistailWrite (w : U64) (s : State) : Out := .next (s.writeTail w)

/-! Traps by request, and returning from the handler (R219, R312 to R314). -/

/-- A trap of the rider at its own word with a code. -/
def execStrap (a : SReg) (s : State) : Out :=
  scalarRun (.strap a) [a] s fun tk t => .next (s.riderFault tk .brk ((lo32 (t.sreg a)).setWidth 64))

def execBrkpt (s : State) : Out := scalarRun .brkpt [] s fun tk _ => .next (s.riderFault tk .brk)

/-- TRET: illegal outside a handler. -/
def tret (i : Instr) (act : TretAct) (s : State) : Out :=
  scalarRun i [] s fun tk t => if t.handler then .next ((s.issued t.core t.riderCtx 0).trapReturn tk act) else .next (s.riderFault tk .illegal)

def execTretRetry (s : State) : Out := tret .tretRetry .retry s
def execTretSkip (s : State) : Out := tret .tretSkip .skip s
def execTretKillg (s : State) : Out := tret .tretKillg .killg s
def execTretKillt (s : State) : Out := tret .tretKillt .killt s

def execSnop (s : State) : Out := scalarRun .snop [] s fun tk _ => .next (s.retireRider tk)

/-- HALTD: illegal outside a handler; otherwise a halt with a reason (R314, R370). -/
def execHaltd (a : SReg) (s : State) : Out :=
  scalarRun (.haltd a) [a] s fun tk t =>
    if !t.handler then .next (s.riderFault tk .illegal)
    else .next ((s.retireRider tk).beginHalt 0x11 (lo32 (t.sreg a)))

/-- RECMARK: a marker in the log; in a replay its value is checked against that of the MARK (R311, R386). -/
def execRecmark (a : SReg) (s : State) : Out :=
  scalarRun (.recmark a) [a] s fun tk t =>
    let v := t.sreg a
    match s.gateCore t.core 0x0E t.riderCtx with
    | .go ws => .next ((if nth ws v 0 = v then s.stepReplay t.core else s.diverge t.core 3 0x0E).retireRider tk)
    | _ =>
        let (_, ok, s') := s.coreEvent t.core 0x0E t.riderCtx [v]
        if ok then .next (s'.retireRider tk) else .next s'

/-- TRAPL: BREAK of the lowest ACTIVE lane with the code it names. -/
def execTrapl (o : LaneOps) (s : State) : Out :=
  laneRun (.trapl o) s fun e => if e.act = 0 then e.skip else e.trap .brk e.low ((e.val e.low o.b).setWidth 64)

end Sys2Proof.Machine
end

