-- ==== Sys2Proof/Machine/Matrix.lean ====
section
/-!
DEFINITION. Machine/Matrix.lean: the matrix engine: TMMA, TMMAG, TACC, TEPI and QMMA, their validation and their arithmetic (R53 to R55,
R297 to R306, R323, R325, R331, R332), and power leave (R315, R316, R333).
-/
namespace Sys2Proof.Machine

/-! Canonical blocked layout and swizzle. -/

/-- Row length in bytes, rounded up to 64 (R323). -/
def rowBytes (k w : Nat) : Nat := (k * w / 8 + 63) / 64 * 64

/-- Offset of byte b of row r of slice n of a CB region (R323). -/
def cbOffset (rows rb n r b : Nat) : Nat := n * rows * rb + (r / 16 * (rb / 64) + b / 64) * 1024 + r % 16 * 64 + b % 64

/-- The swizzle of an absolute scratchpad offset (R325). -/
def swizzle (swz swsel o : Nat) : Nat := if swz = 0 then o else o ^^^ (o / 2 ^ (swsel + 7) % 8 * 2 ^ (swz + 3))

/-- Swizzle fields that R320 allows. -/
def swizzleOk (swz swsel : Nat) : Bool := swz == 0 || decide (swz - 1 ≤ swsel)

/-! Elements and blocks. -/

/-- Code of element i of some bytes, w bits each, packed by R35. -/
def packedCode (w : Nat) (bytes i : Nat) : Nat := bytes / 2 ^ (w * i) % 2 ^ w

/-- The exact elements of some codes, and whether CHK is raised (R45, R46, R48). DESIGN CHOICE (log entry 35): a bit that says unsigned is ignored
for MXINT8, whose elements are signed. -/
def matElems (f : Fmt) (bsm : Bsm) (unsigned : Bool) (cs : List Nat) : List FVal × Bool :=
  if f = .i4x then
    let gs := (List.range (cs.length / 4)).map fun g =>
      let c (i : Nat) := nth cs 0 (4 * g + i)
      i4xGroup (c 0 + 16 * c 1) (c 2 + 16 * c 3)
    (gs.flatMap (·.1), gs.any (·.2))
  else if f = .i8 && bsm == .mx then
    (cs.map fun c => let v := signedOf 8 c
                     dyadic (decide (v < 0)) v.natAbs (-6), false)
  else if fmtIsInt f then (cs.map fun c => intVal (readInt (fmtWidth f) unsigned c), false)
  else (cs.map (decodeFloat f), false)

/-- The canonical NaN as a value. -/
def nanVal : FVal := decodeFloat .f32 0x7FC00000

/-- The exact sum of products of a block; none where it is invalid. -/
def blockSum : List (FVal × FVal) → Option FVal → Option FVal
  | [], acc => acc
  | (a, b) :: l, acc =>
      match acc, a.mul b with
      | some x, some p => blockSum l (x.add false p)
      | _, _ => none

/-- One k-block of R53 on an accumulator word. -/
def blockStep (as bs : List FVal) (sa sb : Option FVal) (acc : U32) : U32 × Flags :=
  let invalid : U32 × Flags :=
    let (w, f) := arith .f32 .rne false false [decodeFloat .f32 acc.toNat, nanVal] false none
    (BitVec.ofNat 32 w, f ||| flNV)
  match sa, sb with
  | some x, some y =>
      if as.any FVal.isNan || bs.any FVal.isNan then invalid
      else
        let ps := as.zip bs
        let p := match ps with
          | [] => some (intVal 0)
          | (a, b) :: l => (a.mul b).bind fun v => blockSum l (some v)
        match p.bind fun p => (p.mul x).bind fun q => q.mul y with
        | none => invalid
        | some q =>
            let a := decodeFloat .f32 acc.toNat
            let (w, f) := arith .f32 .rne false false [a, q] false (a.add false q)
            (BitVec.ofNat 32 w, f)
  | _, _ => invalid

/-- One k-block of R54: an integer product. -/
def blockInt (as bs : List Int) (acc : U32) : U32 := acc + BitVec.ofInt 32 (((as.zip bs).map fun p => p.1 * p.2).sum)

/-- An operand row: codes of its elements and its scale codes by block. -/
structure MatRow where
  codes : List Nat
  scales : List Nat

/-- The scale of a block: 1 when unscaled (R47, R298). -/
def MatFmt.scale (m : MatFmt) (code : Nat) : Option FVal :=
  match m.bsm with
  | .none => some (intVal 1)
  | .zb => scaleVal false (code % 2 ^ 10)
  | .mx => scaleVal true (code % 2 ^ 8)

/-- Both formats are I4 or I8, unscaled: the product is an integer one (R54). -/
def intPair (a b : MatFmt) : Bool := (a.fmt == .i4 || a.fmt == .i8) && (b.fmt == .i4 || b.fmt == .i8) && a.bsm == .none && b.bsm == .none

/-- The k-blocks of one output element in ascending order. -/
def dotBlocks (fa fb : MatFmt) (a b : MatRow) (acc : U32) (k : Nat) : U32 × Flags :=
  (List.range (k / 32)).foldl (fun (st : U32 × Flags) q =>
    let ca := (a.codes.drop (32 * q)).take 32
    let cb := (b.codes.drop (32 * q)).take 32
    if intPair fa fb then
      (blockInt (ca.map (readInt (fmtWidth fa.fmt) fa.unsigned)) (cb.map (readInt (fmtWidth fb.fmt) fb.unsigned)) st.1, st.2)
    else
      let (ea, ka) := matElems fa.fmt fa.bsm fa.unsigned ca
      let (eb, kb) := matElems fb.fmt fb.bsm fb.unsigned cb
      let (w, f) := blockStep ea eb (fa.scale (nth a.scales 0 q)) (fb.scale (nth b.scales 0 q)) st.1
      (w, st.2 ||| f ||| flagIf (ka || kb) flCHK)) (acc, 0)

/-! TMMA and TMMAG: operand registers and validation (R298, R301). -/

/-- Formats a matrix operand accepts. -/
def matFmtOk (f : Fmt) : Bool := match f with
  | .f16 | .bf16 | .e4m3 | .e5m2 | .e2m3 | .e3m2 | .e2m1 | .i8 | .i4 | .i4x => true
  | _ => false

/-- An operand register whose fields are well formed. -/
structure MatOpd where
  f : MatFmt
  swsel : Nat
  swz : Nat
  soff : Nat
  doff : Nat

def matOpd (r : U64) : Option MatOpd :=
  let x := r.toNat
  match decodeFmt (BitVec.ofNat 4 (bitsOf x 48 45)), decodeBsm (BitVec.ofNat 2 (bitsOf x 50 49)) with
  | some f, some b =>
      if bitsOf x 63 52 = 0 ∧ matFmtOk f ∧ bsmOk b f ∧ swizzleOk (bitsOf x 41 40) (bitsOf x 44 42) ∧ (b ≠ .none ∨ bitsOf x 39 20 = 0) then
        some { f := { fmt := f, bsm := b, unsigned := bitsOf x 51 51 == 1 }, swsel := bitsOf x 44 42, swz := bitsOf x 41 40,
               soff := bitsOf x 39 20, doff := bitsOf x 19 0 }
      else none
  | _, _ => none

/-- A TMMA or TMMAG whose registers pass order 1. -/
structure MatMul where
  a : MatOpd
  b : MatOpd
  idx : Nat
  k : Nat
  zero : Bool
  tile : Nat

def matMul (a b c : U64) (gather : Bool) : Option MatMul :=
  let x := c.toNat
  let k := bitsOf x 15 6
  match matOpd a, matOpd b with
  | some p, some q =>
      if bitsOf x 63 36 = 0 ∧ bitsOf x 4 2 = 0 ∧ (gather ∨ bitsOf x 35 16 = 0) ∧ 32 ≤ k ∧ k ≤ 512 ∧ k % 32 = 0 then
        some { a := p, b := q, idx := bitsOf x 35 16, k := k, zero := bitsOf x 5 5 == 1, tile := bitsOf x 1 0 }
      else none
  | _, _ => none

/-- End of the bytes of some rows of a CB operand: row r is the last of those read. -/
def rowEnd (o : MatOpd) (k r : Nat) : Nat :=
  let rb := rowBytes k (fmtWidth o.f.fmt)
  o.doff + cbOffset 128 rb 0 r (rb - 1) + 1
/-- End of the scales of row r. -/
def scaleEnd (o : MatOpd) (k r : Nat) : Nat := if o.f.bsm = .none then 0 else o.soff + (r * (k / 32) + k / 32) * 2

/-- Orders 2 to 4 of R301, the gathered rows apart. -/
def MatMul.check (m : MatMul) (t : Team) (gather : Bool) : Option EStatus :=
  let misaligned (o : MatOpd) : Bool := o.doff % 1024 != 0 || (o.f.bsm != .none && o.soff % 128 != 0)
  let past (n : Nat) : Bool := decide (n > t.scrBytes)
  if m.tile ≥ t.desc.acc then some .bounds
  else if misaligned m.a || misaligned m.b || (gather && m.idx % 256 != 0) then some .misalign
  else if (!gather && (past (rowEnd m.a m.k 127) || past (scaleEnd m.a m.k 127))) || past (rowEnd m.b m.k 127) || past (scaleEnd m.b m.k 127)
      || (gather && past (m.idx + 256)) then some .bounds
  else none

/-- A gathered row lies inside the scratchpad. -/
def MatMul.rowsOk (m : MatMul) (t : Team) (idx : List (Option Nat)) : Bool :=
  idx.all fun x => match x with
    | none => true
    | some r => decide (rowEnd m.a m.k r ≤ t.scrBytes ∧ scaleEnd m.a m.k r ≤ t.scrBytes)

/-- Offsets of the elements of a row. -/
def MatOpd.rowOffsets (o : MatOpd) (k r : Nat) : List Nat :=
  let w := fmtWidth o.f.fmt
  (List.range (k * w / 8)).map fun b => swizzle o.swz o.swsel (o.doff + cbOffset 128 (rowBytes k w) 0 r b)

/-- Bytes of a row's scales, and where they begin. -/
def MatOpd.scaleBytes (o : MatOpd) (k : Nat) : Nat := if o.f.bsm = .none then 0 else k / 32 * 2
def MatOpd.scaleAt (o : MatOpd) (k r : Nat) : Nat := o.soff + r * (k / 32) * 2

/-- Scale codes from their 16-bit slots. -/
def scaleCodes (bs : List Byte) : List Nat := (List.range (bs.length / 2)).map fun i => ofBytes ((bs.drop (2 * i)).take 2)

/-- A row of an operand as a class reads it for operation `op`: its bytes, 16 at a time, and its scale codes. A swizzle moves whole
parts of 16 bytes (R325, R331). -/
def MatOpd.readRow (o : MatOpd) (s : State) (t : Team) (op : Op) (cls : PClass) (k r : Nat) : List Byte × List Nat :=
  let w := fmtWidth o.f.fmt
  let n := k * w / 8
  let bs := (List.range ((n + 15) / 16)).flatMap fun i =>
    s.scrPart t op cls (swizzle o.swz o.swsel (o.doff + cbOffset 128 (rowBytes k w) 0 r (16 * i))) (min 16 (n - 16 * i))
  (bs, scaleCodes (s.scrBytesFor t op cls (o.scaleAt k r) (o.scaleBytes k)))

/-- The rows of an operand; a row not named is of zeros with scale 1: codes 127 × 4 in SC10 and 127 in E8M0 (R300). -/
def readRows (o : MatOpd) (s : State) (t : Team) (op : Op) (cls : PClass) (k : Nat) (rs : List (Option Nat)) : List (List Byte × List Nat) :=
  let one := if o.f.bsm = .mx then 127 else 127 * 4
  rs.map fun r => match r with
    | some r => o.readRow s t op cls k r
    | none => (List.replicate (k * fmtWidth o.f.fmt / 8) 0, List.replicate (k / 32) one)

/-- A row as codes. -/
def MatOpd.row (o : MatOpd) (k : Nat) (x : List Byte × List Nat) : MatRow :=
  let n := ofBytes x.1
  { codes := (List.range k).map (packedCode (fmtWidth o.f.fmt) n), scales := x.2 }

/-- Every line of some offsets is full. -/
def Team.offsetsFull (t : Team) (os : List Nat) : Bool := os.all fun o => !t.emptyLines.contains (o / 128)

/-- Lines of every row of an operand are full. -/
def MatOpd.rowsFull (o : MatOpd) (t : Team) (k : Nat) (rs : List (Option Nat)) : Bool :=
  rs.all fun r => match r with
    | none => true
    | some r => t.offsetsFull (o.rowOffsets k r) && t.linesFull (o.scaleAt k r) (o.scaleBytes k)

def allRows : List (Option Nat) := (List.range 128).map some

/-- The tile's product (R299): words and flags. -/
def mulTile (m : MatMul) (t : Team) (o : Op) (as bs : List (List Byte × List Nat)) (s : State) : State × Flags :=
  let ra := as.map (m.a.row m.k)
  let rb := bs.map (m.b.row m.k)
  (List.range 128).foldl (fun st i => (List.range 128).foldl (fun (st : State × Flags) j =>
    let w := m.tile * 16384 + 128 * i + j
    let old := if m.zero then 0 else st.1.accFor t o w
    let (x, f) := dotBlocks m.a.f m.b.f (nth ra ⟨[], []⟩ i) (nth rb ⟨[], []⟩ j) old m.k
    (st.1.accLeave t w x, st.2 ||| f)) st) (s, 0)

/-! TACC (R302) and TEPI (R303). -/

/-- One word of a TACC. -/
def taccWord (m : MatCmd) (w x : U32) : U32 × Flags :=
  match m with
  | .taccScale b => let (r, f) := mul32 w.toNat (bitsOf b.toNat 63 32)
                    (BitVec.ofNat 32 r, f)
  | .taccAdd _ => let (r, f) := add32 w.toNat x.toNat
                  (BitVec.ofNat 32 r, f)
  | .taccIadd _ => (w + x, 0)
  | .taccMove _ => (x, 0)
  | _ => (0, 0)

/-- Destination and source tiles of a TACC; whether the source is used. -/
def taccTiles : MatCmd → Option (Nat × Nat × Bool)
  | .taccZero b | .taccScale b => some (bitsOf b.toNat 1 0, bitsOf b.toNat 3 2, false)
  | .taccAdd b | .taccIadd b | .taccMove b => some (bitsOf b.toNat 1 0, bitsOf b.toNat 3 2, true)
  | _ => none

def taccTile (m : MatCmd) (t : Team) (o : Op) (dst src : Nat) (s : State) : State × Flags :=
  (List.range 16384).foldl (fun (st : State × Flags) i =>
    let (r, f) := taccWord m (st.1.accFor t o (dst * 16384 + i)) (st.1.accFor t o (src * 16384 + i))
    (st.1.accLeave t (dst * 16384 + i) r, st.2 ||| f)) (s, 0)

/-- A TEPI whose register passes order 1. -/
structure Epi where
  iacc : Bool
  cb : Bool
  bsm : Bsm
  fmt : Fmt
  du : Bool
  tile : Nat
  soff : Nat
  doff : Nat
  ta : Nat
  tb : Nat

def epiOf (a b : U64) : Option Epi :=
  let x := a.toNat
  match decodeFmt (BitVec.ofNat 4 (bitsOf x 47 44)), decodeBsm (BitVec.ofNat 2 (bitsOf x 49 48)) with
  | some f, some m =>
      if bitsOf x 63 53 = 0 ∧ bitsOf x 42 42 = 0 ∧ bitsOf x 51 50 ≤ 1 ∧ f ≠ .i4x ∧ bsmOk m f ∧ (bitsOf x 43 43 = 0 ∨ fmtIsInt f) then
        some { iacc := bitsOf x 52 52 == 1, cb := bitsOf x 51 50 == 1, bsm := m, fmt := f, du := bitsOf x 43 43 == 1, tile := bitsOf x 41 40,
               soff := bitsOf x 39 20, doff := bitsOf x 19 0, ta := bitsOf b.toNat 31 0, tb := bitsOf b.toNat 63 32 }
      else none
  | _, _ => none

/-- Bytes of the result and of its scales. -/
def Epi.size (e : Epi) : Nat := if e.cb then 128 * rowBytes 128 (fmtWidth e.fmt) else 2048 * fmtWidth e.fmt
def Epi.scaleSize (e : Epi) : Nat := if e.bsm = .none then 0 else 1024

def Epi.check (e : Epi) (t : Team) : Option EStatus :=
  if e.tile ≥ t.desc.acc then some .bounds
  else if e.doff % (if e.cb then 1024 else 128) ≠ 0 ∨ (e.bsm ≠ .none ∧ e.soff % 128 ≠ 0) then some .misalign
  else if e.doff + e.size > t.scrBytes ∨ (e.bsm ≠ .none ∧ e.soff + e.scaleSize > t.scrBytes) then some .bounds
  else none

/-- The codes of a row of the tile, its scale codes, and flags (R55, R303). -/
def epiRow (e : Epi) (ws : List U32) : List Nat × List Nat × Flags :=
  let (tw, tf) := mul32 e.ta e.tb
  let tv := decodeFloat .f32 tw
  let exact (w : U32) : FVal × Flags :=
    let x := if e.iacc then intVal w.toInt else decodeFloat .f32 w.toNat
    match firstNan [x, tv] with
    | some n => (n, flagIf (x.isSnan || tv.isSnan) flNV)
    | none => match x.mul tv with
      | some v => (v, 0)
      | none => (nanVal, flNV)
  let vs := ws.map exact
  let f0 := tf ||| joinFlags (vs.map (·.2))
  let rnd : Nat → Rnd := fun _ => .mode .rne
  if e.bsm = .none then
    let (cs, f) := packLane e.fmt .none e.du false (intVal 1) (vs.map (·.1)) rnd
    (cs, [], f0 ||| f)
  else
    let mx := e.bsm == .mx
    let blocks := (List.range 4).map fun q =>
      let xs := ((vs.map (·.1)).drop (32 * q)).take 32
      if !xs.all isFinite then (List.replicate 32 0, scaleNan mx, flNV)
      else
        let code := blockScale e.fmt mx xs
        let (cs, f) := packLane e.fmt e.bsm e.du false ((scaleVal mx code).getD (intVal 1)) xs rnd
        (cs, code, f)
    (blocks.flatMap (·.1), blocks.map (·.2.1), f0 ||| joinFlags (blocks.map (·.2.2)))

/-- Codes as bytes, w bits each. -/
def codeBytes (w : Nat) (cs : List Nat) : List Byte :=
  bytesOf ((List.range cs.length).foldl (fun a i => a + nth cs 0 i * 2 ^ (w * i)) 0) (cs.length * w / 8)

/-- The bytes a TEPI writes: (offset, byte), and its flags. -/
def epiTile (e : Epi) (t : Team) (o : Op) (s : State) : List (Nat × Byte) × Flags :=
  (List.range 128).foldl (fun (st : List (Nat × Byte) × Flags) i =>
    let (cs, scs, f) := epiRow e ((List.range 128).map fun j => s.accFor t o (e.tile * 16384 + 128 * i + j))
    let w := fmtWidth e.fmt
    let rb := rowBytes 128 w
    let bytes := codeBytes w cs
    let out := if e.cb then
        (List.range rb).map fun b => (e.doff + cbOffset 128 rb 0 i b, nth bytes 0 b)
      else (List.range bytes.length).map fun b => (e.doff + i * (128 * w / 8) + b, nth bytes 0 b)
    let scale := (List.range scs.length).flatMap fun q =>
      [(e.soff + (i * 4 + q) * 2, BitVec.ofNat 8 (nth scs 0 q)), (e.soff + (i * 4 + q) * 2 + 1, BitVec.ofNat 8 (nth scs 0 q / 256))]
    (st.1 ++ out ++ scale, st.2 ||| f)) ([], 0)

/-! Issue (R297, R299, R315). -/

/-- Matrix commands waiting for their turn. -/
def Team.matQueue (t : Team) : List Op := t.ops.filter fun o => !o.done && match o.body with
  | .matrix _ false _ => true
  | _ => false

/-- A rider's request for power leave joins its die's queue (R315, R333). -/
def State.requestLeave (s : State) (tk : Nat) : State :=
  { s.modTeam tk fun t => { t with leaveReq := some s.clk.cycle, leaveAgain := false } with mgmt := { s.mgmt with leaveWaits := s.mgmt.leaveWaits + 1 } }

/-- A request for power leave: the rider waits until it is granted (R315). -/
def State.askLeave (s : State) (tk : Nat) (t : Team) : Out :=
  if t.leaveReq.isSome then stay s else .next (s.requestLeave tk)

/-- A word waits for room in the matrix queue or for a copy slot; with leave granted it keeps that, and no longer holds back a trap (R355). -/
def State.awaitRoom (s : State) (tk : Nat) (t : Team) : Out := if t.leaveGot then .next (s.setTeam tk { t with roomWait := true }) else stay s

/-- Issues a matrix command into the queue; TMMAG also raises GA. -/
def matIssue (i : Instr) (regs : List SReg) (leave : Bool) (m : Team → MatCmd) (s : State) : Out :=
  scalarRun i regs s fun tk t =>
    let gather := match m t with
      | .tmma _ _ _ g => g
      | _ => false
    if leave && !t.leaveGot then s.askLeave tk t
    else if 16 ≤ t.matQueue.length || t.pathFull .mx || (gather && t.pathFull .ga) then s.awaitRoom tk t
    else
      let s := s.setTeam tk { t with leaveGot := false, roomWait := false }
      let (s, id) := s.issueOp tk { t.riderOp .mx .mx .plain .split (.matrix (m t) false none) with leave := leave }
      let s := if gather then (s.issueOp tk (t.riderOp .ga .ga .plain .split (.gather id))).1 else s
      match m t with
      | .taccStat _ => .next (s.modTeam tk fun t => { t with blocked := some id })
      | _ => .next (s.retireRider tk)

def execTmma (a b c : SReg) (s : State) : Out :=
  matIssue (.tmma a b c) [a, b, c] true (fun t => .tmma (t.sreg a) (t.sreg b) (t.sreg c) false) s
def execTmmag (a b c : SReg) (s : State) : Out :=
  matIssue (.tmmag a b c) [a, b, c] true (fun t => .tmma (t.sreg a) (t.sreg b) (t.sreg c) true) s
def execTaccZero (b : SReg) (s : State) : Out := matIssue (.taccZero b) [b] false (fun t => .taccZero (t.sreg b)) s
def execTaccScale (b : SReg) (s : State) : Out := matIssue (.taccScale b) [b] false (fun t => .taccScale (t.sreg b)) s
def execTaccAdd (b : SReg) (s : State) : Out := matIssue (.taccAdd b) [b] false (fun t => .taccAdd (t.sreg b)) s
def execTaccIadd (b : SReg) (s : State) : Out := matIssue (.taccIadd b) [b] false (fun t => .taccIadd (t.sreg b)) s
def execTaccMove (b : SReg) (s : State) : Out := matIssue (.taccMove b) [b] false (fun t => .taccMove (t.sreg b)) s
def execTaccStat (d : SReg) (s : State) : Out := matIssue (.taccStat d) [d] false (fun _ => .taccStat d.toNat) s
def execTepi (a b : SReg) (s : State) : Out := matIssue (.tepi a b) [a, b] false (fun t => .tepi (t.sreg a) (t.sreg b)) s

/-! Execution. -/

/-- The queued command whose turn it is: no earlier matrix command of the team is incomplete. -/
def Team.matTurn (t : Team) : Option (Op × MatCmd) :=
  match t.ops.find? fun o => !o.done && (match o.body with | .matrix .. => true | _ => false) with
  | some o => match o.body with
    | .matrix m false _ => some (o, m)
    | _ => none
  | none => none

/-- The command that executes. -/
def Team.matRunning (t : Team) : Option (Op × MatCmd × Option Latch) :=
  t.ops.findSome? fun o => if o.done then none else match o.body with
    | .matrix m true l => some (o, m, l)
    | _ => none

/-- A core's matrix engine is serving a command (R330). -/
def State.engineBusy (s : State) (core : Nat) : Bool := (s.coreTeams core).any fun x => x.2.matRunning.isSome

/-- The gather operation of a TMMAG, and whether what it comes after has performed: its reads are of the class GA (R160). -/
def Team.gatherOp (t : Team) (id : Nat) : Option Op := t.ops.find? fun o => !o.done && o.body == .gather id
def Team.gatherReady (t : Team) (id : Nat) : Bool := match t.gatherOp id with
  | some o => t.depsMet o
  | none => true

/-- The gather operation of a TMMAG falls. -/
def Team.endGather (t : Team) (id : Nat) : Team :=
  match t.gatherOp id with
  | some o => t.complete o.id
  | none => t

/-- A matrix command does not end OK: ECODE takes the first such code (R290). -/
def Team.matFail (t : Team) (id : Nat) (e : EStatus) : Team :=
  let t := if bitsOf t.mstat.toNat 15 12 = 0 then { t with mstat := t.mstat ||| BitVec.ofNat 32 (statusCode e % 16 * 2 ^ 12) } else t
  (t.endGather id).complete id

/-- The index vector of a TMMAG. -/
def indexVector (bs : List Byte) : List (Option Nat) :=
  (List.range 128).map fun r =>
    let x := ofBytes ((bs.drop (2 * r)).take 2)
    if x = 0xFFFF then none else some x

/-- While a TMMAG gathers its rows, the rows of B may be fetched (R332). -/
def State.fetchB (s : State) (tk : Nat) (t : Team) : Out :=
  match t.matRunning with
  | some (o, .tmma a b c true, some l) =>
      (match matMul a b c true with
       | none => stay s
       | some x =>
           if l.bs.isSome || !x.b.rowsFull t x.k allRows then stay s
           else
             let l := { l with bs := some (readRows x.b s t o .mx x.k allRows) }
             .next (s.modTeam tk fun t => t.modOp o.id fun o => { o with body := .matrix (.tmma a b c true) true (some l) }))
  | _ => stay s

/-- A queued command begins at its turn (R297), when its core's engine is free (R330): it is validated before it touches any state (R301),
and a TMMAG reads its index vector; B may be fetched while it gathers. -/
def execMatrixCmdStart (tk : Nat) (s : State) : Out :=
  match s.team? tk with
  | none => stay s
  | some t =>
      match t.matTurn with
      | none => s.fetchB tk t
      | some (o, m) =>
          if !t.depsMet o || t.killed || s.engineBusy t.core || s.halt.isSome || (s.core t.core).frozen then stay s
          else
            let begin_ (s : State) (l : Option Latch) : Out :=
              .next (s.modTeam tk fun t => t.modOp o.id fun o => { o with body := .matrix m true l })
            match m with
            | .tmma a b c g =>
                (match matMul a b c g with
                 | none => .next (s.setTeam tk (t.matFail o.id .badDesc))
                 | some x =>
                     match x.check t g with
                     | some e => .next (s.setTeam tk (t.matFail o.id e))
                     | none =>
                         if !g then begin_ s none
                         else if !t.gatherReady o.id || !t.linesFull x.idx 256 then stay s
                         else
                           let idx := indexVector (s.scrBytesFor t o .ga x.idx 256)
                           if x.rowsOk t idx then begin_ s (some { idx := idx }) else .next (s.setTeam tk (t.matFail o.id .bounds)))
            | .tepi a b =>
                (match epiOf a b with
                 | none => .next (s.setTeam tk (t.matFail o.id .badDesc))
                 | some x => match x.check t with
                   | some e => .next (s.setTeam tk (t.matFail o.id e))
                   | none => begin_ s none)
            | _ =>
                match taccTiles m with
                | some (d, src, two) =>
                    if d ≥ t.desc.acc ∨ (two ∧ src ≥ t.desc.acc) then .next (s.setTeam tk (t.matFail o.id .bounds)) else begin_ s none
                | none => begin_ s none

/-- The gathered rows of a TMMAG and their scales reach the operand latch (R300, R332). -/
def execGatherComplete (tk : Nat) (s : State) : Out :=
  match s.team? tk with
  | none => stay s
  | some t =>
      match t.matRunning with
      | some (o, .tmma a b c true, some l) =>
          (match matMul a b c true with
           | none => stay s
           | some x =>
               if l.rows.isSome || !t.gatherReady o.id || !x.a.rowsFull t x.k l.idx then stay s
               else
                 let rows := readRows x.a s t o .ga x.k l.idx
                 .next (s.modTeam tk fun t =>
                   (t.modOp o.id fun o => { o with body := .matrix (.tmma a b c true) true (some { l with rows := some rows }) }).endGather o.id))
      | _ => stay s

/-- A matrix command has its result: the tile, the flags, and the end of the operation. -/
def State.matDone (s : State) (tk id : Nat) (f : Flags) : State :=
  s.modTeam tk fun t => (t.raiseMstat f).complete id

/-- TACC.stat takes MSTAT and clears it; the value is a logged crossing (R302, R378). -/
def State.takeStat (s : State) (tk : Nat) (t : Team) (o : Op) (d : Nat) : State :=
  let v : U64 := t.mstat.setWidth 64
  let (b, ok, s') := s.coreEvent t.core 0x08 t.riderCtx [3, v]
  if !ok then s' else
    let v := match b with
      | some ws => nth ws v 1
      | none => v
    (s'.setTeam tk ({ (t.setSreg (BitVec.ofNat 6 d) v) with mstat := 0 }.complete o.id)).unblock tk o.id

/-- The executing command completes (R299, R302, R303): its operand fetches have waited for the lines. -/
def execMatrixCmdEnd (tk : Nat) (s : State) : Out :=
  match s.team? tk with
  | none => stay s
  | some t =>
      match t.matRunning with
      | none => stay s
      | some (o, m, l) =>
          match m with
          | .tmma a b c g =>
              (match matMul a b c g with
               | none => stay s
               | some x =>
                   let latched := l.bind (·.bs)
                   if (latched.isNone && !x.b.rowsFull t x.k allRows) || (!g && !x.a.rowsFull t x.k allRows) || (g && !(l.any fun l => l.rows.isSome)) then
                     stay s
                   else
                     let as := (l.bind (·.rows)).getD (readRows x.a s t o .mx x.k allRows)
                     let (s, f) := mulTile x t o as (latched.getD (readRows x.b s t o .mx x.k allRows)) s
                     .next (s.matDone tk o.id f))
          | .tepi a b =>
              (match epiOf a b with
               | none => stay s
               | some x =>
                   let (bytes, f) := epiTile x t o s
                   if !t.offsetsFull (bytes.map (·.1)) then stay s
                   else .next ((bytes.foldl (fun s p => s.scrStore t o.id .mx p.1 [(p.2, 0xFF)]) s).matDone tk o.id f))
          | .taccStat d => .next (s.takeStat tk t o d)
          | _ =>
              match taccTiles m with
              | some (d, src, _) => let (s, f) := taccTile m t o d src s
                                    .next (s.matDone tk o.id f)
              | none => stay s

/-! QMMA (R304, R305). -/

/-- Offsets of one quarter's B rows and scales. -/
def qmmaBytes (k w : Nat) (scaled : Bool) : Nat := 8 * (k * w / 8) + if scaled then 8 * (k / 32) * 2 else 0

def execQmma (o : LaneOps) (vs : VReg) (s : State) : Out :=
  laneRun (.qmma o vs) s fun e =>
    match qmmaFmts e.fmt o.sga o.sgb with
    | none => e.trap .illegal (lowestLane e.split.mask)
    | some (fa, _fb, w) =>
        let k := qmmaK w
        let ra := qmmaRA w
        let scaled := fa.bsm != .none
        let a := match o.a with | .reg n => n.toNat | _ => 0
        let c := match o.c with | .reg n => n.toNat | _ => 0
        if e.act = 0 then e.skip
        else if !e.x.allFull a ra then (if o.fea then e.trap .regEmpty e.low else stay s)
        else if scaled && !e.x.allFull vs.toNat 1 then stay s
        else if e.t.pathFull .mx then stay s
        else
          let quarters := (List.range 4).filterMap fun j => (e.lanes.find? fun l => l / 8 == j).map fun l => (j, l, (e.val l o.b).toNat)
          match quarters.find? fun q => decide (q.2.2 + qmmaBytes k w scaled > e.t.scrBytes) || q.2.2 % 256 != 0 with
          | some q => e.trap (if q.2.2 + qmmaBytes k w scaled > e.t.scrBytes then .addrBounds else .misalign) q.2.1 (BitVec.ofNat 64 q.2.2)
          | none =>
              let lanes := e.lanes.map fun l =>
                ({ lane := l, a := (List.range ra).map fun i => e.x.vreg (a + i) l, c := (List.range 8).map fun i => e.x.vreg (c + i) l,
                   scale := if scaled then e.x.vreg vs.toNat l else 0 } : QmmaLane)
              e.issue s (e.op .mx .mx .plain .split (.qmma o.d.toNat e.fmt o.sga o.sgb (quarters.map fun q => (q.1, q.2.2)) lanes)) o.d.toNat 8

/-- Elements of a lane's A row: packed in registers by R34, in slots of the format's width. -/
def qmmaRowA (f : MatFmt) (k : Nat) (x : QmmaLane) : MatRow :=
  let w := fmtWidth f.fmt
  let all := (List.range x.a.length).foldl (fun n i => n + (nth x.a 0 i).toNat * 2 ^ (32 * i)) 0
  { codes := (List.range k).map (packedCode w all), scales := (List.range (k / 32)).map fun q => x.scale.toNat / 2 ^ (16 * q) % 2 ^ 10 }

/-- A row of B, c at offset + c × K × w / 8, in its own format's packing. -/
def qmmaRowB (f : MatFmt) (k w off c : Nat) (t : Team) (o : Op) (s : State) : MatRow :=
  let n := k * w / 8
  { codes := (List.range k).map (packedCode (fmtWidth f.fmt) (ofBytes (s.scrBytesFor t o .mx (off + c * n) n)))
    scales := if f.bsm = .none then [] else scaleCodes (s.scrBytesFor t o .mx (off + 8 * n + c * (k / 32) * 2) (k / 32 * 2)) }

/-- The rows of every quarter's B. -/
def qmmaRowsB (f : MatFmt) (k w : Nat) (t : Team) (o : Op) (offs : List (Nat × Nat)) (s : State) : List (Nat × List MatRow) :=
  offs.map fun x => (x.1, (List.range 8).map fun c => qmmaRowB f k w x.2 c t o s)

/-- The results of a QMMA land: registers, flags and MX (R43, R305). -/
def State.landQmma (s : State) (tk : Nat) (t : Team) (o : Op) : State :=
  match o.body, o.group with
  | .qmma d fmt sga sgb offs lanes, some g =>
      (match qmmaFmts fmt sga sgb with
       | none => s
       | some (fa, fb, w) =>
           let k := qmmaK w
           if !t.depsMet o || !(offs.all fun q => t.linesFull q.2 (qmmaBytes k w (fa.bsm != .none))) then s
           else
             let rows := qmmaRowsB fb k w t o offs s
             let res (x : QmmaLane) : List (U32 × Flags) :=
               let ra := qmmaRowA fa k x
               let bs := ((rows.find? fun r => r.1 == x.lane / 8).map (·.2)).getD []
               (List.range 8).map fun c => dotBlocks fa fb ra (nth bs ⟨[], []⟩ c) (nth x.c 0 c) k
             s.modTeam tk fun t =>
               let t := t.modGroup g fun y =>
                 (lanes.foldl (fun y x =>
                   let r := res x
                   ((List.range 8).foldl (fun y c => y.setVreg (d + c) x.lane (nth r (0, 0) c).1) y).landFlags o.split (joinFlags (r.map (·.2)))) y).markFull d 8
               t.complete o.id)
  | _, _ => s

/-! Power leave. -/

/-- Requests of a die in the order they were made: a team's key, or 0x10000 + a channel, by the cycle of the request. -/
def State.leaveQueue (s : State) (die : Nat) : List (Nat × Nat) :=
  let ts := s.teams.filterMap fun p => if s.dieOf p.2.core = die then p.2.leaveReq.map fun c => (c, p.1) else none
  let cs := s.cp.channels.filterMap fun p => if p.2.die = die then p.2.leaveReq.map fun c => (c, 0x10000 + p.1) else none
  ts ++ cs

/-- Leave that is held on a die: by operations until they end, a CPYM's until every receiver has decided, by riders whose operation is still to
start, and by the copies of channels (R333). -/
def State.leaveHeld (s : State) (die : Nat) : Nat :=
  let ofOp (o : Op) : Bool := o.leave && !o.done && match o.body with
    | .copy c => !c.mcast || c.recvs.any fun r => r.decided.isNone
    | _ => true
  let ts := s.teams.filter fun p => s.dieOf p.2.core == die
  ts.foldl (fun n p => n + (if p.2.leaveGot then 1 else 0) + (p.2.ops.filter ofOp).length) 0
    + (s.cp.channels.filter fun c => c.2.die == die && c.2.leaveReq.isNone && decide (65536 < c.2.copy.n)).length

/-- The earliest of some requests. -/
def earliest (l : List (Nat × Nat)) : Option (Nat × Nat) :=
  l.foldl (fun b x => match b with
    | none => some x
    | some y => if x.1 < y.1 then some x else b) none

/-- Grants one request. -/
def State.grantLeave (s : State) (who : Nat) : State :=
  if who < 0x10000 then s.modTeam who fun t => { t with leaveReq := none, leaveGot := true }
  else { s with cp := { s.cp with channels := sparseMod (who - 0x10000) (fun c => { c with leaveReq := none }) s.cp.channels } }

/-- The governor of a die grants leave in order of request, while its budget lasts. DESIGN CHOICE (log entry 40): each operation holds one unit. -/
def execLeaveGrant (die : Nat) (s : State) : Out :=
  match earliest (s.leaveQueue die) with
  | some (_, who) => if s.leaveHeld die < Config.leaveBudget die then .next (s.grantLeave who) else stay s
  | none => stay s

/-- A request that has waited 6,600 cycles is granted. -/
def execLeaveBoundExpire (die : Nat) (s : State) : Out :=
  match earliest (s.leaveQueue die) with
  | some (c, who) => if c + Config.leaveBound ≤ s.clk.cycle then .next (s.grantLeave who) else stay s
  | none => stay s

end Sys2Proof.Machine
end

