-- ==== Sys2Proof/Machine/Copy.lean ====
section
/-!
DEFINITION. Machine/Copy.lean: copies and multicasts, their layouts and transforms (R291 to R296, R318 to R329).
-/
namespace Sys2Proof.Machine

/-! Layout records (R319, R320). -/

/-- A record from its doublewords; none where it is malformed. -/
def layoutOf (ws : List U64) : Option LayoutRec :=
  let w (i hi lo : Nat) : Nat := bitsOf (nth ws 0 i).toNat hi lo
  let rank := w 0 2 0
  let box := [w 1 15 0, w 1 31 16, w 1 47 32, w 1 63 48, w 2 15 0]
  let str := 0 :: (List.range 4).map fun i => w (3 + i) 56 0
  match decodeFmt (BitVec.ofNat 4 (w 0 7 4)) with
  | none => none
  | some f =>
      let reserved := w 0 31 16 + w 0 10 8 + w 0 3 3 + w 2 63 16 + w 7 63 0 + ((List.range 4).foldl (fun a i => a + w (3 + i) 63 57) 0)
      let dims := (List.range 5).all fun d => if d < rank then nth box 0 d != 0 else nth box 0 d == 0 && nth str 0 d == 0
      if reserved ≠ 0 ∨ rank = 0 ∨ rank > 5 ∨ !dims ∨ (nth box 0 0 * fmtWidth f) % 8 ≠ 0 ∨ !swizzleOk (w 0 12 11) (w 0 15 13) then none
      else some { pad := BitVec.ofNat 32 (w 0 63 32), swsel := w 0 15 13, swz := w 0 12 11, efmt := f, rank := rank, box := box, str := str }

/-- The record at an address as a core reads it: the one in memory, or the cached one (R162). -/
def State.readLayout (s : State) (core root va : Nat) : Except EStatus (Option LayoutRec) × State :=
  let (r, s) := s.readVa (some core) root va 64
  match r with
  | .error c => (.error (statusOf c), s)
  | .ok bs =>
      let ws := (List.range 8).map fun i => BitVec.ofNat 64 (ofBytes ((bs.drop (8 * i)).take 8))
      let keep (s : State) : State :=
        if (layoutOf ws).isNone then s
        else s.modCore core fun c => { c with layouts := (root, va, ws) :: c.layouts.filter fun x => !(x.1 == root && x.2.1 == va) }
      match (s.core core).layouts.find? fun x => x.1 == root && x.2.1 == va with
      | none => (.ok (layoutOf ws), keep s)
      | some (_, _, old) =>
          if old = ws then (.ok (layoutOf ws), s)
          else
            let (b, s) := s.freeBit
            if b then (.ok (layoutOf old), s) else (.ok (layoutOf ws), keep s)

/-- LAYLD: reads a record and answers its status (R295). -/
def execLayld (d b : SReg) (s : State) : Out :=
  scalarRun (.layld d b) [d, b] s fun tk t =>
    let va := (t.sreg b).toNat
    let put (s : State) (e : EStatus) : Out := .next ((s.modTeam tk fun t => t.setSreg d (BitVec.ofNat 64 (statusCode e))).retireRider tk)
    if va % 64 ≠ 0 then put s .misalign
    else
      let (r, s) := s.readLayout t.core t.root va
      match r with
      | .error e => put s e
      | .ok none => put s .badDesc
      | .ok (some _) => put s .ok

/-- LAYINV drops the core's copies of a record, or of all of them (R296). -/
def execLayinv (b : SReg) (s : State) : Out :=
  scalarRun (.layinv b) [b] s fun tk t =>
    let va := (t.sreg b).toNat
    .next ((s.modCore t.core fun c => { c with layouts := if va = 0 then [] else c.layouts.filter fun x => x.2.1 != va }).retireRider tk)

/-! The shape of a copy (R321 to R326). -/

/-- Where an end of a copy begins: a virtual address, or a scratchpad offset. -/
def CopyEnd.base : CopyEnd → Nat
  | .handle _ _ _ e off => heBase e + off
  | .scratch off => off
  | .virt _ va => va

def CopyEnd.isScratch : CopyEnd → Bool
  | .scratch _ => true
  | _ => false

/-- The record that gives the box. -/
def CopySt.shape (c : CopySt) : Option LayoutRec := c.srcRec.orElse fun _ => c.dstRec

def LayoutRec.boxOf (r : LayoutRec) (d : Nat) : Nat := if d < r.rank then nth r.box 1 d else 1
/-- Size of the box inside the extents. -/
def CopySt.insideOf (c : CopySt) (r : LayoutRec) (d : Nat) : Nat := if d < r.rank then min (nth r.box 1 d) (nth c.ext 0 d) else 1

/-- Transforms 4 and 5 narrow FP32 elements. -/
def CopySt.narrows (c : CopySt) : Bool := decide (4 ≤ c.xf)

/-- Widths of an element at the source and at the destination. -/
def CopySt.wIn (c : CopySt) : Nat :=
  match c.srcRec, c.dstRec with
  | some r, _ => fmtWidth r.efmt
  | none, some r => if c.narrows then 32 else fmtWidth r.efmt
  | none, none => if c.narrows then 32 else 8
def CopySt.wOut (c : CopySt) : Nat := if c.narrows then 16 else c.wIn

/-- Indexes i1 to i4 of row number n, over the given sizes. -/
def rowIndex (size : Nat → Nat) (n : Nat) : List Nat :=
  [n % size 1, n / size 1 % size 2, n / (size 1 * size 2) % size 3, n / (size 1 * size 2 * size 3)]

/-- The number of a row in box order. -/
def rowNumber (size : Nat → Nat) (ix : List Nat) : Nat :=
  nth ix 0 0 + size 1 * (nth ix 0 1 + size 2 * (nth ix 0 2 + size 3 * nth ix 0 3))

/-- Offset of a row of a tensor. -/
def LayoutRec.rowOffset (r : LayoutRec) (ix : List Nat) : Nat := (List.range 4).foldl (fun a d => a + nth ix 0 d * nth r.str 0 (d + 1)) 0

/-- Offset of a row at the source: through its record, or dense in box order. -/
def CopySt.srcRow (c : CopySt) (r : LayoutRec) (ix : List Nat) : Nat :=
  match c.srcRec with
  | some q => q.rowOffset ix
  | none => rowNumber r.boxOf ix * (r.boxOf 0 * c.wIn / 8)

/-- A row length at the destination of a re-block, RB of R323. -/
def CopySt.blockRow (c : CopySt) (r : LayoutRec) : Nat := (r.boxOf 0 * c.wOut / 8 + 63) / 64 * 64

/-- Bytes written: n of R292 (R326). -/
def CopySt.count (c : CopySt) (len : Nat) : Nat :=
  match c.shape with
  | none => if c.narrows then len / 2 else len
  | some r =>
      let rows (size : Nat → Nat) : Nat := size 1 * size 2 * size 3 * size 4
      if c.dstRec.isSome then rows (c.insideOf r) * ((c.insideOf r 0 * c.wOut + 7) / 8)
      else if c.xf = 3 then rows r.boxOf * c.blockRow r
      else rows r.boxOf * (r.boxOf 0 * c.wOut / 8)

/-- Bytes from the start of an end to the last that is touched, 0 where nothing is. -/
def CopySt.span (c : CopySt) (r : LayoutRec) (row : List Nat → Nat) (w : Nat) : Nat :=
  let sizes := (List.range 5).map (c.insideOf r)
  if sizes.any (· == 0) then 0 else row (sizes.drop 1 |>.map (· - 1)) + (nth sizes 0 0 * w + 7) / 8

def CopySt.srcSpan (c : CopySt) : Nat :=
  match c.shape with
  | none => if c.narrows then 2 * c.n else c.n
  | some r => c.span r (c.srcRow r) c.wIn

def CopySt.dstSpan (c : CopySt) : Nat :=
  match c.dstRec with
  | some r => c.span r r.rowOffset c.wOut
  | none => c.n

/-- One byte of the destination: where it goes, the source byte it is taken from, the bits taken, the other bits, and the bits
written. In a narrowing copy `src` is the first byte of the FP32 element and `half` says which byte of the result it is. -/
structure DestByte where
  off : Nat
  src : Option Nat
  take : Nat := 0xFF
  fill : Nat := 0
  half : Nat := 0
  mask : Nat := 0xFF
  deriving DecidableEq, Repr

/-- Byte b of a row of elements of w bits each filled with PAD. -/
def padByte (pad : U32) (w b : Nat) : Nat := (List.range 8).foldl (fun a k => a + (if pad.getLsbD ((8 * b + k) % w) then 2 ^ k else 0)) 0

/-- The low bits of byte b of a row that belong to its first `bits` bits. -/
def rowBits (bits b : Nat) : Nat := if 8 * b + 8 ≤ bits then 0xFF else 2 ^ (bits - 8 * b) - 1

/-- Where byte j of the destination comes from and goes, before the swizzle. -/
def CopySt.plain (c : CopySt) (j : Nat) : DestByte :=
  let src := c.src.base
  let dst := c.dst.base
  match c.shape with
  | none => { off := dst + j, src := some (if c.narrows then src + 4 * (j / 2) else src + j), half := j % 2 }
  | some r =>
      let inRow (ix : List Nat) (b : Nat) : Nat := src + c.srcRow r ix + (if c.narrows then 4 * (b / 2) else b)
      let inside (ix : List Nat) : Bool := (List.range 4).all fun d => decide (nth ix 0 d < c.insideOf r (d + 1))
      let bits := c.insideOf r 0 * c.wOut
      match c.dstRec with
      | some q =>
          let rl := (bits + 7) / 8
          let ix := rowIndex (c.insideOf r) (j / rl)
          let b := j % rl
          { off := dst + q.rowOffset ix + b, src := some (inRow ix b), half := b % 2, mask := rowBits bits b }
      | none =>
          -- (row, byte of the row), or none for row padding
          let w8 := c.wOut / 8
          let at_ : Option (List Nat × Nat) :=
            if c.xf = 1 then
              let e := j / w8
              let rest := e / (r.boxOf 0 * r.boxOf 1)
              some (e % r.boxOf 1 :: (rowIndex (fun d => if d = 1 then 1 else r.boxOf d) rest).drop 1, e / r.boxOf 1 % r.boxOf 0 * w8 + j % w8)
            else if c.xf = 3 then
              let rb := c.blockRow r
              let q := j % (r.boxOf 1 * rb)
              let blk := q / 1024
              let row := blk / (rb / 64) * 16 + q % 1024 / 64
              let b := blk % (rb / 64) * 64 + q % 64
              if b < r.boxOf 0 * c.wOut / 8 then
                some (row :: (rowIndex (fun d => if d = 1 then 1 else r.boxOf d) (j / (r.boxOf 1 * rb))).drop 1, b)
              else none
            else
              let rl := r.boxOf 0 * c.wOut / 8
              some (rowIndex r.boxOf (j / rl), j % rl)
          match at_ with
          | none => { off := dst + j, src := none }
          | some (ix, b) =>
              let pad := padByte r.pad c.wOut b
              let take := if inside ix then rowBits bits b else 0
              { off := dst + j, src := if take = 0 then none else some (inRow ix b), take := take, fill := pad, half := b % 2 }

/-- The swizzle of the destination (R325). -/
def CopySt.swz (c : CopySt) (o : Nat) : Nat :=
  match c.srcRec with
  | some r => if c.dst.isScratch then swizzle r.swz r.swsel o else o
  | none => o

def CopySt.byteAt (c : CopySt) (j : Nat) : DestByte := let d := c.plain j; { d with off := c.swz d.off }

/-! Units: the aligned 16-byte parts of the destination, of which each is written at once (R141, R150). -/

/-- Bytes of a row of a tensor at the destination, and the most parts that it touches. -/
def CopySt.rowBytes (c : CopySt) (q : LayoutRec) : Nat := (c.insideOf q 0 * c.wOut + 7) / 8
def CopySt.rowParts (c : CopySt) (q : LayoutRec) : Nat := c.rowBytes q / 16 + 2
def CopySt.phase (c : CopySt) : Nat := c.dst.base % 16
def CopySt.units (c : CopySt) : Nat :=
  match c.dstRec with
  | some q => c.n / max 1 (c.rowBytes q) * c.rowParts q
  | none => (c.phase + c.n + 15) / 16
/-- The destination bytes of a unit: first and count, which is 0 for a part that its row does not touch. -/
def CopySt.unitRange (c : CopySt) (u : Nat) : Nat × Nat :=
  match c.dstRec with
  | some q =>
      let row := u / c.rowParts q
      let part := u % c.rowParts q
      let a := (c.dst.base + q.rowOffset (rowIndex (c.insideOf q) row)) % 16
      let lo := 16 * part - a
      (row * c.rowBytes q + lo, min (c.rowBytes q) (16 * (part + 1) - a) - lo)
  | none =>
      let lo := 16 * u - c.phase
      (lo, min c.n (16 * (u + 1) - c.phase) - lo)
def CopySt.unitBytes (c : CopySt) (u : Nat) : List DestByte :=
  let r := c.unitRange u
  (List.range r.2).map fun i => c.byteAt (r.1 + i)
def CopySt.landedBytes (c : CopySt) (us : List Nat) : Nat := us.foldl (fun a u => a + (c.unitRange u).2) 0
/-- A receiver of a CPYM has received all its bytes. -/
def Receiver.finished (r : Receiver) (c : CopySt) : Bool := decide (c.n ≤ c.landedBytes r.landed)

/-- A line of the scratchpad has bytes of this copy, and which units hold them. -/
def CopySt.lineUnits (c : CopySt) (line : Nat) : List Nat :=
  distinct ((List.range 128).filterMap fun i =>
    let o := c.swz (128 * line + i)
    if c.dst.base ≤ o ∧ o < c.dst.base + c.n then some ((c.phase + (o - c.dst.base)) / 16) else none)

/-- Lines a copy writes. -/
def CopySt.lines (c : CopySt) : List Nat :=
  match c.srcRec with
  | some r =>
      if r.swz = 0 then linesOf c.dst.base c.n
      else if c.n = 0 then []
      else
        let a := c.dst.base / 512 * 4
        ((List.range (((c.dst.base + c.n - 1) / 512 + 1) * 4 - a)).map (· + a)).filter fun l => !(c.lineUnits l).isEmpty
  | none => linesOf c.dst.base c.n

/-! Reading and writing the ends. -/

/-- Who moves the bytes: a core for a team's copy, with the team; or a channel of a die. -/
structure Mover where
  die : Nat
  team : Option (Nat × Team) := none
  /-- its accesses count on MIGRATE pages: those of a team's copy (R397) -/
  counts : Bool := false

/-- One access of a mover to a line of a MIGRATE page is counted (R397). -/
def State.countMover (s : State) (m : Mover) (va : Nat) (sp : Spot) : State :=
  if m.counts then (partsOf 0 0 0 0 [(va, 16, sp)]).foldl (fun s p => s.countPart m.die p) s else s

/-- The pages that a range of an end lies in, as the tables give them now to an operation of a team that issues (checks 6 and 7 of R125,
R162). -/
def State.endPages (s : State) (t : Team) (e : CopyEnd) (n : Nat) (r : Right) : List PageAt × State :=
  match e with
  | .handle root _ _ en _ =>
      if n = 0 then ([], s) else
        let lo := e.base / 2 ^ 16
        (List.range ((e.base + n - 1) / 2 ^ 16 - lo + 1)).foldl (fun (acc : List PageAt × State) i =>
          let p := lo + i
          let (x, s) := acc.2.translateEarly t.core root (p * 2 ^ 16) r
          (acc.1 ++ [match x with
            | .error c => { page := p, fault := some (statusOf c) }
            | .ok sp => { page := p, key := sp.key, mode := sp.mode, tclass := sp.tclass,
                          fault := if heKindOk en (keyPeer sp.key) then none else some .perm }], s)) ([], s)
  | _ => ([], s)

/-- Where a virtual address of an end lies: by the pages read at issue, or, for a packet's copy, by the tables as they are (R162, R395). -/
def State.endSpot (s : State) (e : CopyEnd) (pages : List PageAt) (va : Nat) (r : Right) : Except EStatus Spot × State :=
  match e with
  | .scratch _ => (.error .badDesc, s)
  | .virt root _ =>
      let (x, s) := s.translateCp root va r
      (x.mapError statusOf, s)
  | .handle _ _ _ en _ =>
      (match pages.find? fun p => p.page == va / 2 ^ 16 with
       | none => .error .translate
       | some p => match p.fault with
         | some f => .error f
         | none => (s.ifReached { key := p.key + va % 2 ^ 16, mode := p.mode, tclass := p.tclass, policy := bitsOf (heAttr en) 5 4 }).mapError statusOf, s)

/-- A copy engine's read of 16 bytes of memory: the die's RDC answers, or the home, which grants a lease (R126, R132); none while a replay holds it. A
channel of a base die reads at the home. -/
def State.moverRead (s : State) (m : Mover) (k : Nat) (sp : Spot) : Option (List Byte × State) :=
  if !s.crosses k 16 0 then none else
  match m.team with
  | some (_, t) =>
      (s.countMover m 0 sp).readKey t.launch t.core k 16 (sp.mode == 2) .plain .split sp.policy false
  | none => some (s.bytesAt k 16, s)

/-- The aligned 16 bytes a copy reads at 16 × i (R161); none while a replay holds the read. -/
def State.readChunk (s : State) (m : Mover) (o : Op) (e : CopyEnd) (pages : List PageAt) (i : Nat) : Option (Except EStatus (List Byte) × State) :=
  match e, m.team with
  | .scratch _, some (_, t) => some (.ok (s.scrBytesFor t o .cp (16 * i) 16), s)
  | .scratch _, none => some (.error .badDesc, s)
  | _, _ =>
      let (x, s) := s.endSpot e pages (16 * i) .read
      match x with
      | .error c => some (.error c, s)
      | .ok sp =>
          let k := sp.key
          if s.lineBad k then some (.error .integrity, s) else (s.moverRead m k sp).map fun r => (.ok r.1, r.2)

/-- Reads the parts of a list that have not been read: all that have been read then. -/
def readChunks (m : Mover) (o : Op) (e : CopyEnd) (pages : List PageAt) : List Nat → Sparse (List Byte) → State →
    Option (Except EStatus (Sparse (List Byte)) × State)
  | [], got, s => some (.ok got, s)
  | i :: l, got, s =>
      if (sparseFind i got).isSome then readChunks m o e pages l got s else
        match s.readChunk m o e pages i with
        | none => none
        | some (.error c, s) => some (.error c, s)
        | some (.ok bs, s) => readChunks m o e pages l (sparsePut i bs got) s

/-- A byte of the parts that have been read. -/
def chunkByte (cs : Sparse (List Byte)) (a : Nat) : Nat := (nth (sparseGet [] cs (a / 16)) 0 (a % 16)).toNat

/-- The value of a destination byte. -/
def CopySt.value (c : CopySt) (cs : Sparse (List Byte)) (d : DestByte) : Byte :=
  match d.src with
  | none => BitVec.ofNat 8 d.fill
  | some a =>
      let x := if c.narrows then
          let w := (List.range 4).foldl (fun v i => v + chunkByte cs (a + i) * 2 ^ (8 * i)) 0
          (roundTo (if c.xf = 4 then .bf16 else .f16) (.mode .rne) false false (decodeFloat .f32 w)).1 / 2 ^ (8 * d.half) % 256
        else chunkByte cs a
      BitVec.ofNat 8 ((x &&& d.take) ||| (d.fill &&& (0xFF - d.take)))

/-- The 16-byte parts of the source that some bytes come from. -/
def CopySt.parts (c : CopySt) (ds : List DestByte) : List Nat :=
  distinct (ds.flatMap fun d => match d.src with
    | some a => if c.narrows then [a / 16, (a + 3) / 16] else [a / 16]
    | none => [])

/-- The parts that some destination bytes come from have been read. -/
def CopySt.ready (c : CopySt) (ds : List DestByte) : Bool := (c.parts ds).all fun i => (sparseFind i c.got).isSome

/-- A copy reads one part of its source, at any time between its start and its completion (R161, R318): a part of the scratchpad only where its line is full
(R138). None while it is not, or while a replay holds the read. -/
def State.readSource (s : State) (m : Mover) (o : Op) (c : CopySt) (i : Nat) : Option (Except EStatus CopySt × State) :=
  let full := !c.src.isScratch || match m.team with
    | some (_, t) => t.linesFull (16 * i) 16
    | none => true
  if (sparseFind i c.got).isSome || !full then none else
    (s.readChunk { m with counts := m.counts && !c.got.any fun x => x.1 / 8 == i / 8 } o c.src c.srcPages i).map fun r =>
      (r.1.map fun bs => { c with got := sparsePut i bs c.got }, r.2)

/-- What the k-th step of a unit is: 0, its landing, or the reading of a part of the source that it comes from. -/
def CopySt.stepPart (c : CopySt) (u k : Nat) : Option Nat := if k = 0 then none else ((c.parts (c.unitBytes u)).drop (k - 1)).head?

/-- The line stores of some bytes: (line of addresses, the byte values and masks from `lo` on). -/
def lineWrites (xs : List (DestByte × Byte)) : List (Nat × List (Byte × Byte)) :=
  (distinct (xs.map fun x => x.1.off / 128)).map fun l =>
    let mine := xs.filter fun x => x.1.off / 128 == l
    let lo := mine.foldl (fun a x => min a x.1.off) (128 * l + 127)
    let hi := mine.foldl (fun a x => max a x.1.off) (128 * l)
    (lo, (List.range (hi + 1 - lo)).map fun i => match mine.find? fun x => x.1.off == lo + i with
      | some x => (x.2, BitVec.ofNat 8 x.1.mask)
      | none => (0, 0))

/-- A copy engine or a channel writes bytes of one line: no L1 keeps a token of it (R130, R131); V, or none while a replay holds it. -/
def State.moverWrite (s : State) (m : Mover) (k : Nat) (bs : List (Byte × Byte)) : Option (State × Nat) :=
  let h := s.storeKey k
  if !s.crosses k bs.length 1 then none else
  match m.team with
  | some (_, t) => (s.moveLine t.launch t.core h true false false).map fun s =>
      ((s.noteWriter t h).dropSamples (fun t' o' => reachTo t' o' s t (t.riderOp .cp .cp .plain .split .stall)) h bs.length).writeMasked (some m.die) k bs
  | none => some (((s.returnTokens (h / 128) (if keyPeer h = 0 then [homeDie (keyPa h)] else [])).1.dropSamples (fun _ _ => 7) h bs.length).writeMasked none k bs)

/-- Performs line stores in turn: the largest V. -/
def moverWrites (m : Mover) : List (Nat × List (Byte × Byte)) → Nat → State → Option (Nat × State)
  | [], v, s => some (v, s)
  | (k, bs) :: l, v, s => (s.moverWrite m k bs).bind fun r => moverWrites m l (max v r.2) r.1

/-- Finds the place of every line store, then performs them; answers the largest V, or none while a replay holds them. -/
def storeLines (m : Mover) (e : CopyEnd) (pages : List PageAt) : List (Nat × List (Byte × Byte)) → List (Nat × List (Byte × Byte)) → State →
    Option (Except EStatus Nat × State)
  | [], ready, s => (moverWrites m ready 0 s).map fun r => (.ok r.1, r.2)
  | (va, bs) :: l, ready, s =>
      match s.endSpot e pages va .write with
      | (.error c, s) => some (.error c, s)
      | (.ok sp, s) =>
          storeLines m e pages l (ready ++ [(sp.key, bs)]) (s.countMover m va sp)

/-! Issue (R291 to R293). -/

/-- An end named by a handle and offset, with the entry read now. -/
def State.handleEnd (s : State) (t : Team) (r : U64) : Option EStatus × CopyEnd × State :=
  let h := bitsOf r.toNat 63 54
  let off := bitsOf r.toNat 53 0
  match s.handle t h with
  | (.error x, s) => (some (statusOf x.cause), .handle t.root t.desc.nhandle h [] off, s)
  | (.ok e, s) => (none, .handle t.root t.desc.nhandle h e off, s)

/-- The record of a handle's LAYOUT (R291). -/
def State.endRecord (s : State) (t : Team) (e : CopyEnd) : Except EStatus LayoutRec × State :=
  match e with
  | .handle root _ _ en _ =>
      if !heValid en then (.error .perm, s)
      else if heLayout en = 0 ∨ heLayout en % 64 ≠ 0 then (.error .badDesc, s)
      else
        match s.readLayout t.core root (heLayout en) with
        | (.error c, s) => (.error c, s)
        | (.ok none, s) => (.error .badDesc, s)
        | (.ok (some r), s) => (.ok r, s)
  | _ => (.error .badDesc, s)

/-- The record of an end where its LAYS bit is set, unless the entry of its handle has failed. -/
def State.layoutFor (s : State) (t : Team) (lays : Bool) (entry : Option EStatus) (e : CopyEnd) : Except EStatus (Option LayoutRec) × State :=
  if !lays then (.ok none, s)
  else match entry with
    | some x => (.error x, s)
    | none => let (x, s) := s.endRecord t e
              (x.map some, s)

/-- The error of a result. -/
def errorOf {α β : Type} : Except α β → Option α
  | .error e => some e
  | .ok _ => none

/-- The transform is one that R322 allows for these ends and records. -/
def CopySt.transformOk (c : CopySt) (len : Nat) : Option EStatus :=
  let toScr := c.dst.isScratch
  let two := match c.srcRec, c.dstRec with
    | some a, some b => a.rank == b.rank && a.box == b.box && (c.narrows || a.efmt == b.efmt)
    | _, _ => true
  let swzOk := match c.dstRec with
    | some r => r.swz == 0
    | none => true
  let src (p : LayoutRec → Bool) : Bool := match c.srcRec with
    | some r => p r
    | none => false
  let dstNarrow (f : Fmt) : Bool := match c.dstRec with
    | some r => r.efmt == f
    | none => true
  let narrow (f : Fmt) : Bool := (match c.srcRec with
    | some r => r.efmt == .f32
    | none => len % 4 == 0) && dstNarrow f
  let fits := match c.xf with
    | 0 => true
    | 1 => src fun r => toScr && decide (2 ≤ r.rank) && decide (8 ≤ fmtWidth r.efmt)
    | 2 => src fun _ => toScr
    | 3 => src fun r => toScr && decide (2 ≤ r.rank) && r.boxOf 1 % 16 == 0
    | 4 => narrow .bf16
    | 5 => narrow .f16
    | _ => false
  if !two || !swzOk || !fits then some .badDesc
  else if c.xf = 3 ∧ c.dst.base % 1024 ≠ 0 then some .misalign
  else none

/-- Elements outside the extents that the copy may not have (R321). -/
def CopySt.extentsOk (c : CopySt) : Bool :=
  match c.srcRec, c.dstRec with
  | some r, none => !([0, 4, 5].contains c.xf) || (List.range 5).all fun d => c.insideOf r d == r.boxOf d
  | _, _ => true

/-- The range of an end: the entry's checks 2 to 5, or the scratchpad's bounds (R125, R127). -/
def rangeFails (t : Team) (e : CopyEnd) (n : Nat) (r : HRight) : Option EStatus :=
  if n = 0 then none else
    match e with
    | .handle _ _ h en off => match heCheck en h (off : Nat) n 1 r with
      | .error x => some (statusOf x.cause)
      | .ok _ => none
    | .scratch off => if off + n ≤ t.scrBytes then none else some .bounds
    | .virt .. => none

/-- Receivers of a CPYM: the teams on the set bits of the mask. -/
def receiversOf (cores : List Nat) (mask : U64) (tbase tstep : Nat) : List Receiver :=
  let bits := (List.range 64).filter fun j => mask.getLsbD j
  bits.zipIdx.map fun (j, i) => { bit := j, core := nth cores 0 j, team := (tbase + i * tstep) % 2 ^ 32 }

/-- A copy's block, read at issue: the copy, its status where it ends at once, and the state after what it read. -/
def State.copyBlock (s : State) (t : Team) (b : SReg) (mask : Option U64) (slot : Nat) : CopySt × State :=
  let r (i : Nat) : U64 := t.sreg (b + BitVec.ofNat 6 i)
  let w (hi lo : Nat) : Nat := bitsOf (r 2).toNat hi lo
  let mc := mask.isSome
  let lays := if mc then w 0 0 else w 1 0
  let sv := w 23 23 == 1
  let bv := w 20 20 == 1
  let bar := w 19 14
  let cores := s.dieCores (s.dieOf t.core)
  let m := mask.getD 0
  let dst1 := (r 1).toNat
  let bad := w 21 21 != 0 || w 6 2 != 0 || decide (w 13 12 > 1) || decide (w 11 10 > 1) || decide (w 9 7 > 5)
    || (lays != 0 && decide (b.toNat + 6 > 63)) || (lays == 0 && w 63 24 == 0) || (lays != 0 && w 63 24 != 0)
    || (bv && decide (bar ≥ t.desc.nbar)) || (w 13 12 == 1 && decide ((r 0).toNat ≥ 2 ^ 20))
    || (!mc && w 11 10 == 1 && decide (dst1 ≥ 2 ^ 20)) || (bitsOf lays 0 0 == 1 && w 13 12 == 1) || (bitsOf lays 1 1 == 1 && w 11 10 == 1)
    || (lays != 0 && bitsOf (r 6).toNat 63 32 != 0)
    || (mc && (w 11 10 != 1 || !bv || m == 0 || decide (m.toNat ≥ 2 ^ cores.length)))
  let (_, sta, s) := if sv then let (e, x, s) := s.handleEnd t (r 3)
                                (e, some x, s)
                     else (none, none, s)
  let (staPages, s) := match sta with
    | some e => s.endPages t e 16 .write
    | none => ([], s)
  let ext := [bitsOf (r 4).toNat 31 0, bitsOf (r 4).toNat 63 32, bitsOf (r 5).toNat 31 0, bitsOf (r 5).toNat 63 32, bitsOf (r 6).toNat 31 0]
  let recvs := if mc && !bad then receiversOf cores m (bitsOf dst1 63 32) (bitsOf dst1 23 20) else []
  let c : CopySt := { slot := slot, src := .scratch 0, dst := .scratch 0, n := 0, xf := w 9 7, sta := sta, staPages := staPages, mcast := mc,
                      egen := bitsOf dst1 31 24, mask := m, recvs := recvs,
                      bar := if bv then some (bar, (t.bar bar).gen.toNat) else none }
  if bad then ({ c with status := some .badDesc, bar := if bar < t.desc.nbar then c.bar else none }, s)
  else
    let (e1, src, s) := if w 13 12 = 1 then (none, CopyEnd.scratch (r 0).toNat, s) else s.handleEnd t (r 0)
    let (e2, dst, s) := if mc then (none, CopyEnd.scratch (bitsOf dst1 19 0), s)
                        else if w 11 10 = 1 then (none, CopyEnd.scratch dst1, s) else s.handleEnd t (r 1)
    let c := { c with src := src, dst := dst, ext := if lays = 0 then [] else ext }
    let (r1, s) := s.layoutFor t (bitsOf lays 0 0 == 1) e1 src
    let (r2, s) := s.layoutFor t (bitsOf lays 1 1 == 1) e2 dst
    let len := w 63 24
    let c := { c with srcRec := r1.toOption.getD none, dstRec := r2.toOption.getD none }
    let known := (r1.toOption.isSome && r2.toOption.isSome)
    -- a malformed record comes before the failure of an entry, and the bytes are those of LEN or of the box, whatever fails (R292)
    let c := { c with n := if known then c.count len else if (r1.toOption.getD none).isSome then { c with dstRec := c.srcRec }.count len else 0 }
    let st := (if errorOf r1 == some .badDesc || errorOf r2 == some .badDesc then some EStatus.badDesc else none).orElse fun _ =>
      (if known then c.transformOk len else none).orElse fun _ => (e1.orElse fun _ => errorOf r1).orElse fun _ => (e2.orElse fun _ => errorOf r2).orElse fun _ =>
        if !c.extentsOk then some .bounds
        else (rangeFails t src c.srcSpan .rr).orElse fun _ => if mc then none else rangeFails t dst c.dstSpan .rw
    let (ps, s) := if st.isSome then ([], s) else s.endPages t src c.srcSpan .read
    let (pd, s) := if st.isSome then ([], s) else s.endPages t dst c.dstSpan .write
    ({ c with status := st, srcPages := ps, dstPages := pd }, s)

/-- Slots of a team's copies in flight. -/
def Team.copySlots (t : Team) : List Nat :=
  t.ops.filterMap fun o => if o.done then none else match o.body with
    | .copy c => some c.slot
    | _ => none

/-- Copies of the team still in flight. -/
def Team.copyIds (t : Team) : List Nat :=
  t.ops.filterMap fun o => if o.done then none else match o.body with
    | .copy _ => some o.id
    | _ => none

/-- Issues a CPY or CPYM (R292, R293): it waits for a slot and, above 65,536 bytes, for power leave; then the slot number goes to d,
and the lines it writes become empty. -/
def copyIssue (i : Instr) (d b : SReg) (c : Option SReg) (s : State) : Out :=
  let regs := [d, b, b + 1, b + 2, b + 3, b + 4, b + 5, b + 6] ++ c.toList
  scalarRun i regs s fun tk t =>
    match freeBelow t.copySlots 64 with
    | none => stay s
    | some low =>
        if t.pathFull .cp then stay s else
          let (k, s1) := s.copyBlock t b (c.map t.sreg) low
          let big := k.status != some .badDesc && decide (65536 < k.n)
          if big && !t.leaveGot then s.askLeave tk t
          else
            let (logged, ok, s2) := s1.coreEvent t.core 0x06 t.riderCtx [BitVec.ofNat 64 low]
            if !ok then .next { s with haeth := s2.haeth, debugHalt := s2.debugHalt }
            else
              let slot := match logged with
                | some (x :: _) => bitsOf x.toNat 5 0
                | _ => low
              if t.copySlots.contains slot then stay s
              else
                let k := { k with slot := slot }
                let ids := t.copyIds
                let ord := bitsOf (t.sreg (b + 2)).toNat 22 22 == 1
                let (s, id) := s2.issueOp tk { t.riderOp .cp .cp .plain .split (.copy k) with leave := big }
                let s := s.modTeam tk fun t =>
                  let t := if ord then t.modOp id fun o => { o with deps := distinct (o.deps ++ ids) } else t
                  let t := if k.status.isNone && k.dst.isScratch && !k.mcast then
                      let ls := k.lines
                      { t with emptyLines := distinct (t.emptyLines ++ ls), owners := ls.foldl (fun m l => sparseSet 0 l slot m) t.owners }
                    else t
                  ({ t with leaveGot := false }).setSreg d (BitVec.ofNat 64 slot)
                .next (s.retireRider tk)

def execCpy (d b : SReg) (s : State) : Out := copyIssue (.cpy d b) d b none s
def execCpym (d b c : SReg) (s : State) : Out := copyIssue (.cpym d b c) d b (some c) s

/-! Landing (R292, R318). -/

/-- Bytes of a copy land on its barrier while GEN is the one at issue (R139, R209). -/
def Team.copyBytes (t : Team) (bar : Option (Nat × Nat)) (now n : Nat) : Team :=
  match bar with
  | some (b, g) => if (t.bar b).gen.toNat = g then t.setBar b ((t.bar b).bytes now n false) else t
  | none => t

/-- A copy still owns an empty line (R138). -/
def Team.owns (t : Team) (c : CopySt) (l : Nat) : Bool := t.emptyLines.contains l && sparseGet 0 t.owners l == c.slot

/-- A line the copy owns becomes full once all of the copy's bytes in it have landed (R138). -/
def Team.fillLines (t : Team) (c : CopySt) (ls : List Nat) (all : Bool) : Team :=
  let due := ls.filter fun l => t.owns c l && (all || (c.lineUnits l).all c.landed.contains)
  { t with emptyLines := t.emptyLines.filter fun l => !due.contains l }

/-- Ends a copy's movement with a status. -/
def State.failCopy (s : State) (tk id : Nat) (c : CopySt) (e : EStatus) : State :=
  s.modTeam tk fun t => t.modOp id fun o => { o with body := .copy { c with status := some e } }

/-- The engine that moves a team's copy. -/
def State.copyMover (s : State) (tk : Nat) (t : Team) : Mover := { die := s.dieOf t.core, team := some (tk, t), counts := true }

/-- An access of a copy to this module by its own number that finds neither a forwarding entry nor a window freezes its port (R396). -/
def State.copyAway (s : State) (e : CopyEnd) (pages : List PageAt) (va n right : Nat) : Option State :=
  match (s.endSpot e pages va (if right = 0 then .read else .write)).1 with
  | .ok sp => match s.crossing sp.key n right with
    | .away port => some (s.freeze 2 port (causeCode .addrPerm) (keyPa sp.key))
    | _ => none
  | .error _ => none

/-- A part of a copy's source is read. -/
def State.copyRead (s : State) (tk : Nat) (t : Team) (o : Op) (c : CopySt) (i : Nat) : State :=
  match s.readSource (s.copyMover tk t) o c i with
  | none => (s.copyAway c.src c.srcPages (16 * i) 16 0).getD s
  | some (.error e, s) => s.failCopy tk o.id c e
  | some (.ok c, s) => s.modTeam tk fun t => t.modOp o.id fun o => { o with body := .copy c }

/-- A unit that lands is the first of a copy in its line: its access counts (R397). -/
def CopySt.firstIn (c : CopySt) (ds : List DestByte) : Bool :=
  let line (ds : List DestByte) : Option Nat := ds.head?.map (·.off / 128)
  !c.landed.any fun u => line (c.unitBytes u) == line ds

/-- The bytes of the scratchpad that some destination bytes take another value at. -/
def State.oldBytes (s : State) (t : Team) (xs : List (DestByte × Byte)) (m : Sparse Byte) : Sparse Byte :=
  xs.foldl (fun m x => let b := s.scrByte t x.1.off
                       if b = x.2 then m else sparsePut x.1.off b m) m

/-- A unit of a CPY lands, once the parts that it comes from have been read. -/
def State.landUnit (s : State) (tk : Nat) (t : Team) (o : Op) (c : CopySt) (u : Nat) : State :=
  let ds := c.unitBytes u
  if !c.ready ds then s else
    let xs := ds.map fun d => (d, c.value c.got d)
    let r : Option (Except EStatus Nat × State) :=
      if c.dst.isScratch then some (.ok 0, xs.foldl (fun s x => s.scrLand t x.1.off [x.2]) s)
      else storeLines { s.copyMover tk t with counts := c.firstIn ds } c.dst c.dstPages (lineWrites xs) [] s
    match r with
    | none => ((lineWrites xs).findSome? fun w => s.copyAway c.dst c.dstPages w.1 w.2.length 1).getD s
    | some (.error e, s) => s.failCopy tk o.id c e
    | some (.ok v, s') =>
        let c := { c with landed := c.landed ++ [u], v := max c.v v, olds := if c.dst.isScratch then s.oldBytes t xs c.olds else c.olds }
        s'.modTeam tk fun t =>
          let t := (t.joinFenced o.id v).modOp o.id fun o => { o with body := .copy c }
          let t := if c.dst.isScratch then t.fillLines c (distinct (ds.map fun d => d.off / 128)) false else t
          t.copyBytes c.bar s'.clk.cycle ds.length

/-- The receiver of a CPYM on a bit of its mask. -/
def CopySt.setRecv (c : CopySt) (bit : Nat) (f : Receiver → Receiver) : CopySt :=
  { c with recvs := c.recvs.map fun r => if r.bit = bit then f r else r }

/-- A unit of a CPYM lands at a receiver that accepted the delivery; the source is read once for all (R328, R329). A frozen receiver
takes none (R361). -/
def State.landPacket (s : State) (tk : Nat) (o : Op) (c : CopySt) (u bit : Nat) : State :=
  match c.recvs.find? fun r => r.bit == bit with
  | some { decided := some (some serial), landed := ls, cut := false, core := rc, .. } =>
      if ls.contains u || (s.core rc).frozen then s else
        let ds := c.unitBytes u
        if !c.ready ds then s else
          let c := c.setRecv bit fun r => { r with landed := r.landed ++ [u] }
          let s := s.modTeam tk fun t => t.modOp o.id fun o => { o with body := .copy c }
          (match s.teamBySerial serial with
           | none => s
           | some (k, rt) =>
               let s := ds.foldl (fun s d => s.scrLand rt d.off [c.value c.got d]) s
               match c.bar with
               | some (b, _) => s.modTeam k fun rt => rt.setBar b ((rt.bar b).bytes s.clk.cycle ds.length true)
               | none => s)
  | _ => s

/-- COPY_LAND at a team's copy: step `n` % 32 of unit `n` / 32, its landing or the reading of a part of its source. For a CPYM, `n` / 64 is that
number, and `n` % 64 the receiver's bit. -/
def State.landCopy (s : State) (tk op n : Nat) : State :=
  match s.team? tk with
  | none => s
  | some t =>
      match t.op? op with
      | none => s
      | some o =>
          match o.body with
          | .copy c =>
              if o.done || c.status.isSome || !t.depsMet o || (s.core t.core).frozen then s
              else
                let w := if c.mcast then n / 64 else n
                let u := w / 32
                if c.units ≤ u then s
                else match c.stepPart u (w % 32) with
                  | some i => s.copyRead tk t o c i
                  | none => if w % 32 ≠ 0 then s
                      else if c.mcast then s.landPacket tk o c u (n % 64)
                      else if c.landed.contains u then s
                      else s.landUnit tk t o c u
          | _ => s

/-! Acceptance (R294, R329, R367). -/

/-- The units of the packet that a unit travels in: those of its 128-byte line (R328). -/
def CopySt.packet (c : CopySt) (u : Nat) : List Nat :=
  let line (u : Nat) : Nat := (c.dst.base - c.phase + 16 * u) / 128
  (List.range c.units).filter fun v => line v == line u

/-- A packet of a CPYM is on its way: its part of the source has been read. A delivery of no byte is decided without one. -/
def CopySt.sends (c : CopySt) : Bool :=
  c.n == 0 || (List.range c.units).any fun u => (c.packet u).all fun v => c.ready (c.unitBytes v)

/-- A team accepts a delivery. -/
def acceptsDelivery (rt : Team) (c : CopySt) : Bool :=
  match c.bar with
  | none => false
  | some (b, _) =>
      decide (b < rt.desc.nbar) && (rt.bar b).gen.toNat == c.egen && decide (c.dst.base + c.n ≤ rt.scrBytes)
        && (rt.pre.map fun p => !p.closed).getD true

/-- A refused delivery marks the barrier INCOMPLETE where the multicast window of a save refused it (R367). -/
def State.noteRefused (s : State) (launch teamId core : Nat) (c : CopySt) : State :=
  match c.bar with
  | none => s
  | some (b, _) =>
      let mark (t : Team) : Team := if b < t.desc.nbar then t.setBar b { t.bar b with inc := true } else t
      let mine (t : Team) : Bool := t.launch == launch && t.teamId == teamId && t.core == core
      let closed (t : Team) : Bool := match t.pre with
        | some p => p.closed
        | none => false
      let refuse (t : Team) : Team :=
        if mine t && closed t then
          let t := mark t
          { t with pre := t.pre.map fun p => { p with refused := distinct (p.refused ++ [b]) } }
        else t
      let keep (x : Saved) : Saved := if !x.discard && mine x.team then { x with team := mark x.team } else x
      { s with teams := s.teams.map fun p => (p.1, refuse p.2), cp := { s.cp with saved := s.cp.saved.map keep } }

/-- The decision a replay's log holds for a delivery to a team, where its turn has come: the receiver has the logged count, and is resident where it
accepted; `none` in the outer option to wait (R378, R384). -/
def State.mcdGate (s : State) (launch core team issuer slot : Nat) (rt : Option Team) : Option (Option Bool) :=
  match s.gating launch with
  | none => some none
  | some r =>
      match r.expect core with
      | .event _ _ ev counts =>
          let w := (nth (evBody ev) 0 0).toNat
          let ok := w % 2 == 1
          let turn : Bool := match rt with
            | some t => decide (evIcnt ev ≤ t.retired % 2 ^ 40)
            | none => !ok
          if evType ev = 0x07 ∧ bitsOf w 63 32 = issuer ∧ bitsOf w 13 8 = slot ∧ ofAgent ev counts launch team 32 ∧ turn then some (some ok) else none
      | _ => none

/-- MCAST_DELIVERY_ARRIVE: the first packet of a delivery reaches a receiver's core, and it is accepted or refused. -/
def execMcastDeliveryArrive (tk op recv : Nat) (s : State) : Out :=
  match s.team? tk with
  | none => .next s
  | some t =>
      match (t.op? op).bind fun o => match o.body with
        | .copy c => if o.done || c.status.isSome || !t.depsMet o || !c.sends then none else (c.recvs.find? fun r => r.bit == recv).map fun r => (c, r)
        | _ => none with
      | none => .next s
      | some (c, r) =>
          if r.decided.isSome || (s.core r.core).frozen then .next s else
            let rt := (s.coreTeams r.core).find? fun x => x.2.launch == t.launch && x.2.teamId == r.team && !x.2.killed
            match s.mcdGate t.launch r.core r.team t.teamId c.slot (rt.map (·.2)) with
            | none => .next s
            | some forced =>
                let ok := forced.getD ((rt.map fun x => acceptsDelivery x.2 c).getD false)
                let who := if ok then rt.map (·.2.serial) else none
                let body := [BitVec.ofNat 64 (t.teamId * 2 ^ 32 + c.slot * 2 ^ 8 + (if ok then 1 else 0))]
                let s := if forced.isSome then s.stepReplay r.core else match rt with
                  | some x => s.record r.core (s.levelOf t.launch) 1 0x07 x.2.riderCtx body
                  | none => s.recordAbsent r.core t.launch r.team 0x07 body
                let s := if ok then s else s.noteRefused t.launch r.team r.core c
                .next (s.modTeam tk fun t => t.modOp op fun o => { o with body := .copy (c.setRecv recv fun r => { r with decided := some who }) })

/-! The end of a copy (R289, R292). -/

/-- The bytes of a status record. -/
def statusRecord (bytes slot : Nat) (e : EStatus) (deliv : U64) : List Byte :=
  bytesOf (bytes % 2 ^ 40 * 2 ^ 24 + slot * 2 ^ 8 + statusCode e) 8 ++ bytesOf deliv.toNat 8

/-- Writes a status record in one store; answers whether it was written, and V; none while a replay holds it. -/
def State.writeStatus (s : State) (m : Mover) (e : CopyEnd) (pages : List PageAt) (rec : List Byte) : Option (Bool × Nat × State) :=
  let fits := match e with
    | .handle _ _ h en off => (match heCheck en h (off : Nat) 16 16 .rw with
      | .ok _ => true
      | .error _ => false)
    | _ => false
  if !fits then some (false, 0, s) else
    (storeLines m e pages [(e.base, rec.map fun b => (b, 0xFF))] [] s).map fun r => match r with
      | (.error _, s) => (false, 0, s)
      | (.ok v, s) => (true, v, s)

/-- Every unit has landed, at every receiver that accepted. -/
def CopySt.complete (c : CopySt) : Bool :=
  if c.mcast then c.recvs.all fun r => match r.decided with
    | none => false
    | some none => true
    | some (some _) => r.cut || r.finished c
  else decide (c.n ≤ c.landedBytes c.landed)

/-- DELIV: the mask, less the receivers whose delivery was refused (R294, R329). -/
def CopySt.deliv (c : CopySt) : U64 :=
  c.recvs.foldl (fun m r => if r.decided == some none || r.cut then m &&& ~~~(1#64 <<< r.bit) else m) c.mask

/-- A receiver has accepted the delivery: BYTES counts it (R289). -/
def CopySt.accepted (c : CopySt) : Bool := c.recvs.any fun r => match r.decided with
  | some (some _) => true
  | _ => false

/-- The status a copy ends with, none while it runs. -/
def CopySt.outcome (c : CopySt) : Option EStatus :=
  match c.status with
  | some e => some e
  | none => if !c.complete then none else if c.mcast && c.deliv != c.mask then some .refused else some .ok

/-- After a fault, the bytes that a receiver has not received are added to its barrier (R292, R294). -/
def State.padReceivers (s : State) (c : CopySt) : State :=
  match c.bar with
  | none => s
  | some (b, _) =>
      c.recvs.foldl (fun s r => match r.decided with
        | some (some serial) =>
            let rest := c.n - c.landedBytes r.landed
            if r.cut then s else match s.teamBySerial serial with
              | some (k, _) => s.modTeam k fun rt => rt.setBar b ((rt.bar b).bytes s.clk.cycle rest true)
              | none => s
        | _ => s) s

/-- After a cancel or a fault each byte of the lines that a copy still owns holds its old value or the copy's (R138): each is chosen freely among what
it holds, what it held before the copy wrote it, and what the copy has read for it. -/
def State.mixLines (s : State) (tk : Nat) (c : CopySt) : State :=
  (List.range c.units).foldl (fun s u => (c.unitBytes u).foldl (fun s d => match s.team? tk with
    | none => s
    | some t =>
        let now := s.scrByte t d.off
        let old := (sparseFind d.off c.olds).getD now
        let new := if c.ready [d] then c.value c.got d else now
        if !t.owns c (d.off / 128) || (old == now && new == now) then s else
          let (a, s) := s.freeBit
          let (b, s) := s.freeBit
          s.scrLand t d.off [if a then now else if b then old else new]) s) s

/-- A copy that may not end: its core is frozen, or it is to count bytes at a receiver that is (R361); in a halt every copy ends (R370). -/
def State.copyHeld (s : State) (t : Team) (c : CopySt) : Bool :=
  s.halt.isNone && ((s.core t.core).frozen || (c.mcast && c.status.isSome && c.recvs.any fun r => (s.core r.core).frozen))

/-- COPY_END at a team's copy. -/
def State.endCopy (s : State) (tk op : Nat) : State :=
  match s.team? tk with
  | none => s
  | some t =>
      match (t.op? op).bind fun o => match o.body with
        | .copy c => if o.done || s.copyHeld t c then none else c.outcome.map fun e => (c, e)
        | _ => none with
      | none => s
      | some (c, e) =>
          let deliv := c.deliv
          let moved := if c.mcast then (if c.accepted then c.n else 0) else c.landedBytes c.landed
          let s0 := s
          let s := if c.status.isNone then s else if c.mcast then s.padReceivers c else if c.dst.isScratch then s.mixLines tk c else s
          let s := s.modTeam tk fun t =>
            let t := if c.mcast then t else t.copyBytes c.bar s.clk.cycle (c.n - c.landedBytes c.landed)
            if c.dst.isScratch && !c.mcast && c.n != 0 then t.fillLines c c.lines true else t
          let m : Mover := { die := s.dieOf t.core, team := some (tk, t) }
          let w := match c.sta with
            | some st => s.writeStatus m st c.staPages (statusRecord moved c.slot e (if c.mcast then deliv else 0))
            | none => some (true, 0, s)
          match w with
          | none => s0
          | some (ok, v, s) =>
              s.modTeam tk fun t =>
                let t := if e = .ok ∧ ok then t else { t with mstat := t.mstat ||| BitVec.ofNat 32 (2 ^ 9) }
                ((t.joinV none (max c.v v)).joinFenced op v).complete op

end Sys2Proof.Machine
end

