-- ==== Sys2Proof/Machine/Fabric.lean ====
section
/-!
DEFINITION. Machine/Fabric.lean: FRED and FMC (R309, R310), the folds of the switch (R346 to R348), inbound accesses (R159, R361,
R396, R404), dead planes (R394, R395) and moves of pages (R398, R399).
-/
namespace Sys2Proof.Machine

/-! The end of a fabric operation (R289). -/

/-- The pages that a FRED or FMC read at issue: of its source, its destination and its status record (R162). -/
def Op.srcPages (o : Op) : List PageAt := nth o.pages [] 0
def Op.dstPages (o : Op) : List PageAt := nth o.pages [] 1
def Op.staPages (o : Op) : List PageAt := nth o.pages [] 2

/-- Bytes of the source of an operation, read in 16-byte parts; none while a replay holds a read. -/
def State.readEnd (s : State) (m : Mover) (o : Op) (e : CopyEnd) (va n : Nat) : Option (Except EStatus (List Byte) × State) :=
  if n = 0 then some (.ok [], s) else
    (readChunks m o e o.srcPages ((List.range ((va + n - 1) / 16 - va / 16 + 1)).map (· + va / 16)) [] s).map fun r =>
      (r.1.map fun cs => (List.range n).map fun i => BitVec.ofNat 8 (chunkByte cs (va + i)), r.2)

/-- A FRED or FMC ends: its status record, CLERR, and CL falls. In a halt it ends CANCELLED (R370). It goes on while a replay holds the record, or its core is
frozen (R361). -/
def State.endFabricOp (s : State) (tk : Nat) (t : Team) (o : Op) (sta : Option CopyEnd) (e : EStatus) (bytes : Nat) : State :=
  let e := if s.halt.isSome then .cancelled else e
  let m : Mover := { die := s.dieOf t.core, team := some (tk, t) }
  let w := match sta with
    | some st => s.writeStatus m st o.staPages (statusRecord bytes 0 e 0)
    | none => some (true, 0, s)
  if s.halt.isNone && (s.core t.core).frozen then s else
  match w with
  | none => s
  | some (ok, v, s) =>
      s.modTeam tk fun t =>
        let t := if e = .ok ∧ ok then t else { t with mstat := t.mstat ||| BitVec.ofNat 32 (2 ^ 10) }
        ((t.joinV none v).joinFenced o.id v).complete o.id

/-- The address of a status record or of another end, read at issue. -/
def State.optEnd (s : State) (t : Team) (sv : Bool) (r : U64) : Option CopyEnd × State :=
  if sv then let (_, e, s) := s.handleEnd t r
             (some e, s)
  else (none, s)

/-- An end's checks 2 to 5 over a range. -/
def endRange (e : CopyEnd) (n align : Nat) (r : HRight) : Option EStatus :=
  match e with
  | .handle _ _ h en off => (match heCheck en h (off : Nat) n align r with
    | .error x => some (statusOf x.cause)
    | .ok _ => none)
  | _ => none

/-- The pages of an operation's ends, read as it issues; of one that ends at once, those of its status record. -/
def State.issuePages (s : State) (t : Team) (bad : Option EStatus) (src : CopyEnd) (sn : Nat) (dst : CopyEnd) (dn : Nat) (sta : Option CopyEnd) :
    List (List PageAt) × State :=
  let (ps, s) := if bad.isSome then ([], s) else s.endPages t src sn .read
  let (pd, s) := if bad.isSome then ([], s) else s.endPages t dst dn .write
  let (pt, s) := match sta with
    | some e => s.endPages t e 16 .write
    | none => ([], s)
  ([ps, pd, pt], s)

/-! FRED (R309). -/

def fredCount (ctl : U64) : Nat := bitsOf ctl.toNat 63 40
def fredN (ctl : U64) : Nat := bitsOf ctl.toNat 39 32
def fredRn (ctl : U64) : Nat := bitsOf ctl.toNat 31 24
def fredRid (ctl : U64) : Nat := bitsOf ctl.toNat 23 8
def fredOp (ctl : U64) : Option AtomOp := decodeAtomOp (BitVec.ofNat 4 (bitsOf ctl.toNat 3 0))
def fredTy (ctl : U64) : Option AtomType := decodeAtomType (BitVec.ofNat 2 (bitsOf ctl.toNat 5 4))
def fredRsm (ctl : U64) : Bool := fredOp ctl == some .rsm

/-- The control word is one that R309 allows. -/
def fredOk (ctl : U64) : Bool :=
  let shape := fredCount ctl != 0 && decide (1 ≤ fredN ctl) && decide (fredN ctl ≤ 144)
    && (if fredRsm ctl then decide (1 ≤ fredRn ctl) && decide (fredRn ctl ≤ 126) else fredRn ctl == 0)
  shape && match fredTy ctl, fredOp ctl with
    | some .f32, some op => op == .add || op == .min || op == .max || op == .rsm
    | some _, some op => op == .add || op == .min || op == .max || op == .minu || op == .maxu
    | _, _ => false

/-- Bytes of an element or triple, and the stride of RSM triples at the destination. -/
def fredSize (ctl : U64) : Nat := if fredRsm ctl then 4 * (fredRn ctl + 2) else if fredTy ctl = some .i64 then 8 else 4
def fredStride (ctl : U64) : Nat := (fredSize ctl + 127) / 128 * 128

/-- Fold units from a destination address: (address, offset of its bytes at the source, bytes). -/
def fredUnits (ctl : U64) (va : Nat) : List (Nat × Nat × Nat) :=
  if fredRsm ctl then (List.range (fredCount ctl)).map fun i => (va + i * fredStride ctl, i * fredSize ctl, fredSize ctl)
  else
    let n := fredCount ctl * fredSize ctl
    (List.range ((va + n - 1) / 128 - va / 128 + 1)).map fun i =>
      let lo := max va (128 * (va / 128 + i))
      let hi := min (va + n) (128 * (va / 128 + i + 1))
      (lo, lo - va, hi - lo)

def execFred (b : SReg) (s : State) : Out :=
  scalarRun (.fred b) [b, b + 1, b + 2, b + 3] s fun tk t =>
    if t.pathFull .cl then stay s else
      let ctl := t.sreg (b + 2)
      let (sta, s) := s.optEnd t (ctl.getLsbD 7) (t.sreg (b + 3))
      let (e1, src, s) := s.handleEnd t (t.sreg b)
      let (e2, dst, s) := s.handleEnd t (t.sreg (b + 1))
      let size := fredSize ctl
      let align := if fredTy ctl = some .i64 then 8 else 4
      let dn := if fredRsm ctl then (fredCount ctl - 1) * fredStride ctl + size else fredCount ctl * size
      let bad := if !fredOk ctl then some .badDesc
        else (((e1.orElse fun _ => endRange src (fredCount ctl * size) align .rr).orElse fun _ => e2).orElse fun _ =>
          endRange dst dn (if fredRsm ctl then 128 else align) .rw)
      let (pages, s) := s.issuePages t bad src (fredCount ctl * size) dst dn sta
      riderIssue s tk { t.riderOp .cl .cl .plain .split (.fred src dst ctl sta false bad []) with pages := pages }

/-- The places of the fold units of a FRED: none where a page is not a peer's. -/
def State.fredPlaces (s : State) (o : Op) (dst : CopyEnd) : List (Nat × Nat × Nat) → List FredUnit → Option (List FredUnit)
  | [], acc => some acc
  | (va, off, n) :: l, acc =>
      match (s.endSpot dst o.dstPages va .write).1 with
      | .error e => s.fredPlaces o dst l (acc ++ [{ peer := 0, pa := 0, off := off, bytes := n, status := some e }])
      | .ok sp =>
          let p := keyPeer sp.key
          if p = 0 ∨ p > 144 then none
          else s.fredPlaces o dst l (acc ++ [{ peer := p, pa := keyPa sp.key, off := off, bytes := n }])

/-- A FRED ends once every unit has ended, with the first status that is not OK (R348). -/
def State.fredEnd (s : State) (tk : Nat) (id : Nat) : State :=
  match s.team? tk with
  | none => s
  | some t =>
      match t.op? id with
      | some o => (match o.body with
       | .fred _ _ _ sta true none us =>
          if us.all fun u => u.status.isSome then
            let e := (us.findSome? fun u => match u.status with
              | some .ok => none
              | x => x).getD .ok
            s.endFabricOp tk t o sta e (us.foldl (fun n u => if u.status = some .ok then n + u.bytes else n) 0)
          else s
       | _ => s)
      | none => s

/-- The peers of a FOLD event's body. -/
def foldPeers (n : Nat) (ws : List U64) : List Nat := ((ws.drop 1).flatMap fun w => (bytesOf w.toNat 8).map (·.toNat)).take n

/-- The logged fold order that a contribution to a unit of this module carries: that of the first FOLD event of its stream still to come that names the
unit (R347). DEDUCED (log entry 13): of a unit whose home is another module, the log of that module gives it. -/
def State.loggedOrder (s : State) (rid unit n : Nat) : List Nat :=
  match s.haeth.replay.filter (·.gating) with
  | none => []
  | some r => ((r.rest (0x400 + s.ownerOn (homeDie unit) unit)).findSome? fun x =>
      if evType x.1 = 0x0B ∧ nth (evBody x.1) 0 0 == BitVec.ofNat 64 (rid * 2 ^ 48 + unit % 2 ^ 48) then some (foldPeers n (evBody x.1)) else none).getD []

/-- The contributions of a FRED leave, one packet to each fold unit, or the FRED ends at once; one whose units have all ended ends, where something held its
end. A frozen core's engines send nothing (R361). -/
def State.sendFred (s : State) (tk : Nat) (t : Team) (o : Op) : State :=
  match o.body with
  | .fred src dst ctl sta false bad _ =>
      if !t.depsMet o || (s.halt.isNone && (s.core t.core).frozen) then s else
        let fail (s : State) (e : EStatus) : State := s.endFabricOp tk t o sta e 0
        (match bad.orElse fun _ => if s.halt.isSome then some .cancelled else none with
         | some e => fail s e
         | none =>
             let m : Mover := { die := s.dieOf t.core, team := some (tk, t) }
             match s.fredPlaces o dst (fredUnits ctl dst.base) [] with
             | none => fail s .badDesc
             | some us =>
                 match s.readEnd m o src src.base (fredCount ctl * fredSize ctl) with
                 | none => s
                 | some (.error e, s) => fail s e
                 | some (.ok bs, s) =>
                     let agent : RemoteAgent := { recorded := decide (1 ≤ s.levelOf t.launch), launch := t.launch, team := t.teamId, who := 32, lane := 0, icnt := o.icnt }
                     let order (u : FredUnit) : List Nat :=
                       if ctl.getLsbD 6 || s.fab.self != some u.peer || (s.gating t.launch).isNone then [] else s.loggedOrder (fredRid ctl) u.pa (fredN ctl)
                     let s := us.foldl (fun s u =>
                       if u.status.isSome then s
                       else s.sendPacket { packetFor 0x05 u.peer u.pa with
                         agents := [agent], order := order u,
                         opc := bitsOf ctl.toNat 3 0, ty := bitsOf ctl.toNat 5 4, det := ctl.getLsbD 6, n := fredN ctl, rn := fredRn ctl,
                         rid := fredRid ctl, payload := (bs.drop u.off).take u.bytes }) s
                     let s := s.modTeam tk fun t => t.modOp o.id fun o => { o with body := .fred src dst ctl sta true none us }
                     s.fredEnd tk o.id)
  | _ => s.fredEnd tk o.id

/-- A unit of a FRED of this module ends; then the FRED, if it was the last. -/
def State.fredUnitEnd (s : State) (rid pa : Nat) (e : EStatus) : State :=
  let waits (u : FredUnit) : Bool := u.pa == pa && u.status.isNone
  let here (o : Op) : Bool := !o.done && match o.body with
    | .fred _ _ ctl _ true none us => fredRid ctl == rid && us.any waits
    | _ => false
  match s.teams.findSome? fun p => (p.2.ops.find? here).map fun o => (p.1, o) with
  | none => s
  | some (tk, o) =>
      match o.body with
      | .fred src dst ctl sta sent bad us =>
          let us := match us.findIdx? waits with
            | some i => modNth (fun u => { u with status := some e }) i us
            | none => us
          (s.modTeam tk fun t => t.modOp o.id fun o => { o with body := .fred src dst ctl sta sent bad us }).fredEnd tk o.id
      | _ => s

/-! FMC (R310, R400). -/

def execFmc (b : SReg) (s : State) : Out :=
  scalarRun (.fmc b) [b, b + 1, b + 2, b + 3] s fun tk t =>
    if t.pathFull .cl then stay s
    else if !t.leaveGot then s.askLeave tk t
    else
      let w := (t.sreg (b + 2)).toNat
      let len := bitsOf w 63 24
      let (sta, s) := s.optEnd t (bitsOf w 23 23 == 1) (t.sreg (b + 3))
      let (e1, src, s) := s.handleEnd t (t.sreg b)
      let (e2, dst, s) := s.handleEnd t (t.sreg (b + 1))
      let bad := if len = 0 ∨ bitsOf w 22 12 ≠ 0 then some .badDesc
        else (((e1.orElse fun _ => endRange src len 1 .rr).orElse fun _ => e2).orElse fun _ => endRange dst len 1 .rw)
      let s := s.modTeam tk fun t => { t with leaveGot := false }
      let (pages, s) := s.issuePages t bad src len dst len sta
      riderIssue s tk { t.riderOp .cl .cl .plain .split (.fmc src dst len (bitsOf w 11 0) sta false bad [] [] []) with pages := pages, leave := true }

/-- The places of the lines of a destination: (physical address, bytes); an error where a page is local. -/
def State.fmcPlaces (s : State) (o : Op) (dst : CopyEnd) : List (Nat × Nat) → List (Nat × Nat) → Except EStatus (List (Nat × Nat))
  | [], acc => .ok acc
  | (va, n) :: l, acc =>
      match (s.endSpot dst o.dstPages va .write).1 with
      | .error e => .error e
      | .ok sp => if keyPeer sp.key = 0 then .error .badDesc else s.fmcPlaces o dst l (acc ++ [(keyPa sp.key, n)])

/-- Line by line, a range of addresses. -/
def lineRanges (va n : Nat) : List (Nat × Nat) :=
  (linesOf va n).map fun l => let lo := max va (128 * l)
                              (lo, min (va + n) (128 * (l + 1)) - lo)

/-- Where this module is a member that has accepted: every line has landed, and the lease clock has passed their visibility time (R159, R400). -/
def State.fmcLanded (s : State) (o : Op) : Bool :=
  match o.body with
  | .fmc _ _ _ _ _ _ _ _ ds ms => !(ms.any fun m => m == (s.selfPeer, some true)) || (decide (ds.length ≤ o.units.length) && s.settled o.ackV)
  | _ => true

/-- An FMC ends once every member has answered (R310). -/
def State.fmcEnd (s : State) (tk : Nat) (id : Nat) : State :=
  match s.team? tk with
  | none => s
  | some t =>
      match t.op? id with
      | some o => (match o.body with
       | .fmc _ _ len _ sta true none _ _ ms =>
          if ms.all (fun x => x.2.isSome) && s.fmcLanded o then
            let refused := ms.any fun x => x.2 == some false
            let some? := ms.any fun x => x.2 == some true
            s.endFabricOp tk t o sta (if refused then .refused else .ok) (if some? then len else 0)
          else s
       | _ => s)
      | none => s

/-- The delivery of an FMC leaves: its source is read once; one that every member has answered ends, where something held its end. -/
def State.sendFmc (s : State) (tk : Nat) (t : Team) (o : Op) : State :=
  match o.body with
  | .fmc src dst len g sta false bad _ _ _ =>
      if !t.depsMet o || (s.halt.isNone && (s.core t.core).frozen) then s else
        let fail (s : State) (e : EStatus) : State := s.endFabricOp tk t o sta e 0
        let m : Mover := { die := s.dieOf t.core, team := some (tk, t) }
        (match bad.orElse fun _ => if s.halt.isSome then some .cancelled else none with
         | some e => fail s e
         | none =>
             match s.fmcPlaces o dst (lineRanges dst.base len) [] with
             | .error e => fail s e
             | .ok ds =>
                 match s.readEnd m o src src.base len with
                 | none => s
                 | some (.error e, s) => fail s e
                 | some (.ok bs, s) =>
                     let ms := (sparseGet [] s.fab.groups g).map fun p => (p, none)
                     (s.modTeam tk fun t => t.modOp o.id fun o => { o with body := .fmc src dst len g sta true none bs ds ms }).fmcEnd tk o.id)
  | _ => s.fmcEnd tk o.id

/-- A range lies in this module's multicast window (R400, R406). -/
def State.inMcastWindow (s : State) (pa n : Nat) : Bool :=
  match s.cp.mcastWindow with
  | some (base, size) => decide (base ≤ pa) && decide (pa + n ≤ base + size)
  | none => false

/-! The switch (R346 to R348). -/

/-- A packet that the switch sends to a peer. -/
def State.switchSend (s : State) (plane : Nat) (p : Packet) : State :=
  let k := 0x1000 + plane
  let seq := (sparseGet 0 s.fab.pseqOut k + 1) % 2 ^ 16
  { s with fab := { s.fab with pseqOut := sparsePut k seq s.fab.pseqOut, out := s.fab.out ++ [{ p with src := 0, plane := plane, pseq := seq }] } }

/-- The header fields of a fold unit's packets (R349). -/
def FoldSt.head (f : FoldSt) : Packet :=
  { packetFor 0x06 f.dst f.unit with plane := f.plane, opc := f.opc, ty := f.ty, det := f.det, n := f.n, rn := f.rn, rid := f.rid }

/-- RDONE or RABORT of a unit to a member; the other fields of the header are those of a packet of the unit. -/
def State.tellMember (s : State) (h : Packet) (peer ptype status : Nat) (order : List Nat) : State :=
  s.switchSend h.plane { packetFor ptype peer h.addr with
    opc := h.opc, ty := h.ty, det := h.det, n := h.n, rn := h.rn, rid := h.rid, status := status, payload := order.map fun x => BitVec.ofNat 8 x }

/-- Two contributions folded, element by element (R346). -/
def foldElems (op : AtomOp) (ty : AtomType) (a b : List U64) : List U64 :=
  if op = .rsm then (rsmMerge (a.map lo32) (b.map lo32)).1.map fun w => w.setWidth 64
  else (a.zip b).map fun p => atomNew op ty p.1 p.2 0

def foldAll (op : AtomOp) (ty : AtomType) : List (List U64) → List U64
  | [] => []
  | x :: l => l.foldl (foldElems op ty) x

/-- The contributions of a unit in fold order: ascending peers under DET; the logged order that they carry in a replay; otherwise arrival order (R347). -/
def FoldSt.inOrder (f : FoldSt) : List (Nat × List U64) :=
  if f.det then sortBy (fun a b => decide (a.1 ≤ b.1)) f.contribs
  else if f.order.isEmpty then f.contribs
  else f.order.filterMap fun p => f.contribs.find? fun x => x.1 == p

/-- N contributions are present: the result goes to its home; a home elsewhere answers the switch outside the model. -/
def State.foldDone (s : State) (f : FoldSt) : State :=
  match decodeAtomOp (BitVec.ofNat 4 f.opc), decodeAtomType (BitVec.ofNat 2 f.ty) with
  | some op, some ty =>
      let xs := f.inOrder
      let order := if f.det then [] else xs.map (·.1)
      let same (g : FoldSt) : Bool := g.plane == f.plane && g.rid == f.rid && g.unit == f.unit && g.dst == f.dst
      let here := s.fab.self == some f.dst
      let s := { s with fab := { s.fab with folds := if here then s.fab.folds.map fun g => if same g then { f with done := true, contribs := xs } else g
                                                     else s.fab.folds.filter fun g => !same g } }
      let s := s.switchSend f.plane { f.head with
        payload := packVals (atomBytes ty) (foldAll op ty (xs.map (·.2))) ++ order.map fun x => BitVec.ofNat 8 x }
      if here then s else f.contribs.foldl (fun s c => s.tellMember f.head c.1 0x07 0 order) s
  | _, _ => s

/-- RCONTRIB: a contribution reaches the switch of its plane. -/
def execRcontrib (p : Packet) (s : State) : Out :=
  if p.ptype ≠ 5 ∨ !packetOk p ∨ s.fab.dead.contains p.plane ∨ !s.outTurn p then .next s
  else
    -- it stays to be sent again until the unit has ended (R394)
    let s := { s with fab := { s.fab with out := s.fab.out.filter (· != p) } }
    let elems := unpackVals (if p.ty = 1 then 8 else 4) p.payload
    let late := s.fab.timeouts.any fun x => x.1 == p.plane && x.2.1 == p.rid && x.2.2.1 == p.addr && x.2.2.2.1 == p.dst
      && decide ((s.clk.cycle - x.2.2.2.2) * 10 < 2 * 33 * 2 ^ s.fab.redK)
    let same (g : FoldSt) : Bool := g.plane == p.plane && g.rid == p.rid && g.unit == p.addr && g.dst == p.dst && !g.done
    if late then .next (s.tellMember p p.src 0x08 (statusCode .timeout) [])
    else
      match s.fab.folds.find? same with
      | some f =>
          if f.n ≠ p.n ∨ f.opc ≠ p.opc ∨ f.ty ≠ p.ty ∨ f.rn ≠ p.rn ∨ f.det ≠ p.det ∨ (f.contribs.any fun c => c.1 == p.src) then
            .next (s.tellMember p p.src 0x08 (statusCode .badDesc) [])
          else
            let f' := { f with contribs := f.contribs ++ [(p.src, elems)], agents := f.agents ++ p.agents,
                               order := if f.order.isEmpty then p.order else f.order }
            let s := { s with fab := { s.fab with folds := s.fab.folds.map fun g => if same g then f' else g } }
            if f'.contribs.length ≥ f'.n then .next (s.foldDone f') else .next s
      | none =>
          let f : FoldSt := { plane := p.plane, rid := p.rid, unit := p.addr, dst := p.dst, opc := p.opc, ty := p.ty, n := p.n, rn := p.rn, det := p.det,
                              contribs := [(p.src, elems)], opened := s.clk.cycle, agents := p.agents, order := p.order }
          let s := { s with fab := { s.fab with folds := s.fab.folds ++ [f] } }
          if p.n ≤ 1 then .next (s.foldDone f) else .next s

/-- The doublewords of a FOLD event (R378). -/
def foldBody (rid pa : Nat) (order : List Nat) : List U64 :=
  let bs := order.map fun p => BitVec.ofNat 8 p
  BitVec.ofNat 64 (rid * 2 ^ 48 + pa % 2 ^ 48)
    :: (List.range ((bs.length + 7) / 8)).map fun i => BitVec.ofNat 64 (ofBytes ((bs.drop (8 * i)).take 8))

/-- Acknowledgements that waited for the lease clock go out: RDONE to the members of a fold whose result is visible, and the answer to each access
of the outside (R159). -/
def State.sendAcks (s : State) : State :=
  let due (f : FoldSt) : Bool := (f.ack.map s.settled).getD false
  let tell (s : State) (f : FoldSt) : State :=
    f.contribs.foldl (fun s c => s.tellMember f.head c.1 0x07 0 (if f.det then [] else f.contribs.map (·.1))) s
  let s := (s.fab.folds.filter due).foldl tell { s with fab := { s.fab with folds := s.fab.folds.filter fun f => !due f } }
  let done := s.fab.ackWait.filter fun x => s.settled x.2.2.1
  if done.isEmpty then s else
    { s with fab := { s.fab with ackWait := s.fab.ackWait.filter fun x => !s.settled x.2.2.1, replies := s.fab.replies ++ done.map fun x => (x.1, x.2.1, x.2.2.2) } }

/-- A write of the outside performs at its home: no L1 keeps a token of its lines, and what loads read early ahead of a scope that reaches the writer
counts no more (R131, R148, R159). `need` is the reach of a scope that the writer lies inside. Answers V. -/
def State.inboundWrite (s : State) (need pa : Nat) (bytes : List Byte) : State × Nat :=
  let s := (linesOf pa bytes.length).foldl (fun s l => (s.returnTokens l [homeDie (128 * l)]).1) s
  (s.dropSamples (fun _ _ => need) pa bytes.length).writeLong none pa (bytes.length + 1) bytes

/-- A line of a delivery lands at this module as an inbound write, or at the new home of its page (R399, R400); V. -/
def State.landLine (s : State) (pa : Nat) (bytes : List Byte) : State × Nat :=
  match s.forwardOf pa with
  | some (peer, frame) => s.writeLong none (keyOf peer (frame * 65536 + pa % 65536)) (bytes.length + 1) bytes
  | none => s.inboundWrite 8 pa bytes

/-- An answer of this module to an access of the outside, once the lease clock has passed a visibility time (R159). -/
def State.answerLater (s : State) (kind num v : Nat) (bytes : List Byte) : State :=
  ({ s with fab := { s.fab with ackWait := s.fab.ackWait ++ [(kind, num, v, bytes)] } } : State).sendAcks

/-- A line of another module's delivery arrives: with the first the whole delivery is accepted or refused; a refused one writes nothing; the answer, 0 or
1, goes back once it has been refused or all of it is visible (R393, R400). -/
def State.takeFmcLine (s : State) (x : FmcLine) : State :=
  if x.bad then s.freeze 2 x.port (causeCode .integrity) x.pa else
    let lines := lineRanges x.base x.len
    let same (d : FmcIn) : Bool := d.src == x.src && d.id == x.id
    let first := !s.fab.fmcIn.any same
    let d := (s.fab.fmcIn.find? same).getD { src := x.src, id := x.id, ok := s.inMcastWindow x.base x.len }
    if !lines.contains (x.pa, x.bytes.length) || d.got.contains x.pa then s else
      let (s, v) := if d.ok then s.landLine x.pa x.bytes else (s, 0)
      let d := { d with got := x.pa :: d.got, v := max d.v v }
      let isOver := decide (lines.length ≤ d.got.length)
      let s := { s with fab := { s.fab with fmcIn := (s.fab.fmcIn.filter fun e => !same e) ++ (if isOver then [] else [d]) } }
      if first && !d.ok then s.answerLater 2 x.port 0 [0]
      else if isOver && d.ok then s.answerLater 2 x.port d.v [1]
      else s

/-- FMC_DELIVERY_ARRIVE: a delivery reaches a member, which accepts or refuses it whole with its first line; the lines land in any order, each as its
plane brings it (R391, R394, R400). -/
def execFmcDeliveryArrive (x : FmcDelivery) (s : State) : Out :=
  match x with
  | .received x => if s.frozenMaster 2 x.port then .next s else .next (s.takeFmcLine x)
  | .line tk op i =>
      match (s.team? tk).bind fun t => t.op? op with
      | none => .next s
      | some o =>
          match o.body with
          | .fmc src dst len g sta true none bs ds ms =>
              let port := s.planeNow (nth ds (0, 0) i).1
              let mine := ms.find? fun m => m.1 == s.selfPeer
              (match mine, ds[i]? with
               | some (self, decided), some (pa, n) =>
                   if o.done || s.fab.self.isNone || o.units.contains i || s.fab.dead.contains port || s.frozenMaster 2 port then .next s else
                     let ok := decided.getD (ds.all fun d => s.inMcastWindow d.1 d.2)
                     let off := (ds.take i).foldl (fun a d => a + d.2) 0
                     let (s, v) := if ok then s.landLine pa ((bs.drop off).take n) else (s, 0)
                     let ms := ms.map fun y => if y.1 = self then (self, some ok) else y
                     .next ((s.modTeam tk fun t => t.modOp op fun o =>
                       { o with units := i :: o.units, ackV := max o.ackV v, body := .fmc src dst len g sta true none bs ds ms }).fmcEnd tk op)
               | _, _ => .next s)
          | _ => .next s
  | .sent tk op member accepted =>
      match (s.team? tk).bind fun t => t.op? op with
      | none => .next s
      | some o =>
          match o.body with
          | .fmc src dst len g sta true none bs ds ms =>
              if o.done || !(ms.contains (member, none)) || s.fab.self == some member then .next s else
                let ms := ms.map fun y => if y = (member, none) then (member, some accepted) else y
                .next ((s.modTeam tk fun t => t.modOp op fun o => { o with body := .fmc src dst len g sta true none bs ds ms }).fmcEnd tk op)
          | _ => .next s

/-- The stream of a fold unit's FOLD event at its home. -/
def State.foldStream (s : State) (pa : Nat) : Nat := 0x400 + s.ownerOn (homeDie pa) pa

/-- The elements of an RWRITE as bytes, and the peers of a fast fold in order. -/
def rwriteResult (p : Packet) : List Byte × List Nat :=
  if p.det then (p.payload, []) else (p.payload.take (p.payload.length - p.n), (p.payload.drop (p.payload.length - p.n)).map (·.toNat))

/-- In a replay, the FOLD event of a result is logged, but not next in its stream. -/
def State.foldHeld (s : State) (p : Packet) : Bool :=
  let body := foldBody p.rid p.addr (rwriteResult p).2
  match s.haeth.replay with
  | some r => r.gating && !p.det && p.agents.any (·.recorded) && (match r.expect (s.foldStream p.addr) with
      | .event _ _ ev _ => !(evType ev == 0x0B && evBody ev == body) && (r.rest (s.foldStream p.addr)).any fun x => evType x.1 == 0x0B && evBody x.1 == body
      | _ => false)
  | none => false

/-- The FOLD event of a fast fold with a contribution of a recorded launch: recorded, or the next of a replay's stream. -/
def State.foldEvent (s : State) (p : Packet) : State :=
  let stream := s.foldStream p.addr
  let body := foldBody p.rid p.addr (rwriteResult p).2
  if p.det || !p.agents.any (·.recorded) then s else
    match s.haeth.replay with
    | some r => if r.gating then (match r.expect stream with
        | .event _ _ ev _ => if evType ev = 0x0B ∧ evBody ev = body then s.stepReplay stream else s
        | _ => s) else s
    | none => s.sharedEvent stream 1 0x0B body

/-- The switch sends a result again to the home that a FORWARD reply names; as of any home elsewhere, its answer reaches the members (R399). -/
def State.forwardFold (s : State) (p : Packet) (peer frame : Nat) : State :=
  let mine (g : FoldSt) : Bool := g.plane == p.plane && g.rid == p.rid && g.unit == p.addr && g.done && g.ack.isNone && s.fab.self == some g.dst
  let gone := s.fab.folds.filter mine
  let s := ({ s with fab := { s.fab with folds := s.fab.folds.filter fun g => !mine g } }).switchSend p.plane
    { p with dst := peer, addr := frame * 65536 + p.addr % 65536 }
  gone.foldl (fun s f => f.contribs.foldl (fun s c => s.tellMember f.head c.1 0x07 0 (if f.det then [] else f.contribs.map (·.1))) s) s

/-- RWRITE: the result reaches its home, where it performs as an inbound write; the order of a fast fold is logged (R346, R347). The members are
told once the write is visible everywhere (R159); one sent again is acknowledged again (R394). -/
def execRwrite (p : Packet) (s : State) : Out :=
  if s.foldHeld p then .next s else
  takePacket 0x06 p s (fun s => .next (s.answerLater 2 p.plane 0 [])) fun s =>
    let bytes := (rwriteResult p).1
    match s.forwardOf p.addr with
    | some (peer, frame) => .next ((s.replyForward 2 p.plane peer frame).forwardFold p peer frame)
    | none =>
        if !s.inWindow 2 p.plane p.addr bytes.length 1 then .next (s.freeze 2 p.plane (causeCode .addrPerm) p.addr)
        else
          let (s, v) := (s.foldEvent p).inboundWrite 8 p.addr bytes
          let mine (g : FoldSt) : Bool := g.plane == p.plane && g.rid == p.rid && g.unit == p.addr && g.done && g.ack.isNone && s.fab.self == some g.dst
          .next ({ s with fab := { s.fab with folds := s.fab.folds.map fun g => if mine g then { g with ack := some v } else g } } : State).sendAcks

/-- RDONE: a unit's result has been written. -/
def execRdone (p : Packet) (s : State) : Out :=
  takePacket 0x07 p s (fun s => .next s) fun s =>
    .next ((s.answered fun q => q.ptype == 5 && q.rid == p.rid && q.addr == p.addr).fredUnitEnd p.rid p.addr .ok)

/-- A status by its code (R289). -/
def statusOfCode : Nat → EStatus
  | 1 => .ok | 2 => .badDesc | 3 => .bounds | 4 => .perm | 5 => .translate | 6 => .misalign | 7 => .refused | 8 => .cancelled | 9 => .integrity
  | _ => .timeout

/-- RABORT: a unit ends with a status. -/
def execRabort (p : Packet) (s : State) : Out :=
  takePacket 0x08 p s (fun s => .next s) fun s =>
    .next ((s.answered fun q => q.ptype == 5 && q.rid == p.rid && q.addr == p.addr).fredUnitEnd p.rid p.addr (statusOfCode p.status))

/-- A fold ends without a result: every member seen is told (R348). -/
def State.dropFold (s : State) (f : FoldSt) (e : EStatus) : State :=
  let s := { s with fab := { s.fab with folds := s.fab.folds.filter (· != f) } }
  f.contribs.foldl (fun s c => s.tellMember f.head c.1 0x08 (statusCode e) []) s

/-- The reduction timer of a fold has expired: 2^k ns have passed since its first contribution. -/
def State.foldDue (s : State) (f : FoldSt) : Bool := !f.done && decide (33 * 2 ^ s.fab.redK ≤ (s.clk.cycle - f.opened) * 10)

/-- REDUCTION_TIMEOUT: a fold of the unit whose timer has expired ends without a result. -/
def execReductionTimeout (plane rid unit : Nat) (s : State) : Out :=
  match s.fab.folds.find? fun f => f.plane == plane && f.rid == rid && f.unit == unit && s.foldDue f with
  | none => .next s
  | some f =>
      let s := s.dropFold f .timeout
      .next { s with fab := { s.fab with timeouts := (plane, rid, unit, f.dst, s.clk.cycle) :: s.fab.timeouts } }

/-! Dead planes (R394, R395). -/

/-- PLANE_DEAD: a plane is found dead; the pod quiesces, timers of what waits on the plane stand still, and a fold held in the dead
switch is lost. -/
def execPlaneDead (p : Nat) (s : State) : Out :=
  if s.fab.dead.contains p ∨ 16 ≤ p then .next s
  else
    let waits (c : Core) : Core := { c with slots := c.slots.map fun x =>
      (x.1, if decide (0x400 ≤ x.2.svc) && x.2.svc != 0xFFFF && x.2.left && !x.2.held && s.planeNow x.2.pa == p
        then { x.2 with held := true, sent := s.clk.cycle - x.2.sent } else x.2) }
    let lost := s.fab.folds.filter fun f => f.plane == p
    let mine := lost.filter fun f => f.contribs.any fun c => s.fab.self == some c.1
    let s := { s with cores := s.cores.map fun c => (c.1, waits c.2)
                      fab := { s.fab with dead := s.fab.dead ++ [p], quiesce := true, folds := s.fab.folds.filter fun f => f.plane != p } }
    .next (mine.foldl (fun s f => s.fredUnitEnd f.rid f.unit .timeout) s)

/-- REMAP_COMPLETE: every module has remapped; unacknowledged packets of dead planes go out again on their buddies in the order they
were sent, then those that waited, and issue resumes. -/
def execRemapComplete (s : State) : Out :=
  if !s.fab.quiesce then .next s
  else
    let remap := s.fab.dead.filter fun p => !s.fab.dead.contains (p ^^^ 1)
    let move (p : Packet) : Packet := { p with plane := p.plane ^^^ 1, resent := !p.resent }
    let again := (s.fab.unacked.filter fun p => remap.contains p.plane).map move
    let unacked := s.fab.unacked.map fun p => if remap.contains p.plane then move p else p
    let out := (s.fab.out.filter fun p => !(remap.contains p.plane && s.fab.unacked.contains p)) ++ again
    let held := s.fab.held
    let s := { s with fab := { s.fab with remap := remap, quiesce := false, out := out, unacked := unacked, held := [] }
                      cores := s.cores.map fun c => (c.1, { c.2 with slots := c.2.slots.map fun x =>
                        (x.1, if x.2.held then { x.2 with held := false, sent := s.clk.cycle - x.2.sent } else x.2) }) }
    .next (held.foldl (fun s p => s.sendPacket p) s)

/-! NOROUTE and FORWARD replies (R390, R395, R399). -/

/-- An access may still fail at its issuer, which has gone no further: nothing of it has performed (R136, R163, R192). DEDUCED (log entry 26): as
what is squashed after a late failure leaves no effect, a request that cannot be routed is answered before the issuer's next instruction retires. -/
def Team.mayFail (t : Team) (o : Op) : Bool :=
  let undone := match o.body with
    | .load _ ps | .store ps => ps.all fun p => !p.done
    | .wait .. | .claim .. | .range .. => true
    | .atom .. => !o.routed
    | _ => false
  let waits := match o.body with
    | .wait .. | .claim .. => true
    | _ => false
  let n := if waits then o.icnt else o.icnt + 1
  !o.done && undone && t.issuedCount o.group == n && match o.group with
    | none => t.riderTrap.isNone && t.pc.toNat == (if waits then o.lpc else o.lpc + 4)
    | some g => match t.group? g with
      | some x => !x.halted && !x.ended && (x.split o.split).st == .run && (x.split o.split).lpc.toNat == (if waits then o.lpc else (o.lpc + 1) % 2 ^ 24)
      | none => false

/-- The issuer of an access as it stood before its instruction retired. -/
def Team.unretire (t : Team) (o : Op) : Team :=
  if t.issuedCount o.group = o.icnt then t else
    match o.group with
    | none => { t with pc := BitVec.ofNat 64 o.lpc, retired := o.icnt }
    | some g =>
        let back (x : Group) : Group :=
          { x.modSplit o.split fun z => { z with lpc := BitVec.ofNat 24 o.lpc } with
            icnt := o.icnt, retired := (lanesOf (x.split o.split).mask).foldl (fun r l => sparsePut l (sparseGet 0 r l - 1) r) x.retired }
        { t.modGroup g back with laneRetired := t.laneRetired - 1 }

/-- The requests of an operation, of whatever member. -/
def State.requestsOf (s : State) (t : Team) (o : Op) : List (Nat × AtomReq) :=
  s.net.reqs.filter fun x => x.2.members.any fun m => match s.slotOp m with
    | some (_, t', o', _) => t'.serial == t.serial && o'.id == o.id
    | none => false

/-- An access ends as a translation failure: its destination and its issuer are as before issue, and the issuer takes ADDR_TRANSLATE (R136,
R192, R395). -/
def State.failAccess (s : State) (tk : Nat) (t : Team) (o : Op) (lane va : Nat) : State :=
  let t := match o.group, o.body with
    | some g, .load dst _ => t.modGroup g fun x => x.markFull (loadSpan dst).1 (loadSpan dst).2
    | some g, .atom _ (some d) _ wide _ _ _ => t.modGroup g fun x => x.markFull d (if wide then 2 else 1)
    | some g, .wait _ (some d) _ dbl _ => t.modGroup g fun x => x.markFull d (if dbl then 2 else 1)
    | _, _ => t
  let gone := (s.requestsOf t o).map (·.1)
  let s := { s with net := { s.net with reqs := s.net.reqs.filter (fun x => !gone.contains x.1), entries := s.net.entries.filter fun x => !gone.contains x.req } }
  let s := ((s.setTeam tk ((t.unretire o).complete o.id)).freeOpSlots t.core t.serial o.id).freeMonitors t.serial o.id
  match o.group with
  | some g =>
      s.trapLane tk { cause := .addrTranslate, src := 0, group := g, split := o.split, lane := lane, loc := BitVec.ofNat 64 o.lpc, addr := BitVec.ofNat 64 va, check := 6 }
  | none =>
      let s := s.modTeam tk fun t => { t with blocked := if t.blocked = some o.id then none else t.blocked }
      s.trapRider tk { cause := .addrTranslate, src := 1, loc := BitVec.ofNat 64 o.lpc, addr := BitVec.ofNat 64 va, check := 6 }

/-- A request of an operation that may be given up with it: no other member travels in it, and its owner has not got it. -/
def AtomReq.single (q : AtomReq) : Bool := q.members.length == 1 && q.stage != .queued

/-- An access ends as a translation failure, if it may. -/
def State.tryFail (s : State) (tk : Nat) (t : Team) (o : Op) (lane va : Nat) : State :=
  if t.mayFail o && (s.requestsOf t o).all fun x => x.2.single then s.failAccess tk t o lane va else s

/-- The pages of a copy's ends, by key, in the order source, destination, status record. -/
def CopySt.pageKeys (c : CopySt) : List Nat := (c.srcPages ++ c.dstPages ++ c.staPages).map (·.key)

/-- The places of the units of an operation in flight that a reply of the switch may name, each by its key; 0 for one that is over. -/
def unitKeys (o : Op) : List Nat :=
  let part (p : Part) : Nat := match p.place with
    | .mem k => if p.done then 0 else k
    | _ => 0
  match o.body with
  | .load _ ps | .store ps => ps.map part
  | .wait _ _ _ _ ps => ps.map fun p => if p.got.isSome then 0 else p.key
  | .range _ rs => rs.map (·.1)
  | .copy c => c.pageKeys
  | .fred _ _ _ _ true _ us => us.map fun u => if u.status.isSome then 0 else keyOf u.peer u.pa
  | .fmc _ _ _ _ _ true _ _ ds ms => ms.map fun m => if m.2.isSome then 0 else keyOf m.1 (nth ds (0, 0) 0).1
  | .fred .. | .fmc .. => o.pages.flatten.map (·.key)
  | .post _ spots _ => spots.map (·.1)
  | _ => []

/-- The switch may answer NOROUTE for a line: its peer number is one of the fabric, not this module's own, and not one of a gateway that is bound (R390). -/
def State.mayNoroute (s : State) (key : Nat) : Bool :=
  let p := keyPeer key
  fabricPeer p && s.fab.self != some p && (decide (p ≤ 144) || s.unbound p (keyPa key))

/-- What a NOROUTE reply tells this module of a peer number: accesses to it that come later fail as they are translated (R390, R395). -/
def State.noteAbsent (s : State) (p : Nat) : State :=
  if 144 < p ∨ s.fab.absent.contains p then s else { s with fab := { s.fab with absent := p :: s.fab.absent } }

/-- The unit that a member of an FMC is (R310). -/
def memberUnit (o : Op) (peer : Nat) : Nat := match o.body with
  | .fmc _ _ _ _ _ _ _ _ _ ms => ms.findIdx fun m => m.1 == peer
  | _ => peer

/-- NOROUTE_REPLY: no module or gateway is bound to the peer number: a unit `u` of an operation, of an FMC the member's number. -/
def execNorouteReply (r : AccRef) (s : State) : Out :=
  let key : Nat := match r with
    | .req id => ((sparseFind id s.net.reqs).map fun q => keyOf q.peer q.pa).getD 0
    | .op tk op u => (((s.team? tk).bind fun t => t.op? op).map fun o => nth (unitKeys o) 0 (memberUnit o u)).getD 0
    | .chan id u => ((sparseFind id s.cp.channels).map fun ch => nth ch.copy.pageKeys 0 u).getD 0
    | .peer n => keyOf n 0
  if !s.mayNoroute key then .next s else
  let s := s.noteAbsent (keyPeer key)
  match r with
  | .peer _ => .next s
  | .req id =>
      match sparseFind id s.net.reqs with
      | none => .next s
      | some q =>
          let whole := q.members.all fun m => match s.slotOp m with
            | some (_, t, o, _) => t.mayFail o && (s.requestsOf t o).all fun x => x.1 == id || x.2.single
            | none => true
          if !whole || q.stage == .queued then .next s
          else .next (q.members.foldl (fun s m => match s.slotOp m with
            | some (tk, t, o, sl) => s.failAccess tk t o (nth sl.lanes 0 0) sl.va
            | none => s) s)
  | .op tk op u =>
      match s.team? tk with
      | none => .next s
      | some t =>
          match t.op? op with
          | none => .next s
          | some o =>
              if o.done then .next s else
                match o.body with
                | .load _ ps | .store ps => .next (match ps[u]? with
                  | some p => s.tryFail tk t o p.lane p.va
                  | none => s)
                | .wait _ _ _ _ ps => .next (match ps[u]? with
                  | some p => s.tryFail tk t o p.lane p.va
                  | none => s)
                | .range _ rs => .next (match rs[u]? with
                  | some x => s.tryFail tk t o (lowestLane o.lanes) (keyPa x.1)
                  | none => s)
                | .copy c => .next (if c.status.isNone then s.failCopy tk op c .translate else s)
                | .post .. => .next (s.modTeam tk fun t => ({ t with mstat := t.mstat ||| BitVec.ofNat 32 (2 ^ 10) } : Team).complete op)
                | .fred _ _ ctl _ true none us => .next (match us[u]? with
                  | some x => if x.status.isNone then s.fredUnitEnd (fredRid ctl) x.pa .translate else s
                  | none => s)
                | .fmc src dst len g sta true none bs ds ms =>
                    let ms := ms.map fun y => if y = (u, none) then (u, some false) else y
                    .next ((s.modTeam tk fun t => t.modOp op fun o => { o with body := .fmc src dst len g sta true none bs ds ms }).fmcEnd tk op)
                | _ => .next s
  | .chan id _ =>
      let fail (ch : Channel) : Channel := { ch with copy := { ch.copy with status := ch.copy.status.orElse fun _ => some .translate } }
      .next { s with cp := { s.cp with channels := sparseMod id fail s.cp.channels } }

/-- The TLB copies of a page take its new PEER and FRAME, and keep MODE and permissions (R399). -/
def State.redirectTlb (s : State) (core peerOld paOld peer frame : Nat) : State :=
  let fix (e : TlbEntry) : TlbEntry :=
    let fr := pteFrame e.pte
    if ptePeer e.pte = peerOld ∧ fr ≤ paOld ∧ paOld < fr + e.size then
      let w := e.pte.toNat
      -- the page's first frame: the frame answered less the offset of the access within the page
      let base := (frame * 65536 + paOld % 65536 - (paOld - fr)) / 65536 * 65536
      { e with pte := BitVec.ofNat 64 (w - ptePeer e.pte * 2 ^ 56 - fr + peer * 2 ^ 56 + base) }
    else e
  s.modCore core fun c => { c with tlb := c.tlb.map fix }

/-- The TLBs of every member of a request take a page's new home. -/
def State.redirectMembers (s : State) (q : AtomReq) (peer frame : Nat) : State :=
  (distinct ((q.members.filter fun m => m.pkt.isNone).map (·.core))).foldl (fun s c => s.redirectTlb c q.peer q.pa peer frame) s

/-- A FORWARD reply to a line: of an access of this module to itself it is what its own forwarding table says (R390, R399). -/
def State.mayForward (s : State) (key peer frame : Nat) : Bool :=
  fabricPeer (keyPeer key) && (s.fab.self != some (keyPeer key) || s.forwardOf (keyPa key) == some (peer, frame))

/-- FORWARD_REPLY: an access is sent again to the page's new home; a second FORWARD of one access freezes the port that asked. -/
def execForwardReply (r : AccRef) (peer frame : Nat) (s : State) : Out :=
  let newPa (pa : Nat) : Nat := frame * 65536 + pa % 65536
  -- a page of a copy's or an operation's ends, in the order source, destination, status record
  let pages (pss : List (List PageAt)) (u : Nat) : List (List PageAt) :=
    match pss.flatten[u]? with
    | some p => pss.map fun ps => ps.map fun x => if x = p then { x with key := keyOf peer (newPa (keyPa p.key)), forwarded := true } else x
    | none => pss
  let frozen (key : Nat) : Out := .next (s.freeze 2 (s.planeNow (keyPa key)) (causeCode .integrity) (keyPa key))
  match r with
  | .req id =>
      match sparseFind id s.net.reqs with
      | none => .next s
      | some q =>
          if !s.mayForward (keyOf q.peer q.pa) peer frame || q.stage != .sent then .next s
          else if q.forwarded then frozen (keyOf q.peer q.pa)
          else
            let key := keyOf peer (newPa q.pa)
            let q' := { q with peer := keyPeer key, pa := keyPa key, segs := q.segs.map fun g => (keyOf peer (newPa (keyPa g.1)), g.2),
                               svc := s.ownerOf key, forwarded := true }
            let s := s.answered fun x => x.ptype == 1 && x.members.any fun m => q.members.any fun n => tagOf n == m.1
            let s := s.redirectMembers q peer frame
            let move (s : State) (m : Member) : State :=
              if (s.slotOp m).isNone then s
              else s.modCore m.core fun c => { c with slots := sparseMod m.slot (fun sl => { sl with peer := q'.peer, pa := q'.pa, svc := q'.svc }) c.slots }
            .next ((q.members.foldl move s).arriveAt id q')
  | .op tk op u =>
      match s.team? tk with
      | none => .next s
      | some t =>
          match t.op? op with
          | none => .next s
          | some o =>
              let again (key : Nat) (f : Bool) (move : Nat → Op → Op) : Out :=
                if !s.mayForward key peer frame then .next s
                else if f then frozen key
                else .next ((s.redirectTlb t.core (keyPeer key) (keyPa key) peer frame).modTeam tk fun t => t.modOp op (move (keyOf peer (newPa (keyPa key)))))
              let go (ps : List Part) (mk : List Part → OpBody) : Out :=
                match ps[u]? with
                | some { place := .mem key, done := false, forwarded := f, .. } =>
                    again key f fun k o => { o with body := mk (modNth (fun p => { p with place := .mem k, forwarded := true }) u ps) }
                | _ => .next s
              let page (pss : List (List PageAt)) (mk : List (List PageAt) → Op → Op) : Out :=
                match pss.flatten[u]? with
                | some p => again p.key p.forwarded fun _ => mk (pages pss u)
                | none => .next s
              match o.body with
              | .load dst ps => go ps (.load dst)
              | .store ps => go ps .store
              | .wait sr vr cc dbl ps =>
                  (match ps[u]? with
                   | some w => if w.got.isSome then .next s else again w.key w.forwarded fun k o =>
                       { o with body := .wait sr vr cc dbl (modNth (fun p => { p with key := k, forwarded := true }) u ps) }
                   | none => .next s)
              | .copy c => page [c.srcPages, c.dstPages, c.staPages] fun pss o =>
                  { o with body := .copy { c with srcPages := nth pss [] 0, dstPages := nth pss [] 1, staPages := nth pss [] 2 } }
              | .fred .. | .fmc .. => page o.pages fun pss o => { o with pages := pss }
              | .post image spots stage =>
                  (match spots[u]? with
                   | some g => again g.1 (o.fwd.contains u) fun k o => { o with fwd := u :: o.fwd, body := .post image (modNth (fun x => (k, x.2)) u spots) stage }
                   | none => .next s)
              | .range inv rs =>
                  (match rs[u]? with
                   | some g => again g.1 (o.fwd.contains u) fun k o => { o with fwd := u :: o.fwd, body := .range inv (modNth (fun x => (k, x.2)) u rs) }
                   | none => .next s)
              | _ => .next s
  | .chan id u =>
      match (sparseFind id s.cp.channels).bind fun ch => ([ch.copy.srcPages, ch.copy.dstPages, ch.copy.staPages].flatten[u]?).map fun p => (ch, p) with
      | none => .next s
      | some (ch, p) =>
          if !s.mayForward p.key peer frame then .next s
          else if p.forwarded then frozen p.key
          else
            let pss := pages [ch.copy.srcPages, ch.copy.dstPages, ch.copy.staPages] u
            let c := { ch.copy with srcPages := nth pss [] 0, dstPages := nth pss [] 1, staPages := nth pss [] 2 }
            .next { s with cp := { s.cp with channels := sparsePut id { ch with copy := c } s.cp.channels } }
  | .peer _ => .next s

/-! Inbound accesses (R159, R361, R396, R404). -/

/-- An access that no window lets in freezes its master (R361, R396, R404). -/
def State.inboundCheck (s : State) (x : Inbound) (n right : Nat) : Option State :=
  if !s.inWindow x.mkind x.mnum x.pa n right then some (s.freeze x.mkind x.mnum (causeCode .addrPerm) x.pa)
  else none

/-- INBOUND_WRITE: a write from the fabric, PCIe or CXL performs at its home, which acknowledges it once the lease clock has passed its visibility
time. A posted PCIe write waits until the function's previous one could be acknowledged (R159). A fabric write sent again that was performed is
acknowledged again (R394). -/
def execInboundWrite (x : Inbound) (s : State) : Out :=
  let key := x.seq.map fun q => (seqKey x.mnum q.1 x.resent, q.2)
  if s.frozenMaster x.mkind x.mnum then .next s
  else if x.bad then .next (s.freeze x.mkind x.mnum (causeCode .integrity) x.pa)
  else if key.any fun k => s.seqOld k.1 k.2 then .next (s.answerLater x.mkind x.mnum 0 [])
  else
    let s := match key with
      | some k => { s with fab := { s.fab with pseqIn := sparsePut k.1 k.2 s.fab.pseqIn } }
      | none => s
    match (if x.mkind = 2 then s.forwardOf x.pa else none) with
    | some (peer, frame) => .next (s.replyForward 2 x.mnum peer frame)
    | none =>
        match s.inboundCheck x x.bytes.length 1 with
        | some s => .next s
        | none =>
            if x.mkind = 3 ∧ !s.settled (sparseGet 0 s.fab.posted x.mnum) then .next s
            else
              let (s, v) := s.inboundWrite (if x.mkind = 2 then 8 else 9) x.pa x.bytes
              .next (if x.mkind = 3 then { s with fab := { s.fab with posted := sparsePut x.mnum v s.fab.posted } } else s.answerLater x.mkind x.mnum v [])

/-- INBOUND_READ: a read, or a PCIe fetch-and-add, performs at its home and is answered, the fetch-and-add once its write is visible (R159). A line that fails its check value freezes the
port (R412). -/
def execInboundRead (x : Inbound) (s : State) : Out :=
  if s.frozenMaster x.mkind x.mnum then .next s
  else if x.bad then .next (s.freeze x.mkind x.mnum (causeCode .integrity) x.pa)
  else
    match (if x.mkind = 2 then s.forwardOf x.pa else none) with
    | some (peer, frame) => .next (s.replyForward 2 x.mnum peer frame)
    | none =>
        match s.inboundCheck x x.len (if x.atomic.isSome then 2 else 0) with
        | some s => .next s
        | none =>
            if (linesOf x.pa x.len).any fun l => s.lineBad (128 * l) then .next (s.freeze x.mkind x.mnum (causeCode .integrity) x.pa)
            else
              let bs := s.bytesAt x.pa x.len
              match x.atomic with
              | some a =>
                  let (s, v) := s.inboundWrite 9 x.pa (bytesOf (ofBytes bs + a.toNat) x.len)
                  .next (s.answerLater x.mkind x.mnum v bs)
              | none => .next { s with fab := { s.fab with replies := s.fab.replies ++ [(x.mkind, x.mnum, bs)] } }

/-- MALFORMED_PACKET: bytes that are no packet, since its PTYPE is unassigned, a reserved field is set, it is cut short or its check value fails, are
discarded, and the port is frozen with an INTEGRITY record (R349, R393). Bytes of a packet arrive as that packet's own event. -/
def execMalformedPacket (x : RawPacket) (s : State) : Out :=
  if s.frozenMaster 2 x.port || (!x.bad && (packetOf x.bytes).isSome) then .next s else .next (s.badPacket x.port 0)

/-! Moves of pages (R398). -/

/-- A copy or a fabric operation is in flight. -/
def State.enginesBusy (s : State) : Bool :=
  !s.cp.channels.isEmpty || s.teams.any fun p => p.2.ops.any fun o => !o.done && match o.body with
    | .copy _ | .fred .. | .fmc .. | .post .. | .claim .. => true
    | _ => false

/-- A crossing record or a hint of the host names a frame of a page that is to move (R397, R398). -/
def State.moveWanted (s : State) (m : PageMoveArgs) : Bool :=
  let mine (peer frame : Nat) : Bool := peer == m.fromPeer && decide (m.fromPa / 65536 ≤ frame) && decide (frame < (m.fromPa + m.size) / 65536)
  s.fab.crossings.any (fun e => mine e.peer e.frame) || s.fab.hints.any fun h => mine h.1 h.2

/-- This module is named in a move, as the old or the new home. -/
def State.namedIn (s : State) (m : PageMoveArgs) : Bool := [m.fromPeer, m.toPeer].any fun p => p == 0 || s.fab.self == some p

/-- A page that a crossing record or a hint names moves at a kernel quiesce point: it is copied to its new home, forwarding entries are installed and
earlier ones rewritten, CACHED copies are dropped, and this module's page-table entry is rewritten. The records that named it are drained, and the
modules that map the page are told (R398). -/
def movePage (m : PageMoveArgs) (s : State) : Out :=
  if (s.namedIn m && (!s.teams.isEmpty || s.enginesBusy)) || !s.moveWanted m then .next s
  else
    let src := s.storeKey (keyOf m.fromPeer m.fromPa)
    let dst := s.storeKey (keyOf m.toPeer m.toPa)
    let frames := (List.range (m.size / 65536)).map fun i => (m.fromPa / 65536 + i, m.toPa / 65536 + i)
    let moved := s.fab.forward.map fun e => match frames.find? fun f => e.2 == (m.fromPeer, f.1) with
      | some f => (e.1, (m.toPeer, f.2))
      | none => e
    let fwd := if keyPeer src = 0 then frames.foldl (fun l f => sparsePut f.1 (m.toPeer, f.2) l) moved else moved
    if 4096 < fwd.length then .next s
    else
      let page := s.mem.filter fun c => decide (src ≤ c.1) && decide (c.1 < src + m.size)
      let clear := s.mem.filter fun c => !(decide (dst ≤ c.1) && decide (c.1 < dst + m.size))
      let mem := page.foldl (fun l c => memPut l (c.1 - src + dst) c.2) clear
      let near (line : Nat) : Bool := decide (src / 128 ≤ line) && decide (line < (src + m.size) / 128)
      let old := (s.dwordAt m.pte).toNat
      let pte := old - bitsOf old 63 56 * 2 ^ 56 - bitsOf old 51 16 * 65536 + m.toPeer % 256 * 2 ^ 56 + m.toPa / 65536 * 65536
      let stays (peer frame : Nat) : Bool := !(peer == m.fromPeer && frames.any fun f => f.1 == frame)
      .next (({ s with mem := mem, fab := { s.fab with forward := fwd, told := distinct (s.fab.told ++ frames.map (·.1)),
                                                       crossings := s.fab.crossings.filter fun e => stays e.peer e.frame,
                                                       hints := s.fab.hints.filter fun h => stays h.1 h.2 },
                       coh := { s.coh with rdc := s.coh.rdc.filter fun c => !near c.line, tokens := s.coh.tokens.filter fun t => !near t.1 } } : State).poke
        m.pte 8 pte)

/-- PAGE_MOVE: a page moves; once every module told has rewritten its page-table entry, the forwarding entry of a frame goes (R398). -/
def execPageMove (m : PageMove) (s : State) : Out :=
  match m with
  | .move m => movePage m s
  | .told frame =>
      if !s.fab.told.contains frame then .next s
      else .next { s with fab := { s.fab with forward := sparseErase frame s.fab.forward, told := s.fab.told.filter (· != frame) } }
  | .hint peer frame => .next { s with fab := { s.fab with hints := s.fab.hints ++ [(peer, frame)] } }

end Sys2Proof.Machine
end

