-- ==== Sys2Proof/Machine/Queue.lean ====
section
/-!
DEFINITION. Machine/Queue.lean: the user-mode queues and their packets (R62 to R67), the acceptance of launches (R59, R67, R70, R76,
R308), completion records (R67, R401), and the resources a team takes on a core (R71, R73, R128, R129).
-/
namespace Sys2Proof.Machine

/-! Queues. -/

/-- The root table of a queue's translation context (R406). -/
def State.queueRoot (s : State) (qn : Nat) : Nat :=
  ((sparseFind qn s.cp.queueRoots).orElse fun _ => (s.queue? qn).bind fun q => sparseFind q.part s.cp.partRoots).getD 0

/-- The descriptor's word at 0x18 (R62). -/
def Queue.control (q : Queue) : Nat :=
  (if q.stopped then 2 ^ 31 else 0) + q.part * 2 ^ 24 + q.weight * 2 ^ 16 + (if q.express then 2 ^ 8 else 0) + q.log2n

/-- The descriptor's words that the command processor writes: at 0x18 and 0x1C. -/
def State.putControl (s : State) (qn : Nat) : State :=
  match s.queue? qn with
  | none => s
  | some q => (s.poke (q.desc + 0x18) 4 q.control).poke (q.desc + 0x1C) 4 q.status

/-- A queue is stopped with a cause (R64). -/
def State.stopQueue (s : State) (qn cause : Nat) : State :=
  (s.modQueue qn fun q => { q with stopped := true, status := cause }).putControl qn

/-- SLOT_CONSUME: the command processor reads the slot at RIDX, and takes its packet or stops the queue (R63, R64). DESIGN CHOICE (log entry 15): where
the page may be read but not written, the write that zeroes the valid word is lost, and the packet is consumed. -/
def execSlotConsume (qn : Nat) (s : State) : Out :=
  match s.queue? qn with
  | none => .next s
  | some q =>
      if q.stopped || s.halt.isSome then .next s else
        let root := s.queueRoot qn
        let va := q.ring + 64 * (q.ridx % 2 ^ q.log2n)
        let (r, s) := s.readVaNum none root va 4
        match r with
        | .error _ => .next (s.stopQueue qn 3)
        | .ok w =>
            if bitsOf w 7 0 = 0 then .next s
            else if bitsOf w 31 16 ≠ q.ridx % 2 ^ 16 ∨ bitsOf w 15 12 ≠ q.ridx / 2 ^ 16 % 2 ^ 4 then .next (s.stopQueue qn 1)
            else if 5 < bitsOf w 7 0 then .next (s.stopQueue qn 2)
            else
              let (r, s) := s.readVa none root va 64
              match r with
              | .error _ => .next (s.stopQueue qn 3)
              | .ok bs =>
                  let words := BitVec.ofNat 32 w :: ((List.range 16).drop 1).map fun i => BitVec.ofNat 32 (ofBytes ((bs.drop (4 * i)).take 4))
                  let (_, s) := s.writeVa none none root va (bytesOf 0 4)
                  let s := s.modQueue qn fun q => { q with ridx := q.ridx + 1, pkts := q.pkts ++ [{ words := words, idx := q.ridx }] }
                  .next (s.poke (q.desc + 8) 8 (q.ridx + 1))

/-! Packets (R65). -/

def PktSt.valid (p : PktSt) : Nat := (nth p.words 0 0).toNat
def PktSt.word (p : PktSt) (off : Nat) : Nat := (nth p.words 0 (off / 4)).toNat
def PktSt.type (p : PktSt) : Nat := bitsOf p.valid 7 0
def PktSt.recLvl (p : PktSt) : Nat := bitsOf p.valid 11 10
/-- Where the completion record goes, none under NOCOMP. -/
def PktSt.compl (p : PktSt) : Option Nat := if bitsOf p.valid 9 9 = 1 then none else some (p.dword 0x38)
/-- The words from one offset up to another are zero. -/
def PktSt.zeros (p : PktSt) (lo hi : Nat) : Bool := ((p.words.take (hi / 4)).drop (lo / 4)).all (· == 0)

/-- The next packet of a queue, where nothing holds its start. -/
def Queue.startable (q : Queue) : Option PktSt :=
  match q.pkts.find? fun p => !p.started with
  | none => none
  | some p =>
      let before := q.pkts.takeWhile (·.started)
      let behind := bitsOf p.valid 8 8 == 1 || decide (3 ≤ p.type)
      if q.stopped || (behind && !before.isEmpty) || before.any fun x => decide (4 ≤ x.type) then none else some p

/-- The packet of a type that a queue starts next; nothing starts during a snapshot (R408). -/
def State.startable (s : State) (qn type : Nat) : Option (Queue × PktSt) :=
  match s.queue? qn with
  | none => none
  | some q => if s.cp.snap.isSome || s.halt.isSome then none else (q.startable.filter fun p => p.type == type).map fun p => (q, p)

/-- A packet's reserved fields are zero and its own fields in range (R65). -/
def PktSt.formed (p : PktSt) : Bool :=
  match p.type with
  | 1 =>
      let w := p.word 0xC
      let persist := bitsOf w 5 5 == 1
      let teams := p.word 4 * bitsOf (p.word 8) 15 0 * bitsOf (p.word 8) 31 16
      p.recLvl != 3 && bitsOf w 31 6 == 0 && (if persist then decide (1 ≤ bitsOf w 4 0 ∧ bitsOf w 4 0 ≤ 16) else bitsOf w 4 0 == 0)
        && p.zeros 0x20 0x38 && decide (teams < 2 ^ 32)
  | 2 => p.recLvl == 0 && p.word 4 == 0 && p.zeros 0x20 0x38 && decide (1 ≤ p.dword 0x18 ∧ p.dword 0x18 ≤ 2 ^ 40)
  | 3 => p.recLvl == 0 && p.zeros 4 0x38
  | 4 => p.recLvl == 0 && bitsOf (p.word 4) 31 2 == 0 && p.dword 8 % 8 == 0 && p.zeros 0x20 0x38
  | _ => p.recLvl == 0 && p.word 4 == 0

def State.modPkt (s : State) (qn idx : Nat) (f : PktSt → PktSt) : State :=
  s.modQueue qn fun q => { q with pkts := q.pkts.map fun p => if p.idx = idx then f p else p }

/-- A packet starts at this instant. -/
def State.startPkt (s : State) (qn idx : Nat) : State := s.modPkt qn idx fun p => { p with started := true, start := s.stamp }

/-! Completion records (R67). -/

/-- Changes a team, resident or saved, by its serial number. -/
def State.modSerial (s : State) (n : Nat) (f : Team → Team) : State :=
  { s with teams := s.teams.map fun p => if p.2.serial = n then (p.1, f p.2) else p,
           cp := { s.cp with saved := s.cp.saved.map fun x => if x.team.serial = n then { x with team := f x.team } else x } }

/-- A team that waits for its children only goes on draining when the last has completed (R77, R84). -/
def State.wakeParent (s : State) (n : Nat) : State :=
  s.modSerial n fun t => if t.st == .waitingChildren && (s.liveChildren t).isEmpty then { t with st := .draining } else t

/-- A packet or a child grid is over. -/
def State.closeRecord (s : State) (e : RecEnd) : State :=
  let drop (s : State) (l : Option Nat) : State := match l with
    | some n => { s with cp := { s.cp with launches := sparseErase n s.cp.launches },
                         haeth := { s.haeth with replay := s.haeth.replay.map fun r => { r with isOver := n :: r.isOver } } }
    | none => s
  match e with
  | .packet q idx l => (drop s l).modQueue q fun q => { q with pkts := q.pkts.filter fun p => p.idx != idx }
  | .child n op l => ((drop s l).modSerial n fun t => t.complete op).wakeParent n

/-- The body of a record is written, with its END stamp, once the lease clock has passed what it waits for. -/
def PendRec.writeBody (r : PendRec) (s : State) : PendRec × State :=
  match r.body with
  | none => (r, s)
  | some (a, b) =>
      if r.v ≠ 0 ∧ s.lease ≤ r.v then (r, s) else
        let (s, v) := s.writeLong none (r.key + 4) 2 (a ++ bytesOf s.stamp.toNat 16 ++ b)
        ({ r with body := none, v := v }, { s with cp := { s.cp with vmax := max s.cp.vmax v } })

/-- Writes the records that no die's copies hold back any longer, in order: the body, then, once every die sees it, the first word. -/
def flushRecords : List PendRec → List PendRec → State → State
  | [], kept, s => { s with cp := { s.cp with records := kept } }
  | r :: l, kept, s =>
      let (r, s) := r.writeBody s
      if r.body.isNone ∧ (r.v = 0 ∨ r.v < s.lease) then flushRecords l kept ((s.poke r.key 4 r.word).closeRecord r.ends)
      else flushRecords l (kept ++ [r]) s

def State.settleRecords (s : State) : State := flushRecords s.cp.records [] s

/-- A completion: where its record goes, and what it holds. -/
structure Completion where
  root : Nat
  compl : Option Nat
  status : Nat
  ends : RecEnd
  team : Nat := 0
  launch : Nat := 0
  start : U128
  count : Nat := 0
  /-- visibility that the record waits for (R134) -/
  v : Nat := 0

/-- The record's bytes from 0x04 on, before and after the END stamp. -/
def Completion.body (c : Completion) : List Byte × List Byte :=
  (bytesOf c.team 4 ++ bytesOf c.launch 8 ++ bytesOf c.start.toNat 16, bytesOf c.count 8 ++ bytesOf 0 8)

/-- A LAUNCH instruction's record is lost: LNERR (R308). -/
def State.recordLost (s : State) (e : RecEnd) : State :=
  match e with
  | .child n _ _ => s.modSerial n fun t => { t with mstat := t.mstat ||| BitVec.ofNat 32 (2 ^ 11) }
  | .packet .. => s

/-- The packet that a record ends has completed: it does not start again, and waits for nothing. -/
def State.markEnded (s : State) (e : RecEnd) : State :=
  match e with
  | .packet q idx _ => s.modPkt q idx fun p => { p with started := true, ended := true }
  | .child .. => s

/-- Writes a completion record, or ends without one. DESIGN CHOICE (log entry 14): a packet whose COMPL is misaligned or cannot be written ends
without a record. -/
def State.complete (s : State) (c : Completion) : State :=
  let s := s.markEnded c.ends
  match c.compl with
  | none => s.closeRecord c.ends
  | some va =>
      let (r, s) : Except Cause (List (Nat × Nat)) × State := if va % 64 = 0 then s.spots none c.root va 64 .write else (.error .misalign, s)
      match r with
      | .ok ((k, _) :: _) =>
          let rec_ : PendRec := { key := k, word := c.team % 2 ^ 24 * 2 ^ 8 + c.status, body := some c.body, v := c.v, ends := c.ends }
          { s with cp := { s.cp with records := s.cp.records ++ [rec_] } }.settleRecords
      | _ => (s.recordLost c.ends).closeRecord c.ends

/-- A packet completes. -/
def State.completePkt (s : State) (qn : Nat) (p : PktSt) (status : Nat) (count v : Nat := 0) : State :=
  match s.queue? qn with
  | none => s
  | some _ => s.complete { root := s.queueRoot qn, compl := p.compl, status := status, ends := .packet qn p.idx none,
                           start := if p.started then p.start else s.stamp, count := count, v := v }

/-! MARKER, WAIT_VALUE and BARRIER_AND (R65). -/

def execMarker (qn : Nat) (s : State) : Out :=
  match s.startable qn 3 with
  | none => .next s
  | some (_, p) => .next (s.completePkt qn p (if p.formed then 1 else 3))

/-- The word of a WAIT_VALUE: its value and its key. -/
def State.waitWord (s : State) (qn : Nat) (p : PktSt) : Option (Nat × Nat) × State :=
  let (r, s) := s.translateCp (s.queueRoot qn) (p.dword 8) .read
  match r with
  | .error _ => (none, s)
  | .ok sp => let k := s.storeKey sp.key
              (some (s.numAt k 8, k), s)

/-- WAIT_VALUE starts: its word is tested, and a monitor armed where the home slice has one free. -/
def execWaitValue (qn : Nat) (s : State) : Out :=
  match s.startable qn 4 with
  | none => .next s
  | some (_, p) =>
      if !p.formed then .next (s.completePkt qn p 3) else
        let (r, s) := s.waitWord qn p
        match r with
        | none => .next (s.completePkt qn p 9)
        | some (v, k) =>
            let s := s.startPkt qn p.idx
            if p.waitHolds v then .next (s.modPkt qn p.idx fun p => { p with sat := true })
            else if keyPeer k = 0 ∧ !s.monitorsFull k then
              .next { s with coh := { s.coh with monitors := s.coh.monitors ++ [{ key := k, n := 8, team := queueMonitor + qn, op := p.idx }] } }
            else .next s

/-- The packet a queue waits at. -/
def State.waitingPkt (s : State) (qn type : Nat) : Option (Queue × PktSt) :=
  (s.queue? qn).bind fun q => (q.pkts.find? fun p => p.started && !p.ended && p.type == type).map fun p => (q, p)

/-- A monitor stands for a packet. -/
def State.pktArmed (s : State) (qn : Nat) (p : PktSt) : Bool := s.coh.monitors.any fun m => m.team == queueMonitor + qn && m.op == p.idx

/-- WAIT_VALUE completes once its monitor was satisfied, or, without one, once a read satisfies it. -/
def execWaitValueComplete (qn : Nat) (s : State) : Out :=
  match s.waitingPkt qn 4 with
  | none => .next s
  | some (_, p) =>
      if p.sat then .next (s.completePkt qn p 1)
      else if s.pktArmed qn p then .next s
      else
        let (r, s) := s.waitWord qn p
        match r with
        | none => .next (s.completePkt qn p 9)
        | some (v, _) => if p.waitHolds v then .next (s.completePkt qn p 1) else .next s

def execBarrierAnd (qn : Nat) (s : State) : Out :=
  match s.startable qn 5 with
  | none => .next s
  | some (_, p) => if p.formed then .next (s.startPkt qn p.idx) else .next (s.completePkt qn p 3)

/-- Whether every record of some addresses holds a STATUS; none where one cannot be read. -/
def statusesSet (root : Nat) : List Nat → Bool → State → Option Bool × State
  | [], all, s => (some all, s)
  | a :: l, all, s =>
      if a = 0 then statusesSet root l all s else
        let (r, s) := s.readVaNum none root a 1
        match r with
        | .error _ => (none, s)
        | .ok b => statusesSet root l (all && b != 0) s

def execBarrierAndComplete (qn : Nat) (s : State) : Out :=
  match s.waitingPkt qn 5 with
  | none => .next s
  | some (_, p) =>
      let (r, s) := statusesSet (s.queueRoot qn) ([0x08, 0x10, 0x18, 0x20, 0x28, 0x30].map p.dword) true s
      match r with
      | none => .next (s.completePkt qn p 9)
      | some true => .next (s.completePkt qn p 1)
      | some false => .next s

/-! COPY packets on the copy channels of a base die (R327). -/

/-- The lowest free number of a sparse map. -/
def sparseLowest {α : Type} (m : Sparse α) : Nat := (sparseFree m 0 (m.length + 1)).getD m.length

/-- The governor that the channels of base die 0 ask for leave. -/
def channelDie : Nat := 8

def execCopyPacket (qn : Nat) (s : State) : Out :=
  match s.startable qn 2 with
  | none => .next s
  | some (_, p) =>
      if !p.formed then .next (s.completePkt qn p 3) else
        let root := s.queueRoot qn
        let c : CopySt := { slot := 0, src := .virt root (p.dword 8), dst := .virt root (p.dword 0x10), n := p.dword 0x18, xf := 0 }
        let k := sparseLowest s.cp.channels
        let ch : Channel := { queue := qn, copy := c, die := channelDie, leaveReq := if 65536 < c.n then some s.clk.cycle else none }
        let s := (s.startPkt qn p.idx).modPkt qn p.idx fun p => { p with chan := some k }
        .next { s with cp := { s.cp with channels := sparsePut k ch s.cp.channels },
                       mgmt := if 65536 < c.n then { s.mgmt with leaveWaits := s.mgmt.leaveWaits + 1 } else s.mgmt }

def State.modChannel (s : State) (k : Nat) (f : Channel → Channel) : State :=
  { s with cp := { s.cp with channels := sparseMod k f s.cp.channels } }

/-- COPY_LAND at a channel's copy: step `n` % 32 of unit `n` / 32. A failed check value freezes the channel (R361). -/
def State.landChannel (s : State) (k n : Nat) : State :=
  match sparseFind k s.cp.channels with
  | none => s
  | some ch =>
      let c := ch.copy
      if ch.leaveReq.isSome || c.status.isSome || s.frozenMaster 1 k || c.units ≤ n / 32 then s else
        let u := n / 32
        let ds := c.unitBytes u
        let m : Mover := { die := channelDie }
        let o : Op := { id := 0, path := none, cls := none, group := none, body := .copy c }
        let fail (e : EStatus) (s : State) : State := s.modChannel k fun ch => { ch with copy := { ch.copy with status := some e } }
        match c.stepPart u (n % 32) with
        | some i =>
            (match s.readSource m o c i with
             | none => (s.copyAway c.src c.srcPages (16 * i) 16 0).getD s
             | some (.error .integrity, s) => s.freeze 1 k (causeCode .integrity) (16 * i / 128 * 128)
             | some (.error e, s) => fail e s
             | some (.ok c, s) => s.modChannel k fun ch => { ch with copy := c })
        | none =>
            if n % 32 ≠ 0 || c.landed.contains u || !c.ready ds then s else
              let ws := lineWrites (ds.map fun d => (d, c.value c.got d))
              match storeLines m c.dst [] ws [] s with
              | none => (ws.findSome? fun w => s.copyAway c.dst c.dstPages w.1 w.2.length 1).getD s
              | some (.error e, s) => fail e s
              | some (.ok v, s) => s.modChannel k fun ch => { ch with copy := { c with landed := c.landed ++ [u], v := max c.v v } }

/-- A channel's copy ends: its packet completes OK, or COPY_ERROR with the bytes written (R67, R327). A frozen channel holds it (R361), until a halt (R370). -/
def State.endChannel (s : State) (k : Nat) : State :=
  match sparseFind k s.cp.channels with
  | none => s
  | some ch =>
      if s.halt.isNone && s.frozenMaster 1 k then s else
      match ch.copy.outcome with
      | none => s
      | some e =>
          let s := { s with cp := { s.cp with channels := sparseErase k s.cp.channels } }
          match (s.queue? ch.queue).bind fun q => q.pkts.find? fun p => p.started && !p.ended && p.chan == some k with
          | none => s
          | some p => s.completePkt ch.queue p (if e = .ok then 1 else 8) (ch.copy.landedBytes ch.copy.landed) ch.copy.v

/-- COPY_LAND: bytes of a copy land (R292, R318, R327). -/
def execCopyLand (r : CopyRef) (unit : Nat) (s : State) : Out :=
  match r with
  | .team tk op => .next (s.landCopy tk op unit)
  | .chan k => .next (s.landChannel k unit)

/-- COPY_END: a copy ends with a status (R289, R292, R327). -/
def execCopyEnd (r : CopyRef) (s : State) : Out :=
  match r with
  | .team tk op => .next (s.endCopy tk op)
  | .chan k => .next (s.endChannel k)

/-! Resources of a core (R71, R73, R128, R129). -/

/-- What is taken on a core: rider contexts; per bay, registers per lane and group slots; scratchpad runs (start, bytes); accumulator
tiles; barriers. -/
structure Load where
  ctxs : List Nat := []
  bays : List (Nat × List Nat) := [(0, []), (0, []), (0, []), (0, [])]
  scr : List (Nat × Nat) := []
  tiles : List Nat := []
  bars : Nat := 0

/-- What a team takes: its context, the (bay, slot) of each group, the start of its scratchpad, its tiles. -/
structure Berth where
  ctx : Nat
  groups : List (Nat × Nat)
  scr : Nat
  tiles : List Nat

/-- A group in a bay. -/
def Load.takeSlot (l : Load) (bay slot regs : Nat) : Load := { l with bays := modNth (fun b => (b.1 + regs, slot :: b.2)) bay l.bays }

/-- What a resident team takes. -/
def Load.addTeam (l : Load) (t : Team) : Load :=
  let l := t.groups.foldl (fun l p => if p.2.placed then l.takeSlot p.2.bay p.2.slot (t.desc.regs * 32) else l) l
  { l with ctxs := t.ctx :: l.ctxs, scr := if t.desc.scr = 0 then l.scr else (t.scrStart, t.scrBytes) :: l.scr,
           tiles := t.accTiles ++ l.tiles, bars := l.bars + t.desc.nbar }

/-- The load of a core by some of its teams. -/
def State.loadOf (s : State) (core : Nat) (pick : Team → Bool := fun _ => true) : Load :=
  ((s.coreTeams core).filter fun p => pick p.2).foldl (fun l p => l.addTeam p.2) {}

/-- The bay that a group goes to: the most free registers among bays with fewer than 16 groups, the lowest among equals (R71). -/
def Load.bayFor (l : Load) (regs : Nat) : Option Nat :=
  let free (b : Nat) : Nat := 2048 - (nth l.bays (2048, []) b).1
  let open_ := (List.range 4).filter fun b => decide ((nth l.bays (0, []) b).2.length < 16)
  match open_.foldl (fun best b => match best with
    | none => some b
    | some x => if free x < free b then some b else some x) none with
  | some b => if regs ≤ free b then some b else none
  | none => none

/-- Places n groups in ascending GROUPID; all or none. -/
def placeGroups (regs : Nat) : Nat → Load → List (Nat × Nat) → Option (List (Nat × Nat) × Load)
  | 0, l, acc => some (acc, l)
  | n + 1, l, acc =>
      match l.bayFor regs with
      | none => none
      | some b =>
          match (List.range 16).find? fun k => !(nth l.bays (0, []) b).2.contains (b * 16 + k) with
          | none => none
          | some k => placeGroups regs n (l.takeSlot b (b * 16 + k) regs) (acc ++ [(b, b * 16 + k)])

/-- The lowest free run of the scratchpad units from unit `lo` on (R128). -/
def freeRun (lo size : Nat) (used : List (Nat × Nat)) : Option Nat :=
  if size = 0 then some 0 else
    ((List.range 320).map (· * 4096)).find? fun a =>
      decide (lo * 131072 ≤ a ∧ a + size ≤ 10 * 131072) && used.all fun u => decide (u.1 + u.2 ≤ a ∨ a + size ≤ u.1)

/-- Everything a team of a descriptor needs, free together; and the load with it (R71). `lo` is the first scratchpad unit. -/
def Load.fit (l : Load) (lo : Nat) (d : TaskDesc) : Option (Berth × Load) :=
  match freeBelow l.ctxs 16, placeGroups (d.regs * 32) d.groups l [], freeRun lo (d.scr * 4096) l.scr with
  | some ctx, some (gs, l'), some a =>
      let tiles := ((List.range 4).filter fun t => !l.tiles.contains t).take d.acc
      if tiles.length < d.acc ∨ 48 < l.bars + d.nbar then none
      else some ({ ctx := ctx, groups := gs, scr := a, tiles := tiles },
                 { l' with ctxs := ctx :: l'.ctxs, scr := if d.scr = 0 then l'.scr else (a, d.scr * 4096) :: l'.scr, tiles := tiles ++ l'.tiles,
                           bars := l'.bars + d.nbar })
  | _, _, _ => none

/-- n teams of a descriptor fit together. -/
def Load.fitMany (lo : Nat) (d : TaskDesc) : Nat → Load → Bool
  | 0, _ => true
  | n + 1, l => match l.fit lo d with
    | some (_, l') => Load.fitMany lo d n l'
    | none => false

/-- A reserved block is free beside a load: the groups of every team that fits within it can be placed, whatever their registers (R71, R73, R406). -/
def Load.leaves (l : Load) (lo : Nat) (b : Block) : Bool :=
  let placed (regs : Nat) : Bool := (placeGroups (regs * 32) (min (min b.groups 32) (b.regs / regs)) l []).isSome
  decide (l.ctxs.length < 16 ∧ b.acc + l.tiles.length ≤ 4 ∧ b.bars + l.bars ≤ 48)
    && ((List.range 16).all fun i => placed (i + 1)) && (freeRun lo (b.scr * 4096) l.scr).isSome

/-- A team's demands fit within a reserved block (R74). -/
def Block.holds (b : Block) (d : TaskDesc) : Bool :=
  decide (d.groups ≤ b.groups ∧ d.groups * d.regs ≤ b.regs ∧ d.scr ≤ b.scr ∧ d.acc ≤ b.acc ∧ d.nbar ≤ b.bars)

/-- The first scratchpad unit that a new allocation may use (R135). -/
def Core.firstUnit (c : Core) : Nat := max c.l1 (c.carve.getD 0)

/-- A team fits on an empty core of a partition; `w` of them on every core when the launch is persistent (R70, R78). -/
def State.fitsPart (s : State) (cores : List Nat) (d : TaskDesc) (persist : Bool) (w : Nat) : Bool :=
  let fits (c n : Nat) : Bool := Load.fitMany (s.core c).l1 d n {}
  if persist then !cores.isEmpty && cores.all (fun c => fits c w) else cores.any fun c => fits c 1

/-! Launches (R59, R67, R76, R308). -/

/-- A launch as a packet or an instruction asks for it. -/
structure Request where
  formed : Bool
  nx : Nat
  ny : Nat
  nz : Nat
  task : Nat
  seed : U64
  persist : Bool
  w : Nat
  compl : Option Nat
  queue : Nat
  root : Nat
  level : Nat
  depth : Nat
  parent : Option (Nat × Nat)
  /-- the parent's launch -/
  above : Option Nat
  /-- the agent reference of an LNCH event -/
  agent : U64
  /-- the packet's index -/
  idx : Nat

def Request.ends (r : Request) (launch : Option Nat) : RecEnd :=
  match r.parent with
  | some (n, op) => .child n op launch
  | none => .packet r.queue r.idx launch

/-- A launch ends without a team. -/
def State.refuseLaunch (s : State) (r : Request) (status launch : Nat) : State :=
  s.complete { root := r.root, compl := r.compl, status := status, ends := r.ends none, launch := launch, start := s.stamp }

/-- The replay that forces a launch's identifier: the replayed grid itself, or the one its parent belongs to (R384). -/
def State.launchGate (s : State) (r : Request) : Option Replay :=
  match r.above with
  | some l => s.gating l
  | none => match s.haeth.replay with
    | some p => if p.gating && p.queue == r.queue && p.idx == r.idx && p.launch.isNone then some p else none
    | none => none

/-- The identifier a launch takes: the next one, or the logged one; none where its turn in the log has not come (R59, R378). -/
def State.launchId (s : State) (r : Request) : Option (Nat × State) :=
  match s.launchGate r with
  | none =>
      let id := s.cp.nextLaunch
      let s := s.sharedEvent 0xC00 r.level 0x0C [BitVec.ofNat 64 id, r.agent]
      some (id, { s with cp := { s.cp with nextLaunch := id + 1 } })
  | some p =>
      match p.expect 0xC00 with
      | .event _ _ ev _ =>
          let id := (nth (evBody ev) 0 0).toNat
          -- the queue on which the launch runs again may be another than the recorded one
          let mine := decide (evType ev = 0x0C) && (r.above.isNone || nth (evBody ev) 0 1 == r.agent)
          if mine && (s.launch? id).isNone then
            let s := s.stepReplay 0xC00
            let s := if r.above.isSome then s else match s.haeth.replay with
              | some p => { s with haeth := { s.haeth with replay := some { p with launch := some id } } }
              | none => s
            some (id, { s with cp := { s.cp with nextLaunch := max s.cp.nextLaunch (id + 1) } })
          else none
      | _ => none

/-- A launch is checked in the order of R67, and accepted as a grid; none where a replay holds it. -/
def State.accept (s : State) (r : Request) : Option State :=
  if !r.formed then some (s.refuseLaunch r 3 0)
  else if 10 < r.depth then some (s.refuseLaunch r 2 0)
  else
    match s.launchId r with
    | none => none
    | some (id, s) =>
        if r.nx * r.ny * r.nz = 0 then some (s.refuseLaunch r 1 id) else
          match s.readDesc none r.root r.task with
          | (none, s) => some (s.refuseLaunch r 4 id)
          | (some d, s) =>
              let part := ((s.queue? r.queue).map (·.part)).getD 0
              let cores := ((s.part? part).map (·.cores)).getD []
              if !s.fitsPart cores d r.persist r.w then some (s.refuseLaunch r 5 id)
              else
                let top := match r.above with
                  | some l => ((s.launch? l).map (·.top)).getD l
                  | none => id
                let l : Launch := { depth := r.depth, queue := r.queue, part := part, root := r.root, level := r.level, seed := r.seed, persist := r.persist,
                                    w := r.w, nx := r.nx, ny := r.ny, nz := r.nz, desc := d,
                                    teams := if r.persist then r.w * cores.length else r.nx * r.ny * r.nz, compl := r.compl, parent := r.parent, top := top }
                let s := { s with cp := { s.cp with launches := sparsePut id l s.cp.launches } }
                some (match r.parent with
                  | some (n, op) => s.modSerial n fun t => t.modOp op fun o => { o with body := .child id }
                  | none => s.modPkt r.queue r.idx fun p => { p with started := true, start := s.stamp, launch := some id })

/-- The cores of a queue's partition. -/
def State.queueCores (s : State) (qn : Nat) : List Nat := (((s.queue? qn).bind fun q => s.part? q.part).map (·.cores)).getD []

/-- LAUNCH_PACKET: a LAUNCH packet starts, and the instruction buffers and caches of the partition's cores are invalidated (R122). -/
def execLaunchPacket (qn : Nat) (s : State) : Out :=
  match s.startable qn 1 with
  | none => .next s
  | some (_, p) =>
      let r : Request := { formed := p.formed, nx := p.word 4, ny := bitsOf (p.word 8) 15 0, nz := bitsOf (p.word 8) 31 16, task := p.dword 0x10,
                           seed := BitVec.ofNat 64 (p.dword 0x18), persist := bitsOf (p.word 0xC) 5 5 == 1, w := bitsOf (p.word 0xC) 4 0, compl := p.compl, queue := qn,
                           root := s.queueRoot qn, level := p.recLvl, depth := 1, parent := none, above := none, agent := aref 0 0 qn 63, idx := p.idx }
      .next (((s.accept r).map fun s => (s.queueCores qn).foldl State.invalidateFetch s).getD s)

/-- LAUNCH: a rider requests a child grid; SP rises, and falls when the child's record has been written (R76, R308). -/
def execLaunch (b c : SReg) (s : State) : Out :=
  scalarRun (.launch b c) [b, b + 1, b + 2, b + 3, c] s fun tk t =>
    if t.pathFull .sp then stay s else
      let dims := (t.sreg (b + 1)).toNat
      let w := (t.sreg c).toNat
      let nx := bitsOf dims 31 0
      let ny := bitsOf dims 47 32
      let nz := bitsOf dims 63 48
      let persist := bitsOf w 5 5 == 1
      let formed := decide (w < 2 ^ 7 ∧ nx * ny * nz < 2 ^ 32)
        && (if persist then decide (1 ≤ bitsOf w 4 0 ∧ bitsOf w 4 0 ≤ 16) else bitsOf w 4 0 == 0)
      let l := s.launch? t.launch
      let (s1, op) := s.issueOp tk { id := 0, path := some .sp, cls := none, group := none, body := .child 0 }
      let r : Request := { formed := formed, nx := nx, ny := ny, nz := nz, task := (t.sreg b).toNat, seed := t.sreg (b + 2), persist := persist,
                           w := bitsOf w 4 0, compl := if bitsOf w 6 6 = 1 then none else some (t.sreg (b + 3)).toNat, queue := (l.map (·.queue)).getD 0, root := t.root,
                           level := (l.map (·.level)).getD 0, depth := (l.map (·.depth)).getD 0 + 1, parent := some (t.serial, op), above := some t.launch,
                           agent := aref 0 t.launch t.teamId 32, idx := 0 }
      match s1.accept r with
      | none => stay s
      | some s2 => .next (s2.retireRider tk)

end Sys2Proof.Machine
end

