-- ==== Sys2Proof/Machine/Sched.lean ====
section
/-!
DEFINITION. Machine/Sched.lean: arbitration among queues (R68 to R70, R73 to R76, R78), admission (R71, R72), retirement and
successors (R77, R81 to R84), spawned groups (R79), and the no-progress trap (R86).
-/
namespace Sys2Proof.Machine

/-! Arbitration. -/

/-- Whether a launch has teams that are not distributed. -/
def Launch.open_ (l : Launch) : Bool := !l.killed && !l.noFit && !l.ended && decide (l.next < l.teams)

/-- The launches of a queue with teams not distributed: child grids first, by identifier, then its packets' in index order (R76). -/
def State.openLaunches (s : State) (qn : Nat) : List (Nat × Launch) :=
  let ls := s.cp.launches.filter fun l => l.2.queue == qn && l.2.open_
  let order (l : Nat) : Nat := ((s.queue? qn).bind fun q => (q.pkts.find? fun p => p.launch == some l).map (·.idx)).getD 0
  ls.filter (fun l => l.2.parent.isSome)
    ++ (sortBy (fun a b => decide (a.1 ≤ b.1)) ((ls.filter fun l => l.2.parent.isNone).map fun l => (order l.1, l))).map (·.2)

/-- The core of a rank (R61). -/
def Partition.coreOf (p : Partition) (rank : Nat) : Nat := nth p.cores 0 (rank % max 1 p.cores.length)

/-- A core stays in its partition, and holds no team of another (R406). -/
def State.coreOf (s : State) (pn c : Nat) : Bool :=
  (sparseFind c s.cp.moving).isNone && (s.core c).pending.all (fun x => x.part == pn) && (s.coreTeams c).all fun x => x.2.part == pn

/-- A core may take a team of a partition: its list has room, and it holds no team of another partition (R70, R406). -/
def State.coreOpen (s : State) (pn c : Nat) : Bool := decide ((s.core c).pending.length < 8) && s.coreOf pn c

/-- A core holds an EXPRESS team. -/
def State.coreExpress (s : State) (c : Nat) : Bool := (s.core c).pending.any (·.express) || (s.coreTeams c).any fun x => x.2.express

/-- The cores on which the next team of a launch belongs (R74, R78). -/
def Partition.coresFor (p : Partition) (express : Bool) (l : Launch) : List Nat :=
  if l.persist then [p.coreOf l.next]
  else if express && !p.reserved.isEmpty && p.block.holds l.desc then p.cores.filter p.reserved.contains else p.cores

/-- The cores that may take the next team of a launch (R70, R74, R78). -/
def State.placesFor (s : State) (pn : Nat) (p : Partition) (express : Bool) (l : Launch) : List Nat := (p.coresFor express l).filter (s.coreOpen pn)

/-- The core that a replay's log gives a team; the outer none where its turn has not come (R378). -/
def State.distGate (s : State) (launch teamId : Nat) : Option (Option Nat) :=
  match s.gating launch with
  | none => some none
  | some r =>
      match r.expect 0xC00 with
      | .event _ _ ev _ =>
          let w := (nth (evBody ev) 0 0).toNat
          if evType ev = 0x0D ∧ bitsOf w 63 32 = teamId ∧ (nth (evBody ev) 0 1).toNat = launch then some (some (bitsOf w 8 0)) else none
      | _ => none

/-- Distributes the next team of a launch to the first core of `place` that may take it, or else to any that may; to a logged core; or to its own.
Answers the places left. -/
def State.distribute (s : State) (pn : Nat) (p : Partition) (q : Queue) (id : Nat) (l : Launch) (place : List Nat) : Option (State × List Nat) :=
  let teamId := l.next
  let cores := s.placesFor pn p q.express l
  match s.distGate id teamId with
  | none => none
  | some forced =>
      let (want, rest) : Option Nat × List Nat := match forced with
        | some c => (some c, place)
        | none =>
            if l.persist then (cores.head?, place) else
              let c := (place.find? cores.contains).orElse fun _ => cores.head?
              (c, match c with
                | some c => place.erase c
                | none => place)
      match want with
      | none => none
      | some c =>
          if !(cores.contains c || (forced.isSome && s.coreOpen pn c)) then none else
            let held : Pending := { launch := id, teamId := teamId, express := q.express, part := pn,
                                    reserved := q.express && p.reserved.contains c && p.block.holds l.desc }
            let s := if forced.isSome then s.stepReplay 0xC00
              else s.sharedEvent 0xC00 l.level 0x0D [BitVec.ofNat 64 (teamId * 2 ^ 32 + c), BitVec.ofNat 64 id]
            let s := s.modLaunch id fun l => { l with next := l.next + 1 }
            some (s.modCore c fun c => { c with pending := c.pending ++ [held] }, rest)

/-- Distributes teams of a queue while `go` allows it. -/
def distributeMany (pn qn : Nat) (p : Partition) (go : State → Bool) : Nat → List Nat → State → State × List Nat
  | 0, place, s => (s, place)
  | fuel + 1, place, s =>
      if !go s then (s, place) else
        match s.queue? qn, (s.openLaunches qn).head? with
        | some q, some (id, l) =>
            match s.distribute pn p q id l place with
            | none => (s, place)
            | some (s, place) => distributeMany pn qn p go fuel place s
        | _, _ => (s, place)

/-- The quantum in core-cycles per unit of weight (R68). -/
def quantum : Nat := 2 ^ 20

/-- A queue is visited by the round-robin (R68). -/
def visitQueue (pn : Nat) (p : Partition) (qn : Nat) (place : List Nat) (s : State) : State × List Nat :=
  match s.queue? qn with
  | none => (s, place)
  | some q =>
      let w : Int := (quantum * max 1 q.weight : Nat)
      if (s.openLaunches qn).isEmpty then (s.modQueue qn fun q => { q with deficit := min q.deficit 0 }, place)
      else
        let s := s.modQueue qn fun q => { q with deficit := min (q.deficit + w) w }
        let go (s : State) : Bool := match s.queue? qn with
          | some q => decide (0 < q.deficit)
          | none => false
        let (s, place) := distributeMany pn qn p go (8 * 304) place s
        (if (s.openLaunches qn).isEmpty then s.modQueue qn fun q => { q with deficit := min q.deficit 0 } else s, place)

/-- ARBITRATION_ROUND: EXPRESS queues below the cap first, then the round-robin over the partition's queues. `place` names the cores
of the teams in turn; the choice among open cores is any (R68, R70, R73). -/
def execArbitrationRound (pn : Nat) (place : List Nat) (s : State) : Out :=
  match (s.part? pn).filter fun _ => s.halt.isNone with
  | none => .next s
  | some p =>
      let qs := (s.cp.queues.filter fun q => q.2.part == pn).map (·.1)
      let isExpress (q : Nat) : Bool := match s.queue? q with
        | some x => x.express
        | none => false
      let below (s : State) : Bool := decide ((p.cores.filter s.coreExpress).length < p.ecap)
      let (s, place) := (qs.filter isExpress).foldl (fun (a : State × List Nat) q => distributeMany pn q p below (8 * 304) a.2 a.1) (s, place)
      let rr := qs.filter fun q => !isExpress q || !below s
      .next (rr.foldl (fun (a : State × List Nat) q => visitQueue pn p q a.2 a.1) (s, place)).1

/-! Admission (R71, R72). -/

/-- A pending list in rank order: EXPRESS first, then by arrival. -/
def Core.ranked (c : Core) : List Pending := c.pending.filter (·.express) ++ c.pending.filter fun p => !p.express

/-- The partition a core belongs to. -/
def State.partOf (s : State) (core : Nat) : Option Partition := (s.cp.parts.find? fun p => p.2.cores.contains core).map (·.2)

/-- Beside the teams outside the reserved block of a core and what one of them would add, the block is still free (R73). -/
def State.keepsBlock (s : State) (core : Nat) (add : Load → Load) : Bool :=
  match s.partOf core with
  | some part => !part.reserved.contains core || (add (s.loadOf core fun t => !t.reserved)).leaves (s.core core).firstUnit part.block
  | none => true

/-- What a team with a berth takes beside what a core holds. -/
def Berth.into (b : Berth) (d : TaskDesc) (bare : Load) : Load :=
  { ctxs := b.ctx :: bare.ctxs, scr := if d.scr = 0 then bare.scr else (b.scr, d.scr * 4096) :: bare.scr,
    tiles := b.tiles ++ bare.tiles, bars := bare.bars + d.nbar,
    bays := (b.groups.foldl (fun x g => x.takeSlot g.1 g.2 (d.regs * 32)) bare).bays }

/-- What a pending team would take on its core now, if everything it needs is free (R71, R73, R74). -/
def State.berthFor (s : State) (core : Nat) (p : Pending) : Option Berth :=
  match s.launch? p.launch with
  | some l =>
      let free := !p.reserved || (s.coreTeams core).all fun t => !t.2.reserved
      match (s.loadOf core).fit (s.core core).firstUnit l.desc with
      | some (b, l') =>
          if free && (p.reserved || s.keepsBlock core (b.into l.desc)) && decide (l'.ctxs.length ≤ 16) then some b else none
      | none => none
  | none => none

/-- Whether the i-th team of a core's list may be admitted: it fits, no team ranked above it does, and no other team waits that has been passed
over 8 times (R72). DESIGN CHOICE (log entry 43): of two teams passed over 8 times each may be admitted when it fits, the one ranked first before the
other; and an EXPRESS team waits for one passed over 8 times although its reserved block is free (R74). -/
def State.mayAdmit (s : State) (core i : Nat) : Option (Pending × Berth) :=
  let list := (s.core core).ranked
  match list[i]? with
  | none => none
  | some p =>
      let first := decide (8 ≤ p.passes) || list.all fun x => decide (x.passes < 8)
      if (s.core core).frozen || s.halt.isSome || !first || !((list.take i).all fun x => decide (x.passes < 8) && (s.berthFor core x).isNone) then none
      else (s.berthFor core p).map fun b => (p, b)

/-- The doubleword below a handle table: SY.TRAPVEC at team start (R357); 0 where it cannot be read. -/
def State.readTrapVec (s : State) (core root htab : Nat) : U64 × State :=
  let (r, s) := s.readVaNum (some core) root ((htab + 2 ^ 64 - 8) % 2 ^ 64) 8
  match r with
  | .ok v => (BitVec.ofNat 64 v, s)
  | .error _ => (0, s)

/-! The register file of a bay, in 64 units of 32 registers (R21, R166). -/

/-- Units of a bay that resident groups hold. -/
def State.unitsHeld (s : State) (core bay : Nat) : List Nat :=
  (s.coreTeams core).flatMap fun p => p.2.groups.flatMap fun g => if g.2.placed && g.2.bay == bay then g.2.units else []

/-- Free units of a bay, besides some that are taken: any of them, where earlier groups have left contents that tell them apart. -/
def State.chooseUnits (s : State) (core bay n : Nat) (taken : List (Nat × Nat)) : List Nat × State :=
  let held := s.unitsHeld core bay
  let free := (List.range 64).filter fun u => !held.contains u && !taken.contains (bay, u)
  if (s.core core).regs.isEmpty then (free.take n, s) else
    let (w, s) := s.freeWord
    let k := w.toNat % max 1 free.length
    ((free.drop k ++ free.take k).take n, s)

/-- What earlier groups left in some units of a bay, as the registers of the group that takes them. -/
def Core.leftIn (c : Core) (bay : Nat) (units : List Nat) : Sparse U32 :=
  c.regs.foldl (fun m x =>
    let block := x.1 / 1024
    if block / 64 ≠ bay then m else match units.idxOf? (block % 64) with
      | some i => sparsePut (1024 * i + x.1 % 1024) x.2 m
      | none => m) []

/-- A fresh group. -/
def freshGroup (slot bay base : Nat) (units : List Nat) (old : Sparse U32) : Group :=
  { slot := slot, bay := bay, base := base, units := units, old := old }

/-- A fresh group with n units of registers on a core; answers also what is taken by then. -/
def State.makeGroup (s : State) (core bay slot n : Nat) (taken : List (Nat × Nat)) : Group × List (Nat × Nat) × State :=
  let (us, s) := s.chooseUnits core bay n taken
  let (base, s) := s.fresh
  (freshGroup slot bay base us ((s.core core).leftIn bay us), taken ++ us.map fun u => (bay, u), s)

/-- Gives groups 0, 1, … their places, each with fresh registers (R166). -/
def freshGroups (core n : Nat) : Nat → List (Nat × Nat) → List (Nat × Nat) → Sparse Group → State → Sparse Group × State
  | _, [], _, gs, s => (gs, s)
  | g, (bay, slot) :: l, taken, gs, s =>
      let (x, taken, s) := s.makeGroup core bay slot n taken
      freshGroups core n (g + 1) l taken (sparsePut g x gs) s

/-- A team starts on a core (R60, R71). -/
def State.startTeam (s : State) (core : Nat) (p : Pending) (l : Launch) (b : Berth) : State :=
  let s := s.closeCore core 3
  let (serial, s) := s.fresh
  let (groups, s) := freshGroups core l.desc.regs 0 b.groups [] [] s
  let (vec, s) := s.readTrapVec core l.root l.desc.htab.toNat
  let t : Team := { serial := serial, core := core, ctx := b.ctx, launch := p.launch, teamId := p.teamId, part := p.part, express := p.express,
                    reserved := p.reserved, desc := l.desc, root := l.root, pc := l.desc.spc, spillBase := spillOf l.desc.spill, trapVec := vec,
                    scrStart := b.scr, accTiles := b.tiles, groups := groups, admitted := s.clk.cycle,
                    scrSize := (10 - (s.core core).l1) * 131072, groupsHeld := groups.length }
  let n := if l.persist then l.nx * l.ny * l.nz else l.teams
  let t := ((t.setSreg 1 l.desc.arg).setSreg 2 (BitVec.ofNat 64 p.teamId)).setSreg 3 (BitVec.ofNat 64 n)
  let s := s.modLaunch p.launch fun l => { l with start := l.start.orElse fun _ => some s.stamp }
  (s.setTeam t.key t).captureHandles t

/-- ADMIT: the core takes the i-th team of its ranked list, all its resources together; the teams it passes over count a pass. -/
def execAdmission (core i : Nat) (s : State) : Out :=
  match s.mayAdmit core i with
  | none => .next s
  | some (p, b) =>
      match s.launch? p.launch with
      | none => .next s
      | some l =>
          let above := (s.core core).ranked.take i
          let s := s.modCore core fun c =>
            { c with pending := (c.pending.filter fun x => !(x.launch == p.launch && x.teamId == p.teamId)).map fun x =>
                if above.contains x then { x with passes := x.passes + 1 } else x }
          .next (s.startTeam core p l b)

/-! Launches end (R67, R82). -/

/-- Teams of a launch that are pending, resident or saved. -/
def State.launchBusy (s : State) (id : Nat) : Bool :=
  s.teams.any (fun t => t.2.launch == id && !t.2.retiredKilled) || s.cp.saved.any (fun x => x.team.launch == id)
    || s.cores.any fun c => c.2.pending.any fun p => p.launch == id

/-- A launch completes when its last team has retired, or, killed or ended by NO_FIT, when none of its teams is left. -/
def State.finishLaunch (s : State) (id : Nat) : State :=
  match s.launch? id with
  | none => s
  | some l =>
      let isOver := decide (l.teams ≤ l.retired) || ((l.killed || l.noFit) && !s.launchBusy id)
      if l.ended || !isOver then s else
        let status := if l.faulted.isSome then 6 else if l.badSucc then 4 else if l.noFit then 5 else 1
        let s := s.modLaunch id fun l => { l with ended := true }
        let ends : RecEnd := match l.parent with
          | some (n, op) => .child n op (some id)
          | none => .packet l.queue (((s.queue? l.queue).bind fun q => (q.pkts.find? fun p => p.launch == some id).map (·.idx)).getD (2 ^ 64)) (some id)
        s.complete { root := l.root, compl := l.compl, status := status, ends := ends, team := l.faulted.getD 0, launch := id,
                     start := l.start.getD s.stamp, count := l.retired }

/-- Completes every launch that is over. -/
def State.finishLaunches (s : State) : State := (s.cp.launches.map (·.1)).foldl (fun s id => s.finishLaunch id) s

/-! Retirement (R69, R77, R82, R83). -/

/-- The team's bins are empty. -/
def State.binsEmpty (s : State) (t : Team) : Bool := (s.core t.core).bins.all fun b => b.2.team != t.serial || b.2.threads.isEmpty

/-- No operation of the team is in flight. -/
def Team.quiet (t : Team) : Bool := t.ops.all (·.done)

/-- Drops a team from its core: its resources are free (R82). -/
def State.releaseTeam (s : State) (tk : Nat) (t : Team) : State :=
  let s := (s.noteCounts t (t.gone ++ t.groups)).freeSlots t.core t.serial
  let s := { s with coh := { s.coh with monitors := s.coh.monitors.filter fun m => m.team != t.serial } }
  let s := s.modCore t.core fun c => { c with handles := c.handles.filter (fun h => h.1 != t.serial), bins := c.bins.filter fun b => b.2.team != t.serial }
  let s := s.modCore t.core fun c => (t.gone ++ t.groups).foldl (fun c x => leaveRegs c x.2) c
  s.dropTeam tk

/-- What a killed team waits for: its copies and its executing matrix command (R353). -/
def holdsKilled (o : Op) : Bool :=
  !o.done && match o.body with
    | .copy _ | .matrix .. => true
    | _ => false

/-- What is left of a killed team once it has retired: the accesses to memory and the fabric operations that it had issued (R353). -/
def Team.remains (t : Team) : Team :=
  let own (o : Op) : Bool := !o.done && match o.body with
    | .store _ | .range .. => !inTeamOnly o
    | .post .. | .fred .. | .fmc .. => true
    | _ => false
  { t with retiredKilled := true, groups := [], gone := [], endedV := t.cover, ops := t.ops.filter own }

/-- The key under which they are kept: no rider context has it. -/
def Team.remainsKey (t : Team) : Nat := 8192 + t.serial

/-- A team may retire (R82); a killed one under R353. A frozen core holds its teams (R361). -/
def State.mayRetire (s : State) (t : Team) : Bool :=
  if s.halt.isSome || t.retiredKilled || (s.core t.core).frozen then false
  else if t.killed then !t.ops.any holdsKilled
  else t.exited && t.st == .draining && t.groups.isEmpty && s.binsEmpty t && (s.liveChildren t).isEmpty && t.quiet
    && (match t.succ with
      | some (some _) => false
      | _ => true)

/-- TEAM_RETIRE: the team's resources return, its queue is charged, and its launch counts it. What a killed team left goes when it has performed. -/
def execTeamRetire (tk : Nat) (s : State) : Out :=
  match s.team? tk with
  | none => .next s
  | some t =>
      if t.retiredKilled && t.quiet then .next (s.dropTeam tk)
      else if !s.mayRetire t then .next s else
        let s := s.releaseTeam tk t
        let s := if !t.killed || t.remains.ops.isEmpty then s else s.setTeam t.remainsKey t.remains
        let s := s.chargeTeam t (s.clk.cycle - t.admitted)
        let s := s.modLaunch t.launch fun l => { l with retired := l.retired + 1, badSucc := l.badSucc || (!t.killed && t.succ == some none) }
        .next s.finishLaunches

/-- ENTER_WAITING_CHILDREN: an exited team whose groups and bins are empty waits for its children (R77). -/
def execEnterWaitingChildren (tk : Nat) (s : State) : Out :=
  match s.team? tk with
  | none => .next s
  | some t =>
      if t.exited && t.st == .draining && !t.killed && t.groups.isEmpty && s.binsEmpty t && !(s.liveChildren t).isEmpty then
        .next (s.setTeam tk { t with st := .waitingChildren })
      else .next s

/-- A team in a core's pending list is not admittable: it does not fit, or the list is held for a team that has been passed over 8 times and does not
fit (R72). -/
def State.stuckOn (s : State) (core : Nat) (x : Pending) : Bool :=
  (s.berthFor core x).isNone || (s.core core).pending.any fun y => decide (8 ≤ y.passes) && y != x && (s.berthFor core y).isNone

/-- The next team of a launch cannot be admitted: it is pending where it is stuck; or it is not distributed, and on each of its cores it would be
stuck, or teams of another partition stand, or the list is full of stuck teams (R70, R81). -/
def State.nextStuck (s : State) (pn : Nat) (p : Partition) (id : Nat) (l : Launch) : Bool :=
  let held := s.cores.flatMap fun c => (c.2.pending.filter fun x => x.launch == id).map fun x => (c.1, x)
  if !held.isEmpty then held.all fun (c, x) => s.stuckOn c x
  else
    let express := ((s.queue? l.queue).map (·.express)).getD false
    l.open_ && (p.coresFor express l).all fun c =>
      !s.coreOf pn c || (decide (8 ≤ (s.core c).pending.length) && (s.core c).pending.all (s.stuckOn c))
        || s.stuckOn c { launch := id, teamId := l.next, express := express, reserved := express && p.reserved.contains c && p.block.holds l.desc }

/-- Every core of a partition holds only teams in WAITING_CHILDREN. -/
def State.allWaiting (s : State) (p : Partition) : Bool :=
  p.cores.all fun c => (s.coreTeams c).all fun t => t.2.st == .waitingChildren

/-- A child grid that R81 ends. -/
def State.stuckChild (s : State) (id : Nat) : Bool :=
  match s.launch? id with
  | some l =>
      match (s.queue? l.queue).bind fun q => (s.part? q.part).map fun p => (q.part, p) with
      | some (pn, p) => l.parent.isSome && !l.killed && !l.noFit && !l.ended && s.allWaiting p && s.nextStuck pn p id l
      | none => false
  | none => false

/-- CHILD_NO_FIT. -/
def execChildNoFit (launch : Nat) (s : State) : Out :=
  if !s.stuckChild launch then .next s else
    let s := s.modLaunch launch fun l => { l with noFit := true }
    let s := { s with cores := s.cores.map fun (c : Nat × Core) => (c.1, { c.2 with pending := c.2.pending.filter fun p => p.launch != launch }) }
    .next s.finishLaunches

/-! Successors (R83). -/

/-- Gives a successor's waiting groups their registers, all together, once they are free. -/
def State.placeGroupsOf (s : State) (tk : Nat) : State :=
  match s.team? tk with
  | none => s
  | some t =>
      let waiting := t.groups.filter fun g => !g.2.placed
      if waiting.isEmpty then s else
        match placeGroups (t.desc.regs * 32) waiting.length (s.loadOf t.core) [] with
        | none => s
        | some (ps, _) =>
            let add (bare : Load) : Load := ps.foldl (fun x g => x.takeSlot g.1 g.2 (t.desc.regs * 32)) bare
            if !t.reserved && !s.keepsBlock t.core add then s else
              let (gs, s) := freshGroups t.core t.desc.regs 0 ps [] [] (s.countRoom t.core waiting.length)
              s.setTeam tk (gs.foldl (fun t x => match waiting[x.1]? with
                | some w => t.modGroup w.1 fun g => { x.2 with rein := g.rein, icnt := g.icnt, retired := g.retired }
                | none => t) t)

/-- A successor may start: as for retirement, but the path counters may stand (R83). A group that has ended holds it back only by its QMMAs in
flight. -/
def State.maySucceed (s : State) (t : Team) : Option TaskDesc :=
  match t.succ with
  | some (some d) =>
      if t.exited && !s.stopped t && t.st == .draining && t.groups.isEmpty && s.binsEmpty t && (s.liveChildren t).isEmpty then some d else none
  | _ => none

/-- SUCCESSOR_START: the successor begins in place. DESIGN CHOICE (log entry 18): what R83 lists neither as kept nor as reloaded, the FMT of the last
SETFMT and an open IDEM region, is kept. -/
def execSuccessorStart (tk : Nat) (s : State) : Out :=
  match s.team? tk with
  | none => .next s
  | some t =>
      match s.maySucceed t with
      | none => .next s
      | some d =>
          let (vec, s) := s.readTrapVec t.core t.root d.htab.toNat
          let groups : Sparse Group := (List.range d.groups).map fun g => (g, { placed := false, icnt := (t.countsOf g).1, retired := (t.countsOf g).2 })
          let t' : Team := { t with desc := d, pc := d.spc, spillBase := spillOf d.spill, trapVec := vec, exited := false, st := .resident, succ := none,
                                    groups := groups, groupsHeld := max t.groupsHeld d.groups }
          .next (((s.setTeam tk t').captureHandles t').placeGroupsOf tk)

/-! Spawned groups (R79). -/

/-- The bin from which a logged group forms: of the team's bins that hold 32 threads, or exactly the logged number where that is less, the one whose
timer runs out first. DESIGN CHOICE (log entry 13): an SPFORM event names no bin. -/
def State.loggedBin (s : State) (t : Team) (k : Nat) : Option Nat :=
  let fits := (s.core t.core).bins.filter fun b => b.2.team == t.serial && (if k < 32 then b.2.threads.length == k else decide (32 ≤ b.2.threads.length))
  (sortBy (fun a b => decide (a.2.expiry ≤ b.2.expiry)) fits).head?.map (·.1)

/-- The group that a replay's log has a team's bin form next: (threads, GROUPID), once the rider has the logged count; the outer none where this bin's
turn has not come (R378). -/
def State.formGate (s : State) (t : Team) (bin : Nat) : Option (Option (Nat × Nat)) :=
  match s.gating t.launch with
  | none => some none
  | some r =>
      match r.expect t.core with
      | .event _ _ ev counts =>
          let w := (nth (evBody ev) 0 0).toNat
          match eventAgent ev counts with
          | some (l, n, _) =>
              if evType ev = 0x05 ∧ l = t.launch ∧ n = t.teamId ∧ evIcnt ev ≤ t.retired % 2 ^ 40 ∧ s.loggedBin t (bitsOf w 13 8) = some bin then
                some (some (bitsOf w 13 8, bitsOf w 4 0))
              else none
          | none => none
      | _ => none

/-- A group that a bin may form now. -/
structure FormPlan where
  tk : Nat
  team : Team
  bin : Bin
  /-- the oldest threads that it takes, and its GROUPID, bay and slot -/
  threads : Nat
  gid : Nat
  bay : Nat
  slot : Nat
  /-- a replay's log names it -/
  forced : Bool

/-- The group that a due bin forms of its oldest threads, if a group slot, registers and a GROUPID are free. -/
def State.formPlan (s : State) (core bin : Nat) : Option FormPlan := do
  let b ← sparseFind bin (s.core core).bins
  let (tk, t) ← s.teamBySerial b.team
  let forced ← s.formGate t bin
  let k := match forced with
    | some (n, _) => n
    | none => min 32 b.threads.length
  let gid ← match forced with
    | some (_, g) => some g
    | none => freeBelow (t.groups.map (·.1)) 32
  let ready := if forced.isSome then decide (0 < k ∧ k ≤ b.threads.length) else b.due && decide (0 < k)
  match placeGroups (t.desc.regs * 32) 1 (s.loadOf core) [] with
  | some ([(bay, slot)], _) =>
      let free := t.reserved || s.keepsBlock core fun bare => bare.takeSlot bay slot (t.desc.regs * 32)
      if !ready || !free || t.killed || s.halt.isSome || (s.core core).frozen || (t.group? gid).isSome then none
      else some { tk := tk, team := t, bin := b, threads := k, gid := gid, bay := bay, slot := slot, forced := forced.isSome }
  | _ => none

/-- The formed group: its threads from lane 0 on, their payload in v0 to v3, at the entry LPC. -/
def FormPlan.group (p : FormPlan) (fresh : Group) : Group :=
  let mask := BitVec.ofNat 32 (2 ^ p.threads - 1)
  let x : Group := { fresh with spawned := true, live := mask, tried := [0], icnt := (p.team.countsOf p.gid).1, retired := (p.team.countsOf p.gid).2 }
  let x := (p.bin.threads.take p.threads).zipIdx.foldl (fun (x : Group) (th : Thread × Nat) =>
    (List.range 4).foldl (fun (x : Group) r => x.setVreg r th.2 (nth th.1.pay 0 r)) x) x
  x.setSplit 0 { st := .run, frm := none, lpc := p.bin.lpc, mask := mask, fmt := 0x00000CCC }

/-- A bin forms its group, if it can; its timer restarts where threads remain. -/
def State.formGroup (s : State) (core bin : Nat) : State :=
  match s.formPlan core bin with
  | none => s
  | some p =>
      let t := p.team
      let body := [BitVec.ofNat 64 ((if p.threads < 32 then 2 ^ 16 else 0) + p.threads * 2 ^ 8 + p.gid)]
      let s := if p.forced then s.stepReplay core else (s.record core (s.levelOf t.launch) 1 0x05 t.riderCtx body).countRoom core 1
      let (x, _, s) := s.makeGroup core p.bay p.slot t.desc.regs []
      let rest := p.bin.threads.drop p.threads
      let b := { p.bin with threads := rest, due := decide (32 ≤ rest.length), expiry := s.clk.cycle + t.spawnTmo.toNat }
      let s := s.modCore core fun c => { c with bins := if rest.isEmpty then sparseErase bin c.bins else sparsePut bin b c.bins }
      s.modTeam p.tk fun t => { (t.setGroup p.gid (p.group x)) with groupsHeld := max t.groupsHeld (t.groups.length + 1) }

/-- SPAWN_BIN_TIMEOUT: a bin's timer has run out; a replay takes no notice of timers (R378). -/
def execSpawnBinTimeout (core bin : Nat) (s : State) : Out :=
  match sparseFind bin (s.core core).bins with
  | none => .next s
  | some b =>
      if b.due || b.threads.isEmpty || decide (s.clk.cycle < b.expiry) then .next s
      else .next ((s.modCore core fun c => { c with bins := sparsePut bin { b with due := true } c.bins }).formGroup core bin)

/-- SPAWN_GROUP_FORM: a bin that is due forms its group. -/
def execSpawnGroupForm (core bin : Nat) (s : State) : Out := .next (s.formGroup core bin)

/-! No progress (R86). -/

/-- The team holds a NO_PROGRESS trap, pending or handled. -/
def Team.stalledTrap (t : Team) : Bool :=
  let is (x : Option Trap) : Bool := match x with
    | some x => x.cause == .noProgress
    | none => false
  is t.teamTrap || t.teamKept.any (fun x => x.cause == .noProgress) || is t.handling

/-- A wake source of a team (R86). -/
def State.wakeSource (s : State) (t : Team) : Bool :=
  [Path.ld, .st, .at, .cp, .mx, .ga, .cl, .sp].any (fun p => t.pathCount p != 0) || !(s.liveChildren t).isEmpty
    || (s.core t.core).bins.any (fun b => b.2.team == t.serial && b.2.due)
    || s.teams.any fun x => x.2.launch == t.launch && x.2.ops.any fun o => !o.done && match o.body with
        | .copy c => c.mcast && c.recvs.any fun r => r.core == t.core && r.team == t.teamId && match r.decided with
            | none => true
            | some (some n) => n == t.serial && !r.cut && !r.finished c
            | some none => false
        | _ => false

/-- NO_PROGRESS: the count of a team reached 2^24. A replay injects the logged trap instead (R378). -/
def execNoProgress (tk : Nat) (s : State) : Out :=
  match s.team? tk with
  | none => .next s
  | some t =>
      if t.killed || t.stalledTrap || (s.gating t.launch).isSome || decide (t.npc < Config.noProgress) then .next s else
        let (_, _, s) := s.coreEvent t.core 0x09 t.riderCtx [0, BitVec.ofNat 64 (causeCode .noProgress)]
        .next ((s.modTeam tk fun t => { t with npc := 0 }).trapTeam tk { cause := .noProgress, src := 2 })

end Sys2Proof.Machine
end

