-- ==== Sys2Proof/Machine/Dump.lean ====
section
/-!
DEFINITION. Machine/Dump.lean: the parts in which a team's state is saved and dumped (R371 to R373, R415), the drain and the dump of a
halt (R370, R374), and the rider's entry into its handler (R355).
-/
namespace Sys2Proof.Machine

/-! Parts (R373, R415). -/

/-- A bit and a field of a doubleword. -/
def bit (b : Bool) (k : Nat) : Nat := if b then 2 ^ k else 0

/-- The bits q0 to q7 of a predicate file. -/
def qBits (q : Sparse Bool) : Nat := (List.range 8).foldl (fun a n => a + bit (n == 0 || sparseGet false q n) n) 0

/-- Registers sn of a file from a number on. -/
def sBytes (m : Sparse U64) (lo : Nat) : List Byte := ((List.range 64).drop lo).flatMap fun n => bytesOf (if n = 0 then 0 else (sparseGet (0 : U64) m n).toNat) 8

def teamStCode : TeamSt → Nat
  | .resident => 0 | .draining => 1 | .waitingChildren => 2

/-- A trap frame register (R357). -/
def Team.frameReg (t : Team) (k : Nat) : U64 :=
  match k with
  | 1 => t.trapPc
  | 5 => t.trapVec
  | 6 => t.trapPend
  | 7 => 0
  | _ => sparseGet 0 t.frame k

/-- Part 1: the rider. -/
def Team.partRider (t : Team) : List Byte :=
  let r := t.idem.map fun r => (r.pc.toNat, sBytes r.s 1, qBits r.q)
  sBytes t.s 0 ++ bytesOf (qBits t.q) 8 ++ bytesOf t.pc.toNat 8
    ++ bytesOf (teamStCode t.st + bit t.handler 8 + bit t.idem.isSome 9 + bit t.teamTrap.isSome 10) 8
    ++ (List.range 20).flatMap (fun k => bytesOf (t.frameReg k).toNat 8)
    ++ bytesOf t.vmax 8 ++ bytesOf (t.reinFmt.toNat + t.spawnTmo.toNat * 2 ^ 32) 8 ++ bytesOf t.spillBase.toNat 8 ++ bytesOf t.retired 8
    ++ (match r with
      | some (pc, s, q) => bytesOf pc 8 ++ s ++ bytesOf q 8
      | none => List.replicate 520 0)

/-- A rein entry (R90). -/
def ReinEntry.dword (e : ReinEntry) : Nat := e.fmt.toNat * 2 ^ 32 + e.fbase.toNat * 2 ^ 24 + e.lpc.toNat

/-- Bytes padded with zeros up to an offset. -/
def padTo (n : Nat) (bs : List Byte) : List Byte := bs ++ List.replicate (n - bs.length) 0

/-- The traps that a group still has to take: without the one being handled, and 256 at most (R356, R415). -/
def Team.heldTraps (t : Team) (g : Nat) (x : Group) : List Trap :=
  (if t.handling.any fun y => y.src == 0 && y.group == g then x.traps.drop 1 else x.traps).take 256

/-- Part 2: a group, and the traps it has to take. -/
def Group.partGroup (x : Group) (regs : Nat) (held : List Trap) : List Byte :=
  let fulls := (List.range 512).foldl (fun a n => a + bit (decide (n < regs * 32) && x.full.getLsbD n) n) 0
  let head := (List.range (regs * 1024)).flatMap fun i => bytesOf (x.vreg (i / 32) (i % 32)).toNat 4
  let ps := ((List.range 8).drop 1).flatMap fun k => bytesOf (sparseGet (0 : U32) x.p k).toNat 4
  let tail := padTo 0x20 ps ++ bytesOf fulls 64 ++ bytesOf x.flg.toNat 4 ++ bytesOf x.rein.length 4 ++ bytesOf x.live.toNat 4 ++ bytesOf (bit x.spawned 0) 4
  let tail := padTo 0x80 (tail ++ bytesOf x.vmax 8)
  let tail := padTo 0x100 (tail ++ x.rein.flatMap fun e => bytesOf e.dword 8)
  let tail := tail ++ (List.range 32).flatMap fun l => bytesOf (sparseGet 0 x.retired l) 8
  head ++ padTo 0x208 (tail ++ bytesOf held.length 4)
    ++ held.flatMap fun y => bytesOf (trapCauseWord y).toNat 8 ++ bytesOf y.loc.toNat 8 ++ bytesOf y.addr.toNat 8

/-- Part 3: the control state of a group. -/
def Group.partControl (x : Group) : List Byte :=
  padTo 0x240 ((List.range 4).flatMap (fun k => bytesOf (splitWord (x.split k)) 16) ++ x.frames.flatMap frameBytes)
    ++ bytesOf (x.spilled + x.frames.length * 2 ^ 16) 8 ++ (List.range 32).flatMap fun l => bytesOf (x.ncOf l) 1

/-- Part 4: the bytes of the scratchpad, those that `keep` names, and its lines (R138, R368). -/
def State.partScratch (s : State) (t : Team) (keep : Nat → Bool) : List Byte :=
  ((List.range t.scrBytes).map fun i => if keep i then s.scrByte t i else 0)
    ++ (List.range (t.scrBytes / 128)).map fun l => BitVec.ofNat 8 (bit (!t.emptyLines.contains l) 7 + sparseGet 0 t.owners l % 64)

/-- Part 5: the bytes of the accumulator tiles, those that `keep` names (R368). -/
def State.partAcc (s : State) (t : Team) (keep : Nat → Bool) : List Byte :=
  (List.range (t.desc.acc * 16384)).flatMap fun w => (bytesOf (s.accWord t w).toNat 4).zipIdx.map fun b => if keep (4 * w + b.2) then b.1 else 0

/-- A barrier as 128 bits (R139). -/
def Barrier.word (b : Barrier) : Nat :=
  b.expb.toNat * 2 ^ 96 + b.arrb.toNat * 2 ^ 64 + b.gen.toNat * 2 ^ 56 + bit b.phase 55 + bit b.inc 54 + b.count.toNat * 2 ^ 16 + b.target.toNat

def Team.partBars (t : Team) : List Byte := (List.range t.desc.nbar).flatMap fun b => bytesOf (t.bar b).word 16

/-- Part 7: counters and the rein value file. -/
def Team.partCounters (t : Team) : List Byte :=
  let draws (m : Sparse U32) : List Byte := (List.range 1024).flatMap fun i => bytesOf (sparseGet (0 : U32) m i).toNat 4
  let old := t.idem.map fun r => (r.draws, r.sdraw)
  padTo 0x18 ([Path.ld, .st, .at, .cp, .mx, .ga, .cl, .sp].flatMap (fun p => bytesOf (t.pathCount p) 2) ++ bytesOf t.mstat.toNat 4)
    ++ (List.range 256).flatMap (fun n => bytesOf (sparseGet (0 : U64) t.rein n).toNat 8)
    ++ draws t.draws ++ bytesOf t.sdraw.toNat 8 ++ draws (old.elim [] (·.1)) ++ bytesOf (old.elim 0 fun r => r.2.toNat) 8

/-- The sections of a team in order: (part, group, contents); of the scratchpad and of the accumulators the bytes that `keep` names. -/
def State.sections (s : State) (t : Team) (keepScr keepAcc : Nat → Bool := fun _ => true) : List (Nat × Nat × List Byte) :=
  [(1, 0xFF, t.partRider)]
    ++ t.groups.flatMap (fun (g, x) => [(2, g, x.partGroup t.desc.regs (t.heldTraps g x)), (3, g, x.partControl)])
    ++ [(4, 0xFF, s.partScratch t keepScr), (5, 0xFF, s.partAcc t keepAcc), (6, 0xFF, t.partBars), (7, 0xFF, t.partCounters)]

/-- A section header (R372). -/
def sectionHeader (t : Team) (part group status len : Nat) : List Byte :=
  bytesOf (group * 2 ^ 48 + status * 2 ^ 40 + part * 2 ^ 32 + len) 8 ++ bytesOf t.launch 8 ++ bytesOf (t.core * 2 ^ 32 + t.teamId) 8 ++ bytesOf 0 8

/-- How a section is written: what of it fits the room, the code in its STATUS, and whether nothing follows it. -/
structure SectionPlan where
  bytes : List Byte
  whole : Bool := false
  full : Bool := false

/-- A section ends with INTEGRITY where its part fails its check from some offset on; with BOUNDS where it meets the end of its area, or with TRANSLATE
where that lies past the end of memory, and then nothing follows; without room for a header it is not written (R371, R374). -/
def planSection (t : Team) (x : Nat × Nat × List Byte) (good : Option Nat) (room : Nat) (past : Bool) : SectionPlan :=
  let data := match good with
    | some n => x.2.2.take n
    | none => x.2.2
  if room < 32 then { bytes := [], full := true }
  else if room < 32 + data.length then
    { bytes := sectionHeader t x.1 x.2.1 (statusCode (if past then .translate else .bounds)) room ++ data.take (room - 32), full := true }
  else
    { bytes := sectionHeader t x.1 x.2.1 (statusCode (if good.isSome then .integrity else .ok)) (32 + data.length) ++ data, whole := good.isNone }

/-! Halt (R370) and dump (R371, R374). -/

/-- Bytes of a physical range that lie in local memory. -/
def localBytes (base size : Nat) : Nat := min size (2 ^ 39 - base)

/-- Where an uncorrectable error ends a part of a team, if one lies in it. -/
def State.goodBytes (s : State) (t : Team) (part group : Nat) : Option Nat :=
  ((s.core t.core).bad.filter fun b => b.1 == t.ctx && b.2.1 == part && b.2.2.1 == group).foldl
    (fun m b => some (match m with | none => b.2.2.2 | some n => min n b.2.2.2)) none

/-- Writes one section of a team at an offset of an area. -/
def State.writeSection (s : State) (base size off : Nat) (t : Team) (x : Nat × Nat × List Byte) : SectionPlan × State :=
  let p := planSection t x (s.goodBytes t x.1 x.2.1) (localBytes base size - off) (decide (localBytes base size < size))
  (p, (s.writeLong none (base + off) (p.bytes.length + 1) p.bytes).1)

/-- Writes the sections of a team one after another: the parts written whole, with their places and lengths, and where the next section would begin. -/
def writeSections (base size : Nat) (t : Team) : List (Nat × Nat × List Byte) → Nat → State → List (Nat × Nat × Nat × Nat) × Nat × State
  | [], off, s => ([], off, s)
  | x :: l, off, s =>
      let (p, s) := s.writeSection base size off t x
      if p.full then ([], off + p.bytes.length, s) else
        let (ps, len, s) := writeSections base size t l (off + p.bytes.length) s
        (if p.whole then (x.1, x.2.1, base + off + 32, x.2.2.length) :: ps else ps, len, s)

/-- The dump header (R371). -/
def HaltSt.header (h : HaltSt) (nsect len : Nat) : List Byte :=
  let one (x : Nat × Nat × Nat × Nat × Nat) : List Byte :=
    let (when_, mnum, mkind, cause, addr) := x
    bytesOf (when_ * 2 ^ 32 + mnum * 2 ^ 16 + mkind * 2 ^ 8 + cause) 8 ++ bytesOf addr 8
  let head := bytesOf 0x5A394450 8 ++ bytesOf (h.reason.toNat * 2 ^ 32 + h.cause) 8 ++ bytesOf h.stamp.toNat 16
    ++ bytesOf (bit (decide (12 < h.secondary.length)) 40 + min 12 h.secondary.length * 2 ^ 32 + nsect) 8 ++ bytesOf len 8
  padTo 256 (padTo 0x40 head ++ (h.secondary.take 12).flatMap one)

/-- What a halt waits for before its dump: loads and atomics complete, executing matrix commands complete, copies and fabric operations
end, and saves already writing complete. -/
def haltLive (o : Op) : Bool :=
  !o.done && match o.body with
    | .load .. | .atom .. | .claim .. | .land .. | .qmma .. | .copy _ | .fred .. | .fmc .. => true
    | .matrix _ started _ => started
    | _ => false

def State.haltDrained (s : State) : Bool := s.teams.all (fun t => !t.2.ops.any haltLive) && s.cp.channels.isEmpty

/-- Teams in the order of the dump: by logical core, then TEAMID. -/
def State.dumpOrder (s : State) : List Team :=
  sortBy (fun a b => decide (a.core < b.core ∨ (a.core = b.core ∧ a.teamId ≤ b.teamId))) ((s.teams.map (·.2)).filter fun t => !t.retiredKilled)

/-- DUMP_WRITE: the dump begins with its first section; then one section after another is written, and the header last (R371). Without a dump area, or
where the header finds no room, its loss is logged. -/
def execDumpWrite (s : State) : Out :=
  match s.halt with
  | none => .next s
  | some h =>
      if h.dumped || !s.haltDrained then .next s else
        match s.cp.dumpArea with
        | none => .next { s.logMgmt (bytesOf 3 8) with halt := some { h with dumped := true } }
        | some (base, size) =>
            match h.sect with
            | none => .next { s with halt := some { h with sect := some 0 } }
            | some k =>
                let secs := s.dumpOrder.flatMap fun t => (s.sections t).map fun x => (t, x)
                match secs[k]?.filter fun _ => !h.full with
                | some (t, x) =>
                    let (p, s) := s.writeSection base size h.off t x
                    let n := if p.bytes.isEmpty then h.written else h.written + 1
                    .next { s with halt := some { h with sect := some (k + 1), written := n, off := h.off + p.bytes.length, full := p.full } }
                | none =>
                    let done (s : State) : State := { s with halt := some { h with dumped := true } }
                    if localBytes base size < 256 then .next (done (s.logMgmt (bytesOf 3 8)))
                    else .next (done (s.writeLong none base 4 (h.header h.written h.off)).1)

/-- An operation of the engines ends CANCELLED at the bound of a halt's drain. -/
def State.cancelOp (s : State) (tk : Nat) (o : Op) : State :=
  match s.team? tk with
  | none => s
  | some t =>
      match o.body with
      | .copy c => if c.status.isSome then s else s.modTeam tk fun t => t.modOp o.id fun o => { o with body := .copy { c with status := some .cancelled } }
      | .fred _ _ _ sta _ _ _ => s.endFabricOp tk t o sta .cancelled 0
      | .fmc _ _ _ _ sta _ _ _ _ _ => s.endFabricOp tk t o sta .cancelled 0
      | _ => s

/-- HALT_COPY_DRAIN_TIMEOUT: 20 µs after the halt, copies and fabric operations still in flight end CANCELLED. -/
def execHaltCopyDrainTimeout (s : State) : Out :=
  match s.halt with
  | none => .next s
  | some h =>
      if s.clk.cycle < h.at_ + Config.window20us then .next s else
        let s := s.teams.foldl (fun s t => (t.2.ops.filter fun o => !o.done).foldl (fun s o => s.cancelOp t.1 o) s) s
        .next { s with cp := { s.cp with channels := s.cp.channels.map fun (k, c) => (k, { c with copy := { c.copy with status := c.copy.status.orElse fun _ => some .cancelled } }) } }

/-! Entering the handler (R355, R356). -/

/-- The rider is at a word boundary with a trap to take and no bounded wait left. All traps of one cycle are pending before one of them is taken
(R369). -/
def State.mayHandle (s : State) (t : Team) : Bool :=
  !s.stopped t && !t.handler && t.nextTrap.isSome && t.trapAt != some s.clk.cycle && !s.boundedWait t

/-- HANDLER_ENTRY. -/
def execHandlerEntry (tk : Nat) (s : State) : Out :=
  match s.team? tk with
  | none => .next s
  | some t => if s.mayHandle t then .next (s.enterHandler tk) else .next s

end Sys2Proof.Machine
end

