-- ==== Sys2Proof/Machine/Parts.lean ====
section
/-!
DEFINITION. Machine/Parts.lean: a team's state as a restore reads it back from the parts of its save area (R366, R369, R373, R415).
What the parts do not hold the command processor keeps, and with it what happened to the team while it was saved.
-/
namespace Sys2Proof.Machine

/-- n bytes at an offset, as a number. -/
def fieldAt (bs : List Byte) (off n : Nat) : Nat := ofBytes ((bs.drop off).take n)

/-- Numbers below n that hold a value other than a default. -/
def readSparse {α : Type} [DecidableEq α] (d : α) (lo n : Nat) (f : Nat → α) : Sparse α :=
  ((List.range n).drop lo).foldl (fun m i => sparseSet d i (f i) m) []

/-- An entry of the split table from its 128 bits (R100). -/
def splitRead (n : Nat) : Split :=
  let frm := bitsOf n 93 85
  { st := match bitsOf n 95 94 with | 0 => .free | 1 => .run | _ => .park
    frm := if frm = 0x1FF then none else some frm
    lpc := BitVec.ofNat 24 (bitsOf n 55 32), mask := BitVec.ofNat 32 (bitsOf n 31 0), fmt := BitVec.ofNat 32 (bitsOf n 115 96) }

/-- A trap from its SY.TRAPCAUSE, SY.TRAPLOC and SY.TRAPADDR (R351, R358). -/
def trapOf (w loc addr : Nat) : Option Trap :=
  let all : List Cause := [.illegal, .regEmpty, .addrTranslate, .addrPerm, .addrBounds, .misalign, .stackOverflow, .nestOverflow, .atomicLost,
                           .spawnLimit, .brk, .preempt, .halt, .noProgress, .integrity, .replayDiverge]
  (all.find? fun c => causeCode c == bitsOf w 7 0).map fun c =>
    { cause := c, check := bitsOf w 47 40, hidx := bitsOf w 39 30, src := bitsOf w 29 28, split := bitsOf w 27 26, group := bitsOf w 25 21,
      lane := bitsOf w 20 16, loc := BitVec.ofNat 64 loc, addr := BitVec.ofNat 64 addr }

/-- A rein entry (R90). -/
def reinOf (w : Nat) : ReinEntry :=
  { fmt := BitVec.ofNat 32 (bitsOf w 63 32), fbase := BitVec.ofNat 8 (bitsOf w 31 24), lpc := BitVec.ofNat 24 (bitsOf w 23 0) }

def predsOf (w : Nat) : Sparse Bool := readSparse false 1 8 fun n => w.testBit n

/-- Part 1. A team that waited for children drains if the last of them completed while it was saved (R77). -/
def Team.readRider (t : Team) (bs : List Byte) : Team :=
  let w (o : Nat) : Nat := fieldAt bs o 8
  let d (o : Nat) : U64 := BitVec.ofNat 64 (w o)
  let flags := w 0x210
  { t with
    s := readSparse 0 1 64 fun n => d (8 * n)
    q := predsOf (w 0x200)
    pc := d 0x208
    st := match bitsOf flags 1 0 with | 0 => .resident | 1 => .draining | _ => t.st
    frame := readSparse 0 0 20 fun k => if k = 1 ∨ k = 5 ∨ k = 6 ∨ k = 7 then 0 else d (0x218 + 8 * k)
    trapPc := d 0x220, trapVec := d 0x240
    vmax := max t.vmax (w 0x2B8)
    reinFmt := BitVec.ofNat 32 (w 0x2C0) &&& 0xFFFFF
    spawnTmo := BitVec.ofNat 20 (bitsOf (w 0x2C0) 63 32)
    spillBase := d 0x2C8
    retired := w 0x2D0
    idem := if !flags.testBit 9 then none else
      some { pc := d 0x2D8, s := readSparse 0 1 64 fun n => d (0x2E0 + 8 * (n - 1)), q := predsOf (w 0x4D8), draws := [], sdraw := 0,
             r := (t.idem.map (·.r)).getD t.laneRetired } }

/-- Part 2: every register of the allocation, and what follows them. -/
def Group.readGroup (x : Group) (regs : Nat) (bs : List Byte) : Group :=
  let r := regs * 4096
  let w (o n : Nat) : Nat := fieldAt bs (r + o) n
  let traps := (List.range (w 0x200 4)).filterMap fun i => trapOf (w (0x208 + 24 * i) 8) (w (0x210 + 24 * i) 8) (w (0x218 + 24 * i) 8)
  let full := w 0x20 64
  { x with
    v := (List.range (regs * 1024)).map fun i => (i, BitVec.ofNat 32 (fieldAt bs (4 * i) 4))
    p := readSparse 0 1 8 fun k => BitVec.ofNat 32 (w (4 * (k - 1)) 4)
    full := BitVec.ofNat 512 full ||| (BitVec.allOnes 512 <<< (32 * regs))
    flg := BitVec.ofNat 7 (w 0x60 4)
    rein := (List.range (min 16 (w 0x64 4))).map fun i => reinOf (w (0x80 + 8 * i) 8)
    live := BitVec.ofNat 32 (w 0x68 4)
    spawned := (w 0x6C 4).testBit 0
    vmax := max x.vmax (w 0x70 8)
    retired := readSparse 0 0 32 fun l => w (0x100 + 8 * l) 8
    traps := traps, halted := !traps.isEmpty }

/-- Part 3. -/
def Group.readControl (x : Group) (bs : List Byte) : Group :=
  { x with
    splits := (List.range 4).map fun k => splitRead (fieldAt bs (16 * k) 16)
    frames := (List.range (bitsOf (fieldAt bs 0x240 8) 20 16)).map fun i => frameOf ((bs.drop (0x40 + 32 * i)).take 32)
    spilled := bitsOf (fieldAt bs 0x240 8) 8 0
    nc := readSparse 0 0 32 fun l => fieldAt bs (0x248 + l) 1 }

/-- Part 4: the scratchpad goes to the image of the team, its lines to the team (R138). -/
def Team.readLines (t : Team) (bs : List Byte) : Team :=
  let line (l : Nat) : Nat := fieldAt bs (t.scrBytes + l) 1
  let n := t.scrBytes / 128
  { t with emptyLines := (List.range n).filter fun l => !(line l).testBit 7, owners := readSparse 0 0 n fun l => line l % 64 }

/-- Part 6. A barrier that a delivery was refused at while the team was saved keeps its INC. -/
def Team.readBars (t : Team) (bs : List Byte) : Team :=
  (List.range t.desc.nbar).foldl (fun t b =>
    let w := fieldAt bs (16 * b) 16
    t.setBar b { t.bar b with expb := BitVec.ofNat 32 (bitsOf w 127 96), arrb := BitVec.ofNat 32 (bitsOf w 95 64), gen := BitVec.ofNat 8 (bitsOf w 63 56),
                              phase := w.testBit 55, inc := w.testBit 54 || (t.bar b).inc, count := BitVec.ofNat 16 (bitsOf w 31 16),
                              target := BitVec.ofNat 16 (bitsOf w 15 0) }) t

/-- Part 7. What LAUNCH records have added to MSTAT while the team was saved stays. -/
def Team.readCounters (t : Team) (bs : List Byte) : Team :=
  let draws (o : Nat) : Sparse U32 := readSparse 0 0 1024 fun i => BitVec.ofNat 32 (fieldAt bs (o + 4 * i) 4)
  let sdraw (o : Nat) : U32 := BitVec.ofNat 32 (fieldAt bs o 8)
  { t with
    mstat := t.mstat ||| BitVec.ofNat 32 (fieldAt bs 0x10 4)
    rein := readSparse 0 0 256 fun n => BitVec.ofNat 64 (fieldAt bs (0x18 + 8 * n) 8)
    draws := draws 0x818, sdraw := sdraw 0x1818
    idem := t.idem.map fun r => { r with draws := draws 0x1820, sdraw := sdraw 0x2820 } }

/-- A saved team with what one part of its save area holds. -/
def Saved.readPart (x : Saved) (part group : Nat) (bs : List Byte) : Saved :=
  let t := x.team
  match part with
  | 1 => { x with team := t.readRider bs }
  | 2 => { x with team := t.modGroup group fun g => g.readGroup t.desc.regs bs }
  | 3 => { x with team := t.modGroup group fun g => g.readControl bs }
  | 4 => { x with team := t.readLines bs, scr := readSparse 0 0 t.scrBytes fun i => nth bs 0 i }
  | 5 => { x with acc := readSparse 0 0 (t.desc.acc * 16384) fun w => BitVec.ofNat 32 (fieldAt bs (4 * w) 4) }
  | 6 => { x with team := t.readBars bs }
  | _ => { x with team := t.readCounters bs }

/-- A saved team as its restore reads it: each part from where it was written whole. DESIGN CHOICE (log entry 23): a part that did not fit the area, or
was never written, is as the command processor kept it. -/
def State.readBack (s : State) (x : Saved) : Saved :=
  x.parts.foldl (fun x p => x.readPart p.1 p.2.1 ((List.range p.2.2.2).map fun i => s.byteAt (p.2.2.1 + i))) x

end Sys2Proof.Machine
end

