-- ==== Sys2Proof/Machine/Save.lean ====
section
/-!
DEFINITION. Machine/Save.lean: pre-emption (R363 to R369): the choice of DRAIN, DISCARD or SAVE, the multicast window, saving and
discarding a team, and restoring it.
-/
namespace Sys2Proof.Machine

/-! The choice (R363). -/

/-- The pre-emption cost estimator's choice for a team; a rate of 0/0 leaves the choice of DISCARD open. -/
def State.preChoice (s : State) (t : Team) (dl : Nat) : PreMode × State :=
  let r := t.laneRetired
  let c := s.clk.cycle - t.admitted
  let size := t.groups.length * (t.desc.regs * 4096 + 4096) + t.scrBytes + t.desc.acc * 65536 + 16384
  -- comparisons multiplied out: rate = r / c, save = size / 64 + 20,000
  if t.desc.work > r ∧ (t.desc.work - r) * c * 10 ≤ dl * 33 * r ∧ 0 < r then (.drain, s)
  else
    match t.idem with
    | none => (.save, s)
    | some d =>
        let redo := r - d.r
        if 0 < r then (if (redo * c + 2000 * r) * 64 ≤ (size + 1280000) * r then .discard else .save, s)
        else let (b, s) := s.freeBit
             (if b then .discard else .save, s)

/-- A team is not chosen for while it handles a trap, or its rider has one pending. -/
def Team.inHandler (t : Team) : Bool := t.handler || t.handling.isSome || t.riderTrap.isSome
def Team.preReady (t : Team) : Bool := !t.inHandler && t.pre.isNone

/-! Stopping (R366). -/

/-- An accepted delivery to the team is still landing. -/
def Receiver.landingAt (r : Receiver) (c : CopySt) (serial : Nat) : Bool :=
  r.decided == some (some serial) && !r.cut && !r.finished c

/-- Deliveries still landing are refused: (barriers they name, the state). -/
def cutDeliveries (serial : Nat) (s : State) : List Nat × State :=
  let bars := s.teams.flatMap fun x => x.2.ops.filterMap fun o => match o.body with
    | .copy c => if !o.done && c.recvs.any (fun r => r.landingAt c serial) then c.bar.map (·.1) else none
    | _ => none
  let cut (o : Op) : Op := match o.body with
    | .copy c => if o.done then o else { o with body := .copy { c with recvs := c.recvs.map fun r => if r.landingAt c serial then { r with cut := true } else r } }
    | _ => o
  (distinct bars, { s with teams := s.teams.map fun x => (x.1, { x.2 with ops := x.2.ops.map cut }) })

/-- Issue stops: the window opens, or for DISCARD stays closed, and deliveries still landing are refused (R365, R367). -/
def State.stopFor (s : State) (tk : Nat) (f : PreSt → PreSt) : State :=
  let s := (s.modTeam tk fun t => { t with pre := t.pre.map fun p => { f p with stopped := some s.clk.cycle, closed := p.mode == .discard } }).stopTeam tk
  match s.team? tk with
  | some t => if t.pre.any fun p => p.mode == .discard then (cutDeliveries t.serial s).2 else s
  | none => s

/-- The command processor chooses for a team. -/
def State.choosePre (s : State) (tk : Nat) (t : Team) (cmd : Option Nat) (start dl : Nat) (forced : Option PreMode := none) : State :=
  let (mode, s) : PreMode × State := match forced with
    | some m => (m, s)
    | none => s.preChoice t dl
  let p : PreSt := { mode := mode, deadline := start + dl * 33 / 10, cmd := cmd, compat := mode == .save && t.chkptSeen && forced.isNone }
  let s := s.modTeam tk fun t => { t with pre := some p }
  if mode = .drain || p.compat then s else s.stopFor tk id

/-- DRAIN_DEADLINE: a DRAIN that has not retired is saved now, and a compatibility save becomes a full one (R364, R368); a team in its handler after
the TRET that leaves no trap of the rider (R363, R369). -/
def execDrainDeadline (tk : Nat) (s : State) : Out :=
  match s.team? tk with
  | none => .next s
  | some t =>
      match t.pre with
      | none => .next s
      | some p =>
          if p.stopped.isSome || t.inHandler || decide (s.clk.cycle < p.deadline) then .next s
          else .next (s.stopFor tk fun p => if p.mode = .drain then { p with mode := .save } else { p with fallback := some .timeout })

/-! The multicast window (R367). -/

/-- A barrier still expects bytes. -/
def Team.armedBar (t : Team) : Bool := (List.range t.desc.nbar).any fun b => (t.bar b).expb != (t.bar b).arrb && !((t.bar b).arrb - (t.bar b).expb).ult (2 ^ 31)

/-- An accepted delivery to a team is still landing. -/
def State.landing (s : State) (serial : Nat) : Bool :=
  s.teams.any fun x => x.2.ops.any fun o => !o.done && match o.body with
    | .copy c => c.mcast && c.recvs.any fun r => r.landingAt c serial
    | _ => false

/-- Whether the window may close now. -/
def State.windowDone (s : State) (t : Team) (p : PreSt) : Bool :=
  match p.stopped with
  | some c => !p.closed && (decide (c + Config.window20us ≤ s.clk.cycle) || (!t.armedBar && !s.landing t.serial))
  | none => false

/-- MCAST_WINDOW_CLOSE. -/
def execMcastWindowClose (tk : Nat) (s : State) : Out :=
  match s.team? tk with
  | none => .next s
  | some t =>
      match t.pre with
      | none => .next s
      | some p =>
          if !s.windowDone t p then .next s else
            let (bars, s) := cutDeliveries t.serial s
            .next (s.modTeam tk fun t =>
              let t := bars.foldl (fun t b => t.setBar b { t.bar b with inc := true }) t
              { t with pre := t.pre.map fun p => { p with closed := true, refused := distinct (p.refused ++ bars) } })

/-! Saving and discarding (R365, R366). -/

/-- The counters are zero but for SP, every store and atomic has performed, and the lease clock has passed each member's VMAX and what each has read
(R151, R164). -/
def State.saveReady (s : State) (t : Team) : Bool := t.ops.all (fun o => o.done || o.path == some .sp) && s.vmaxPassed t

/-- A range of the live-range table covers an item of a kind. -/
def covered (rs : List (Nat × Nat × Nat)) (kind i : Nat) : Bool := rs.any fun r => r.1 == kind && decide (r.2.1 ≤ i ∧ i < r.2.1 + r.2.2)

/-- State outside the ranges becomes zero, with line bits full (R368). -/
def Team.keepRanges (t : Team) (rs : List (Nat × Nat × Nat)) : Team :=
  let zero (x : Group) : Group := (List.range (t.desc.regs * 32)).foldl (fun x n =>
    if covered rs 0 n then x else (List.range 32).foldl (fun x l => x.setVreg n l 0) x) x
  { t with s := t.s.filter fun p => covered rs 1 p.1, groups := t.groups.map fun (g, x) => (g, zero x),
           emptyLines := t.emptyLines.filter fun l => (List.range 128).any fun i => covered rs 2 (128 * l + i) }

/-- The team as a discard leaves it (R365). -/
def Team.discarded (t : Team) : Team :=
  match t.idem with
  | none => t
  | some r =>
      let old (g : Nat) : Group := { (t.group? g).getD {} with icnt := (t.countsOf g).1, retired := (t.countsOf g).2 }
      { t with s := r.s, q := r.q, pc := r.pc, draws := r.draws, sdraw := r.sdraw, mstat := 0, emptyLines := [], owners := [], stale := [], staleAcc := [],
               exited := false, st := .resident, succ := none, leaveReq := none, leaveGot := false, leaveAgain := false, roomWait := false,
               teamTrap := none, teamKept := [],
               groups := (List.range t.desc.groups).map fun g => (g, { retired := (old g).retired, icnt := (old g).icnt, seen := (old g).seen }),
               bars := (List.range t.desc.nbar).foldl (fun m b => sparseSet {} b { gen := (t.bar b).gen + 1 } m) [] }

/-- Where the next saved team of a partition goes in its save area. DESIGN CHOICE (log entry 23): behind those that are saved there; R366 gives no
place. -/
def State.saveOffset (s : State) (part : Nat) : Nat :=
  s.cp.saved.foldl (fun a x => if x.team.part = part then max a (x.area.1 + x.area.2) else a) 0

/-- Moves a stopped team out of its core. -/
def State.moveOut (s : State) (tk : Nat) (t : Team) (p : PreSt) : State :=
  let discard := p.mode == .discard
  let mask := (List.range 48).foldl (fun a b => a + bit (p.refused.contains b) b) 0
  let s := s.record t.core (s.levelOf t.launch) 1 0x0A t.riderCtx [BitVec.ofNat 64 (mask + bit discard 48)]
  let s := s.closeCore t.core 2
  let kept := match p.ranges with
    | some rs => t.keepRanges rs
    | none => t
  let keepByte (i : Nat) : Bool := match p.ranges with
    | some rs => covered rs 2 i
    | none => true
  let keepAcc (i : Nat) : Bool := match p.ranges with
    | some rs => covered rs 3 i
    | none => true
  let word (w : Nat) : U32 :=
    BitVec.ofNat 32 ((List.range 4).foldl (fun a i => if keepAcc (4 * w + i) then a + (s.accWord t w).toNat / 2 ^ (8 * i) % 256 * 2 ^ (8 * i) else a) 0)
  let scr : Sparse Byte := if discard then [] else (List.range t.scrBytes).foldl (fun m i => if keepByte i then sparseSet 0 i (s.scrByte t i) m else m) []
  let acc : Sparse U32 := if discard then [] else (List.range (t.desc.acc * 16384)).foldl (fun m w => sparseSet 0 w (word w) m) []
  let off := s.saveOffset t.part
  let secs := if discard then [] else s.sections kept keepByte keepAcc
  -- the fallback's cause is the STATUS of the rider's part
  let (parts, len, s') : List (Nat × Nat × Nat × Nat) × Nat × State := match sparseFind t.part s.cp.saveAreas with
    | some (base, size) => writeSections (base + off) (size - off) kept secs 0 s
    | none => ([], 0, s)
  let s := match sparseFind t.part s.cp.saveAreas, p.fallback with
    | some (base, _), some e => if len < 32 then s' else s'.poke (base + off + 5) 1 (statusCode e)
    | _, _ => s'
  let team := { (if discard then kept.discarded else kept) with pre := none, gone := [], yieldUntil := 0, barWaits := [], blocked := none, npc := 0, chkptSeen := t.chkptSeen,
                                                                admitted := s.clk.cycle - t.admitted }
  let bins := (s.core t.core).bins.filter fun b => b.2.team == t.serial
  let x : Saved := { team := team, discard := discard, area := (off, len), scr := scr, acc := acc, bins := if discard then [] else bins.map (·.2), parts := parts }
  let s := s.releaseTeam tk t
  { s with cp := { s.cp with saved := s.cp.saved ++ [x] } }

/-- A stopped team whose window has closed and whose operations have ended; in a halt, and on a frozen core, no save begins (R361, R370). -/
def State.mayMoveOut (s : State) (t : Team) (mode : PreMode) : Option PreSt :=
  t.pre.filter fun p => p.mode == mode && p.stopped.isSome && p.closed && s.saveReady t && !t.killed && s.halt.isNone && !(s.core t.core).frozen

/-- TEAM_SAVE: a stopped team's state is written to the save area, and its resources are freed. -/
def execTeamSave (tk : Nat) (s : State) : Out :=
  match s.team? tk with
  | none => .next s
  | some t =>
      match s.mayMoveOut t .save with
      | some p => .next (s.moveOut tk t p)
      | none => .next s

/-- TEAM_DISCARD: a stopped team's state is dropped, to start again from its region entry. -/
def execTeamDiscard (tk : Nat) (s : State) : Out :=
  match s.team? tk with
  | none => .next s
  | some t =>
      match s.mayMoveOut t .discard with
      | some p => .next (s.moveOut tk t p)
      | none => .next s

/-! Restoring (R369). -/

/-- What earlier groups left in some units of a bay is overwritten. -/
def Core.wipeUnits (c : Core) (bay : Nat) (units : List Nat) : Core :=
  { c with regs := c.regs.filter fun x => !(x.1 / 65536 == bay && units.contains (x.1 / 1024 % 64)) }

/-- Places the groups of a restored team again: a saved one with its registers as they were, one of a discarded team, or one that had no place yet,
with fresh registers. -/
def reseat (discard : Bool) : List ((Nat × Group) × (Nat × Nat)) → List (Nat × Nat) → Team → State → Team × State
  | [], _, t, s => (t, s)
  | ((g, was), (bay, slot)) :: l, taken, t, s =>
      let (x, taken, s) := s.makeGroup t.core bay slot t.desc.regs taken
      if discard || !was.placed then
        reseat discard l taken (t.setGroup g { x with rein := was.rein, retired := was.retired, icnt := was.icnt, seen := was.seen }) s
      else
        reseat discard l taken (t.setGroup g { was with bay := bay, slot := slot, units := x.units })
          (s.modCore t.core fun c => c.wipeUnits bay x.units)

/-- Bins of a core that hold no threads. -/
def Core.freeBins (c : Core) : List Nat := (List.range 8).filter fun b => match sparseFind b c.bins with
  | some x => x.threads.isEmpty
  | none => true

/-- The cores a saved team may return to: its assigned core when persistent, else any of its partition that has everything free, outside a reserved
block (R73, R369) and beside teams of the same partition only (R406). -/
def State.restoreCores (s : State) (x : Saved) : List (Nat × Berth) :=
  let t := x.team
  let cores := match s.part? t.part with
    | none => []
    | some p => match s.launch? t.launch with
      | some l => if l.persist then [p.coreOf t.teamId] else p.cores
      | none => p.cores
  cores.filterMap fun c =>
    let d := { t.desc with groups := t.groups.length }
    if (s.core c).frozen || !s.coreOf t.part c || decide ((s.core c).freeBins.length < x.bins.length) then none
    else (((s.loadOf c).fit (s.core c).firstUnit d).filter fun b => s.keepsBlock c (b.1.into d)).map fun b => (c, b.1)

/-- Fills a scratchpad run and accumulator tiles with saved contents. -/
def State.refill (s : State) (t : Team) (x : Saved) : State :=
  s.modCore t.core fun c =>
    let scr := c.scr.filter fun p => decide (p.1 < t.scrStart ∨ t.scrStart + t.scrBytes ≤ p.1)
    let scr := x.scr.foldl (fun m p => sparseSet 0 (t.scrStart + p.1) p.2 m) scr
    let acc := c.acc.filter fun p => !t.accTiles.contains (p.1 / 16384)
    { c with scr := scr, acc := x.acc.foldl (fun m p => sparseSet 0 (t.accAt p.1) p.2 m) acc }

/-- A saved team is admitted again on a core, as the save area holds it. Its request for power leave is made again (R333). -/
def State.restoreOn (s : State) (x : Saved) (core : Nat) (b : Berth) : State :=
  let x := s.readBack x
  let t := { x.team with core := core, ctx := b.ctx, scrStart := b.scr, accTiles := b.tiles, reserved := false, admitted := s.clk.cycle - x.team.admitted,
                          reinWas := x.team.rein, trapAt := none }
  let (t, s) := reseat x.discard (t.groups.zip b.groups) [] t s
  let incs := (List.range 48).filter fun n => (t.bar n).inc
  let mask := BitVec.ofNat 64 (incs.foldl (fun a n => a + 2 ^ n) 0)
  let s := s.closeCore core 3
  let s := { s with cp := { s.cp with saved := s.cp.saved.filter fun y => y.team.serial != t.serial } }
  let s := (s.setTeam t.key t).refill t x
  let s := s.modCore core fun c => { c with bins := (c.freeBins.zip x.bins).foldl (fun m y => sparsePut y.1 y.2 m) c.bins }
  let s := s.captureHandles t
  let s := if t.leaveAgain then s.requestLeave t.key else s
  if incs.isEmpty then s else
    let (_, _, s) := s.coreEvent core 0x09 t.riderCtx [mask, BitVec.ofNat 64 (causeCode .preempt)]
    s.trapTeam t.key { cause := .preempt, src := 2, addr := mask }

/-- A saved team returns to one of the cores that can take it, if there is one; any of them may be chosen. -/
def State.restoreTeam (s : State) (x : Saved) : State :=
  let cs := s.restoreCores x
  if cs.isEmpty then s else
    let (w, s) := if cs.length = 1 then ((0 : U64), s) else s.freeWord
    match cs[w.toNat % cs.length]? with
    | some (c, b) => s.restoreOn x c b
    | none => s

/-! A replay's own pre-emptions and traps (R378). -/

/-- The event of a team's rider that comes next on its core, at the rider's count: (type, doublewords). -/
def State.injected (s : State) (t : Team) : Option (Nat × List U64) :=
  match s.gating t.launch with
  | none => none
  | some r =>
      match r.expect t.core with
      | .event _ _ ev counts =>
          if ofAgent ev counts t.launch t.teamId 32 ∧ evIcnt ev = t.retired % 2 ^ 40 then some (evType ev, evBody ev) else none
      | _ => none

/-- A replay injects NO_PROGRESS and PREEMPT where the log holds them, and pre-empts a team where it was pre-empted. -/
def State.inject (s : State) (tk : Nat) : State :=
  match s.team? tk with
  | none => s
  | some t =>
      if t.killed then s else
        match s.injected t with
        | some (0x09, [addr, c]) =>
            if c = BitVec.ofNat 64 (causeCode .noProgress) then (s.stepReplay t.core).trapTeam tk { cause := .noProgress, src := 2 }
            else if c = BitVec.ofNat 64 (causeCode .preempt) then (s.stepReplay t.core).trapTeam tk { cause := .preempt, src := 2, addr := addr }
            else s
        | some (0x0A, [w]) =>
            if !t.preReady || !((s.gating t.launch).bind (·.preTable t)).all t.allAtCounts then s else
              let s := s.stepReplay t.core
              let s := (List.range 48).foldl (fun s b => if w.getLsbD b then s.modTeam tk fun t => t.setBar b { t.bar b with inc := true } else s) s
              s.choosePre tk t none s.clk.cycle 0 (some (if bitsOf w.toNat 49 48 = 1 then .discard else .save))
        | _ => s

end Sys2Proof.Machine
end

