-- ==== Sys2Proof/Machine/Command.lean ====
section
/-!
DEFINITION. Machine/Command.lean: the administration rings and the privileged commands (R404 to R411), the Haeth commands and events
(R380, R384, R386 to R388), soft errors (R343, R361, R413), and management messages (R409, R410, R414).
-/
namespace Sys2Proof.Machine

/-! Command records (R405, R406). -/

/-- A field of a record: bits hi to lo of its 512, the record as one number. -/
def recField (w hi lo : Nat) : Nat := bitsOf w hi lo
/-- A doubleword of a record. -/
def recDword (w off : Nat) : Nat := bitsOf w (8 * off + 63) (8 * off)

/-- Every bit of a record outside some fields (hi, lo) is zero; SEQ, LAP, SUB, OPC and the status doubleword stand apart. -/
def recOnly (w : Nat) (fs : List (Nat × Nat)) : Bool :=
  let clear (w : Nat) (f : Nat × Nat) : Nat := w - recField w f.1 f.2 * 2 ^ f.2
  (((31, 0) :: (511, 448) :: fs).foldl clear w) == 0

/-- Records whose operands are OPC and SUB alone choose among. -/
def recOf (w : Nat) (fs : List (Nat × Nat)) (ok : Bool) (i : Instr) : Option Instr := if recOnly w fs && ok then some i else none

/-- A master that a command may name (R371): a core, a copy channel, a fabric port, a PCIe function, a CXL port, the command processor. -/
def masterOk (kind num : Nat) : Bool :=
  match kind with
  | 0 => decide (num < Config.cores)
  | 2 => decide (num < 16)
  | 3 => decide (num ≤ 16)
  | 4 => decide (num < 2)
  | k => decide (k ≤ 5)

/-- A stream of R376. -/
def streamOk (n : Nat) : Bool := decide (n < Config.cores ∨ (0x400 ≤ n ∧ n ≤ 0x44B) ∨ (0x800 ≤ n ∧ n ≤ 0x80F) ∨ n = 0xC00)

/-- The command of a record; none where it is malformed (BAD_CMD). Offsets are 8 × the byte offset + the bit. -/
def commandOf (w : Nat) : Option Instr :=
  let b (hi lo : Nat) : Nat := recField w hi lo
  let d := recDword w
  let v (n hi lo : Nat) : BitVec n := BitVec.ofNat n (b hi lo)
  let q (off : Nat) : U64 := BitVec.ofNat 64 (d off)
  match b 7 0, b 11 8 with
  | 0x01, 0 => recOf w [(35, 32), (383, 64)] (b 383 368 == 0) (.part (v 4 35 32) (v 320 383 64))
  | 0x01, 1 =>
      recOf w [(44, 32), (383, 64), (415, 384)]
        (b 383 368 == 0 && decide (b 389 384 ≤ 32 ∧ b 398 390 ≤ 256 ∧ b 406 399 ≤ 224 ∧ b 409 407 ≤ 4 ∧ b 415 410 ≤ 48))
        (.partExpress (v 4 35 32) (v 9 44 36) (v 320 383 64) (v 32 415 384))
  | 0x02, 0 => recOf w [(59, 32), (191, 64)] (decide (4 ≤ b 59 55 ∧ b 59 55 ≤ 16) && d 8 % 64 == 0 && d 0x10 % 64 == 0 && decide (d 8 + 64 ≤ 2 ^ 39))
      (.qreg (v 10 41 32) (v 4 45 42) (v 8 53 46) (b 54 54 == 1) (v 5 59 55) (q 8) (q 0x10))
  | 0x02, 1 => recOf w [(41, 32)] true (.qreset (v 10 41 32))
  | 0x02, 2 => recOf w [(54, 32)] true (.qset (v 10 41 32) (v 4 45 42) (v 8 53 46) (b 54 54 == 1))
  | 0x03, 0 => recOf w [(44, 32)] (decide (b 40 32 < Config.cores)) (.carve (v 9 40 32) (v 4 44 41))
  | 0x04, 0 => recOf w [(42, 32), (127, 64)] (d 8 % 4096 == 0 && decide (d 8 < 2 ^ 39) && (b 32 32 == 1 || decide (b 42 33 < 16)))
      (.ctxroot (b 32 32 == 1) (v 10 42 33) (q 8))
  | 0x05, 0 => recOf w [(35, 32), (191, 64)] (d 8 % 65536 == 0 && d 0x10 % 65536 == 0) (.tlbinv (v 4 35 32) (q 8) (q 0x10))
  | 0x06, 0 => recOf w [(127, 64), (159, 128), (201, 192), (319, 256)]
      (if b 192 192 = 1 then d 8 == 0 && d 0x10 == 0 && decide (b 201 193 < Config.cores) else b 201 193 == 0)
      (.preempt (q 8) (v 32 159 128) (b 192 192 == 1) (v 9 201 193) (q 0x20))
  | 0x06, 1 => recOf w [(127, 64), (159, 128)] true (.restore (q 8) (v 32 159 128))
  | 0x07, 0 => recOf w [(55, 32)] (masterOk (b 39 32) (b 55 40)) (.release (v 8 39 32) (v 16 55 40))
  | 0x08, 0 => recOf w [(67, 64)] (decide (12 ≤ b 67 64 ∧ b 67 64 ≤ 15)) (.setTReply (v 4 67 64))
  | 0x08, 1 => recOf w [(64, 64)] true (.setFreezePolicy (b 64 64 == 1))
  | 0x08, 2 => recOf w [(191, 64)] (d 8 % 4096 == 0 && decide (4096 ≤ d 0x10)) (.setDumpArea (q 8) (q 0x10))
  | 0x08, 3 => recOf w [(35, 32), (191, 64)] (d 8 % 4096 == 0) (.setSaveArea (v 4 35 32) (q 8) (q 0x10))
  | 0x08, 4 => recOf w [(59, 32), (194, 64)]
      (d 8 % 65536 == 0 && d 0x10 % 65536 == 0 && decide (2 ≤ b 39 32 ∧ b 39 32 ≤ 4) && masterOk (b 39 32) (b 55 40))
      (.setInboundWindow (v 8 39 32) (v 16 55 40) (v 4 59 56) (q 8) (q 0x10) (v 3 194 192))
  | 0x08, 5 => recOf w [(191, 64)] (d 8 % 65536 == 0 && d 0x10 % 65536 == 0) (.setMulticastWindow (q 8) (q 0x10))
  | 0x09, 0 => recOf w [(41, 32), (255, 64)] true (.replay (v 10 41 32) (q 8) (q 0x10) (q 0x18))
  | 0x09, 1 => recOf w [] true .resume
  | 0x09, 2 => recOf w [(43, 32)] (b 43 32 == 0xFFF || streamOk (b 43 32)) (.flush (v 12 43 32))
  | 0x0A, 0 => recOf w [(39, 32)] (decide (1 ≤ b 39 32 ∧ b 39 32 ≤ 144)) (.podPeer (v 8 39 32))
  | 0x0A, 1 => recOf w [(47, 32), (79, 64)] (decide (242 ≤ b 39 32 ∧ b 39 32 ≤ 254 ∧ b 47 40 ≤ 143)) (.podGateway (v 8 39 32) (v 8 47 40) (v 16 79 64))
  | 0x0A, 2 => recOf w [(43, 32), (255, 64)] (b 64 64 == 0 && b 255 209 == 0) (.podMcastGroup (v 12 43 32) (v 192 255 64))
  | 0x0A, 3 => recOf w [(36, 32)] (decide (10 ≤ b 36 32 ∧ b 36 32 ≤ 24)) (.podReductionTimer (v 5 36 32))
  | 0x0B, 0 | 0x0B, 1 =>
      let gw := b 47 40
      let ok := (gw == 0 || decide (242 ≤ gw ∧ gw ≤ 254)) && (b 33 32 != 0 || gw != 0)
      if b 11 8 = 0 then recOf w [(33, 32), (63, 40), (255, 64)] ok (.snapshot (v 2 33 32) (v 8 47 40) (v 16 63 48) (q 8) (q 0x10) (q 0x18))
      else recOf w [(33, 32), (63, 40), (255, 64)] ok (.snaprest (v 2 33 32) (v 8 47 40) (v 16 63 48) (q 8) (q 0x10) (q 0x18))
  | 0x0C, 0 => recOf w [(191, 64)] true (.fwload (q 8) (q 0x10))
  | _, _ => none

/-! Administration rings (R405). -/

/-- Key of a host physical address. -/
def hostKey (a : Nat) : Nat := keyOf 255 a

def State.modRing (s : State) (fn : Nat) (f : AdminRing → AdminRing) : State :=
  { s with cp := { s.cp with rings := sparsePut fn (f (sparseGet ({ admq := 0 } : AdminRing) s.cp.rings fn)) s.cp.rings } }

/-- ADMQ takes a value: the ring starts at index 0, running. -/
def State.setRing (s : State) (fn : Nat) (w : U64) : State :=
  let s := s.modRing fn fun r => { r with admq := w, next := none, ridx := 0, stopped := false, status := 0 }
  if w = 0 then s else
    let k := hostKey w.toNat
    let ctl := s.numAt (k + 0x18) 4
    ((s.poke (k + 8) 8 0).poke (k + 0x18) 4 (ctl % 2 ^ 31)).poke (k + 0x1C) 4 0

/-- Binds a virtual function. DESIGN CHOICE (log entry 31): R404 speaks of a command that binds it to a partition, and R406 has none; what it has bound
is a free value, taken anew at each write of the function's ADMQ. -/
def State.bindFunction (s : State) (fn : Nat) : State :=
  if fn = 0 ∨ 16 < fn then s else
    { s with cp := { s.cp with vfs := match Config.vfPart fn s.free with
                                 | some p => sparsePut fn p.val s.cp.vfs
                                 | none => sparseErase fn s.cp.vfs }
             free := s.free + 1 }

/-- ADMQ_WRITE: a host writes ADMQ of a function; while a command of the function executes, the write waits for it. -/
def execAdmqWrite (fn : Nat) (w : U64) (s : State) : Out :=
  let s := s.bindFunction fn
  if 16 < fn then .next s
  else if s.cp.cmds.any fun c => c.fn == fn then .next (s.modRing fn fun r => { r with next := some w }) else .next (s.setRing fn w)

/-- The status of a command that is done is written by a release store of system scope, once the lease clock has passed what the command processor
wrote before; a write of ADMQ that waited then takes effect. -/
def State.settleCommand (s : State) (c : PendCmd) : State :=
  match c.status with
  | none => s
  | some status =>
      if !s.settled c.v then s else
        let s := s.poke (c.record + 0x38) 8 status
        let s := { s with cp := { s.cp with cmds := s.cp.cmds.filter fun x => x.id != c.id } }
        match (sparseGet ({ admq := 0 } : AdminRing) s.cp.rings c.fn).next with
        | some w => if s.cp.cmds.any fun x => x.fn == c.fn then s else s.setRing c.fn w
        | none => s

/-- A command is done. -/
def State.finishCommand (s : State) (id status : Nat) : State :=
  match s.cp.cmds.find? fun c => c.id == id with
  | none => s
  | some c =>
      let c := { c with status := c.status.orElse fun _ => some status, v := s.cp.vmax }
      ({ s with cp := { s.cp with cmds := s.cp.cmds.map fun x => if x.id = id then c else x } } : State).settleCommand c

def State.stopRing (s : State) (fn cause : Nat) : State :=
  let r := sparseGet ({ admq := 0 } : AdminRing) s.cp.rings fn
  let k := hostKey r.admq.toNat
  ((s.modRing fn fun r => { r with stopped := true, status := cause }).poke (k + 0x18) 4 (s.numAt (k + 0x18) 4 % 2 ^ 31 + 2 ^ 31)).poke (k + 0x1C) 4 cause

/-- The next record of a ring is taken (R63, R405): the state, the command's number, and what to execute. A stopped ring, an empty slot
and a malformed record give nothing to execute. -/
def State.takeCommand (s : State) (fn : Nat) : State × Option (Nat × Instr) :=
  let r := sparseGet ({ admq := 0 } : AdminRing) s.cp.rings fn
  if r.admq = 0 ∨ r.stopped then (s, none) else
    let k := hostKey r.admq.toNat
    let n := s.numAt (k + 0x18) 4 % 32
    let rec_ := hostKey (s.numAt (k + 0x10) 8) + 64 * (r.ridx % 2 ^ n)
    let w := s.numAt rec_ 4
    if bitsOf w 7 0 = 0 then (s, none)
    else if bitsOf w 31 16 ≠ r.ridx % 2 ^ 16 ∨ bitsOf w 15 12 ≠ r.ridx / 2 ^ 16 % 2 ^ 4 then (s.stopRing fn 1, none)
    else
      let body := s.numAt rec_ 64
      let s := (s.poke rec_ 4 0).modRing fn fun r => { r with ridx := r.ridx + 1 }
      let s := s.poke (k + 8) 8 (r.ridx + 1)
      let id := s.cp.nextCmd
      let c : PendCmd := { id := id, fn := fn, record := rec_, cmd := commandOf body, start := s.clk.cycle }
      let s := { s with cp := { s.cp with cmds := s.cp.cmds ++ [c], nextCmd := id + 1 } }
      match c.cmd with
      | none => (s.finishCommand id 2, none)
      | some i => ({ s with cur := .command id }, some (id, i))

/-! What every command has in common. -/

/-- The partition a virtual function is bound to (R404). -/
def State.boundPart (s : State) (fn : Nat) : Option Nat := sparseFind fn s.cp.vfs

/-- Runs the command that the command processor executes; `own` says whether a virtual function may name what it names. In recovery
the device accepts only FWLOAD (R409); DESIGN CHOICE (log entry 32): any other command then ends with DENIED. -/
def withCommand (s : State) (own : Nat → Bool) (f : PendCmd → Out) : Out :=
  match s.cur with
  | .command id =>
      match s.cp.cmds.find? fun c => c.id == id with
      | none => .refused .noAgent
      | some c =>
          let boot := match c.cmd with
            | some (.fwload ..) => true
            | _ => false
          let may := c.fn == 0 || match s.boundPart c.fn with
            | some p => own p
            | none => false
          if (s.mgmt.recovery && !boot) || !may then .next (s.finishCommand id 4) else f c
  | _ => .refused .noAgent

/-- A command of the physical function alone. -/
def withPhysical (s : State) (f : PendCmd → Out) : Out := withCommand s (fun _ => false) f

/-- A command that is done at once. -/
def doneWith (s : State) (c : PendCmd) (status : Nat := 1) : Out := .next (s.finishCommand c.id status)

/-- Logical cores named by a mask. -/
def coresOf (mask : BitVec 320) (n : Nat) : List Nat := (List.range n).filter fun k => mask.getLsbD k

/-! PART (R61, R73, R406). -/

/-- Where a core belongs after PART names a partition's cores: what it moves to, if it does not stay where it is (R406). -/
def State.moveFor (s : State) (p : Nat) (named : List Nat) (k : Nat) : Option (Option Nat) :=
  let here := ((s.part? p).map (·.cores)).getD []
  let now := sparseFind k s.cp.moving
  if named.contains k then (if here.contains k then none else some (some p))
  else if now == some (some p) || (now.isNone && here.contains k) then some none
  else now

/-- A core changes partition once it holds no resident or pending team; its rank and its share of E_cap change with it. -/
def State.settleCore (s : State) (m : Nat × Option Nat) : State :=
  let k := m.1
  if !(s.core k).pending.isEmpty ∨ !(s.coreTeams k).isEmpty then s else
    let parts := s.cp.parts.map fun x => (x.1, { x.2 with cores := x.2.cores.filter (· != k), reserved := if m.2 == some x.1 then x.2.reserved else x.2.reserved.filter (· != k) })
    let parts := match m.2 with
      | some p => sparseMod p (fun x => { x with cores := sortBy (fun a b => decide (a ≤ b)) (k :: x.cores) }) parts
      | none => parts
    { s with cp := { s.cp with parts := parts, moving := sparseErase k s.cp.moving } }

/-- Cores that may change partition do, and a deleted partition that has none left is over, with its root table and save area. -/
def State.settleCores (s : State) : State :=
  if s.cp.moving.isEmpty && !s.cp.parts.any (·.2.gone) then s else
    let s := s.cp.moving.foldl State.settleCore s
    let isOver (p : Nat) : Bool := (s.part? p).any fun x => x.gone && x.cores.isEmpty
    { s with cp := { s.cp with parts := s.cp.parts.filter (!isOver ·.1), partRoots := s.cp.partRoots.filter (!isOver ·.1),
                               saveAreas := s.cp.saveAreas.filter (!isOver ·.1) } }

/-- The cores that the masks of PART give a partition. -/
def State.namedCores (s : State) (p : Nat) : List Nat :=
  (List.range s.numCores).filter fun k => match sparseFind k s.cp.moving with
    | some dest => dest == some p
    | none => (s.part? p).any (·.cores.contains k)

def execPart (p : BitVec 4) (mask : BitVec 320) (s : State) : Out :=
  withPhysical s fun c =>
    let n := p.toNat
    let named := coresOf mask s.numCores
    let moving := (List.range s.numCores).filterMap fun k => (s.moveFor n named k).map fun dest => (k, dest)
    let old := (s.part? n).getD { cores := [] }
    let mine := { old with gone := named.isEmpty, reserved := old.reserved.filter fun k => named.contains k || old.cores.contains k, ecap := min old.ecap named.length }
    doneWith ({ s with cp := { s.cp with parts := sparsePut n mine s.cp.parts, moving := moving } } : State).settleCores c

/-- Fields of a reserved block (R406). -/
def blockOf (w : U32) : Block :=
  { groups := bitsOf w.toNat 5 0, regs := bitsOf w.toNat 14 6, scr := bitsOf w.toNat 22 15, acc := bitsOf w.toNat 25 23, bars := bitsOf w.toNat 31 26 }

def execPartExpress (p : BitVec 4) (ecap : BitVec 9) (mask : BitVec 320) (block : U32) (s : State) : Out :=
  withPhysical s fun c =>
    match s.part? p.toNat with
    | none => doneWith s c 2
    | some x =>
        let cores := coresOf mask 320
        let named := s.namedCores p.toNat
        if x.gone ∨ named.length < ecap.toNat ∨ !cores.all named.contains then doneWith s c 2
        else doneWith (s.modPart p.toNat fun x => { x with ecap := ecap.toNat, reserved := cores, block := blockOf block }) c

/-! QREG, QRESET, QSET (R62, R64, R75). -/

/-- QREG. DESIGN CHOICE (log entry 16): the address of the queue descriptor is a physical address of local memory; R62 says only that the
descriptor lies in device memory. -/
def execQreg (q : BitVec 10) (part : BitVec 4) (weight : BitVec 8) (cls : Bool) (log2n : BitVec 5) (desc ring : U64) (s : State) : Out :=
  withCommand s (fun p => p == part.toNat && ((s.queue? q.toNat).all fun x => x.part == p)) fun c =>
    let x : Queue := { part := part.toNat, weight := weight.toNat, express := cls, log2n := log2n.toNat, desc := desc.toNat, ring := ring.toNat }
    let s := { s with cp := { s.cp with queues := sparsePut q.toNat x s.cp.queues } }
    let d := desc.toNat
    doneWith (((((s.poke d 8 0).poke (d + 8) 8 0).poke (d + 0x10) 8 ring.toNat).putControl q.toNat)) c

/-- The queue's packets that have not started complete CANCELLED, and STOPPED is cleared. -/
def execQreset (q : BitVec 10) (s : State) : Out :=
  withCommand s (fun p => (s.queue? q.toNat).any fun x => x.part == p) fun c =>
    match s.queue? q.toNat with
    | none => doneWith s c 2
    | some x =>
        let s := (x.pkts.filter fun p => !p.started).foldl (fun s p => s.completePkt q.toNat p 7) s
        doneWith ((s.modQueue q.toNat fun x => { x with stopped := false, status := 0 }).putControl q.toNat) c

def execQset (q : BitVec 10) (part : BitVec 4) (weight : BitVec 8) (cls : Bool) (s : State) : Out :=
  withCommand s (fun p => p == part.toNat && (s.queue? q.toNat).any fun x => x.part == p) fun c =>
    match s.queue? q.toNat with
    | none => doneWith s c 2
    | some _ =>
        let s := s.modQueue q.toNat fun x => { x with part := part.toNat, weight := weight.toNat, express := cls }
        -- distributed teams that are not admitted are ranked anew, and one that changes its class is admitted outside any reserved block (R75)
        let turned (p : Pending) : Bool := p.express != cls && (s.launch? p.launch).any fun l => l.queue == q.toNat
        let s := { s with cores := s.cores.map fun (x : Nat × Core) =>
          (x.1, { x.2 with pending := x.2.pending.map fun p => if turned p then { p with express := cls, reserved := false } else p }) }
        doneWith (s.putControl q.toNat) c

/-! CARVE (R135). -/

/-- The lines of a core's L1 in the units from `n` on leave it, and their tokens with them. -/
def State.dropL1 (s : State) (core n : Nat) : State :=
  let l1 := (s.core core).l1
  let out (line : Nat) : Bool := decide (n ≤ Config.l1Unit l1 line % max 1 l1)
  { s with coh := { s.coh with tokens := s.coh.tokens.filter fun t => !(t.2.1 == core && out t.1) } }

/-- CARVE begins: a shrinking L1 gives its units up at once, a growing one waits until no scratchpad lies in them. -/
def execCarve (core : BitVec 9) (units : BitVec 4) (s : State) : Out :=
  withPhysical s fun c =>
    let k := core.toNat
    let x := s.core k
    let n := units.toNat
    if n < 3 ∨ 7 < n ∨ x.carve.isSome ∨ s.numCores ≤ k then doneWith s c 3
    else if n ≤ x.l1 then
      let s := s.dropL1 k n
      let s := s.modCore k fun x => { x with l1 := n, scr := x.scr.filter fun p => decide (p.1 < n * 131072 ∨ x.l1 * 131072 ≤ p.1) }
      doneWith s c
    else .next (s.modCore k fun x => { x with carve := some n })

/-- The units a growing L1 takes hold no team's scratchpad. -/
def State.carveFree (s : State) (core n : Nat) : Bool := (s.coreTeams core).all fun t => t.2.desc.scr == 0 || decide (n * 131072 ≤ t.2.scrStart)

/-- CARVE_COMPLETE: the units join the L1 empty. -/
def execCarveComplete (core : Nat) (s : State) : Out :=
  match (s.core core).carve with
  | none => .next s
  | some n =>
      if !s.carveFree core n then .next s else
        let s := s.modCore core fun x => { x with l1 := n, carve := none, scr := x.scr.filter fun p => decide (n * 131072 ≤ p.1) }
        match s.cp.cmds.find? fun c => match c.cmd with
          | some (.carve k _) => c.status.isNone && k.toNat == core
          | _ => false with
        | some c => .next (s.finishCommand c.id 1)
        | none => .next s

/-! CTXROOT and TLBINV (R143, R145). -/

def execCtxroot (isQueue : Bool) (n : BitVec 10) (root : U64) (s : State) : Out :=
  withCommand s (fun p => if isQueue then (s.queue? n.toNat).any (fun x => x.part == p) else n.toNat == p) fun c =>
    let k := n.toNat
    doneWith { s with cp := if isQueue then { s.cp with queueRoots := sparsePut k root.toNat s.cp.queueRoots }
                            else { s.cp with partRoots := sparsePut k root.toNat s.cp.partRoots } } c

/-- The root tables of a partition's contexts. -/
def State.rootsOf (s : State) (p : Nat) : List Nat :=
  sparseGet 0 s.cp.partRoots p :: (s.cp.queues.filter fun q => q.2.part == p).map fun q => s.queueRoot q.1

/-- Operations in flight that may use a translation of some contexts. -/
def State.translated (s : State) (roots : List Nat) : List Nat :=
  (s.teams.filter fun t => roots.contains t.2.root).flatMap fun t => (t.2.ops.filter fun o => !o.done && match o.body with
    | .load .. | .store .. | .range .. | .atom .. | .wait .. | .claim .. | .post .. => true
    | _ => false).map (·.id)

/-- TLBINV: copies of the range in TLBs and walk caches are dropped; it completes once no access translated before is in flight. -/
def execTlbinv (p : BitVec 4) (va len : U64) (s : State) : Out :=
  withCommand s (fun x => x == p.toNat) fun c =>
    let roots := s.rootsOf p.toNat
    let hit (e : TlbEntry) : Bool := roots.contains e.root && (len == 0 || (decide (e.va < va.toNat + len.toNat) && decide (va.toNat < e.va + e.size)))
    let walked (e : WalkCopy) : Bool := hit { root := e.root, va := e.tag * 2 ^ e.lo, size := 2 ^ e.lo, pte := e.pte, perms := 0 }
    let s := { s with cores := s.cores.map fun (x : Nat × Core) => (x.1, { x.2 with tlb := x.2.tlb.filter fun e => !hit e })
                      coh := { s.coh with walks := s.coh.walks.map fun (x : Nat × List WalkCopy) => (x.1, x.2.filter fun e => !walked e) } }
    let ids := s.translated roots
    if ids.isEmpty then doneWith s c
    else .next { s with cp := { s.cp with cmds := s.cp.cmds.map fun x => if x.id = c.id then { x with waits := ids } else x } }

/-! The snapshot engine (R408). -/

/-- The snapshot engine as a master (R361). DESIGN CHOICE (log entry 32): number 1 of MKIND 5. -/
def snapMaster : Nat := 1

/-- The named sinks of a snapshot: (code in the block map, key of the range's base). -/
def SnapSt.sinks (x : SnapSt) : List (Nat × Nat) :=
  (if x.ports.getLsbD 0 then [(0, keyOf 240 x.s0)] else []) ++ (if x.ports.getLsbD 1 then [(1, keyOf 241 x.s1)] else [])
    ++ (if x.gw = 0 then [] else [(2, keyOf x.gw x.s2)])

/-- A sink takes writes: its port is not frozen; a gateway has a plane that is alive. -/
def State.sinkOk (s : State) (x : SnapSt) (code : Nat) : Bool :=
  match code with
  | 0 => !s.frozenMaster 4 0
  | 1 => !s.frozenMaster 4 1
  | _ => (List.range 16).any fun p => x.planes.getLsbD p && !s.fab.dead.contains p && !s.frozenMaster 2 p

/-- The planes named for a gateway are among those bound to it. -/
def State.planesBound (s : State) (gw : Nat) (planes : BitVec 16) : Bool :=
  gw == 0 || match sparseFind gw s.fab.gateways with
    | some (_, bound) => planes &&& ~~~bound == 0
    | none => false

def snapOf (restore : Bool) (ports : BitVec 2) (gw : BitVec 8) (planes : BitVec 16) (s0 s1 s2 : U64) (c : PendCmd) : SnapSt :=
  { restore := restore, ports := ports, gw := gw.toNat, planes := planes, s0 := s0.toNat, s1 := s1.toNat, s2 := s2.toNat, cmd := some c.id }

/-- The image of a SNAPREST is written back to local memory, each block from the sink that the first named sink's map names; caches hold nothing of
what was there, and every line has a fresh check value. While the engine is frozen the command waits (R361). -/
def State.restoreSnap (s : State) (x : SnapSt) (c : PendCmd) : State :=
  if s.frozenMaster 5 snapMaster then s
  else if !x.sinks.all fun y => s.sinkOk x y.1 then s.finishCommand c.id 6
  else
    let map := (x.sinks.head?.map (·.2)).getD 0 + 2 ^ 39
    let code (b : Nat) : Nat := (s.byteAt (map + b)).toNat
    let here (y : Nat × Nat) (k : Nat) : Option Nat :=
      if y.2 ≤ k ∧ k < y.2 + 2 ^ 39 ∧ code ((k - y.2) / 2 ^ 21) = y.1 then some (k - y.2) else none
    let kept := s.mem.filter fun y => decide (2 ^ 39 ≤ y.1)
    let mem := s.mem.foldl (fun m y => match x.sinks.findSome? fun k => here k y.1 with
      | some a => memPut m a y.2
      | none => m) kept
    let coh := { s.coh with hist := [], dirty := [], tokens := [], bad := s.coh.bad.filter (fun l => decide (2 ^ 39 ≤ l * 128)),
                            rdc := s.coh.rdc.filter fun r => decide (2 ^ 39 ≤ r.line * 128) }
    ({ s with mem := mem, coh := coh } : State).finishCommand c.id 1

/-! PREEMPT and RESTORE (R363 to R369). -/

def State.holdCommand (s : State) (c : PendCmd) (waits : List Nat) : Out :=
  if waits.isEmpty then doneWith s c
  else .next { s with cp := { s.cp with cmds := s.cp.cmds.map fun x => if x.id = c.id then { x with waits := waits } else x } }

def execPreempt (launch : U64) (team : U32) (all : Bool) (core : BitVec 9) (dl : U64) (s : State) : Out :=
  let hit := s.teams.filter fun t => !t.2.killed && (if all then t.2.core == core.toNat else t.2.launch == launch.toNat && t.2.teamId == team.toNat)
  withCommand s (fun p => hit.all fun t => t.2.part == p) fun c =>
    let _ := dl
    s.holdCommand c (hit.map fun t => t.2.serial)

def execRestore (launch : U64) (team : U32) (s : State) : Out :=
  let hit := s.cp.saved.filter fun x => x.team.launch == launch.toNat && (team == 0xFFFFFFFF || x.team.teamId == team.toNat)
  withCommand s (fun p => hit.all fun x => x.team.part == p) fun c => s.holdCommand c (hit.map fun x => x.team.serial)

/-- Goes on with one command that waits. -/
def State.pursue (s : State) (c : PendCmd) : State :=
  let left (waits : List Nat) (s : State) : State :=
    if waits.isEmpty then s.finishCommand c.id 1
    else { s with cp := { s.cp with cmds := s.cp.cmds.map fun x => if x.id = c.id then { x with waits := waits } else x } }
  match c.cmd.filter fun _ => c.status.isNone with
  | some (.preempt _ _ _ _ dl) =>
      let s := c.waits.foldl (fun s n => match s.teamBySerial n with
        | some (tk, t) => if t.preReady && !t.killed then s.choosePre tk t (some c.id) c.start dl.toNat else s
        | none => s) s
      left (c.waits.filter fun n => (s.teamBySerial n).isSome) s
  | some (.restore ..) =>
      let s := c.waits.foldl (fun s n => match s.cp.saved.find? fun x => x.team.serial == n with
        | some x => s.restoreTeam x
        | none => s) s
      left (c.waits.filter fun n => s.cp.saved.any fun x => x.team.serial == n) s
  | some (.tlbinv ..) => left (c.waits.filter fun id => s.teams.any fun t => t.2.opLive id) s
  | some (.snaprest ports gw planes s0 s1 s2) => s.restoreSnap (snapOf true ports gw planes s0 s1 s2 c) c
  | _ => s.settleCommand c

/-- Goes on with the commands that wait, in the order they began. -/
def State.pursueAll (s : State) : State := s.cp.cmds.foldl (fun s c => s.pursue c) s

/-! RELEASE (R362). -/

/-- Function-level reset: the function's ring and its transactions in progress are gone. What the physical function has set for it stands. -/
def State.resetFunction (s : State) (fn : Nat) : State :=
  { s with cp := { s.cp with rings := sparseErase fn s.cp.rings }
           fab := { s.fab with posted := sparseErase fn s.fab.posted, ackWait := s.fab.ackWait.filter fun w => !(w.1 == 3 && w.2.1 == fn) } }

def execRelease (mkind : BitVec 8) (mnum : BitVec 16) (s : State) : Out :=
  withPhysical s fun c =>
    let n := mnum.toNat
    if mkind = 0 then
      let s := if (s.core n).frozen then (s.coreTeams n).foldl (fun s t => s.killTeam t.1) s else s
      doneWith (if (s.core n).frozen then s.modCore n fun x => { x with frozen := false, bad := [] } else s) c
    else
      let frozen := s.cp.frozen.contains (mkind.toNat, n)
      let s := { s with cp := { s.cp with frozen := s.cp.frozen.filter (· != (mkind.toNat, n)) } }
      let s := if frozen && mkind == 3 then s.resetFunction n else s
      let s := if frozen && mkind == 1 then s.modChannel n fun ch => { ch with copy := { ch.copy with status := ch.copy.status.orElse fun _ => some .integrity } } else s
      doneWith s c

/-! SET (R344, R362, R371, R400). -/

def execSetTReply (k : BitVec 4) (s : State) : Out := withPhysical s fun c => doneWith { s with cp := { s.cp with tReply := k.toNat } } c
def execSetFreezePolicy (halt : Bool) (s : State) : Out := withPhysical s fun c => doneWith { s with cp := { s.cp with freezeHalt := halt } } c
def execSetDumpArea (base size : U64) (s : State) : Out :=
  withPhysical s fun c => doneWith { s with cp := { s.cp with dumpArea := some (base.toNat, size.toNat) } } c
def execSetSaveArea (p : BitVec 4) (base size : U64) (s : State) : Out :=
  withPhysical s fun c => doneWith { s with cp := { s.cp with saveAreas := sparsePut p.toNat (base.toNat, size.toNat) s.cp.saveAreas } } c
def execSetInboundWindow (mkind : BitVec 8) (mnum : BitVec 16) (win : BitVec 4) (base size : U64) (rights : BitVec 3) (s : State) : Out :=
  withPhysical s fun c =>
    let rest := s.cp.windows.filter fun w => !(w.mkind == mkind.toNat && w.mnum == mnum.toNat && w.win == win.toNat)
    let w : Window := { mkind := mkind.toNat, mnum := mnum.toNat, win := win.toNat, base := base.toNat, size := size.toNat, rights := rights }
    doneWith { s with cp := { s.cp with windows := if size = 0 then rest else rest ++ [w] } } c
def execSetMulticastWindow (base size : U64) (s : State) : Out :=
  withPhysical s fun c => doneWith { s with cp := { s.cp with mcastWindow := if size = 0 then none else some (base.toNat, size.toNat) } } c

/-! REPLAY, RESUME, FLUSH (R380, R384, R388). -/

/-- The image is posted on the queue as a producer would post it, with RECLVL 0 (R63, R406). -/
def State.postImage (s : State) (qn : Nat) (q : Queue) (image : List Byte) : Nat × State :=
  let i := s.numAt q.desc 8
  let s := s.poke q.desc 8 (i + 1)
  let w := ofBytes (image.take 4)
  let valid := i % 2 ^ 16 * 2 ^ 16 + i / 2 ^ 16 % 16 * 2 ^ 12 + w % 2 ^ 10
  let va := q.ring + 64 * (i % 2 ^ q.log2n)
  let (_, s) := s.writeVa none none (s.queueRoot qn) va (bytesOf valid 4 ++ image.drop 4)
  (i, s)

/-- REPLAY. DESIGN CHOICE (log entry 33): the address of the packet's image is a physical one, as QREG's are. -/
def execReplay (q : BitVec 10) (image log len : U64) (s : State) : Out :=
  withPhysical s fun c =>
    match s.queue? q.toNat with
    | none => doneWith s c 2
    | some x =>
        let (r, s) := s.readVa none (s.queueRoot q.toNat) log.toNat len.toNat
        let chunks := match r with
          | .ok bs => parseLog (len.toNat / 64 + 1) bs
          | .error _ => none
        match chunks with
        | none => doneWith s c 7
        | some ks =>
            let (i, s) := s.postImage q.toNat x (s.bytesAt image.toNat 64)
            let next := (ks.map (·.stream)).foldl (fun m k => sparsePut k (0, 0, s.clk.cycle) m) []
            let rp : Replay := { queue := q.toNat, idx := i, log := ks, next := next }
            doneWith { s with haeth := { s.haeth with replay := some rp, brbase := log, divpos := 0, divevt := 0, fired := [] } } c

/-- RESUME: issue restarts after a debug halt or a halt; after REPLAY_DIVERGE the bridles stop gating (R370, R388). -/
def execResume (s : State) : Out :=
  withPhysical s fun c =>
    let haeth := match s.debugHalt, s.haeth.replay with
      | some true, some r => { s.haeth with replay := some { r with gating := false } }
      | _, _ => s.haeth
    doneWith { s with haeth := haeth, debugHalt := none, halt := none } c

def execFlush (stream : BitVec 12) (s : State) : Out :=
  withPhysical s fun c =>
    let ks := if stream = 0xFFF then s.haeth.chunks.map (·.1) else [stream.toNat]
    doneWith (ks.foldl (fun s k => s.closeChunk k 5) s) c

/-! POD (R348, R390, R400). -/

def execPodPeer (n : BitVec 8) (s : State) : Out := withPhysical s fun c => doneWith { s with fab := { s.fab with self := some n.toNat } } c
def execPodGateway (gw port : BitVec 8) (planes : BitVec 16) (s : State) : Out :=
  withPhysical s fun c => doneWith { s with fab := { s.fab with gateways := sparsePut gw.toNat (port.toNat, planes) s.fab.gateways } } c
def execPodMcastGroup (g : BitVec 12) (mask : BitVec 192) (s : State) : Out :=
  withPhysical s fun c =>
    let members := (List.range 145).filter fun p => mask.getLsbD p
    doneWith { s with fab := { s.fab with groups := sparsePut g.toNat members s.fab.groups } } c
def execPodReductionTimer (k : BitVec 5) (s : State) : Out := withPhysical s fun c => doneWith { s with fab := { s.fab with redK := k.toNat } } c

/-! SNAPSHOT and SNAPREST (R408). -/

/-- SNAPSHOT is accepted: no further packet starts until it is done. -/
def execSnapshot (ports : BitVec 2) (gw : BitVec 8) (planes : BitVec 16) (s0 s1 s2 : U64) (s : State) : Out :=
  withPhysical s fun c =>
    if s.cp.snap.isSome then doneWith s c 5
    else if !s.planesBound gw.toNat planes then doneWith s c 2
    else .next { s with cp := { s.cp with snap := some (snapOf false ports gw planes s0 s1 s2 c) } }

/-- A snapshot may stream: no team is resident, and no copy or fabric operation is in flight. -/
def State.snapReady (s : State) : Bool := s.teams.isEmpty && s.cp.channels.isEmpty && !s.enginesBusy && !s.frozenMaster 5 snapMaster

/-- A snapshot ends with a status, and packets start again. -/
def State.endSnap (s : State) (x : SnapSt) (status : Nat) : State :=
  let s := { s with cp := { s.cp with snap := none } }
  match x.cmd with
  | some id => s.finishCommand id status
  | none => s

/-- The first line of local memory whose check value fails. -/
def State.badLocal (s : State) : Option Nat := (sortBy (fun a b => decide (a ≤ b)) (s.coh.bad.filter fun l => decide (l * 128 < 2 ^ 39))).head?

/-- The bytes that a sink receives: the blocks sent to it at their own offsets, and the block map. -/
def State.imageFor (s : State) (choice : Nat → Nat) (code base : Nat) : List Host.Cell :=
  (s.mem.filter fun c => decide (c.1 < 2 ^ 39) && choice (c.1 / 2 ^ 21) == code).map (fun c => (base + c.1, c.2))
    ++ (List.range (2 ^ 18)).filterMap fun b => if choice b = 0 then none else some (base + 2 ^ 39 + b, BitVec.ofNat 8 (choice b))

/-- SNAPSHOT_STREAM: local memory goes to the sinks. `sinks` gives the sink of each block of 2 MiB in turn; a code that no named sink
has stands for the first. A line whose check value fails freezes the engine (R361). -/
def execSnapshotStream (sinks : List Nat) (s : State) : Out :=
  match s.cp.snap with
  | none => .next s
  | some x =>
      if !s.snapReady then .next s
      else match s.badLocal with
      | some line => .next ((s.freeze 5 snapMaster (causeCode .integrity) (line * 128)).endSnap x 6)
      | none =>
      if !x.sinks.all fun y => s.sinkOk x y.1 then .next (s.endSnap x 6)
      else
        let first := (x.sinks.head?.map (·.1)).getD 0
        let choice (b : Nat) : Nat := match sinks[b]? with
          | some k => if x.sinks.any fun y => y.1 == k then k else first
          | none => first
        let inSink (k : Nat) : Bool := x.sinks.any fun y =>
          decide (y.2 ≤ k ∧ k < y.2 + 2 ^ 39 + 2 ^ 18) && (decide (y.2 + 2 ^ 39 ≤ k) || choice ((k - y.2) / 2 ^ 21) == y.1)
        let kept := s.mem.filter fun c => !inSink c.1
        let mem := (x.sinks.flatMap fun y => s.imageFor choice y.1 y.2).foldl (fun m c => memPut m c.1 c.2) kept
        .next (({ s with mem := mem, coh := { s.coh with dirty := [] } }).endSnap x 1)

/-- SNAPREST begins. DESIGN CHOICE (log entry 32): while a team is resident it ends with BUSY, and where a sink cannot be read with SINK_FAULT. -/
def execSnaprest (ports : BitVec 2) (gw : BitVec 8) (planes : BitVec 16) (s0 s1 s2 : U64) (s : State) : Out :=
  withPhysical s fun c =>
    let x := snapOf true ports gw planes s0 s1 s2 c
    if s.cp.snap.isSome ∨ s.teams.any (fun t => !t.2.retiredKilled) then doneWith s c 5
    else if !s.planesBound gw.toNat planes then doneWith s c 2
    else .next (s.restoreSnap x c)

/-! FWLOAD and reset (R409). -/

def execFwload (addr len : U64) (s : State) : Out :=
  withPhysical s fun c => doneWith { s with mgmt := { s.mgmt with staged := some (s.bytesAt (hostKey addr.toNat) len.toNat) } } c

/-- DEVICE_RESET: every state takes its reset value; the memory devices keep what they hold. The boot ROM verifies the image's stages in turn and
records their digests; from the first that fails on none is run, and the device stays in recovery. -/
def execDeviceReset (s : State) : Out :=
  let image := s.mgmt.staged.getD s.mgmt.image
  let (digests, ok) := bootStages (Config.stages image)
  .next { State.reset with fuses := s.fuses, mem := s.mem, agenda := s.agenda, free := s.free,
                           mgmt := { image := image, measurements := digests, recovery := !ok } }

/-! Haeth events (R380, R386 to R388). -/

def execChunkClose (stream : Nat) (s : State) : Out := if s.chunkDue stream then .next (s.closeChunk stream 0) else .next s

/-- The next event of a stream has been due for more than 2^BOUND cycles. -/
def State.replayLate (s : State) (stream : Nat) : Bool :=
  match s.haeth.replay with
  | none => false
  | some r => r.gating && s.debugHalt.isNone && match sparseFind stream r.next, r.expect stream with
      | some (_, _, c), .event .. => decide (c + 2 ^ s.haeth.bound < s.clk.cycle)
      | _, _ => false

def execReplayTimeout (stream : Nat) (s : State) : Out := if s.replayLate stream then .next (s.diverge stream 1 0) else .next s

/-- BREAKPOINT_FIRE: a chunk breakpoint of a replay broadcasts a debug halt. Numbers 8 and 9 stand for the broadcast of another module of a pod replay,
for a breakpoint and for REPLAY_DIVERGE (R388). -/
def execBreakpointFire (n : Nat) (s : State) : Out :=
  if 8 ≤ n then
    if s.replaying ∧ s.fab.self.isSome ∧ n ≤ 9 then
      .next { s with debugHalt := if n = 9 then some true else s.debugHalt.orElse fun _ => some false }
    else .next s
  else if s.breakDue n then
    let s := s.broadcastHalt false
    .next { s with debugHalt := s.debugHalt.orElse fun _ => some false, haeth := { s.haeth with fired := n :: s.haeth.fired } }
  else .next s

/-- The types of R378. -/
def listedType (n : Nat) : Bool := decide (1 ≤ n ∧ n ≤ 0x0E) || n == 0x10 || n == 0x11

/-- What a replay finds of itself: a stream whose next chunk fails its CRC or is missing, whose next event is of no listed type, or whose service holds an
unlogged run, diverges when the replay reaches it; of several, the lowest stream (R378, R386). -/
def State.checkLog (s : State) : State :=
  match s.haeth.replay with
  | none => s
  | some r =>
      if !r.gating || s.debugHalt.isSome then s else
        let found := (r.next.filterMap fun (k, _) => match r.expect k with
          | .badCrc _ => some (k, 4, 0)
          | .missing _ => some (k, 5, 0)
          | .event _ _ ev _ => if listedType (evType ev) then none else some (k, 3, 0)
          | .exhausted _ => none) ++ s.net.queues.filterMap fun q => if s.unloggedRun q.1 then some (0x400 + q.1, 2, 0x01) else none
        match sortBy (fun a b => decide (a.1 ≤ b.1)) found with
        | (k, why, obs) :: _ => s.diverge k why obs
        | [] => s

/-- A replay is over once its launch has completed. -/
def State.endReplay (s : State) : State :=
  match s.haeth.replay with
  | some r => if r.launch.any fun l => (s.launch? l).isNone then { s with haeth := { s.haeth with replay := none } } else s
  | none => s

/-! Soft errors (R343, R361, R412, R413). -/

def execSoftError (e : SoftErr) (s : State) : Out :=
  match e with
  | .corrected unit => .next { s with mgmt := { s.mgmt with secded := sparsePut unit (sparseGet 0 s.mgmt.secded unit + 1) s.mgmt.secded } }
  | .core lcore addr place =>
      .next ((s.modCore lcore fun x => { x with bad := x.bad ++ place.toList }).freeze 0 lcore (causeCode .integrity) addr)
  | .channel id addr => .next (s.freeze 1 id (causeCode .integrity) addr)
  | .line pa =>
      if 2 ^ 39 ≤ pa then .fault .noSuchAddress
      else .next { s with coh := { s.coh with bad := if s.coh.bad.contains (pa / 128) then s.coh.bad else pa / 128 :: s.coh.bad } }
  | .record cid => .next { s with net := { s.net with recs := s.net.recs.map fun r => if r.cid = cid then { r with lost := true } else r } }
  | .fold plane rid unit =>
      (match s.fab.folds.find? fun f => f.plane == plane && f.rid == rid && f.unit == unit && !f.done with
       | some f => .next (s.dropFold f .integrity)
       | none => .next s)
  | .control _ => .next (s.beginHalt (causeCode .integrity) 0)

/-- PATROL_SCRUB: an HBM line is read. -/
def execPatrolScrub (pa : Nat) (s : State) : Out :=
  if 2 ^ 39 ≤ pa then .fault .noSuchAddress else .next { s with mgmt := { s.mgmt with scrubbed := s.mgmt.scrubbed + 1 } }

/-! Clock and power (R407, R411). -/

/-- PTP_CORRECTION: the host disciplines the PTP clock, at one instant. -/
def execPtpCorrection (sec ns : Nat) (s : State) : Out :=
  .next { s with clk := { s.clk with ptp := (sec * 10 ^ 9 + ns) * 33, ptm := some s.clk.cycle } }

/-- THERMAL_LIMIT: the coolant's outlet has been above its limit for 100 ms. -/
def execThermalLimit (s : State) : Out := .next (s.beginHalt 0xF0 0)

/-! Attestation (R410). -/

/-- Bytes of the settings in force from SET and POD. -/
def State.settings (s : State) : List Byte :=
  let opt (x : Option (Nat × Nat)) : List Byte := match x with
    | some (a, b) => bytesOf a 8 ++ bytesOf b 8
    | none => []
  bytesOf s.cp.tReply 1 ++ bytesOf (bit s.cp.freezeHalt 0) 1 ++ opt s.cp.dumpArea ++ s.cp.saveAreas.flatMap (fun p => bytesOf p.1 1 ++ opt (some p.2))
    ++ s.cp.windows.flatMap (fun w => bytesOf w.mkind 1 ++ bytesOf w.mnum 2 ++ bytesOf w.win 1 ++ bytesOf w.base 8 ++ bytesOf w.size 8 ++ bytesOf w.rights.toNat 1)
    ++ opt s.cp.mcastWindow ++ bytesOf (s.fab.self.getD 0) 1
    ++ s.fab.gateways.flatMap (fun g => bytesOf g.1 1 ++ bytesOf g.2.1 1 ++ bytesOf g.2.2.toNat 2)
    ++ s.fab.groups.flatMap (fun g => bytesOf g.1 2 ++ bytesOf g.2.length 1 ++ g.2.flatMap fun p => bytesOf p 1) ++ bytesOf s.fab.redK 1

/-- The measurement blocks: stage digests and, outside recovery, the digest of the settings. -/
def State.blocks (s : State) : List (List Byte) :=
  if s.mgmt.recovery then s.mgmt.measurements else s.mgmt.measurements ++ [sha384 s.settings]

/-- An SPDM request is answered, and moves the connection on to `stage` where it comes after `need`; one out of turn, or `refused`, is a failure that
the management log records. -/
def State.spdm (s : State) (need stage : Nat) (msg : List Byte) (refused : Bool := false) (answer : SpdmAnswer → SpdmAnswer := id) : State :=
  let bytes := Config.spdmAnswer msg s.blocks s.mgmt.spdm
  let ok := decide (need ≤ s.mgmt.spdm) && !refused
  let s := if ok then s else s.logMgmt (bytesOf 4 8)
  let a : SpdmAnswer := { bytes := bytes }
  { s with mgmt := { s.mgmt with out := s.mgmt.out ++ [if ok then answer a else a], spdm := if ok then stage else s.mgmt.spdm } }

def execGetVersion (msg : List Byte) (s : State) : Out := .next (s.spdm 0 1 msg)
def execGetCapabilities (msg : List Byte) (s : State) : Out := .next (s.spdm 1 2 msg)
/-- NEGOTIATE_ALGORITHMS settles on ECDSA brainpoolP384r1 with SHA-384 alone; a request that does not offer them fails. -/
def execNegotiateAlgorithms (msg : List Byte) (s : State) : Out :=
  .next (s.spdm 2 3 msg (!Config.spdmOffers msg) fun a => { a with algorithms := true })
def execGetCertificate (msg : List Byte) (s : State) : Out := .next (s.spdm 3 3 msg)
def execChallenge (msg : List Byte) (s : State) : Out := .next (s.spdm 3 3 msg)
/-- GET_MEASUREMENTS answers with the measurement blocks. -/
def execGetMeasurements (msg : List Byte) (s : State) : Out :=
  .next (s.spdm 3 3 msg false fun a => { a with blocks := s.blocks })

/-! Management reads (R414). They change nothing, so that none is an event. -/

/-- What the management endpoint lets be read without privilege: the log, oldest first; corrections per unit; combining losses per core; waits for
power leave; SY.DIECFG of every die; and the measurement registers. -/
structure MgmtView where
  log : List (List Byte)
  secded : Sparse Nat
  losses : Sparse Nat
  leaveWaits : Nat
  dieCfgs : List U32
  measurements : List (List Byte)

def State.managementView (s : State) : MgmtView :=
  { log := s.mgmt.log, secded := s.mgmt.secded, losses := s.net.losses, leaveWaits := s.mgmt.leaveWaits,
    dieCfgs := (List.range 8).map s.dieCfg, measurements := s.mgmt.measurements }

end Sys2Proof.Machine
end

