-- ==== Sys2Proof/Machine/CrossLane.lean ====
section
/-!
DEFINITION. Machine/CrossLane.lean: gathers and collectives over the lanes of a group (R239 to R245).
-/
namespace Sys2Proof.Machine

/-- Lane register of a register source, in any lane: of one outside the split's mask, as it stood before the cycle (R120). -/
def LaneEnv.laneReg (e : LaneEnv) (src : Src) (l : Nat) : U32 :=
  match src with
  | .reg n => if laneIn e.split.mask l then e.x.vreg n.toNat l else e.x.vregWas n.toNat l
  | _ => 0

/-- A lane is live; one outside the split's mask, as it stood before the cycle. -/
def LaneEnv.liveLane (e : LaneEnv) (l : Nat) : Bool := laneIn (if laneIn e.split.mask l then e.x.live else e.x.was.live) l

/-- XLANE: the source lane of receiver l with index j in segments of w lanes, if there is one (R240). -/
def xlaneSource (m : XMode) (w l j : Nat) : Option Nat :=
  let base := l - l % w
  match m with
  | .at => if j < w then some (base + j) else none
  | .back => if j ≤ l - base then some (l - j) else none
  | .fwd => if j < base + w - l then some (l + j) else none
  | .flip => if j < w then some (l ^^^ j) else none
  | .rot => some (base + (l - base + j) % w)

def execXlane (o : LaneOps) (m : XMode) (seg : BitVec 3) (s : State) : Out :=
  laneD (.xlane o m seg) o.d s fun e l =>
    match xlaneSource m (2 ^ seg.toNat) l (e.val l o.b).toNat with
    | some k => (if e.liveLane k then e.laneReg o.a k else e.val l o.c, 0)
    | none => (e.val l o.c, 0)

/-- Elements of a register per lane, and their bits (R241). -/
def slideCount : SlideSize → Nat
  | .w => 1 | .h => 2 | .b => 4

/-- Element t of a register seen as a vector; 0 where its lane is not live. -/
def LaneEnv.elemAt (e : LaneEnv) (src : Src) (k t : Nat) : Nat :=
  let l := t / k
  if e.liveLane l then (e.laneReg src l).toNat / 2 ^ (32 / k * (t % k)) % 2 ^ (32 / k) else 0

def execSlide (o : LaneOps) (x : SlideExt) (s : State) : Out :=
  laneD (.slide o x) o.d s fun e l =>
    let k := slideCount x.size
    let total := 32 * k
    let n := x.n.toNat
    let el (i : Nat) : Nat :=
      if x.up then
        if n ≤ i then e.elemAt o.a k (i - n)
        else if x.edge then e.elemAt o.a k 0 else e.elemAt o.c k (i + total - n)
      else
        if i + n < total then e.elemAt o.a k (i + n)
        else if x.edge then e.elemAt o.a k (total - 1) else e.elemAt o.c k (i + n - total)
    (BitVec.ofNat 32 ((List.range k).foldl (fun a j => a + el (l * k + j) * 2 ^ (32 / k * j)) 0), 0)

/-- PGATH: the gathered value of a lane (R242). -/
def execPgath (o : LaneOps) (m : PMode) (neg : Bool) (s : State) : Out :=
  laneRun (.pgath o m neg) s fun e =>
    let t (l : Nat) : Bool := e.pred l o.a != neg
    match m with
    | .mask =>
        let w := maskOf (e.lanes.filter t)
        e.done (e.writeD o.d fun _ => (w, 0))
    | .every => e.done (e.writeP o.d fun _ => (e.lanes.all t, 0))
    | .some => e.done (e.writeP o.d fun _ => (e.lanes.any t, 0))
    | .agree => e.done (e.writeP o.d fun _ => (e.lanes.all t || !e.lanes.any t, 0))

/-- The identity of an operation of REDUX and SCAN (R243). -/
def redIdentity (op : RedOp) (unsigned : Bool) : U32 :=
  match op with
  | .add | .or | .xor => 0
  | .min => if unsigned then 0xFFFFFFFF else 0x7FFFFFFF
  | .max => if unsigned then 0 else 0x80000000
  | .and => 0xFFFFFFFF
  | .fadd => 0x80000000
  | .fmin => 0x7F800000
  | .fmax => 0xFF800000

/-- One combination, of every operation but integer .add. -/
def redStep (op : RedOp) (unsigned : Bool) (r : RMode) (sat ftz : Bool) (a b : U32) : U32 × Flags :=
  let less (x y : U32) : Bool := decide (readInt 32 unsigned x.toNat < readInt 32 unsigned y.toNat)
  match op with
  | .add => (a + b, 0)
  | .min => (if less b a then b else a, 0)
  | .max => (if less a b then b else a, 0)
  | .and => (a &&& b, 0)
  | .or => (a ||| b, 0)
  | .xor => (a ^^^ b, 0)
  | .fadd => out32 (floatOp .f32 .add r sat ftz a.toNat b.toNat 0)
  | .fmin => out32 (floatMinMax .f32 false ftz a.toNat b.toNat)
  | .fmax => out32 (floatMinMax .f32 true ftz a.toNat b.toNat)

/-- One level of the fixed pairwise tree (R56). -/
def treeLevel (f : U32 → U32 → U32 × Flags) : List U32 → List U32 × Flags
  | a :: b :: l =>
      let (v, x) := f a b
      let (vs, y) := treeLevel f l
      (v :: vs, x ||| y)
  | l => (l, 0)

/-- Five levels over 32 lanes. -/
def treeFold (f : U32 → U32 → U32 × Flags) : Nat → List U32 → U32 × Flags
  | 0, l => (l.headD 0, 0)
  | n + 1, l =>
      let (vs, x) := treeLevel f l
      let (v, y) := treeFold f n vs
      (v, x ||| y)

/-- The exact sum of the ACTIVE lanes. -/
def LaneEnv.laneSum (e : LaneEnv) (src : Src) (unsigned : Bool) : Int :=
  e.lanes.foldl (fun (n : Int) l => n + readInt 32 unsigned (e.laneReg src l).toNat) 0

def execRedux (o : LaneOps) (op : RedOp) (s : State) : Out :=
  laneRun (.redux o op) s fun e =>
    if e.act = 0 then e.skip else
      let (v, f) :=
        if op = .add then w32 (e.laneSum o.a o.sga) o.sga o.sat
        else treeFold (redStep op o.sga o.rm o.sat e.ftz) 5
          ((List.range 32).map fun l => if laneIn e.act l then e.laneReg o.a l else redIdentity op o.sga)
      e.done ((e.writeD o.d fun _ => (v, 0)).raise f)

/-- SCAN of an integer .add: the exact prefix is written by W (R244). -/
def scanAdd (unsigned sat excl : Bool) (val : Nat → Int) : List Nat → Int → List (Nat × U32 × Flags)
  | [], _ => []
  | l :: ls, acc =>
      let next := acc + val l
      (l, w32 (if excl then acc else next) unsigned sat) :: scanAdd unsigned sat excl val ls next

/-- SCAN of the other operations. -/
def scanStep (f : U32 → U32 → U32 × Flags) (excl : Bool) (val : Nat → U32) : List Nat → U32 → List (Nat × U32 × Flags)
  | [], _ => []
  | l :: ls, acc =>
      let (next, fl) := f acc (val l)
      (l, if excl then acc else next, fl) :: scanStep f excl val ls next

def execScan (o : LaneOps) (op : RedOp) (excl : Bool) (s : State) : Out :=
  laneRun (.scan o op excl) s fun e =>
    let rs :=
      if op = .add then scanAdd o.sga o.sat excl (fun l => readInt 32 o.sga (e.laneReg o.a l).toNat) e.lanes 0
      else scanStep (redStep op o.sga o.rm o.sat e.ftz) excl (e.laneReg o.a) e.lanes (redIdentity op o.sga)
    e.done (rs.foldl (fun x r => (x.setVreg o.d.toNat r.1 r.2.1).raise r.2.2) e.x)

/-- MATCH compares words or pairs (R245). -/
def execVmatch (o : LaneOps) (all dbl : Bool) (s : State) : Out :=
  laneRun (.vmatch o all dbl) s fun e =>
    let v (l : Nat) : U64 := if dbl then e.val64 l o.a else (e.val l o.a).setWidth 64
    if all then
      let same := e.lanes.all fun l => v l == v e.low
      e.done (e.writeP o.d fun _ => (same, 0))
    else e.done (e.writeD o.d fun l => (maskOf (e.lanes.filter fun k => v k == v l), 0))

end Sys2Proof.Machine
end

