-- ==== Sys2Proof/Machine/Landing.lean ====
section
/-!
DEFINITION. Machine/Landing.lean: results that land, stores that perform, polls, barrier phases and leases (R119, R132, R133, R139,
R140).
-/
namespace Sys2Proof.Machine

/-- The word a lane's wait took. -/
def waitGot (ps : List WaitPart) (l : Nat) : U64 := (ps.findSome? fun p => if p.lane = l then p.got else none).getD 0

/-- The values of a wait land in their registers, and the word that waited retires (R203, R280); the die keeps no copy that is older than what a
monitor has seen (R151). -/
def State.landWait (s : State) (tk : Nat) (t : Team) (o : Op) : State :=
  match o.body with
  | .wait sr vr _ dbl ps =>
      if !(ps.all fun p => p.got.isSome) then s
      else
        let t := t.joinSeen o.group (ps.foldl (fun v p => max v (s.readV p.key)) 0)
        let s := (s.freeOpSlots t.core t.serial o.id).freeMonitors t.serial o.id
        let s := ps.foldl (fun s p => if keyPeer p.key = 0 then s.dropCopy (s.dieOf t.core) (p.key / 128) else s) s
        match o.group, sr, vr with
        | none, some d, _ =>
            let t := (t.setSreg (BitVec.ofNat 6 d) (waitGot ps 0)).complete o.id
            ((s.setTeam tk t).acquired t o.kind o.scope).unblock tk o.id
        | some g, _, some d =>
            let stalled := ((t.group? g).map fun x => x.stalls).getD []
            let put (x : Group) (l : Nat) : Group := if dbl then x.setVpair d l (waitGot ps l) else x.setVreg d l (lo32 (waitGot ps l))
            let t := (t.modGroup g fun x => ((lanesOf o.lanes).foldl put x).markFull d (if dbl then 2 else 1)).complete o.id
            let s := (s.setTeam tk t).acquired t o.kind o.scope
            (match stalled.find? fun y => y.2 == o.id, (s.team? tk).bind fun t => t.group? g with
             | some y, some x => s.retireLane tk g y.1 ((x.split y.1).lpc + 1) o.lanes
             | _, _ => s)
        | _, _, _ => s
  | _ => s

/-- Values of an SFU-class word or of an RSMERGE land: registers, flags, and the destination becomes full (R248, R264). -/
def State.landWrites (s : State) (tk : Nat) (t : Team) (o : Op) (ws : List (Nat × Nat × U32)) (f : Flags) : State :=
  match o.group with
  | none => s
  | some g =>
      s.setTeam tk ((t.modGroup g fun x =>
        (ws.foldl (fun x w => (x.setVreg w.1 w.2.1 w.2.2).markFull w.1 1) x).landFlags o.split f).complete o.id)

/-- An access in flight of this module to itself by its own number finds neither a forwarding entry nor a window: it freezes the port that it comes in at,
and is not performed (R390, R396). -/
def State.turnedAway (s : State) (o : Op) (mask : U32) : Option State :=
  let away (key n right : Nat) : Option State := match s.crossing key n right with
    | .away port => some (s.freeze 2 port (causeCode .addrPerm) (keyPa key))
    | _ => none
  let part (right : Nat) (p : Part) : Option State := match p.place with
    | .mem k => if p.done || !laneIn mask p.lane then none else away k p.n right
    | _ => none
  match o.body with
  | .load _ ps => ps.findSome? (part 0)
  | .store ps => ps.findSome? (part 1)
  | .wait _ _ _ dbl ps => ps.findSome? fun p => if p.got.isSome then none else away p.key (waitBits dbl / 8) 0
  | .range inv rs => rs.findSome? fun r => away r.1 r.2 (if inv then 1 else 0)
  | .post _ spots _ => spots.findSome? fun g => away g.1 g.2 1
  | _ => none

/-- RESULT_LAND: a long-latency producer's results land for the lanes of a mask, and with the last the destination becomes full
(R119). -/
def execResultLand (tk op : Nat) (mask : U32) (s : State) : Out :=
  match s.team? tk with
  | none => .next s
  | some t =>
      match t.op? op with
      | none => .next s
      | some o =>
          if o.done then .next s else
            match s.turnedAway o mask with
            | some s => .next s
            | none =>
            match o.body with
            | .load dst ps =>
                let s := s.landLoad tk t o dst ps mask
                if ((s.team? tk).map fun t => t.opLive op).getD false then .next s else .next (s.unblock tk op)
            | .wait .. => .next (s.landWait tk t o)
            | .land ws f => .next (s.landWrites tk t o ws f)
            | .qmma .. => .next (s.landQmma tk t o)
            | _ => .next s

/-- STORE_PERFORM: a store performs for the lanes of a mask, and its visibility time joins VMAX (R133, R134). -/
def execStorePerform (tk op : Nat) (mask : U32) (s : State) : Out :=
  match s.team? tk with
  | none => .next s
  | some t =>
      match t.op? op with
      | none => .next s
      | some o =>
          if o.done then .next s else
            match s.turnedAway o mask with
            | some s => .next s
            | none =>
            match o.body with
            | .store ps => .next (s.performStore tk o ps mask)
            | .range inv rs => .next (s.performRanges tk o inv rs)
            | .post image spots stage => .next (s.performPost tk t o image spots stage)
            | .fred .. => .next (s.sendFred tk t o)
            | .fmc .. => .next (s.sendFmc tk t o)
            | _ => .next s

/-- Polls the words of a wait whose 256 cycles have passed (R140). -/
def pollWords (s0 : State) (t : Team) (o : Op) (cc : Cmp) (dbl : Bool) : List Nat → List WaitPart → State → List WaitPart × State
  | [], ps, s => (ps, s)
  | k :: ks, ps, s =>
      let due := ps.any fun p => p.key == k && p.polls && p.got.isNone && (p.lastPoll == 0 || decide (s0.clk.cycle ≥ p.lastPoll + 256)) && s.crosses k (waitBits dbl / 8) 0
      if !due then pollWords s0 t o cc dbl ks ps s
      else
        let n := waitBits dbl / 8
        let (bs, s) := s.readWait t o ps k n
        let ps := ps.map fun p => if p.key = k then { p with lastPoll := s0.clk.cycle } else p
        pollWords s0 t o cc dbl ks (satisfyParts cc dbl k (ofBytes bs) ps) s

/-- MONITOR_POLL: a wait without a monitor reads its words again (R140). -/
def execMonitorPoll (tk op : Nat) (s : State) : Out :=
  match s.team? tk with
  | none => .next s
  | some t =>
      match t.op? op with
      | none => .next s
      | some o =>
          match o.body with
          | .wait sr vr cc dbl ps =>
              if o.done then .next s else
              match s.turnedAway o 0 with
              | some s => .next s
              | none =>
                let (ps, s) := pollWords s t o cc dbl (distinct (ps.map (·.key))) ps s
                .next (s.modTeam tk fun t => t.modOp op fun o => { o with body := .wait sr vr cc dbl ps })
          | _ => .next s

/-- A member that waits at a barrier goes on: its SBARW or BARW completes, and its later accesses come after what the arrivals came after (R155,
R208, R284). -/
def State.passBarrier (s : State) (tk bar : Nat) (w : BarWait) : State :=
  match s.team? tk with
  | none => s
  | some t =>
      match w.who with
      | none => (s.setTeam tk (t.holdBehind none 0 (t.bar bar).doneIds)).retireRider tk
      | some (g, sp) =>
          match t.group? g with
          | some x => (s.setTeam tk (t.holdBehind (some g) (x.split sp).mask (t.bar bar).doneIds)).retireLane tk g sp ((x.split sp).lpc + 1) w.lanes
          | none => s

/-- BARRIER_PHASE_COMPLETE: the test at the end of a cycle, once all that falls in it has been applied, holds; the phase toggles, and the waits on this
barrier complete in that cycle (R139, R208). -/
def execBarrierPhaseComplete (tk bar : Nat) (s : State) : Out :=
  match s.team? tk with
  | none => .next s
  | some t =>
      let b := t.bar bar
      if !s.clk.ending || !b.due || b.last == some s.clk.cycle then .next s
      else
        let t := t.setBar bar (b.complete s.clk.cycle)
        let (done, rest) := t.barWaits.partition fun (w : BarWait) => w.bar == bar
        .next (done.foldl (fun s w => s.passBarrier tk bar w) (s.setTeam tk { t with barWaits := rest }))

/-- LEASE_EXPIRE: copies whose lease has run out are stale, and a grant in the past is no longer unexpired (R132, R133). -/
def execLeaseExpire (s : State) : Out :=
  let now := s.lease
  .next { s with coh := { s.coh with
    rdc := s.coh.rdc.filter fun c => match c.expiry with
      | some e => decide (now < e)
      | none => true
    granted := s.coh.granted.filter fun g => decide (now < g.2)
    relV := s.coh.relV.filter fun g => decide (now < g.2) } }

end Sys2Proof.Machine
end

