-- ==== Sys2Proof/Machine/LaneControl.lean ====
section
/-!
DEFINITION. Machine/LaneControl.lean: splits, frames and the stack of a group, and the lane control instructions
(R94 to R116, R236 to R238).
The frames of a group are handled as one list by absolute depth, oldest first: the first `low` of them lie in the spill area.
-/
namespace Sys2Proof.Machine

/-- The control state of a group while an instruction changes it. -/
structure Ctl where
  frames : List Frame
  splits : List Split
  /-- frames in the spill area -/
  low : Nat
  /-- frames popped -/
  pops : Nat := 0
  deriving DecidableEq, Repr

def Ctl.frame (c : Ctl) (k : Nat) : Option Frame := c.frames[k]?
def Ctl.split (c : Ctl) (sp : Nat) : Split := nth c.splits {} sp
def Ctl.setFrame (c : Ctl) (k : Nat) (f : Frame → Frame) : Ctl := { c with frames := modNth f k c.frames }
def Ctl.setSplit (c : Ctl) (sp : Nat) (f : Split → Split) : Ctl := { c with splits := modNth f sp c.splits }

/-- Frames on chip. -/
def Ctl.onChip (c : Ctl) : Nat := c.frames.length - c.low

/-- A depth after frame k is gone: younger frames move down, and what named it names its parent (R106). -/
def renumber (k : Nat) (parent : Option Nat) : Option Nat → Option Nat
  | none => none
  | some j => if j = k then parent else if k < j then some (j - 1) else some j

/-- Pops frame k. -/
def Ctl.pop (c : Ctl) (k : Nat) : Ctl :=
  match c.frame k with
  | none => c
  | some f =>
      { frames := (c.frames.eraseIdx k).map fun g => { g with parent := renumber k f.parent g.parent }
        splits := c.splits.map fun y => { y with frm := renumber k f.parent y.frm }
        low := if k < c.low then c.low - 1 else c.low
        pops := c.pops + 1 }

/-- Pushes a frame, the youngest. -/
def Ctl.push (c : Ctl) (f : Frame) : Ctl := { c with frames := c.frames ++ [f] }

/-- The lowest free entry of the split table. -/
def Ctl.freeEntry (c : Ctl) : Option Nat := firstIdx (fun y => y.st == .free) c.splits

/-- Frame k merges: the lowest parked split of the frame, or else the split whose leaving completed the merge, runs with all
its lanes; the frame is popped (R102). -/
def Ctl.merge (c : Ctl) (k leaver : Nat) : Ctl :=
  match c.frame k with
  | none => c
  | some f =>
      let mine (y : Split) : Bool := y.st == .park && y.frm == some k
      let take := (firstIdx mine c.splits).getD leaver
      let merged : Split := { st := .run, frm := f.parent, lpc := f.rpc, mask := f.full, fmt := f.fmt }
      let splits := (List.range 4).map fun i =>
        let y := nth c.splits {} i
        if i = take then merged else if mine y then {} else y
      { c with splits := splits }.pop k

/-- The split re-pointed to the deferred lanes of a SERIAL frame (R102, R103). -/
def Ctl.repoint (c : Ctl) (k sp : Nat) : Ctl :=
  match c.frame k with
  | none => c
  | some f =>
      (c.setSplit sp fun _ => { st := .run, frm := some k, lpc := f.dpc, mask := f.dmask, fmt := f.fmt }).setFrame k fun f => { f with dmask := 0 }

/-- A split reaches the RPC of its innermost frame (R102). -/
def Ctl.reach (c : Ctl) (sp : Nat) : Ctl :=
  let y := c.split sp
  match y.frm with
  | none => c
  | some k =>
      match c.frame k with
      | none => c
      | some f =>
          let c := c.setFrame k fun f => { f with park := f.park ||| y.mask }
          if f.kind = .serial ∧ f.dmask ≠ 0 then c.repoint k sp
          else
            let c := c.setSplit sp fun y => { y with st := .park }
            if f.park ||| y.mask = f.full then c.merge k sp else c

/-- Lanes leave frame k (R103). Answers whether the executing split took other lanes. -/
def Ctl.leaveOne (c : Ctl) (k sp : Nat) (lanes : U32) : Ctl × Bool :=
  let c := c.setFrame k fun f => { f with full := f.full &&& ~~~lanes, park := f.park &&& ~~~lanes, dmask := f.dmask &&& ~~~lanes }
  match c.frame k with
  | none => (c, false)
  | some f =>
      if f.full = 0 then (c.pop k, false)
      else if f.park = f.full then
        let parked := c.splits.any fun y => y.st == .park && y.frm == some k
        (c.merge k sp, !parked)
      else if f.kind = .serial ∧ f.dmask ≠ 0 ∧ f.full &&& ~~~(f.park ||| f.dmask) = 0 then (c.repoint k sp, true)
      else (c, false)

/-- The chain of frames from a depth outward. -/
def chainFrom (frames : List Frame) : Nat → Option Nat → List Nat
  | 0, _ => []
  | _, none => []
  | fuel + 1, some k => k :: match frames[k]? with
    | some f => chainFrom frames fuel f.parent
    | none => []

/-- Lanes leave a list of frames, innermost first. A frame popped on the way stands above the ones still to come. -/
def Ctl.leave (sp : Nat) (lanes : U32) : List Nat → Ctl → Bool → Ctl × Bool
  | [], c, taken => (c, taken)
  | k :: ks, c, taken =>
      let (c, t) := c.leaveOne k sp lanes
      Ctl.leave sp lanes ks c (taken || t)

/-! The spill area (R109, R111). -/

/-- Address of the frame of depth k of group g. -/
def spillAddr (t : Team) (g k : Nat) : Nat := t.spillBase.toNat + 8192 * g + 32 * k

/-- Reads the frames of depths `ks` from the spill area; or the fault and its address. -/
def readSpilled (t : Team) (g : Nat) : List Nat → State → Except (Cause × Nat) (List (Nat × Frame)) × State
  | [], s => (.ok [], s)
  | k :: ks, s =>
      let va := spillAddr t g k
      let (r, s) := s.readVa (some t.core) t.root va 32
      match r with
      | .error c => (.error (c, va), s)
      | .ok bs =>
          match readSpilled t g ks s with
          | (.ok l, s) => (.ok ((k, frameOf bs) :: l), s)
          | (.error e, s) => (.error e, s)

/-- Writes frames to the spill area: every place is translated before the first is written. -/
def spillSpots (t : Team) (g : Nat) : List (Nat × Frame) → State → Except (Cause × Nat) (List (List (Nat × Nat) × List Byte)) × State
  | [], s => (.ok [], s)
  | (k, f) :: l, s =>
      let va := spillAddr t g k
      let (r, s) := s.spots (some t.core) t.root va 32 .write
      match r with
      | .error c => (.error (c, va), s)
      | .ok sp =>
          match spillSpots t g l s with
          | (.ok q, s) => (.ok ((sp, frameBytes f) :: q), s)
          | (.error e, s) => (.error e, s)

def writeSpilled (t : Team) (g : Nat) (fs : List (Nat × Frame)) (s : State) : Except (Cause × Nat) Unit × State :=
  let (r, s) := spillSpots t g fs s
  match r with
  | .error e => (.error e, s)
  | .ok l => (.ok (), l.foldl (fun s p => (s.writeSpots (some (s.dieOf t.core)) p.1 p.2).1) s)

/-- A frame that stands for one still in the spill area and not read. -/
def unreadFrame : Frame := { kind := .call, owner := 0, parent := none, rpc := 0, full := 0, fmt := 0 }

/-- The control state of a group, with the spilled frames read when `all`. -/
def openCtl (t : Team) (g : Nat) (x : Group) (all : Bool) (s : State) : Except (Cause × Nat) Ctl × State :=
  let mk (low : List Frame) : Ctl := { frames := low ++ x.frames, splits := x.splits, low := x.spilled }
  if all && x.spilled > 0 then
    let (r, s) := readSpilled t g (List.range x.spilled) s
    (r.map fun l => mk (l.map (·.2)), s)
  else (.ok (mk (List.replicate x.spilled unreadFrame)), s)

/-- Takes over another state of the frames and splits. A split that this makes RUN, or points elsewhere, issues from the next cycle on
(R101, R102). -/
def Group.withFrames (x y : Group) : Group :=
  let moved := (List.range 4).filter fun i => (y.split i).st == .run && x.split i != y.split i
  { x with frames := y.frames, spilled := y.spilled, spilledRpc := y.spilledRpc, splits := y.splits, tried := distinct (x.tried ++ moved) }

/-- Puts a changed control state back: frames in the spill area that changed are stored, and one spilled frame is read back
for each frame popped, while there is room on chip (R111). On a fault nothing has changed. -/
def closeCtl (t : Team) (g : Nat) (x : Group) (c0 c : Ctl) (loaded : Bool) (s : State) : Except (Cause × Nat) Group × State :=
  let low := c.low - min (min c.pops c.low) (16 - c.onChip)
  let back := (List.range (c.low - low)).map (· + low)
  let (r, s) := if loaded || back.isEmpty then (Except.ok [], s) else readSpilled t g back s
  match r with
  | .error e => (.error e, s)
  | .ok got =>
      let frames := got.foldl (fun fs p => modNth (fun _ => p.2) p.1 fs) c.frames
      let changed := ((List.range low).filter fun k => frames[k]? != c0.frames[k]?).filterMap fun k => frames[k]?.map fun f => (k, f)
      let (w, s) := if loaded then writeSpilled t g changed s else (.ok (), s)
      match w with
      | .error e => (.error e, s)
      | .ok _ =>
          let rpcs := if loaded then (frames.take low).map (·.rpc) else x.spilledRpc
          (.ok (x.withFrames { x with frames := frames.drop low, spilled := low, spilledRpc := rpcs, splits := c.splits }), s)

/-- An instruction that changes the control state: it retires for the lanes of its split, and the group becomes `f`. -/
def LaneEnv.control (e : LaneEnv) (s : State) (f : Group → Group) : Out :=
  .next (s.retireWith e.tk e.g e.sp e.split.mask e.act f)

/-- The split goes on at an LPC. -/
def LaneEnv.goto (e : LaneEnv) (lpc : BitVec 24) : Out := e.control e.s fun x => x.modSplit e.sp fun y => { y with lpc := lpc }

/-! Branches (R97 to R101, R114 to R116). -/

/-- A divergent branch in STACK mode: T goes to `target`, N goes on at `other` (R101). -/
def Ctl.diverge (c : Ctl) (sp : Nat) (t : U32) (target other rpc : BitVec 24) : Ctl × Nat :=
  let y := c.split sp
  let n := y.mask &&& ~~~t
  let depth := c.frames.length
  let f : Frame := { kind := .join, owner := sp, parent := y.frm, rpc := rpc, full := y.mask, fmt := y.fmt }
  match c.freeEntry with
  | some j =>
      let c := c.push f
      let c := c.setSplit sp fun y => { y with mask := n, lpc := other, frm := some depth }
      (c.setSplit j fun _ => { st := .run, frm := some depth, lpc := target, mask := t, fmt := y.fmt }, j)
  | none =>
      let c := c.push { f with kind := .serial, dpc := other, dmask := n }
      (c.setSplit sp fun y => { y with mask := t, lpc := target, frm := some depth }, sp)

/-- The group's control state as a Ctl that reads nothing. -/
def Group.ctl (x : Group) : Ctl := { frames := List.replicate x.spilled unreadFrame ++ x.frames, splits := x.splits, low := x.spilled }
/-- Puts back a control state from which nothing was popped. -/
def Group.withCtl (x : Group) (c : Ctl) : Group := x.withFrames { x with frames := c.frames.drop x.spilled, splits := c.splits }

/-- A divergent branch of a split, or its trap (R101, R108). -/
def LaneEnv.divergeTo (e : LaneEnv) (t : U32) (target other rpc : BitVec 24) : Out :=
  if e.x.frames.length ≥ 16 then e.trap .stackOverflow (lowestLane e.split.mask)
  else e.control e.s fun x => x.withCtl (x.ctl.diverge e.sp t target other rpc).1

/-- Runs a change of the control state that may pop frames; a fault of the spill area traps precisely (R111). -/
def LaneEnv.unwind (e : LaneEnv) (chain : List Nat) (f : Ctl → Ctl) (g : State → Group → Out) : Out :=
  let loaded := chain.any fun k => decide (k < e.x.spilled)
  let (r, s) := openCtl e.t e.g e.x loaded e.s
  match r with
  | .error (c, va) => .next (laneTrap s e.tk e.g e.sp e.split.lpc c (lowestLane e.split.mask) (BitVec.ofNat 64 va))
  | .ok c0 =>
      let (q, s) := closeCtl e.t e.g e.x c0 (f c0) loaded s
      match q with
      | .error (c, va) => .next (laneTrap s e.tk e.g e.sp e.split.lpc c (lowestLane e.split.mask) (BitVec.ofNat 64 va))
      | .ok x => g s x

/-- The frames of a split from the innermost outward. Depths below those on chip are followed in the spill area. -/
def LaneEnv.chain (e : LaneEnv) : Except (Cause × Nat) (List Nat × List Frame) :=
  let on := chainFrom (List.replicate e.x.spilled unreadFrame ++ e.x.frames) (e.x.frames.length + e.x.spilled) e.split.frm
  if on.any fun k => decide (k < e.x.spilled) then
    match (openCtl e.t e.g e.x true e.s).1 with
    | .error x => .error x
    | .ok c => .ok (chainFrom c.frames c.frames.length e.split.frm, c.frames)
  else .ok (on, List.replicate e.x.spilled unreadFrame ++ e.x.frames)

/-- A divergent BRA in COUNT mode (R114, R116): `t` are the enabled lanes that take it. -/
def LaneEnv.countBranch (e : LaneEnv) (t : U32) (target : BitVec 24) : Out :=
  let lpc := e.split.lpc
  if target ≤ lpc then e.goto target
  else
    let disabled := (lanesOf e.x.live).filter fun l => e.x.ncOf l != 0
    let isOver := disabled.filter fun l => e.x.ncOf l == 255
    if !isOver.isEmpty then
      -- the lanes leave every frame and stop being live, as under EXITL (R116)
      let gone := maskOf isOver
      match e.chain with
      | .error (c, va) => e.trap c (lowestLane e.split.mask) (BitVec.ofNat 64 va)
      | .ok (ks, _) =>
          e.unwind ks (fun c => ((Ctl.leave e.sp gone ks c false).1).setSplit e.sp fun y => { y with mask := y.mask &&& ~~~gone }) fun s x =>
            let s := s.modGroup e.tk e.g fun z =>
              { z.withFrames x with live := z.live &&& ~~~gone }
            .next (laneTrap s e.tk e.g e.sp lpc .nestOverflow (lowestLane gone))
    else
      let nc := disabled.foldl (fun m l => sparseSet 0 l (e.x.ncOf l + 1) m) e.x.nc
      let nc := (lanesOf t).foldl (fun m l => sparseSet 0 l 1 m) nc
      e.control e.s fun x => { (x.modSplit e.sp fun y => { y with lpc := lpc + 1 }) with nc := nc }

/-- Lanes among which a branch divides: the split's, or the enabled ones in COUNT mode. -/
def LaneEnv.branchLanes (e : LaneEnv) : U32 := if e.t.desc.count then enabledMask e.t e.x e.sp else e.split.mask

/-- A BRA whose reconvergence offset is not a join (R97, R98, R101, R114). DESIGN CHOICE (log entry 10): where no lane is enabled, T and N are
both empty, and R98 names both LPC + 1 and the target; the group continues at LPC + 1. -/
def LaneEnv.branch (e : LaneEnv) (toff : BitVec 23) (rpc : Option (BitVec 24)) : Out :=
  let lpc := e.split.lpc
  let target := lpc + toff.signExtend 24
  let n := e.branchLanes &&& ~~~e.act
  if e.act = 0 then e.goto (lpc + 1)
  else if n = 0 then e.goto target
  else if e.t.desc.count then e.countBranch e.act target
  else
    match rpc with
    | none => e.trap .illegal (lowestLane e.split.mask)
    | some r => e.divergeTo e.act target (lpc + 1) r

def execBra (o : LaneOps) (toff : BitVec 23) (roff : BitVec 18) (s : State) : Out :=
  laneRun (.bra o toff roff) s fun e => e.branch toff (some (e.split.lpc + roff.signExtend 24))

/-- BRA.join: in COUNT mode every live lane's counter falls by one (R115); in STACK mode an ordinary BRA with roff = 0. -/
def execBraJoin (o : LaneOps) (toff : BitVec 23) (s : State) : Out :=
  laneRun (.braJoin o toff) s fun e =>
    if !e.t.desc.count then e.branch toff none
    else if o.g ≠ .always then e.trap .illegal (lowestLane e.split.mask)
    else
      let nc := (lanesOf e.x.live).foldl (fun m l => sparseSet 0 l (e.x.ncOf l - 1) m) e.x.nc
      let target := e.split.lpc + toff.signExtend 24
      e.control e.s fun x => { (x.modSplit e.sp fun y => { y with lpc := target }) with nc := nc }

/-- BRX splits off the target of the lowest lane; the other lanes execute it again (R99). -/
def execBrx (o : LaneOps) (roff : BitVec 18) (s : State) : Out :=
  laneRun (.brx o roff) s fun e =>
    let lpc := e.split.lpc
    let target (l : Nat) : BitVec 24 := (e.val l o.a).setWidth 24
    let t0 := target (lowestLane e.branchLanes)
    let t := maskOf ((lanesOf e.branchLanes).filter fun l => target l == t0)
    if t = 0 then e.goto (lpc + 1)
    else if t = e.branchLanes then e.goto t0
    else if e.t.desc.count then e.trap .illegal (lowestLane e.split.mask)
    else if roff = 0 then e.trap .illegal (lowestLane e.split.mask)
    else e.divergeTo t t0 lpc (lpc + roff.signExtend 24)

/-! CALL and RET (R107, R113). -/

def execCall (o : LaneOps) (toff : BitVec 23) (s : State) : Out :=
  laneRun (.call o toff) s fun e =>
    let y := e.split
    let next := y.lpc + 1
    let target := y.lpc + toff.signExtend 24
    let n := e.branchLanes &&& ~~~e.act
    let isOver : Out := e.trap .stackOverflow (lowestLane y.mask)
    if e.act = 0 then e.goto next
    else if e.t.desc.count then
      if n ≠ 0 then e.trap .illegal (lowestLane y.mask)
      else if e.x.frames.length ≥ 16 then isOver
      else e.control e.s fun x =>
        let c := x.ctl.push { kind := .call, owner := e.sp, parent := y.frm, rpc := next, full := x.live, fmt := y.fmt }
        x.withCtl (c.setSplit e.sp fun y => { y with lpc := target, frm := some x.ctl.frames.length })
    else if n = 0 then
      if e.x.frames.length ≥ 16 then isOver
      else e.control e.s fun x =>
        let c := x.ctl.push { kind := .call, owner := e.sp, parent := y.frm, rpc := next, full := y.mask, fmt := y.fmt }
        x.withCtl (c.setSplit e.sp fun y => { y with lpc := target, frm := some x.ctl.frames.length })
    else if e.x.frames.length ≥ 15 then isOver
    else e.control e.s fun x =>
      let depth := x.ctl.frames.length
      let (c, j) := x.ctl.diverge e.sp e.act target next next
      let c := c.push { kind := .call, owner := e.sp, parent := some depth, rpc := next, full := e.act, fmt := y.fmt }
      x.withCtl (c.setSplit j fun z => { z with frm := some (depth + 1) })

/-- After the lanes of a whole or part of a split have left their frames. -/
def Ctl.afterLeave (c : Ctl) (sp : Nat) (lanes : U32) (whole taken : Bool) : Ctl :=
  if taken then c
  else if whole then c.setSplit sp fun _ => {}
  else c.setSplit sp fun y => { y with mask := y.mask &&& ~~~lanes, lpc := y.lpc + 1 }

/-- RET of the ACTIVE lanes in STACK mode: `k` is the innermost CALL frame of the chain, `above` the frames before it. A whole split whose CALL frame
lies in the spill area stands at its RPC, where it waits for the frame (R107, R111). -/
def Ctl.ret (c : Ctl) (sp : Nat) (lanes : U32) (whole : Bool) (above : List Nat) (k : Nat) : Ctl :=
  -- frames above the CALL frame are younger, so its depth stands
  let (c, taken) := Ctl.leave sp lanes above c false
  let f := (c.frame k).getD unreadFrame
  let c := if k < c.low then c else c.setFrame k fun f => { f with park := f.park ||| lanes }
  let c :=
    if taken then c
    else if whole then c.setSplit sp fun y => { y with st := if k < c.low then .run else .park, frm := some k, lpc := f.rpc }
    else c.setSplit sp fun y => { y with mask := y.mask &&& ~~~lanes, lpc := y.lpc + 1 }
  if c.low ≤ k ∧ f.park ||| lanes = f.full then c.merge k sp else c

/-- The youngest spilled frame of a group returns to the chip, while there is room (R111); or the fault of reading it. -/
def refillFrame (t : Team) (g : Nat) (x : Group) (s : State) : Option (Except (Cause × Nat) Group × State) :=
  if x.spilled = 0 ∨ 16 ≤ x.frames.length then none
  else
    match readSpilled t g [x.spilled - 1] s with
    | (.ok l, s) => some (.ok { x with frames := l.map (·.2) ++ x.frames, spilled := x.spilled - 1, spilledRpc := x.spilledRpc.take (x.spilled - 1) }, s)
    | (.error e, s) => some (.error e, s)

/-- An instruction whose frame lies in the spill area waits for it: a frame returns in this turn, or none while the chip is full (R111). -/
def LaneEnv.refill (e : LaneEnv) : Out :=
  match refillFrame e.t e.g e.x e.s with
  | none => stay e.s
  | some (.ok x, s) => .next (s.modGroup e.tk e.g fun _ => x)
  | some (.error (c, va), s) => .next (laneTrap s e.tk e.g e.sp e.split.lpc c (lowestLane e.split.mask) (BitVec.ofNat 64 va))

/-- A RET must have its CALL frame `k` on chip: in COUNT mode, which pops it, and where no split is left to wait for it at its RPC. -/
def LaneEnv.retNeeds (e : LaneEnv) (above : List Nat) (k : Nat) : Bool :=
  decide (k < e.x.spilled) && (e.t.desc.count || e.act != e.split.mask || match (openCtl e.t e.g e.x true e.s).1 with
    | .ok c => (Ctl.leave e.sp e.act above c false).2
    | .error _ => false)

def execRet (o : LaneOps) (s : State) : Out :=
  laneRun (.ret o) s fun e =>
    let y := e.split
    let illegal : Out := e.trap .illegal (lowestLane y.mask)
    if e.act = 0 then e.goto (y.lpc + 1)
    else
      match e.chain with
      | .error (c, va) => e.trap c (lowestLane y.mask) (BitVec.ofNat 64 va)
      | .ok (ks, fs) =>
          let isCall (k : Nat) : Bool := match fs[k]? with
            | some f => f.kind == .call
            | none => false
          match ks.find? isCall with
          | none => illegal
          | some k =>
              let above := ks.takeWhile fun j => !isCall j
              if e.t.desc.count ∧ e.act ≠ e.branchLanes then illegal
              else if e.retNeeds above k then e.refill
              else if e.t.desc.count then
                let f := (fs[k]?).getD unreadFrame
                e.unwind [k] (fun c => (c.pop k).setSplit e.sp fun y => { y with lpc := f.rpc, frm := f.parent })
                  fun s x => e.control s fun z => z.withFrames x
              else
                e.unwind (k :: above) (fun c => c.ret e.sp e.act (e.act == y.mask) above k)
                  fun s x => e.control s fun z => z.withFrames x

/-! ENDB and EXITL (R95, R103). -/

/-- A block ends when every live lane waits at block end (R95); a group without live lanes ends. -/
def Team.blockEnd (t : Team) (g : Nat) : Team :=
  match t.group? g with
  | none => t
  | some x =>
      if x.live = 0 then t.endGroup g
      else if x.atEnd &&& x.live = x.live then
        (t.modGroup g fun x => { x with atEnd := 0, splits := [{}, {}, {}, {}], frames := [], spilled := 0, nc := [] }).settle
      else t

/-- The ACTIVE lanes leave every frame, and stop being live or wait at block end. -/
def LaneEnv.finish (e : LaneEnv) (exit : Bool) : Out :=
  let y := e.split
  if e.act = 0 then e.goto (y.lpc + 1)
  else
    match e.chain with
    | .error (c, va) => e.trap c (lowestLane y.mask) (BitVec.ofNat 64 va)
    | .ok (ks, _) =>
        e.unwind ks (fun c =>
            let (c, taken) := Ctl.leave e.sp e.act ks c false
            c.afterLeave e.sp e.act (e.act == y.mask) taken)
          fun s x =>
            let s := s.retireWith e.tk e.g e.sp y.mask e.act fun z =>
              { z.withFrames x with
                       live := if exit then z.live &&& ~~~e.act else z.live, atEnd := if exit then z.atEnd else z.atEnd ||| e.act }
            .next (s.modTeam e.tk fun t => t.blockEnd e.g)

def execEndb (o : LaneOps) (s : State) : Out := laneRun (.endb o) s fun e => e.finish e.x.spawned
def execExitl (o : LaneOps) (s : State) : Out := laneRun (.exitl o) s fun e => e.finish true

/-! NOPL, FMTL and YIELDL (R236 to R238). -/

def execNopl (o : LaneOps) (s : State) : Out := laneRun (.nopl o) s fun e => e.skip

/-- FMTL reads its operand from the lowest ACTIVE lane (R237). -/
def execFmtl (o : LaneOps) (s : State) : Out :=
  laneRun (.fmtl o) s fun e =>
    if e.act = 0 then e.skip
    else e.done (e.x.modSplit e.sp fun y => { y with fmt := e.val e.low o.b &&& 0xFFFFF })

/-- YIELDL: the split is not ready for its next 4 yield cycles, which follow the one it issues in (R238). -/
def execYieldl (o : LaneOps) (s : State) : Out :=
  laneRun (.yieldl o) s fun e => if e.act = 0 then e.skip else e.done (e.x.modSplit e.sp fun y => { y with hold := some 5 })

/-- The yield cycles of a split have passed. -/
def execYieldlExpire (tk g sp : Nat) (s : State) : Out :=
  match s.team? tk with
  | none => stay s
  | some t =>
      match t.group? g with
      | none => stay s
      | some x =>
          if (x.split sp).hold = some 0 then .next (s.modGroup tk g fun x => x.modSplit sp fun y => { y with hold := none }) else stay s

/-! Events of the rein queues and of the stack. -/

/-- An idle rein-fed group takes the head of its rein queue and starts split 0 (R94); an entry written in this cycle is not yet its head
(R204). -/
def execReinDequeue (tk g : Nat) (s : State) : Out :=
  match s.team? tk with
  | none => stay s
  | some t =>
      match t.group? g with
      | none => stay s
      | some x =>
          match x.rein with
          | [] => stay s
          | r :: rest =>
              if x.spawned || x.ended || x.halted || !x.idle || s.stopped t || r.wrote == some s.clk.cycle || r.deps.any t.opLive then stay s
              else .next (s.modGroup tk g fun x =>
                { x with rein := rest, fbase := r.fbase, atEnd := 0, nc := [], frames := [], spilled := 0, tried := List.range 4,
                         splits := [{ st := .run, frm := none, lpc := r.lpc, mask := x.live, fmt := r.fmt }, {}, {}, {}] })

/-- RPC of a split's innermost frame; where the frame lies in the spill area it is read there, or, where that fails, is the one it was spilled
with, so that the refill it calls for takes the fault (R111). -/
def frameRpc (s : State) (t : Team) (g : Nat) (x : Group) (k : Nat) : Option (BitVec 24) :=
  if k < x.spilled then
    match (readSpilled t g [k] s).1 with
    | .ok [(_, f)] => some f.rpc
    | _ => x.spilledRpc[k]?
  else (x.frames[k - x.spilled]?).map (·.rpc)

/-- In STACK mode, a RUN split stands at the RPC of its innermost frame (R102). DESIGN CHOICE (log entry 37): in COUNT mode, where R113 says that a
RET pops the CALL frame, arriving at a CALL frame's RPC without a RET does nothing. -/
def atRpc (s : State) (t : Team) (g : Nat) (x : Group) (sp : Nat) : Bool :=
  let y := x.split sp
  !t.desc.count && y.st == .run && match y.frm with
    | some k => frameRpc s t g x k == some y.lpc
    | none => false

/-- A split that stands at the RPC of its innermost frame parks, merges or is re-pointed; a fault of a refill that its pop
calls for is taken at the RPC (R102, R111). -/
def execSplitReachRpc (tk g sp : Nat) (s : State) : Out :=
  match s.team? tk with
  | none => stay s
  | some t =>
      match t.group? g with
      | none => stay s
      | some x =>
          let y := x.split sp
          let onChip := match y.frm with
            | some k => decide (x.spilled ≤ k)
            | none => false
          if !atRpc s t g x sp || !onChip || x.halted || x.ended || s.stopped t then stay s
          else
            let c0 := x.ctl
            match closeCtl t g x c0 (c0.reach sp) false s with
            | (.error (c, va), s) => .next (laneTrap s tk g sp y.lpc c (lowestLane y.mask) (BitVec.ofNat 64 va))
            | (.ok x', s) => .next (s.modGroup tk g fun _ => x')

/-- A split waits at the RPC of a frame that is spilled. -/
def refillWanted (s : State) (t : Team) (g : Nat) (x : Group) : Option Nat :=
  (List.range 4).find? fun sp => atRpc s t g x sp && (match (x.split sp).frm with
    | some k => decide (k < x.spilled)
    | none => false)

/-- The youngest spilled frame returns to the chip, on demand (R111). -/
def execStackRefill (tk g : Nat) (s : State) : Out :=
  match s.team? tk with
  | none => stay s
  | some t =>
      match t.group? g with
      | none => stay s
      | some x =>
          match refillWanted s t g x with
          | none => stay s
          | some sp =>
              if x.halted || x.ended || s.stopped t then stay s
              else
                match refillFrame t g x s with
                | none => stay s
                | some (.ok x, s) => .next (s.modGroup tk g fun _ => x)
                | some (.error (c, va), s) =>
                    .next (laneTrap s tk g sp (x.split sp).lpc c (lowestLane (x.split sp).mask) (BitVec.ofNat 64 va))

end Sys2Proof.Machine
end

