-- ==== Sys2Proof/Machine/Dispatch.lean ====
section
/-!
DEFINITION. Machine/Dispatch.lean: one arm per constructor of Instr: a direct call of its meaning.
-/
namespace Sys2Proof.Machine

/-- What an instruction, event or command does to the machine. -/
def exec (i : Instr) (s : State) : Host.Outcome State Fault Refusal :=
  match i with
  | .sadd d a b => Sys2Proof.Machine.execSadd d a b s
  | .ssub d a b => Sys2Proof.Machine.execSsub d a b s
  | .smul d a b => Sys2Proof.Machine.execSmul d a b s
  | .smulh d a b => Sys2Proof.Machine.execSmulh d a b s
  | .smulhU d a b => Sys2Proof.Machine.execSmulhU d a b s
  | .sdiv d a b => Sys2Proof.Machine.execSdiv d a b s
  | .sdivU d a b => Sys2Proof.Machine.execSdivU d a b s
  | .srem d a b => Sys2Proof.Machine.execSrem d a b s
  | .sremU d a b => Sys2Proof.Machine.execSremU d a b s
  | .sand d a b => Sys2Proof.Machine.execSand d a b s
  | .sor d a b => Sys2Proof.Machine.execSor d a b s
  | .sxor d a b => Sys2Proof.Machine.execSxor d a b s
  | .sshl d a b => Sys2Proof.Machine.execSshl d a b s
  | .sshr d a b => Sys2Proof.Machine.execSshr d a b s
  | .ssra d a b => Sys2Proof.Machine.execSsra d a b s
  | .smin d a b => Sys2Proof.Machine.execSmin d a b s
  | .sminU d a b => Sys2Proof.Machine.execSminU d a b s
  | .smax d a b => Sys2Proof.Machine.execSmax d a b s
  | .smaxU d a b => Sys2Proof.Machine.execSmaxU d a b s
  | .spopc d a => Sys2Proof.Machine.execSpopc d a s
  | .sclz d a => Sys2Proof.Machine.execSclz d a s
  | .scmp cc q a b => Sys2Proof.Machine.execScmp cc q a b s
  | .ssel q d a b => Sys2Proof.Machine.execSsel q d a b s
  | .saddi d a imm => Sys2Proof.Machine.execSaddi d a imm s
  | .sandi d a imm => Sys2Proof.Machine.execSandi d a imm s
  | .sori d a imm => Sys2Proof.Machine.execSori d a imm s
  | .sxori d a imm => Sys2Proof.Machine.execSxori d a imm s
  | .sshli d a sh => Sys2Proof.Machine.execSshli d a sh s
  | .sshri d a sh => Sys2Proof.Machine.execSshri d a sh s
  | .ssrai d a sh => Sys2Proof.Machine.execSsrai d a sh s
  | .slui d imm => Sys2Proof.Machine.execSlui d imm s
  | .sli d hi lo => Sys2Proof.Machine.execSli d hi lo s
  | .sjmp off => Sys2Proof.Machine.execSjmp off s
  | .scall d off => Sys2Proof.Machine.execScall d off s
  | .sjmpr d a imm => Sys2Proof.Machine.execSjmpr d a imm s
  | .sret a => Sys2Proof.Machine.execSret a s
  | .sbr neg q off => Sys2Proof.Machine.execSbr neg q off s
  | .sld sz d a b k sc => Sys2Proof.Machine.execSld sz d a b k sc s
  | .sst sz d a b k sc => Sys2Proof.Machine.execSst sz d a b k sc s
  | .slds sz d a imm => Sys2Proof.Machine.execSlds sz d a imm s
  | .ssts sz d a imm => Sys2Proof.Machine.execSsts sz d a imm s
  | .swaitcmp dbl cc d a b k sc => Sys2Proof.Machine.execSwaitcmp dbl cc d a b k sc s
  | .satom ty op d a b k sc => Sys2Proof.Machine.execSatom ty op d a b k sc s
  | .ldisp a b c => Sys2Proof.Machine.execLdisp a b c s
  | .lwaitg a => Sys2Proof.Machine.execLwaitg a s
  | .setfmt a => Sys2Proof.Machine.execSetfmt a s
  | .swaitp p b => Sys2Proof.Machine.execSwaitp p b s
  | .sbari a b => Sys2Proof.Machine.execSbari a b s
  | .sbara a b => Sys2Proof.Machine.execSbara a b s
  | .sbarw a b => Sys2Proof.Machine.execSbarw a b s
  | .sbarx a b => Sys2Proof.Machine.execSbarx a b s
  | .sfence sc => Sys2Proof.Machine.execSfence sc s
  | .scfence x y => Sys2Proof.Machine.execScfence x y s
  | .yield => Sys2Proof.Machine.execYield s
  | .yieldExpire tk => Sys2Proof.Machine.execYieldExpire tk s
  | .idem => Sys2Proof.Machine.execIdem s
  | .ideme => Sys2Proof.Machine.execIdeme s
  | .chkpt a => Sys2Proof.Machine.execChkpt a s
  | .exit a => Sys2Proof.Machine.execExit a s
  | .stime d => Sys2Proof.Machine.execStime d s
  | .srand d => Sys2Proof.Machine.execSrand d s
  | .syrd d num => Sys2Proof.Machine.execSyrd d num s
  | .sywr num a => Sys2Proof.Machine.execSywr num a s
  | .strap a => Sys2Proof.Machine.execStrap a s
  | .tretRetry => Sys2Proof.Machine.execTretRetry s
  | .tretSkip => Sys2Proof.Machine.execTretSkip s
  | .tretKillg => Sys2Proof.Machine.execTretKillg s
  | .tretKillt => Sys2Proof.Machine.execTretKillt s
  | .brkpt => Sys2Proof.Machine.execBrkpt s
  | .snop => Sys2Proof.Machine.execSnop s
  | .cpy d b => Sys2Proof.Machine.execCpy d b s
  | .cpym d b c => Sys2Proof.Machine.execCpym d b c s
  | .layld d b => Sys2Proof.Machine.execLayld d b s
  | .layinv b => Sys2Proof.Machine.execLayinv b s
  | .tmma a b c => Sys2Proof.Machine.execTmma a b c s
  | .tmmag a b c => Sys2Proof.Machine.execTmmag a b c s
  | .taccZero b => Sys2Proof.Machine.execTaccZero b s
  | .taccScale b => Sys2Proof.Machine.execTaccScale b s
  | .taccAdd b => Sys2Proof.Machine.execTaccAdd b s
  | .taccIadd b => Sys2Proof.Machine.execTaccIadd b s
  | .taccMove b => Sys2Proof.Machine.execTaccMove b s
  | .taccStat d => Sys2Proof.Machine.execTaccStat d s
  | .tepi a b => Sys2Proof.Machine.execTepi a b s
  | .qpost d b c => Sys2Proof.Machine.execQpost d b c s
  | .launch b c => Sys2Proof.Machine.execLaunch b c s
  | .fred b => Sys2Proof.Machine.execFred b s
  | .fmc b => Sys2Proof.Machine.execFmc b s
  | .recmark a => Sys2Proof.Machine.execRecmark a s
  | .haltd a => Sys2Proof.Machine.execHaltd a s
  | .nopl o => Sys2Proof.Machine.execNopl o s
  | .bra o toff roff => Sys2Proof.Machine.execBra o toff roff s
  | .braJoin o toff => Sys2Proof.Machine.execBraJoin o toff s
  | .brx o roff => Sys2Proof.Machine.execBrx o roff s
  | .call o toff => Sys2Proof.Machine.execCall o toff s
  | .ret o => Sys2Proof.Machine.execRet o s
  | .endb o => Sys2Proof.Machine.execEndb o s
  | .exitl o => Sys2Proof.Machine.execExitl o s
  | .fmtl o => Sys2Proof.Machine.execFmtl o s
  | .yieldl o => Sys2Proof.Machine.execYieldl o s
  | .yieldlExpire tk g sp => Sys2Proof.Machine.execYieldlExpire tk g sp s
  | .iadd o => Sys2Proof.Machine.execIadd o s
  | .isub o => Sys2Proof.Machine.execIsub o s
  | .imul o => Sys2Proof.Machine.execImul o s
  | .imulh o => Sys2Proof.Machine.execImulh o s
  | .imad o => Sys2Proof.Machine.execImad o s
  | .imadWide o => Sys2Proof.Machine.execImadWide o s
  | .idiv o => Sys2Proof.Machine.execIdiv o s
  | .irem o => Sys2Proof.Machine.execIrem o s
  | .imin o => Sys2Proof.Machine.execImin o s
  | .imax o => Sys2Proof.Machine.execImax o s
  | .iabs o => Sys2Proof.Machine.execIabs o s
  | .ineg o => Sys2Proof.Machine.execIneg o s
  | .iadds o x => Sys2Proof.Machine.execIadds o x s
  | .isubs o x => Sys2Proof.Machine.execIsubs o x s
  | .icmp o cc acc => Sys2Proof.Machine.execIcmp o cc acc s
  | .pbool o tt => Sys2Proof.Machine.execPbool o tt s
  | .pick o => Sys2Proof.Machine.execPick o s
  | .mov o => Sys2Proof.Machine.execMov o s
  | .movD o => Sys2Proof.Machine.execMovD o s
  | .movi o => Sys2Proof.Machine.execMovi o s
  | .padd2 o => Sys2Proof.Machine.execPadd2 o s
  | .psub2 o => Sys2Proof.Machine.execPsub2 o s
  | .pmac2 o => Sys2Proof.Machine.execPmac2 o s
  | .dot4 o => Sys2Proof.Machine.execDot4 o s
  | .dot8 o => Sys2Proof.Machine.execDot8 o s
  | .land o => Sys2Proof.Machine.execLand o s
  | .lor o => Sys2Proof.Machine.execLor o s
  | .lxor o => Sys2Proof.Machine.execLxor o s
  | .lnot o => Sys2Proof.Machine.execLnot o s
  | .blut o tt => Sys2Proof.Machine.execBlut o tt s
  | .shl o => Sys2Proof.Machine.execShl o s
  | .shr o => Sys2Proof.Machine.execShr o s
  | .sra o => Sys2Proof.Machine.execSra o s
  | .rotl o => Sys2Proof.Machine.execRotl o s
  | .shfd o => Sys2Proof.Machine.execShfd o s
  | .popc o => Sys2Proof.Machine.execPopc o s
  | .clz o => Sys2Proof.Machine.execClz o s
  | .ctz o => Sys2Proof.Machine.execCtz o s
  | .brev o => Sys2Proof.Machine.execBrev o s
  | .bfe o => Sys2Proof.Machine.execBfe o s
  | .bfi o => Sys2Proof.Machine.execBfi o s
  | .rshr o sz => Sys2Proof.Machine.execRshr o sz s
  | .rand o n rounds => Sys2Proof.Machine.execRand o n rounds s
  | .randCtr o n rounds => Sys2Proof.Machine.execRandCtr o n rounds s
  | .xlane o m seg => Sys2Proof.Machine.execXlane o m seg s
  | .slide o x => Sys2Proof.Machine.execSlide o x s
  | .pgath o m neg => Sys2Proof.Machine.execPgath o m neg s
  | .redux o op => Sys2Proof.Machine.execRedux o op s
  | .scan o op excl => Sys2Proof.Machine.execScan o op excl s
  | .vmatch o all dbl => Sys2Proof.Machine.execVmatch o all dbl s
  | .fadd o => Sys2Proof.Machine.execFadd o s
  | .fsub o => Sys2Proof.Machine.execFsub o s
  | .fmul o => Sys2Proof.Machine.execFmul o s
  | .ffma o => Sys2Proof.Machine.execFfma o s
  | .fmin o => Sys2Proof.Machine.execFmin o s
  | .fmax o => Sys2Proof.Machine.execFmax o s
  | .fcmp o cc acc => Sys2Proof.Machine.execFcmp o cc acc s
  | .fclass o set => Sys2Proof.Machine.execFclass o set s
  | .frnd o => Sys2Proof.Machine.execFrnd o s
  | .frcp o => Sys2Proof.Machine.execFrcp o s
  | .frsq o => Sys2Proof.Machine.execFrsq o s
  | .fsqrt o => Sys2Proof.Machine.execFsqrt o s
  | .fdiv o => Sys2Proof.Machine.execFdiv o s
  | .fexp2 o => Sys2Proof.Machine.execFexp2 o s
  | .flog2 o => Sys2Proof.Machine.execFlog2 o s
  | .fsin o => Sys2Proof.Machine.execFsin o s
  | .fcos o => Sys2Proof.Machine.execFcos o s
  | .hadd2 o bf => Sys2Proof.Machine.execHadd2 o bf s
  | .hsub2 o bf => Sys2Proof.Machine.execHsub2 o bf s
  | .hmul2 o bf => Sys2Proof.Machine.execHmul2 o bf s
  | .hfma2 o bf => Sys2Proof.Machine.execHfma2 o bf s
  | .hmin2 o bf => Sys2Proof.Machine.execHmin2 o bf s
  | .hmax2 o bf => Sys2Proof.Machine.execHmax2 o bf s
  | .dadd o => Sys2Proof.Machine.execDadd o s
  | .dmul o => Sys2Proof.Machine.execDmul o s
  | .dfma o => Sys2Proof.Machine.execDfma o s
  | .dcmp o cc acc => Sys2Proof.Machine.execDcmp o cc acc s
  | .cvt o x => Sys2Proof.Machine.execCvt o x s
  | .packn o x => Sys2Proof.Machine.execPackn o x s
  | .unpackn o x => Sys2Proof.Machine.execUnpackn o x s
  | .qscalePick o bsm f => Sys2Proof.Machine.execQscalePick o bsm f s
  | .qscaleVal o bsm => Sys2Proof.Machine.execQscaleVal o bsm s
  | .qscaleRcp o bsm => Sys2Proof.Machine.execQscaleRcp o bsm s
  | .rsmerge o n => Sys2Proof.Machine.execRsmerge o n s
  | .clrflg o m => Sys2Proof.Machine.execClrflg o m s
  | .rdflg o => Sys2Proof.Machine.execRdflg o s
  | .ldg o x => Sys2Proof.Machine.execLdg o x s
  | .stg o x => Sys2Proof.Machine.execStg o x s
  | .pref o l2 x => Sys2Proof.Machine.execPref o l2 x s
  | .invd o x => Sys2Proof.Machine.execInvd o x s
  | .wbk o x => Sys2Proof.Machine.execWbk o x s
  | .lds o x => Sys2Proof.Machine.execLds o x s
  | .sts o x => Sys2Proof.Machine.execSts o x s
  | .lda o x => Sys2Proof.Machine.execLda o x s
  | .sta o x => Sys2Proof.Machine.execSta o x s
  | .ldsub o x => Sys2Proof.Machine.execLdsub o x s
  | .stsub o x => Sys2Proof.Machine.execStsub o x s
  | .atom o op x => Sys2Proof.Machine.execAtom o op x s
  | .atomcas o pf x => Sys2Proof.Machine.execAtomcas o pf x s
  | .red o op x => Sys2Proof.Machine.execRed o op x s
  | .redRsm o n x => Sys2Proof.Machine.execRedRsm o n x s
  | .waitcmp o x => Sys2Proof.Machine.execWaitcmp o x s
  | .fence o sc => Sys2Proof.Machine.execFence o sc s
  | .cfence o x y => Sys2Proof.Machine.execCfence o x y s
  | .waitp o p => Sys2Proof.Machine.execWaitp o p s
  | .bara o n ln => Sys2Proof.Machine.execBara o n ln s
  | .barw o n => Sys2Proof.Machine.execBarw o n s
  | .bart o n => Sys2Proof.Machine.execBart o n s
  | .barx o n => Sys2Proof.Machine.execBarx o n s
  | .spawn o toff => Sys2Proof.Machine.execSpawn o toff s
  | .qmma o vs => Sys2Proof.Machine.execQmma o vs s
  | .trapl o => Sys2Proof.Machine.execTrapl o s
  | .part p mask => Sys2Proof.Machine.execPart p mask s
  | .partExpress p ecap mask block => Sys2Proof.Machine.execPartExpress p ecap mask block s
  | .qreg q part weight cls log2n desc ring => Sys2Proof.Machine.execQreg q part weight cls log2n desc ring s
  | .qreset q => Sys2Proof.Machine.execQreset q s
  | .qset q part weight cls => Sys2Proof.Machine.execQset q part weight cls s
  | .carve core units => Sys2Proof.Machine.execCarve core units s
  | .carveComplete core => Sys2Proof.Machine.execCarveComplete core s
  | .ctxroot isQueue n root => Sys2Proof.Machine.execCtxroot isQueue n root s
  | .tlbinv p va len => Sys2Proof.Machine.execTlbinv p va len s
  | .preempt launch team all core dl => Sys2Proof.Machine.execPreempt launch team all core dl s
  | .restore launch team => Sys2Proof.Machine.execRestore launch team s
  | .release mkind mnum => Sys2Proof.Machine.execRelease mkind mnum s
  | .setTReply k => Sys2Proof.Machine.execSetTReply k s
  | .setFreezePolicy halt => Sys2Proof.Machine.execSetFreezePolicy halt s
  | .setDumpArea base size => Sys2Proof.Machine.execSetDumpArea base size s
  | .setSaveArea p base size => Sys2Proof.Machine.execSetSaveArea p base size s
  | .setInboundWindow mkind mnum win base size rights => Sys2Proof.Machine.execSetInboundWindow mkind mnum win base size rights s
  | .setMulticastWindow base size => Sys2Proof.Machine.execSetMulticastWindow base size s
  | .replay q image log len => Sys2Proof.Machine.execReplay q image log len s
  | .resume => Sys2Proof.Machine.execResume s
  | .flush stream => Sys2Proof.Machine.execFlush stream s
  | .podPeer n => Sys2Proof.Machine.execPodPeer n s
  | .podGateway gw port planes => Sys2Proof.Machine.execPodGateway gw port planes s
  | .podMcastGroup g mask => Sys2Proof.Machine.execPodMcastGroup g mask s
  | .podReductionTimer k => Sys2Proof.Machine.execPodReductionTimer k s
  | .snapshot ports gw planes s0 s1 s2 => Sys2Proof.Machine.execSnapshot ports gw planes s0 s1 s2 s
  | .snapshotStream sinks => Sys2Proof.Machine.execSnapshotStream sinks s
  | .snaprest ports gw planes s0 s1 s2 => Sys2Proof.Machine.execSnaprest ports gw planes s0 s1 s2 s
  | .fwload addr len => Sys2Proof.Machine.execFwload addr len s
  | .deviceReset => Sys2Proof.Machine.execDeviceReset s
  | .slotConsume q => Sys2Proof.Machine.execSlotConsume q s
  | .launchPacket q => Sys2Proof.Machine.execLaunchPacket q s
  | .copyPacket q => Sys2Proof.Machine.execCopyPacket q s
  | .marker q => Sys2Proof.Machine.execMarker q s
  | .waitValue q => Sys2Proof.Machine.execWaitValue q s
  | .waitValueComplete q => Sys2Proof.Machine.execWaitValueComplete q s
  | .barrierAnd q => Sys2Proof.Machine.execBarrierAnd q s
  | .barrierAndComplete q => Sys2Proof.Machine.execBarrierAndComplete q s
  | .arbitrationRound part place => Sys2Proof.Machine.execArbitrationRound part place s
  | .admission core idx => Sys2Proof.Machine.execAdmission core idx s
  | .reinDequeue tk g => Sys2Proof.Machine.execReinDequeue tk g s
  | .splitReachRpc tk g sp => Sys2Proof.Machine.execSplitReachRpc tk g sp s
  | .stackRefill tk g => Sys2Proof.Machine.execStackRefill tk g s
  | .stkctlSpill tk n => Sys2Proof.Machine.execStkctlSpill tk n s
  | .resultLand tk op mask => Sys2Proof.Machine.execResultLand tk op mask s
  | .storePerform tk op mask => Sys2Proof.Machine.execStorePerform tk op mask s
  | .monitorPoll tk op => Sys2Proof.Machine.execMonitorPoll tk op s
  | .barrierPhaseComplete tk bar => Sys2Proof.Machine.execBarrierPhaseComplete tk bar s
  | .copyLand r unit => Sys2Proof.Machine.execCopyLand r unit s
  | .copyEnd r => Sys2Proof.Machine.execCopyEnd r s
  | .mcastDeliveryArrive tk op recv => Sys2Proof.Machine.execMcastDeliveryArrive tk op recv s
  | .matrixCmdStart tk => Sys2Proof.Machine.execMatrixCmdStart tk s
  | .matrixCmdEnd tk => Sys2Proof.Machine.execMatrixCmdEnd tk s
  | .leaveGrant die => Sys2Proof.Machine.execLeaveGrant die s
  | .leaveBoundExpire die => Sys2Proof.Machine.execLeaveBoundExpire die s
  | .creditGrant svc req => Sys2Proof.Machine.execCreditGrant svc req s
  | .combineArrive req => Sys2Proof.Machine.execCombineArrive req s
  | .combineWindowExpire point entry => Sys2Proof.Machine.execCombineWindowExpire point entry s
  | .atomicDequeue svc => Sys2Proof.Machine.execAtomicDequeue svc s
  | .decombine cid => Sys2Proof.Machine.execDecombine cid s
  | .atomicReply rep => Sys2Proof.Machine.execAtomicReply rep s
  | .replyQueryTimeout core slot => Sys2Proof.Machine.execReplyQueryTimeout core slot s
  | .journalEntryExpire svc => Sys2Proof.Machine.execJournalEntryExpire svc s
  | .areq p => Sys2Proof.Machine.execAreq p s
  | .arep p => Sys2Proof.Machine.execArep p s
  | .query p => Sys2Proof.Machine.execQuery p s
  | .qans p => Sys2Proof.Machine.execQans p s
  | .rcontrib p => Sys2Proof.Machine.execRcontrib p s
  | .rwrite p => Sys2Proof.Machine.execRwrite p s
  | .rdone p => Sys2Proof.Machine.execRdone p s
  | .rabort p => Sys2Proof.Machine.execRabort p s
  | .reductionTimeout plane rid unit => Sys2Proof.Machine.execReductionTimeout plane rid unit s
  | .spawnBinTimeout core bin => Sys2Proof.Machine.execSpawnBinTimeout core bin s
  | .spawnGroupForm core bin => Sys2Proof.Machine.execSpawnGroupForm core bin s
  | .noProgress tk => Sys2Proof.Machine.execNoProgress tk s
  | .enterWaitingChildren tk => Sys2Proof.Machine.execEnterWaitingChildren tk s
  | .childNoFit launch => Sys2Proof.Machine.execChildNoFit launch s
  | .teamRetire tk => Sys2Proof.Machine.execTeamRetire tk s
  | .successorStart tk => Sys2Proof.Machine.execSuccessorStart tk s
  | .handlerEntry tk => Sys2Proof.Machine.execHandlerEntry tk s
  | .softError e => Sys2Proof.Machine.execSoftError e s
  | .patrolScrub pa => Sys2Proof.Machine.execPatrolScrub pa s
  | .drainDeadline tk => Sys2Proof.Machine.execDrainDeadline tk s
  | .teamSave tk => Sys2Proof.Machine.execTeamSave tk s
  | .teamDiscard tk => Sys2Proof.Machine.execTeamDiscard tk s
  | .mcastWindowClose tk => Sys2Proof.Machine.execMcastWindowClose tk s
  | .haltCopyDrainTimeout => Sys2Proof.Machine.execHaltCopyDrainTimeout s
  | .dumpWrite => Sys2Proof.Machine.execDumpWrite s
  | .chunkClose stream => Sys2Proof.Machine.execChunkClose stream s
  | .replayTimeout stream => Sys2Proof.Machine.execReplayTimeout stream s
  | .breakpointFire n => Sys2Proof.Machine.execBreakpointFire n s
  | .cisctlEnable w => Sys2Proof.Machine.execCisctlEnable w s
  | .cisctlDisable w => Sys2Proof.Machine.execCisctlDisable w s
  | .cisbaseWrite w => Sys2Proof.Machine.execCisbaseWrite w s
  | .sysregWrite tk num w => Sys2Proof.Machine.execSysregWrite tk num w s
  | .planeDead p => Sys2Proof.Machine.execPlaneDead p s
  | .remapComplete => Sys2Proof.Machine.execRemapComplete s
  | .norouteReply r => Sys2Proof.Machine.execNorouteReply r s
  | .forwardReply r peer frame => Sys2Proof.Machine.execForwardReply r peer frame s
  | .inboundWrite x => Sys2Proof.Machine.execInboundWrite x s
  | .pageMove m => Sys2Proof.Machine.execPageMove m s
  | .fmcDeliveryArrive x => Sys2Proof.Machine.execFmcDeliveryArrive x s
  | .ptpCorrection sec ns => Sys2Proof.Machine.execPtpCorrection sec ns s
  | .thermalLimit => Sys2Proof.Machine.execThermalLimit s
  | .admqWrite fn w => Sys2Proof.Machine.execAdmqWrite fn w s
  | .getVersion msg => Sys2Proof.Machine.execGetVersion msg s
  | .getCapabilities msg => Sys2Proof.Machine.execGetCapabilities msg s
  | .negotiateAlgorithms msg => Sys2Proof.Machine.execNegotiateAlgorithms msg s
  | .getCertificate msg => Sys2Proof.Machine.execGetCertificate msg s
  | .challenge msg => Sys2Proof.Machine.execChallenge msg s
  | .getMeasurements msg => Sys2Proof.Machine.execGetMeasurements msg s
  | .leaseExpire => Sys2Proof.Machine.execLeaseExpire s
  | .inboundRead x => Sys2Proof.Machine.execInboundRead x s
  | .cistailWrite w => Sys2Proof.Machine.execCistailWrite w s
  | .gatherComplete tk => Sys2Proof.Machine.execGatherComplete tk s
  | .malformedPacket x => Sys2Proof.Machine.execMalformedPacket x s

end Sys2Proof.Machine
end

