-- ==== Sys2Proof/Machine/Issue.lean ====
section
/-!
DEFINITION. Machine/Issue.lean: who may issue (R85, R355, R383 to R388), the classes and register banks of a bay (R23, R118), and the
order in which a bay considers its groups and their splits (R117).
-/
namespace Sys2Proof.Machine

/-! Readiness. -/

/-- Recording has stalled the recorder of a core for a context that is recorded (R383). -/
def State.stalledFor (s : State) (t : Team) : Bool := decide (1 ≤ s.levelOf t.launch) && s.haeth.enable && s.recorderStalled (t.core / 4)

/-- An atomic of an issuer waits for its credit, and for nothing else: the issuer's next instruction waits (R335). -/
def State.waitsCredit (s : State) (t : Team) (who : Option Nat) : Bool :=
  s.net.reqs.any fun q => s.asksCredit q.2 && q.2.members.any fun m =>
    m.srcPeer == 0 && m.core == t.core && m.launch == t.launch && m.team == t.teamId && m.who == who.getD 32

/-- The rider waits for nothing that keeps its next word from issuing. With a trap pending only a word that has been granted power leave still
issues (R352, R355). -/
def State.riderAble (s : State) (t : Team) : Bool :=
  !s.stopped t && !s.fab.quiesce && t.blocked.isNone && (t.leaveReq.isNone || t.handler) && decide (t.yieldUntil ≤ s.clk.cycle)
    && (t.handler || (!t.exited && (t.nextTrap.isNone || (t.leaveGot && !t.preempted))))
    && !s.stalledFor t && s.issueOpen t.core t.riderCtx 0 && !s.brkHolds t 32 0 && !s.preHolds t 32 0 && !s.waitsCredit t none

/-- The rider may issue its next word: a core issues one scalar instruction a cycle (R87). -/
def State.riderReady (s : State) (t : Team) : Bool := s.riderAble t && (s.coreTeams t.core).all fun x => !x.2.ran

/-- Nothing outside its next instruction keeps a split from issuing: it runs, no trap or YIELDL holds it, and nothing stops its group or its team. -/
def State.splitAble (s : State) (t : Team) (g sp : Nat) (x : Group) : Bool :=
  let y := x.split sp
  !s.stopped t && !s.fab.quiesce && !t.preempted && x.placed && !x.halted && !x.ended && y.st == .run && !atRpc s t g x sp
    && y.hold.getD 0 == 0 && !s.spawnStalled t g sp
    && !s.stalledFor t && s.issueOpen t.core (t.laneCtx g (lowestLane y.mask)) sp && !s.brkHolds t g y.mask && !s.preHolds t g y.mask && !s.waitsCredit t (some g)

/-! The words that come next, and the lines they lie in (R87, R121, R175). -/

/-- Line and index of a scalar word. -/
def scalarLine (pc : Nat) : Nat × Nat := (pc / 128 * 128, pc % 128 / 4)
/-- The address of a lane word. -/
def laneAddr (t : Team) (lpc : BitVec 24) : Nat := (t.desc.lbase.toNat + 12 * lpc.toNat) % 2 ^ 64
/-- Line and index of a lane word. -/
def laneLine (t : Team) (lpc : BitVec 24) : Nat × Nat := ((t.desc.lbase.toNat + 96 * (lpc.toNat / 8)) % 2 ^ 64, lpc.toNat % 8)

/-- A core holds a line of instructions: its fetch makes nobody wait (R85). -/
def State.lineHeld (s : State) (t : Team) (va : Nat) (lane : Bool) : Bool :=
  (s.core t.core).icache.any fun l => l.root == t.root && l.va == va && l.lane == lane

/-- The second word of SLI, where the first names one (R175). -/
def isLong (w : Nat) : Bool := bitsOf w 31 25 == 0x0A

/-- The words of the rider's next instruction, or the cause and the address of the fetch's fault (R87). -/
def State.fetchScalar (s : State) (t : Team) : Except (Cause × U64) (U32 × U32) × State :=
  if t.pc.toNat % 4 ≠ 0 then (.error (.misalign, t.pc), s) else
    let at_ (pc : U64) (s : State) : Except Cause Nat × State := s.fetch t.core t.root (scalarLine pc.toNat).1 (scalarLine pc.toNat).2 false
    match at_ t.pc s with
    | (.error c, s) => (.error (c, t.pc), s)
    | (.ok w, s) =>
        if isLong w then
          match at_ (t.pc + 4) s with
          | (.error c, s) => (.error (c, t.pc + 4), s)
          | (.ok w2, s) => (.ok (BitVec.ofNat 32 w, BitVec.ofNat 32 w2), s)
        else (.ok (BitVec.ofNat 32 w, 0), s)

/-- The next instruction of a split, none where its word is no instruction; or the cause of the fetch's fault. -/
def State.nextLane (s : State) (t : Team) (y : Split) : Except Cause (Option Instr) × State :=
  match s.fetch t.core t.root (laneLine t y.lpc).1 (laneLine t y.lpc).2 true with
  | (.error c, s) => (.error c, s)
  | (.ok w, s) => (.ok (decodeLane (BitVec.ofNat 96 w)), s)

/-- Executes an instruction as an agent. -/
def State.execAs (s : State) (a : Agent) (i : Instr) : Out := exec i { s with cur := a }

/-- An instruction of a split of team `tk` would wait: it leaves the team as it is (R85). -/
def State.waits (s : State) (tk g sp : Nat) (i : Instr) : Bool :=
  match s.execAs (.split tk g sp) i with
  | .next u => decide (u.team? tk = s.team? tk)
  | _ => false

/-- The rider is ready as R85 means it: it waits for no fetch either. -/
def State.riderDueCount (s : State) (t : Team) : Bool :=
  s.riderAble t && s.lineHeld t (scalarLine t.pc.toNat).1 false && s.lineHeld t (scalarLine (t.pc.toNat + 4)).1 false

/-- A split is ready as R85 means it: neither its fetch nor its instruction waits. -/
def State.splitDue (s : State) (tk : Nat) (t : Team) (g sp : Nat) (x : Group) : Bool :=
  s.splitAble t g sp x && s.lineHeld t (laneLine t (x.split sp).lpc).1 true && match s.nextLane t (x.split sp) with
    | (.ok (some i), s) => !s.waits tk g sp i
    | _ => true

/-! Classes and banks of a bay. -/

/-- The class that a lane instruction takes, and for how many cycles (R23, R222, R248, R305). DEDUCED (log entry 36): FENCE, CFENCE, WAITP, PREF, INVD,
WBK and SPAWN, which no rule lists, take MEM like the others of their chapter, and TRAPL takes ALU. -/
def bayClass : Instr → BayClass × Nat
  | .fadd _ | .fsub _ | .fmul _ | .ffma _ | .fmin _ | .fmax _ | .fcmp .. | .fclass .. | .frnd _ => (.fma, 1)
  | .hadd2 .. | .hsub2 .. | .hmul2 .. | .hfma2 .. | .hmin2 .. | .hmax2 .. | .pmac2 _ | .dot4 _ | .dot8 _ => (.fma, 1)
  | .cvt .. | .qscalePick .. | .qscaleVal .. | .qscaleRcp .. => (.fma, 1)
  | .packn .. | .unpackn .. => (.fma, 2)
  | .dadd _ | .dmul _ | .dfma _ | .dcmp .. => (.fma, 8)
  | .frcp _ | .frsq _ | .fsqrt _ | .fdiv _ | .fexp2 _ | .flog2 _ | .fsin _ | .fcos _ | .rsmerge .. => (.sfu, 4)
  | .ldg .. | .stg .. | .pref .. | .invd .. | .wbk .. | .lds .. | .sts .. | .lda .. | .sta .. | .ldsub .. | .stsub .. => (.mem, 1)
  | .atom .. | .atomcas .. | .red .. | .redRsm .. | .waitcmp .. | .fence .. | .cfence .. | .waitp .. => (.mem, 1)
  | .bara .. | .barw .. | .bart .. | .barx .. | .spawn .. | .qmma .. => (.mem, 1)
  | _ => (.alu, 1)

/-- The cycles in which an instruction that issues now occupies classes; RSMERGE takes FMA after SFU (R248). -/
def bayUse (now : Nat) (i : Instr) : List (BayClass × Nat × Nat) :=
  let (c, n) := bayClass i
  (c, now, now + n) :: match i with
    | .rsmerge _ k => [(.fma, now + 4, now + 4 + k.toNat + 1)]
    | _ => []

/-- The banks that the source registers of an instruction are read from, one entry for each read (R118). -/
def bankReads (i : Instr) : List Nat :=
  match laneShape i, laneOps i with
  | some sh, some o =>
      let of_ (u : SrcUse) : Src → List Nat
        | .reg n => (List.range (useSpan u)).map fun k => (n.toNat + k) % 8
        | _ => []
      of_ sh.a o.a ++ of_ sh.b o.b ++ of_ sh.c o.c
  | _, _ => []

/-- In this cycle a bay does not take an instruction: its class is taken or occupied, or beside what has issued some bank would supply more than two
reads (R23, R117, R118). -/
def Bay.refuses (b : Bay) (now : Nat) (i : Instr) : Bool :=
  b.busy.any (fun u => u.1 == (bayClass i).1 && decide (u.2.1 ≤ now ∧ now < u.2.2))
    || (b.issued == some now && (List.range 8).any fun k => decide (2 < ((b.reads ++ bankReads i).filter (· == k)).length))

/-- A bay issues an instruction. -/
def Bay.issue (b : Bay) (now : Nat) (i : Instr) : Bay :=
  { b with busy := b.busy.filter (fun u => decide (now < u.2.2)) ++ bayUse now i, issued := some now,
           reads := (if b.issued = some now then b.reads else []) ++ bankReads i }

def Core.bay (c : Core) (n : Nat) : Bay := sparseGet {} c.bays n

/-! The order of consideration (R85, R117). -/

/-- The place of a split in its group's order: from the split after the one that issued first in the group's previous issue. -/
def Group.placeOf (x : Group) (sp : Nat) : Nat := (sp + 7 - x.first) % 4

/-- The split of a group that comes next in this cycle. -/
def State.nextDue (s : State) (tk : Nat) (t : Team) (g : Nat) (x : Group) : Option Nat :=
  ((List.range 4).map fun p => (x.first + 1 + p) % 4).find? fun sp =>
    decide (x.passed ≤ x.placeOf sp) && !x.tried.contains sp && s.splitDue tk t g sp x

/-- The resident groups of a bay: (team's key, team, GROUPID, group). -/
def State.bayGroups (s : State) (core bay : Nat) : List (Nat × Team × Nat × Group) :=
  (s.coreTeams core).flatMap fun (tk, t) => (t.groups.filter fun g => g.2.placed && g.2.bay == bay).map fun g => (tk, t, g.1, g.2)

/-- How far a group slot stands behind the one that its bay selected last: the round-robin order (R85). -/
def Bay.rank (b : Bay) (slot : Nat) : Nat := (slot + 127 - b.last) % 64

/-- The bay may select this group in this cycle: it has, or it has selected none and no other ready group comes before it. -/
def State.bayAllows (s : State) (core : Nat) (g : Nat) (t : Team) (x : Group) : Bool :=
  let gs := s.bayGroups core x.bay
  let b := (s.core core).bay x.bay
  let own (y : Nat × Team × Nat × Group) : Bool := y.2.1.serial == t.serial && y.2.2.1 == g
  match gs.find? fun y => y.2.2.2.chosen with
  | some y => own y
  | none => gs.all fun y => own y || decide (b.rank x.slot ≤ b.rank y.2.2.2.slot) || (s.nextDue y.1 y.2.1 y.2.2.1 y.2.2.2).isNone

/-- A split may have its turn: it has had none in this cycle, its bay may select its group, and no ready split of the group comes before it. Where its
line is not held, its fetch ends with this turn. -/
def State.splitReady (s : State) (tk : Nat) (t : Team) (g sp : Nat) (x : Group) : Bool :=
  s.splitAble t g sp x && !x.tried.contains sp && decide (x.passed ≤ x.placeOf sp) && s.bayAllows t.core g t x
    && (s.nextDue tk t g x).all fun k => decide (x.placeOf sp ≤ x.placeOf k)

/-- What R85 promises is due: a split has been passed over in 63 of its group's selections, or a group has been ready for 15 cycles for each group of
its bay and issued nothing. DESIGN CHOICE (log entry 36): then neither class nor bank holds it back. -/
def State.promiseDue (s : State) (t : Team) (sp : Nat) (x : Group) : Bool :=
  decide (63 ≤ sparseGet 0 x.missed sp) || decide (15 * (s.bayGroups t.core x.bay).length ≤ x.unissued)

/-- The bay does not take the instruction in this cycle. -/
def State.refuses (s : State) (t : Team) (sp : Nat) (x : Group) (i : Instr) : Bool :=
  ((s.core t.core).bay x.bay).refuses s.clk.cycle i && !s.promiseDue t sp x

/-- A bay has selected a group and considered a split of it; `i` is the instruction that it takes. -/
def State.consider (s : State) (tk : Nat) (t : Team) (g sp : Nat) (x : Group) (i : Option Instr) : State :=
  let s := s.modGroup tk g fun x =>
    { x with chosen := true, tried := distinct (sp :: x.tried), passed := x.placeOf sp + 1,
             refused := if i.isSome then x.refused else sp :: x.refused, begun := if i.isSome then some (x.begun.getD sp) else x.begun }
  s.modCore t.core fun c =>
    let b := { c.bay x.bay with last := x.slot }
    { c with bays := sparsePut x.bay (match i with
        | some i => b.issue s.clk.cycle i
        | none => b) c.bays }

end Sys2Proof.Machine
end

