-- ==== Sys2Proof/Machine/Enabled.lean ====
section
/-!
DEFINITION. Machine/Enabled.lean: what each cycle owes (issues, timers, barriers, the no-progress counts), and what the hardware may
do next when the agenda names nothing.
-/
namespace Sys2Proof.Machine

/-! What a cycle owes: events that happen as soon as their time has come. -/

/-- The first of some moves. -/
def firstDue (l : List (Option (State → Out))) : Option (State → Out) := l.findSome? id

/-- A move that is due under a condition. -/
def dueIf (c : Bool) (f : State → Out) : Option (State → Out) := if c then some f else none

/-- Copies or fabric operations that a halt has still to cancel. -/
def State.drainLeft (s : State) : Bool :=
  s.teams.any (fun t => t.2.ops.any fun o => !o.done && match o.body with
    | .copy c => c.status.isNone
    | .fred .. | .fmc .. => true
    | _ => false) || s.cp.channels.any fun c => c.2.copy.status.isNone

/-- What a team owes. -/
def State.teamDue (s : State) (tk : Nat) (t : Team) : Option (State → Out) :=
  let limit := !t.inHandler && t.pre.any fun p => p.stopped.isNone && decide (p.deadline ≤ s.clk.cycle)
  firstDue [
    dueIf (!t.killed && !t.stalledTrap && (s.gating t.launch).isNone && decide (Config.noProgress ≤ t.npc)) (execNoProgress tk),
    dueIf limit (execDrainDeadline tk),
    dueIf (t.pre.any (s.windowDone t)) (execMcastWindowClose tk)]

/-- Barriers whose test at the end of this cycle holds (R139). -/
def State.barrierDue (s : State) : Option (State → Out) :=
  s.teams.findSome? fun (tk, t) => t.bars.findSome? fun (b, x) => dueIf (x.due && x.last != some s.clk.cycle) (execBarrierPhaseComplete tk b)

/-- One of some waiting agents must have its turn now: in no order of turns, one a cycle, would each of them wait less than its bound; answers the
one that has waited longest. -/
def mustServe {α : Type} (bound : Nat) (l : List (Nat × α)) : Option α :=
  let l := sortBy (fun a b => decide (b.1 ≤ a.1)) l
  if l.zipIdx.any fun x => decide (bound ≤ x.1.1 + x.2 + 1) then l.head?.map (·.2) else none

/-- A rider whose turn must come in this cycle: a ready rider issues within 16 cycles (R85). -/
def State.riderForced (s : State) (core : Nat) : Option Nat :=
  let ts := s.coreTeams core
  if ts.any (·.2.ran) then none
  else mustServe 16 ((ts.filter fun x => decide (0 < x.2.waited) && s.riderAble x.2).map fun x => (x.2.waited, x.1))

/-- The split that a bay must consider next, before the cycle ends (R117): of the group it has selected, or of the first ready group in its round. -/
def State.bayForced (s : State) (core bay : Nat) : Option (Nat × Nat × Nat) :=
  let gs := s.bayGroups core bay
  let due (y : Nat × Team × Nat × Group) : Option (Nat × Nat × Nat) := (s.nextDue y.1 y.2.1 y.2.2.1 y.2.2.2).map fun sp => (y.1, y.2.2.1, sp)
  match gs.find? fun y => y.2.2.2.chosen with
  | some y => due y
  | none =>
      let b := (s.core core).bay bay
      (sortBy (fun y z => decide (b.rank y.2.2.2.slot ≤ b.rank z.2.2.2.slot)) gs).findSome? due

/-- The agent whose turn must come before the cycle ends. -/
def State.forcedAgent (s : State) : Option Agent :=
  let cores := distinct (s.teams.map fun t => t.2.core)
  ((cores.findSome? s.riderForced).map Agent.rider).orElse fun _ =>
    (cores.findSome? fun c => (List.range 4).findSome? (s.bayForced c)).map fun x => Agent.split x.1 x.2.1 x.2.2

/-- The first event that is due now. -/
def State.urgent (s : State) : Option (State → Out) :=
  firstDue [
    s.haeth.chunks.findSome? fun c => dueIf (s.chunkDue c.1) (execChunkClose c.1),
    (List.range 8).findSome? fun n => dueIf (s.breakDue n) (execBreakpointFire n),
    (List.range 10).findSome? fun d => dueIf ((earliest (s.leaveQueue d)).any fun x => decide (x.1 + Config.leaveBound ≤ s.clk.cycle)) (execLeaveBoundExpire d),
    s.teams.findSome? fun t => s.teamDue t.1 t.2,
    dueIf ((s.halt.any fun h => decide (h.at_ + Config.window20us ≤ s.clk.cycle)) && s.drainLeft) execHaltCopyDrainTimeout,
    s.net.journal.findSome? fun j => dueIf (decide (j.time + Config.journalCycles ≤ s.clk.cycle)) (execJournalEntryExpire j.svc),
    s.net.entries.findSome? fun e => dueIf (s.entryDue e) (execCombineWindowExpire e.point e.req),
    s.net.reqs.findSome? fun q => dueIf (s.overdue q.2 && !s.net.entries.any fun e => e.req == q.1) (execCombineArrive q.1),
    s.cores.findSome? fun c => c.2.slots.findSome? fun sl => dueIf (s.queryDue sl.2) (execReplyQueryTimeout c.1 sl.1),
    s.fab.folds.findSome? fun f => dueIf (s.foldDue f) (execReductionTimeout f.plane f.rid f.unit),
    s.cores.findSome? fun c => c.2.bins.findSome? fun b =>
      (dueIf (!b.2.due && !b.2.threads.isEmpty && decide (b.2.expiry ≤ s.clk.cycle)) (execSpawnBinTimeout c.1 b.1)).orElse fun _ =>
        dueIf (s.formPlan c.1 b.1).isSome (execSpawnGroupForm c.1 b.1),
    match s.haeth.replay with
    | some r => r.next.findSome? fun x => dueIf (s.replayLate x.1) (execReplayTimeout x.1)
    | none => none]

/-! The passing of time. -/

/-- A team's no-progress count after a cycle (R86). -/
def State.countNpc (s : State) (t : Team) : Team :=
  if s.debugHalt.isSome || t.killed || t.st == .waitingChildren || t.stalledTrap then t
  else if s.wakeSource t || s.stalledFor t then { t with npc := 0 }
  else { t with npc := t.npc + 1 }

/-- What a cycle leaves of a group's turns: whether it has issued, and for each ready split whether it was taken where its group was selected (R85);
the yield cycles of a split are those in which the bay selected its group or no split of the group was ready but those that YIELDL holds (R238). -/
def State.countGroup (s : State) (tk : Nat) (t : Team) (g : Nat) (x : Group) : Group :=
  let due := (List.range 4).filter fun sp => s.splitDue tk t g sp x
  let missed (sp : Nat) : Nat :=
    if x.refused.contains sp then sparseGet 0 x.missed sp + 1 else if x.tried.contains sp || !due.contains sp then 0 else sparseGet 0 x.missed sp
  let yielded := x.chosen || due.isEmpty
  { x with unissued := if x.begun.isSome || due.isEmpty then 0 else x.unissued + 1,
           missed := (List.range 4).foldl (fun m sp => sparseSet 0 sp (missed sp) m) [],
           splits := x.splits.map fun y => { y with hold := y.hold.map fun n => if yielded then n - 1 else n } }

/-- A team at the end of a cycle: its counts, and what the next cycle begins from. -/
def State.endCycle (s : State) (tk : Nat) (t : Team) : Team :=
  let t1 := s.countNpc t
  let waited := if t.ran || !s.riderDueCount t then 0 else t.waited + 1
  ({ t1 with waited := waited, groups := t1.groups.map fun x => (x.1, s.countGroup tk t x.1 x.2) } : Team).beginCycle

/-- A cycle of the arithmetic clock passes: 10/33 ns (R25 to R27). In a debug halt a replay's timeouts stand still (R388). -/
def State.tick (s : State) : State :=
  let haeth := match s.haeth.replay, s.debugHalt with
    | some r, some _ => { s.haeth with replay := some { r with next := r.next.map fun x => (x.1, x.2.1, x.2.2.1, x.2.2.2 + 1) } }
    | _, _ => s.haeth
  { s with clk := { s.clk with cycle := s.clk.cycle + 1, ptp := s.clk.ptp + 10, ending := false }, haeth := haeth, teams := s.teams.map fun x => (x.1, s.endCycle x.1 x.2) }

/-- What follows from the state without an event of its own: registers that ended groups leave behind, instruction lines with no reference left,
acknowledgements and records whose wait is over, launches that are over, a successor's groups, commands that wait, and a replay's injections. -/
def State.settle (s : State) : State :=
  let s := s.teams.foldl (fun s t => s.flushGone t.1) s
  let s := (s.cores.filter fun c => !c.2.istale.isEmpty).foldl (fun s c => s.purgeLines c.1) s
  let s := s.sendAcks.settleRecords.finishLaunches.settleCores
  let s := s.teams.foldl (fun s t => s.placeGroupsOf t.1) s
  let s := s.pursueAll
  let s := if (s.haeth.replay.map (·.gating)).getD false then s.teams.foldl (fun s t => s.inject t.1) s else s
  s.checkLog.endReplay

/-! What the hardware may do next. -/

/-- A queue's next moves. -/
def State.queueMoves (s : State) (qn : Nat) (q : Queue) : List (State → Out) :=
  (if q.stopped || s.halt.isSome then [] else [execSlotConsume qn])
    ++ (match q.startable with
      | some p => (match p.type with
        | 1 => [execLaunchPacket qn]
        | 2 => [execCopyPacket qn]
        | 3 => [execMarker qn]
        | 4 => [execWaitValue qn]
        | _ => [execBarrierAnd qn])
      | none => [])
    ++ (q.pkts.filter fun p => p.started && !p.ended).flatMap fun p => match p.type with
      | 4 => [execWaitValueComplete qn]
      | 5 => [execBarrierAndComplete qn]
      | _ => []

/-- A choice of cores for a partition's next round: its open cores, from a free place on, each in turn. -/
def State.somePlaces (s : State) (pn : Nat) (p : Partition) : List Nat :=
  let cs := p.cores.filter (s.coreOpen pn)
  let k := (Config.freeWord s.free).toNat % max 1 cs.length
  cs.drop k ++ cs.take k

/-- A partition's round, where a queue of it has work or a deficit to lower. -/
def State.partMoves (s : State) (pn : Nat) (p : Partition) : List (State → Out) :=
  if s.cp.queues.any fun q => q.2.part == pn && (!(s.openLaunches q.1).isEmpty || decide (0 < q.2.deficit)) then
    [fun s => execArbitrationRound pn (s.somePlaces pn p) { s with free := s.free + 1 }] else []

/-- The next step of a unit: the number of a part of its source that has not been read, or its landing. -/
def CopySt.nextStep (c : CopySt) (u : Nat) : Nat :=
  32 * u + match (c.parts (c.unitBytes u)).findIdx? fun i => (sparseFind i c.got).isNone with
    | some k => k + 1
    | none => 0

/-- The first unit that has not landed among those that have. -/
def nextUnit (landed : List Nat) : Nat := ((List.range (landed.length + 1)).find? fun u => !landed.contains u).getD 0

/-- The next step of a copy, its ends and its arrivals. -/
def copyMoves (tk : Nat) (o : Op) (c : CopySt) : List (State → Out) :=
  if c.outcome.isSome then [execCopyEnd (.team tk o.id)]
  else if c.mcast then
    let first := ((c.packet 0).find? fun u => !c.ready (c.unitBytes u)).toList.map fun u => execCopyLand (.team tk o.id) (64 * c.nextStep u)
    c.recvs.flatMap fun r => match r.decided with
      | none => if c.sends then [execMcastDeliveryArrive tk o.id r.bit] else first
      | some (some _) => if r.cut then [] else [execCopyLand (.team tk o.id) (64 * c.nextStep (nextUnit r.landed) + r.bit)]
      | some none => []
  else [execCopyLand (.team tk o.id) (c.nextStep (nextUnit c.landed))]

/-- What an operation in flight may do next. -/
def opMoves (self : Option Nat) (tk : Nat) (o : Op) : List (State → Out) :=
  if o.done then [] else
    match o.body with
    | .load .. | .land .. | .qmma .. => [execResultLand tk o.id (BitVec.allOnes 32)]
    | .wait _ _ _ _ ps => if ps.all fun p => p.got.isSome then [execResultLand tk o.id (BitVec.allOnes 32)] else [execMonitorPoll tk o.id]
    | .store _ | .range .. | .post .. | .fred .. => [execStorePerform tk o.id (BitVec.allOnes 32)]
    | .fmc _ _ _ _ _ sent _ data dests ms =>
        let _ := data
        let mine := ms.any fun m => self == some m.1 && m.2 != some false
        (if !sent || ms.all (fun m => m.2.isSome) then [execStorePerform tk o.id (BitVec.allOnes 32)] else [])
          ++ (if sent && mine then ((List.range dests.length).filter fun i => !o.units.contains i).map fun i => execFmcDeliveryArrive (.line tk o.id i) else [])
    | .copy c => copyMoves tk o c
    | .matrix _ started _ => [if started then execMatrixCmdEnd tk else execMatrixCmdStart tk]
    | .gather _ => [execGatherComplete tk]
    | .atom .. | .claim .. | .child _ | .stall => []

/-- A team's next moves, its rider and its splits apart. -/
def State.teamMoves (s : State) (tk : Nat) (t : Team) : List (State → Out) :=
  (t.ops.flatMap (opMoves s.fab.self tk))
    ++ (t.groups.flatMap fun (g, x) =>
      (if x.rein.isEmpty || !x.idle then [] else [execReinDequeue tk g])
        ++ ((List.range 4).filter (atRpc s t g x)).map (execSplitReachRpc tk g)
        ++ (if (refillWanted s t g x).isSome then [execStackRefill tk g] else [])
        ++ ((List.range 4).filter fun sp => (x.split sp).hold == some 0).map (execYieldlExpire tk g))
    ++ (if t.yieldUntil = 0 then [] else [execYieldExpire tk])
    ++ (if s.mayHandle t then [execHandlerEntry tk] else [])
    ++ (if s.mayRetire t || (t.retiredKilled && t.quiet) then [execTeamRetire tk] else [])
    ++ (if (s.maySucceed t).isSome then [execSuccessorStart tk] else [])
    ++ (if t.exited && t.st == .draining && t.groups.isEmpty && !(s.liveChildren t).isEmpty then [execEnterWaitingChildren tk] else [])
    ++ (if t.pre.any (·.closed) then [execTeamSave tk, execTeamDiscard tk] else [])

/-- The riders and splits that may issue. -/
def State.issuers (s : State) (tk : Nat) (t : Team) : List Agent :=
  (if s.riderReady t then [.rider tk] else [])
    ++ t.groups.flatMap fun (g, x) => ((List.range 4).filter fun sp => s.splitReady tk t g sp x).map fun sp => .split tk g sp

/-- The atomic services' next moves. -/
def State.netMoves (s : State) : List (State → Out) :=
  s.net.reqs.flatMap (fun (id, q) => match q.stage with
    | .credit => if s.asksCredit q && (0x400 ≤ q.svc || s.nextAsker q.svc == some q.asker) then [execCreditGrant q.svc id] else []
    | .route _ => [execCombineArrive id]
    | _ => [])
    ++ (s.net.queues.filter fun q => !q.2.isEmpty).map (fun q => execAtomicDequeue q.1)
    ++ s.net.replies.map (fun r => match r.2.cid with
      | some c => execDecombine c
      | none => execAtomicReply r.1)
    ++ s.cores.flatMap fun (c, x) => (x.slots.filter fun sl => s.queryDue sl.2).map fun sl => execReplyQueryTimeout c sl.1

/-- The arrival of a packet that this module sends to itself by its own number, at its own port (R390, R392). -/
def ownPacket (p : Packet) : Option (State → Out) :=
  match p.ptype with
  | 1 => some (execAreq p)
  | 2 => some (execArep p)
  | 3 => some (execQuery p)
  | 4 => some (execQans p)
  | 5 => some (execRcontrib p)
  | 6 => some (execRwrite p)
  | 7 => some (execRdone p)
  | 8 => some (execRabort p)
  | _ => none

/-- A core's next moves. -/
def State.coreMoves (s : State) (c : Nat) (x : Core) : List (State → Out) :=
  ((List.range x.pending.length).filter fun i => (s.mayAdmit c i).isSome).map (execAdmission c)
    ++ (x.bins.filter fun b => b.2.due).map (fun b => execSpawnGroupForm c b.1)
    ++ (if x.carve.isSome then [execCarveComplete c] else [])

/-- Everything the hardware may do next, apart from issuing instructions, taking commands, and what comes from outside. -/
def State.hardware (s : State) : List (State → Out) :=
  s.cp.queues.flatMap (fun q => s.queueMoves q.1 q.2) ++ s.cp.parts.flatMap (fun p => s.partMoves p.1 p.2)
    ++ s.cores.flatMap (fun c => s.coreMoves c.1 c.2) ++ s.teams.flatMap (fun t => s.teamMoves t.1 t.2)
    ++ (s.cp.launches.filter fun l => s.stuckChild l.1).map (fun l => execChildNoFit l.1) ++ s.netMoves
    ++ s.cp.channels.flatMap (fun (k, c) =>
      if c.copy.outcome.isSome then [execCopyEnd (.chan k)]
      else [execCopyLand (.chan k) (c.copy.nextStep (nextUnit c.copy.landed))])
    ++ (s.fab.out.filter fun p => s.fab.self == some p.dst).filterMap ownPacket
    ++ (List.range 10).filterMap (fun d => if (s.leaveQueue d).isEmpty then none else some (execLeaveGrant d))
    ++ (if s.halt.any fun h => !h.dumped then [execDumpWrite] else [])
    ++ (if s.cp.snap.isSome then [execSnapshotStream []] else [])
    ++ [execLeaseExpire]

end Sys2Proof.Machine
end

