-- ==== Sys2Proof/Machine/Turn.lean ====
section
/-!
DEFINITION. Machine/Turn.lean: one turn of the machine, and the state in which a given word is the next instruction.

A step is one turn: a cycle passes, or one issuer, ring, event or nothing moves. The agenda (the model's own field) says
which moves come, and how many cycles pass before each; the order of bays, riders and events is any (R24), so a claim about every
agenda is a claim about every order. Which groups and splits a bay takes in a cycle R85 and R117 fix, and a cycle does not pass
before it has. Where the agenda is empty the step picks a turn of its own that the
machine may take.
-/
namespace Sys2Proof.Machine

/-- The rider's turn. -/
def stepRider (tk : Nat) (s : State) : Out :=
  match s.team? tk with
  | none => .next s
  | some t =>
      if !s.riderReady t then .next s else
        match (s.setTeam tk { t with ran := true }).fetchScalar t with
        | (.error (c, a), s) => .next (s.riderFault tk c a)
        | (.ok (w, w2), s) =>
            match decodeScalar w w2 with
            | none => .next (s.riderFault tk .illegal)
            | some i => s.execAs (.rider tk) i

/-- A split's turn. Where its instruction waits, nothing but the fetch has happened; where its bay does not take it, the split has been considered
(R85, R117). -/
def stepSplit (tk g sp : Nat) (s : State) : Out :=
  match s.team? tk with
  | none => .next s
  | some t =>
      match t.group? g with
      | none => .next s
      | some x =>
          if !s.splitReady tk t g sp x then .next s else
            let y := x.split sp
            match s.nextLane t y with
            | (.error c, s) => .next (laneTrap (s.consider tk t g sp x none) tk g sp y.lpc c (lowestLane y.mask) (BitVec.ofNat 64 (laneAddr t y.lpc)))
            | (.ok none, s) => .next (laneTrap (s.consider tk t g sp x none) tk g sp y.lpc .illegal (lowestLane y.mask))
            | (.ok (some i), s) =>
                if s.waits tk g sp i then s.execAs (.split tk g sp) i
                else if s.refuses t sp x i then .next (s.consider tk t g sp x none)
                else (s.consider tk t g sp x (some i)).execAs (.split tk g sp) i

/-- An admin ring's turn: its next command is read and begun (R405). -/
def stepCommand (fn : Nat) (s : State) : Out :=
  match s.takeCommand fn with
  | (s, some (id, i)) => s.execAs (.command id) i
  | (s, none) => .next s

/-- What a turn does. -/
def State.take (s : State) : Move → Out
  | .rider tk => stepRider tk s
  | .split tk g sp => stepSplit tk g sp s
  | .command fn => stepCommand fn s
  | .event i => s.execAs .none i
  | .idle => .next s

/-- The turn of an agent that may issue. -/
def agentTurn (a : Agent) (s : State) : Out :=
  match a with
  | .rider tk => stepRider tk s
  | .split tk g sp => stepSplit tk g sp s
  | _ => .next s

/-- What the machine may do next by itself. -/
def State.choices (s : State) : List (State → Out) :=
  (s.teams.flatMap fun x => s.issuers x.1 x.2).map agentTurn ++ s.hardware
    ++ (s.cp.rings.filter fun r => r.2.admq != 0 && !r.2.stopped && !s.cp.cmds.any fun c => c.fn == r.1).map fun r => stepCommand r.1

/-- The turn where the agenda is empty: a cycle passes and, unless something is due by then, one of the choices is made, each in its turn. -/
def State.turnDefault (s : State) : Out :=
  let s := s.tick.settle
  let l := if s.urgent.isSome then [] else s.choices
  match l[s.clk.cycle % max 1 l.length]? with
  | some f => f s
  | none => .next s

/-- A cycle passes before the next move of the agenda, or, where it is empty, before a turn of the machine's own. -/
def State.passCycle (s : State) : Out :=
  match s.agenda with
  | ⟨n + 1, m⟩ :: l => .next ({ s with agenda := ⟨n, m⟩ :: l } : State).tick.settle
  | _ => s.turnDefault

/-- One turn of the machine: what is due now comes first; then the agenda's next move, once no cycle is left to pass before it; else the issues that
the cycle still owes (R85, R117), what is tested at its end (R139), and a cycle that passes. -/
def State.oneTurn (s : State) : Out :=
  match s.urgent with
  | some f => f { s with cur := .none }
  | none =>
      match s.agenda with
      | ⟨0, m⟩ :: l => ({ s with agenda := l } : State).settle.take m
      | _ =>
          match if s.clk.ending then none else s.forcedAgent with
          | some a => agentTurn a s
          | none =>
              match s.barrierDue with
              | some f => f { s with cur := .none, clk := { s.clk with ending := true } }
              | none => s.passCycle

/-! Placing one word where the next step fetches. -/

/-- Puts bytes into memory from a key on. -/
def memPutAll (m : List Host.Cell) (k : Nat) : List Byte → List Host.Cell
  | [] => m
  | b :: l => memPutAll (memPut m k b) (k + 1) l

/-- The address, virtual and physical, of the placed word. -/
def placedAt : Nat := 0x100000

/-- Page tables that map the first 2³⁰ bytes onto themselves with every right (R143, R144): the root at 0x10000. -/
def placedTables (m : List Host.Cell) : List Host.Cell :=
  memPutAll (memPutAll (memPutAll m 0x10000 (bytesOf 0x20079 8)) 0x20000 (bytesOf 0x30079 8)) 0x30000 (bytesOf 0x7F 8)

/-- The team that runs the placed word. -/
def placedTeam (lane : Bool) : Team where
  serial := 0
  core := 0
  ctx := 0
  launch := 0
  teamId := 0
  root := 0x10000
  pc := BitVec.ofNat 64 placedAt
  desc := { spc := BitVec.ofNat 64 placedAt, lbase := BitVec.ofNat 64 placedAt, htab := 0, regs := 16, groups := 1, nhandle := 0,
            count := false, nbar := 0, acc := 0, scr := 0, arg := 0, work := 0, spill := 0 }
  groups := if lane then [(0, { splits := [{ st := .run, mask := BitVec.allOnes 32, fmt := 0xCCC }, {}, {}, {}] })] else []
  groupsHeld := if lane then 1 else 0

/-- The state with the word (up to 64 bits a scalar one, more a lane one) placed for the next step, and the team that runs it. -/
def State.placeWord (s : State) (nbits w : Nat) : State :=
  let lane := decide (64 < nbits)
  { s with
    mem := memPutAll (placedTables s.mem) placedAt (bytesOf (w % 2 ^ nbits) 12)
    cores := sparsePut 0 { s.core 0 with tlb := [], icache := [], istale := [], frozen := false } s.cores |>.map fun x => (x.1, { x.2 with bins := [] })
    net := { s.net with reqs := [], journal := [], entries := [] }
    coh := { s.coh with walks := [] }
    fab := { s.fab with quiesce := false, folds := [] }
    teams := [(0, placedTeam lane)]
    haeth := { s.haeth with enable := false, chunks := [], replay := none, brk := [] }
    halt := none
    debugHalt := none
    agenda := [⟨0, if lane then .split 0 0 0 else .rider 0⟩] }

end Sys2Proof.Machine
end

