-- ==== Sys2Proof/Machine/Step.lean ====
section
/-!
DEFINITION. Machine/Step.lean: one step of the machine, and the state in which a given word is the next instruction. Both call
Machine/Turn.lean.
-/
namespace Sys2Proof.Machine

/-- One step. -/
def step (s : State) : Host.Outcome State Fault Refusal := s.oneTurn

/-- The state with the word (up to 64 bits a scalar one, more a lane one) placed for the next step, and the team that runs it. -/
def State.withFetchWord (s : State) (nbits w : Nat) : State := s.placeWord nbits w

end Sys2Proof.Machine
end

