-- ==== Sys2Proof/Safety.lean ====
section
/-!
DEFINITION. Safety.lean: what counts as a safe run, and the words in which claims speak of the machine.
-/
namespace Sys2Proof.Machine

/-- The canonical form of memory: addresses rise strictly, and no entry is the 0 that an unlisted address reads as. -/
def Memory.wf (m : List Host.Cell) : Bool := sparseWf 0 m

/-- The invariant of every reachable state: memory is in its canonical form. -/
def State.Inv (s : State) : Prop := Memory.wf s.mem = true

/-- A step is safe where it ends in a next state: no fault and no refusal. -/
def SafeStep (s : State) : Prop := ∃ t, step s = .next t

/-- A run of `k` steps is safe where each of them is. -/
def SafeRun : Nat → State → Prop
  | 0, _ => True
  | k + 1, s => ∃ t, step s = .next t ∧ SafeRun k t

/-- Haeth neither records nor replays: an instruction leaves nothing in a log (R375, R384). -/
def State.Quiet (s : State) : Prop := s.haeth.enable = false ∧ s.haeth.replay = none

/-- No store in flight shows itself to the observers of a narrow scope before it performs (R148). -/
def State.NothingShown (s : State) : Prop := ∀ x ∈ s.teams, ∀ y ∈ x.2.ops, y.vis = 0

/-! The rider's words. -/

/-- Team `t`, at key `tk`, is the one whose rider executes. -/
def RiderAt (s : State) (tk : Nat) (t : Team) : Prop := s.cur = .rider tk ∧ s.team? tk = some t

/-- None of some registers waits for a load or an atomic in flight (R191). -/
def Team.regsReady (t : Team) (rs : List SReg) : Prop := ∀ r ∈ rs, t.sregBusy r = false

/-- The team once its rider's word has retired and the next is at `pc`. -/
def Team.wentTo (t : Team) (pc : U64) : Team := { t with pc := pc, retired := t.retired + 1, npc := 0 }

/-- The word `i` completes and leaves the team as `t'`; where Haeth neither records nor replays, it changes nothing else. -/
def RiderDoes (s : State) (tk : Nat) (i : Instr) (t' : Team) : Prop :=
  ∃ u, exec i s = .next u ∧ u.team? tk = some t' ∧ (s.Quiet → u = s.setTeam tk t')

/-- The word `i` writes `v` to the scalar register `d` and goes on to the next word. -/
def RiderWrites (s : State) (tk : Nat) (t : Team) (i : Instr) (d : SReg) (v : U64) : Prop :=
  RiderDoes s tk i ((t.setSreg d v).wentTo (t.pc + 4))

/-- The word `i` puts the operation `o` in flight, behind the team's earlier ones that it must follow, and goes on; `s'` is the state that its
checks left, and where Haeth neither records nor replays nothing else changes. -/
def RiderIssues (s s' : State) (tk : Nat) (t : Team) (i : Instr) (o : Op) : Prop :=
  let t' := { t with ops := t.ops ++ [t.stamped o s'.serial] }.wentTo (t.pc + 4)
  ∃ u, exec i s = .next u ∧ u.team? tk = some t' ∧ (s'.Quiet → u = { s'.setTeam tk t' with serial := s'.serial + 1 })

/-- The trap of a rider at its own word. -/
def riderTrapAt (t : Team) (c : Cause) (code : U64 := 0) : Trap := { cause := c, src := 1, loc := t.pc, addr := code }

/-- The word `i` takes a trap: nothing of the team changes but that its rider has the trap pending (R192, R351). -/
def RiderTraps (s : State) (tk : Nat) (t : Team) (i : Instr) (x : Trap) : Prop :=
  exec i s = .next (s.modTeam tk fun t => { t with riderTrap := some x, trapAt := some s.clk.cycle }) ∧ s.team? tk = some t

/-! Floating point, in rational numbers (R36 to R41). -/

/-- The value of a finite pattern. -/
def FVal.rat : FVal → Rat
  | .fin neg n d => if neg then -((n : Rat) / (d : Rat)) else (n : Rat) / (d : Rat)
  | _ => 0

def FVal.isInf : FVal → Bool
  | .inf _ => true
  | _ => false

/-- A pattern of a format that is a finite number, and its value. -/
def finitePat (f : Fmt) (w : Nat) : Prop := w < 2 ^ fmtWidth f ∧ isFinite (decodeFloat f w) = true
def patVal (f : Fmt) (w : Nat) : Rat := (decodeFloat f w).rat

/-- A finite pattern of `f` is `x` rounded downwards, upwards or in a mode: what R40 takes from IEEE 754. -/
def RoundsDown (f : Fmt) (x : Rat) (w : Nat) : Prop := finitePat f w ∧ patVal f w ≤ x ∧ ∀ u, finitePat f u → patVal f u ≤ x → patVal f u ≤ patVal f w
def RoundsUp (f : Fmt) (x : Rat) (w : Nat) : Prop := finitePat f w ∧ x ≤ patVal f w ∧ ∀ u, finitePat f u → x ≤ patVal f u → patVal f w ≤ patVal f u
def RoundsTo (f : Fmt) (r : RMode) (x : Rat) (w : Nat) : Prop :=
  match r with
  | .rd => RoundsDown f x w
  | .ru => RoundsUp f x w
  | .rz => if 0 ≤ x then RoundsDown f x w else RoundsUp f x w
  | .rne => finitePat f w ∧ ∀ u, finitePat f u → patVal f u ≠ patVal f w →
      (patVal f w - x).abs < (patVal f u - x).abs ∨ (patVal f w - x).abs = (patVal f u - x).abs ∧ w % 2 = 0

/-- The largest finite value, and the value from which on everything overflows. -/
def largestVal (f : Fmt) : Rat := patVal f (largestPat f)
def overVal (f : Fmt) : Rat := (2 ^ (bias f + if hasInf f then 1 else 2) : Nat)
/-- The smallest normal value, and the last value below it on the grid of its precision: a result no greater than that is tiny. -/
def normalVal (f : Fmt) : Rat := patVal f (2 ^ manBits f)
def tinyVal (f : Fmt) : Rat := normalVal f - normalVal f / (2 ^ (manBits f + 1) : Nat)

/-- The result of rounding the exact value `x`, not zero, once to a format (R40); between the largest finite value and the next power of two nothing is
said (log entry 20). -/
def FloatResult (f : Fmt) (r : RMode) (sat : Bool) (x : Rat) (w : Nat) (fl : Flags) : Prop :=
  (x.abs ≤ largestVal f → RoundsTo f r x w ∧ fl.getLsbD 0 = decide (patVal f w ≠ x) ∧ fl &&& 0x7C#7 = 0
    ∧ (normalVal f ≤ x.abs → fl.getLsbD 1 = false) ∧ (x.abs ≤ tinyVal f → fl.getLsbD 1 = fl.getLsbD 0))
  ∧ (hasInf f = true → overVal f ≤ x.abs →
      w = signPat f (decide (x < 0))
          + (if sat = false ∧ (r = .rne ∨ r = .ru ∧ 0 < x ∨ r = .rd ∧ x < 0) then infPat f else largestPat f)
        ∧ fl = flOF ||| flNX ||| flagIf sat flSAT)
  ∧ (hasInf f = false → overVal f ≤ x.abs → w = signPat f (decide (x < 0)) + largestPat f ∧ fl = flOF ||| flNX)

/-- The result of adding, subtracting, multiplying or multiplying and adding (R38, R40, R250) in a format with infinities. -/
def FloatOpOk (f : Fmt) (op : FExpr) (r : RMode) (sat ftz : Bool) (a b c : Nat) (res : Nat × Flags) : Prop :=
  let x := operandVal f ftz a
  let y := operandVal f ftz b
  let z := operandVal f ftz c
  let three := op == .fma
  let prod := op == .mul || three
  let quiet (w : Nat) : Nat := w ||| 2 ^ (manBits f - 1)
  -- signs and infinities of the two addends; of a product alone twice the product's
  let s1 := if prod then x.neg? != y.neg? else x.neg?
  let s2 := match op with
    | .add => y.neg?
    | .sub => !y.neg?
    | .mul => s1
    | .fma => z.neg?
  let i1 := if prod then x.isInf || y.isInf else x.isInf
  let i2 := match op with
    | .mul => false
    | .fma => z.isInf
    | _ => y.isInf
  let badProd := prod && ((x.isInf && y.isZero) || (x.isZero && y.isInf))
  let nan := x.isNan || y.isNan || (three && z.isNan)
  let v : Rat := match op with
    | .add => x.rat + y.rat
    | .sub => x.rat - y.rat
    | .mul => x.rat * y.rat
    | .fma => x.rat * y.rat + z.rat
  (x.isNan = true → res.1 = quiet a) ∧ (x.isNan = false → y.isNan = true → res.1 = quiet b)
  ∧ (three = true → x.isNan = false → y.isNan = false → z.isNan = true → res.1 = quiet c)
  ∧ (nan = true → res.2 = flagIf (x.isSnan || y.isSnan || (three && (z.isSnan || badProd))) flNV)
  ∧ (nan = false → (badProd || (i1 && i2 && s1 != s2)) = true → res = (canonNan f, flNV))
  ∧ (nan = false → (badProd || (i1 && i2 && s1 != s2)) = false → (i1 || i2) = true → res = (signPat f (if i1 then s1 else s2) + infPat f, 0))
  ∧ (nan = false → (i1 || i2) = false → v = 0 → res = (signPat f (if s1 = s2 then s1 else r == .rd), 0))
  ∧ (nan = false → (i1 || i2) = false → v ≠ 0 → (f = .f32 → ftz = true → normalVal f ≤ v.abs) → FloatResult f r sat v res.1 res.2)
  ∧ (nan = false → (i1 || i2) = false → v ≠ 0 → f = .f32 → ftz = true → v.abs ≤ tinyVal f → res = (signPat f (decide (v < 0)), flUF ||| flNX))

/-- One value lies below another, infinities included; with `zeros`, −0 lies below +0. -/
def FVal.below (zeros : Bool) (x y : FVal) : Bool :=
  match x, y with
  | .inf true, v => v != .inf true
  | _, .inf true => false
  | v, .inf false => v != .inf false
  | .inf false, _ => false
  | x, y => decide (x.rat < y.rat) || (zeros && decide (x.rat = y.rat) && x.neg? && !y.neg?)

/-- The result of a minimum or maximum (R251). -/
def MinMaxOk (f : Fmt) (hi ftz : Bool) (a b : Nat) (res : Nat × Flags) : Prop :=
  let a := if f == .f32 then flushIn ftz a else a
  let b := if f == .f32 then flushIn ftz b else b
  let x := decodeFloat f a
  let y := decodeFloat f b
  let beyond (u v : FVal) : Bool := if hi then v.below true u else u.below true v
  res.2 = flagIf (x.isSnan || y.isSnan) flNV
  ∧ (x.isNan = true → y.isNan = true → res.1 = a ||| 2 ^ (manBits f - 1))
  ∧ (x.isNan = true → y.isNan = false → res.1 = b) ∧ (x.isNan = false → y.isNan = true → res.1 = a)
  ∧ (x.isNan = false → y.isNan = false → (res.1 = a ∨ res.1 = b) ∧ beyond x (decodeFloat f res.1) = false ∧ beyond y (decodeFloat f res.1) = false)

/-- A comparison (R252). -/
def compareOk (f : Fmt) (ftz : Bool) (cc : FCmp) (a b : Nat) : Bool × Flags :=
  let x := operandVal f ftz a
  let y := operandVal f ftz b
  let un := x.isNan || y.isNan
  let lt := !un && x.below false y
  let gt := !un && y.below false x
  let eq := !un && !lt && !gt
  (match cc with
    | .eq => eq
    | .ne => lt || gt
    | .lt => lt
    | .le => lt || eq
    | .gt => gt
    | .ge => gt || eq
    | .num => !un
    | .nan => un
    | .equ => un || eq
    | .neu => un || lt || gt
    | .ltu => un || lt
    | .leu => un || lt || eq
    | .gtu => un || gt
    | .geu => un || gt || eq, flagIf (x.isSnan || y.isSnan) flNV)

/-- A rational rounded to an integer in a mode. -/
def nearInt (r : RMode) (x : Rat) : Int :=
  let lo := x.floor
  let part := x - (lo : Rat)
  match r with
  | .rd => lo
  | .ru => if part = 0 then lo else lo + 1
  | .rz => if 0 ≤ x ∨ part = 0 then lo else lo + 1
  | .rne => if part < 1 / 2 ∨ part = 1 / 2 ∧ lo % 2 = 0 then lo else lo + 1

/-- FRND of a pattern (R254). -/
def RoundIntOk (r : RMode) (ftz : Bool) (a : Nat) (res : Nat × Flags) : Prop :=
  let x := operandVal .f32 ftz a
  (isFinite x = true → finitePat .f32 res.1 ∧ patVal .f32 res.1 = (nearInt r x.rat : Rat) ∧ res.1 / 2 ^ 31 = a / 2 ^ 31
    ∧ res.2 = flagIf (decide (patVal .f32 res.1 ≠ x.rat)) flNX)
  ∧ (x.isInf = true → res = (a, 0)) ∧ (x.isNan = true → res = (a ||| 2 ^ 22, flagIf x.isSnan flNV))

/-- The class of a pattern by its fields (R253). -/
def classOf (sign exp man : Nat) : Nat :=
  if exp = 255 then (if man = 0 then (if sign = 1 then 0 else 7) else if man < 2 ^ 22 then 8 else 9)
  else if exp ≠ 0 then (if sign = 1 then 1 else 6)
  else if man ≠ 0 then (if sign = 1 then 2 else 5)
  else if sign = 1 then 3 else 4

/-- A finite pattern of `f` is `x` rounded under SR with the word `w` (R41). -/
def RoundsSr (f : Fmt) (x : Rat) (w : Nat) (res : Nat) : Prop :=
  ∃ lo hi, RoundsDown f x lo ∧ RoundsUp f x hi ∧ finitePat f res
    ∧ patVal f res = let a := patVal f lo
                     let b := patVal f hi
                     if a = b then x else if (w : Int) < ((x - a) / (b - a) * 4294967296).floor then b else a

/-- The value of a scale code (R47), and the codes that are NaN. -/
def scaleRat (mx : Bool) (code : Nat) : Rat :=
  let e := if mx then code else code / 4
  (if mx then 1 else ((4 + code % 4 : Nat) : Rat) / 4) * (2 ^ e : Nat) / (2 ^ 127 : Nat)
def scaleIsNan (mx : Bool) (code : Nat) : Bool := (if mx then code else code / 4) == 255

/-- The square root of `y` rounded to FP32 (R51): a pattern of value v with v² beside y, and no pattern between. -/
def RootRounds (r : RMode) (y : Rat) (w : Nat) : Prop :=
  let v := patVal .f32 w
  finitePat .f32 w ∧ 0 ≤ v ∧ match r with
    | .ru => y ≤ v * v ∧ ∀ u, finitePat .f32 u → 0 ≤ patVal .f32 u → y ≤ patVal .f32 u * patVal .f32 u → v ≤ patVal .f32 u
    | .rne => ∀ u, finitePat .f32 u → 0 ≤ patVal .f32 u →
        (v < patVal .f32 u → 4 * y ≤ (v + patVal .f32 u) * (v + patVal .f32 u)) ∧ (patVal .f32 u < v → (v + patVal .f32 u) * (v + patVal .f32 u) ≤ 4 * y)
    | _ => v * v ≤ y ∧ ∀ u, finitePat .f32 u → 0 ≤ patVal .f32 u → patVal .f32 u * patVal .f32 u ≤ y → patVal .f32 u ≤ v

/-- A special function of FP32 patterns (R51, R52): NaNs, the special cases, and the rounded result where the exact one is rational or a root. -/
def SFunOk (f : SFun) (r : RMode) (sat ftz : Bool) (a b : Nat) (res : Nat × Flags) : Prop :=
  let x := operandVal .f32 ftz a
  let y := operandVal .f32 ftz b
  let two := f == .div
  let neg := x.neg?
  let s := x.neg? != y.neg?
  let q := x.rat
  let nan := (canonNan .f32, flNV)
  let inf (neg : Bool) : Nat := signPat .f32 neg + infPat .f32
  -- ROUND of a rational, with FTZ
  let rounds (v : Rat) : Prop := ((ftz = true → normalVal .f32 ≤ v.abs) → FloatResult .f32 r sat v res.1 res.2)
    ∧ (ftz = true → v.abs ≤ tinyVal .f32 → res = (signPat .f32 (decide (v < 0)), flUF ||| flNX))
  let root (v : Rat) : Prop := RootRounds r v res.1 ∧ res.2 = flagIf (decide (patVal .f32 res.1 * patVal .f32 res.1 ≠ v)) flNX
  (x.isNan = true → res = (a ||| 2 ^ 22, flagIf (x.isSnan || (two && y.isSnan)) flNV))
  ∧ (x.isNan = false → two = true → y.isNan = true → res = (b ||| 2 ^ 22, flagIf y.isSnan flNV))
  ∧ (x.isNan = false → (two = true → y.isNan = false) → match f with
    | .rcp => (x.isZero = true → res = (inf neg, flDZ)) ∧ (x.isInf = true → res = (signPat .f32 neg, 0))
        ∧ (isFinite x = true → x.isZero = false → rounds (1 / q))
    | .rsq => (x.isZero = true → res = (inf neg, flDZ)) ∧ (x.isZero = false → neg = true → res = nan) ∧ (x.isInf = true → neg = false → res = (0, 0))
        ∧ (isFinite x = true → 0 < q → root (1 / q))
    | .sqrt => (x.isZero = true → res = (signPat .f32 neg, 0)) ∧ (x.isZero = false → neg = true → res = nan)
        ∧ (x.isInf = true → neg = false → res = (inf false, 0)) ∧ (isFinite x = true → 0 < q → root q)
    | .div => (x.isInf = true → y.isInf = true → res = nan) ∧ (x.isZero = true → y.isZero = true → res = nan)
        ∧ (isFinite x = true → x.isZero = false → y.isZero = true → res = (inf s, flDZ)) ∧ (x.isInf = true → y.isInf = false → res = (inf s, 0))
        ∧ (isFinite x = true → y.isInf = true → res = (signPat .f32 s, 0)) ∧ (x.isZero = true → isFinite y = true → y.isZero = false → res = (signPat .f32 s, 0))
        ∧ (isFinite x = true → isFinite y = true → x.isZero = false → y.isZero = false → rounds (q / y.rat))
    | .exp2 => (x.isInf = true → res = (if neg then 0 else inf false, 0))
        ∧ (isFinite x = true → ∀ n : Nat, 0 < n → n < 255 → q = (n : Rat) - 127 → res = (n * 2 ^ 23, 0))
    | .log2 => (x.isZero = true → res = (inf true, flDZ)) ∧ (x.isZero = false → neg = true → res = nan) ∧ (x.isInf = true → neg = false → res = (inf false, 0))
        ∧ (isFinite x = true → ∀ n : Nat, 0 < n → n < 255 → a = n * 2 ^ 23 → finitePat .f32 res.1 ∧ patVal .f32 res.1 = (n : Rat) - 127 ∧ res.2 = 0
            ∧ (n = 127 → res.1 = 0))
    | .sin => (x.isInf = true → res = nan) ∧ (isFinite x = true → (2 * q).isInt = true → res = (signPat .f32 neg, 0))
        ∧ (isFinite x = true → (q - 1 / 4).isInt = true → res = (0x3F800000, 0)) ∧ (isFinite x = true → (q + 1 / 4).isInt = true → res = (0xBF800000, 0))
    | .cos => (x.isInf = true → res = nan) ∧ (isFinite x = true → (2 * q + 1 / 2).isInt = true → res = (0, 0))
        ∧ (isFinite x = true → q.isInt = true → res = (0x3F800000, 0)) ∧ (isFinite x = true → (q + 1 / 2).isInt = true → res = (0xBF800000, 0)))

/-- The value of node j of a level of the fixed pairwise tree over leaves (R56). -/
def pairNode {α : Type} (f : α → α → α) (leaf : Nat → α) : Nat → Nat → α
  | 0, j => leaf j
  | k + 1, j => f (pairNode f leaf k (2 * j)) (pairNode f leaf k (2 * j + 1))

/-! The lane words. -/

/-- A split executes `i` in `e`: it runs, its word is legal, no destination is empty, and no source is empty that a lane reads
(R119, R185, R186); its ACTIVE lanes are those the guard selects. -/
def LaneReady (e : LaneEnv) (i : Instr) : Prop :=
  e.s.cur = .split e.tk e.g e.sp ∧ e.s.team? e.tk = some e.t ∧ e.t.group? e.g = some e.x ∧ e.split.st = .run
    ∧ e.act = activeMask e.t e.x e.sp ((laneOps i).getD {}).g
    ∧ ∃ j, effective e.fmt i = some j ∧ laneLegal e.t.regLimit e.x.spawned j = true ∧ formLegal e.t.regLimit e.fmt j = true ∧ dstFull e.x j = true
      ∧ (e.act = 0 ∨ feCheck e.x j = .ok)

/-- The group once an instruction of split `sp` that ran under the mask `m` has retired (R379). -/
def Group.counted (x : Group) (m : U32) : Group := { x with retired := bumpLanes m x.retired, icnt := x.icnt + 1 }

/-- The team once a lane instruction has retired and left the group `g` as `x`. -/
def Team.laneWent (t : Team) (g : Nat) (x : Group) : Team := { t.setGroup g x with npc := 0, laneRetired := t.laneRetired + 1 }

/-- The instruction `i` completes: the group becomes `x`, the team's other state `t`, and the split goes to its next word. Where
Haeth neither records nor replays, nothing else changes. -/
def LaneDoes (e : LaneEnv) (i : Instr) (t : Team) (x : Group) : Prop :=
  let t' := t.laneWent e.g ((x.modSplit e.sp fun z => { z with lpc := e.split.lpc + 1 }).counted (x.split e.sp).mask)
  ∃ u, exec i e.s = .next u ∧ u.team? e.tk = some t' ∧ (e.s.Quiet → u = e.s.setTeam e.tk t')

/-- Group `x'` is `x` with the register `n` of every lane of `m` written with `v`, and flags raised. -/
def WritesReg (x x' : Group) (n : Nat) (m : U32) (v : Nat → U32) (f : Flags) : Prop :=
  (∀ l, l < 32 → laneIn m l = true → x'.vreg n l = v l)
    ∧ (∀ k l, l < 32 → (k ≠ n ∨ laneIn m l = false) → x'.vreg k l = x.vreg k l)
    ∧ x'.flg = x.flg ||| f ∧ x'.raised = x.raised ||| f ∧ { x' with v := x.v, flg := x.flg, raised := x.raised } = x

/-- Group `x'` is `x` with the pair of registers `n` and `n + 1` of every lane of `m` written with `v`, and flags raised. -/
def WritesPair (x x' : Group) (n : Nat) (m : U32) (v : Nat → U64) (f : Flags) : Prop :=
  (∀ l, l < 32 → laneIn m l = true → x'.vpair n l = v l)
    ∧ (∀ k l, l < 32 → (k ≠ n ∧ k ≠ n + 1 ∨ laneIn m l = false) → x'.vreg k l = x.vreg k l)
    ∧ x'.flg = x.flg ||| f ∧ x'.raised = x.raised ||| f ∧ { x' with v := x.v, flg := x.flg, raised := x.raised } = x

/-- Group `x'` is `x` with the predicate `n` of every lane of `m` written with `v`, and flags raised; a write to p0 is discarded. -/
def WritesPred (x x' : Group) (n : Nat) (m : U32) (v : Nat → Bool) (f : Flags) : Prop :=
  (∀ l, l < 32 → laneIn m l = true → x'.preg n l = if n = 0 then true else v l)
    ∧ (∀ k l, l < 32 → (k ≠ n ∨ laneIn m l = false) → x'.preg k l = x.preg k l)
    ∧ x'.flg = x.flg ||| f ∧ x'.raised = x.raised ||| f ∧ { x' with p := x.p, flg := x.flg, raised := x.raised } = x

/-- The flags that the lanes of a mask raise together. -/
def flagsOver (m : U32) (f : Nat → Flags) : Flags := joinFlags ((lanesOf m).map f)

/-- `i` writes the register `d` of every ACTIVE lane with `v`, raises `f`, and changes nothing else. -/
def LaneWrites (e : LaneEnv) (i : Instr) (d : VReg) (v : Nat → U32) (f : Nat → Flags := fun _ => 0) : Prop :=
  ∃ x, WritesReg e.x x d.toNat e.act v (flagsOver e.act f) ∧ LaneDoes e i e.t x

/-- The same with the pair of registers at `d`. -/
def LanePairs (e : LaneEnv) (i : Instr) (d : VReg) (v : Nat → U64) (f : Nat → Flags := fun _ => 0) : Prop :=
  ∃ x, WritesPair e.x x d.toNat e.act v (flagsOver e.act f) ∧ LaneDoes e i e.t x

/-- The same with the predicate `d`. -/
def LanePreds (e : LaneEnv) (i : Instr) (d : VReg) (v : Nat → Bool) (f : Nat → Flags := fun _ => 0) : Prop :=
  ∃ x, WritesPred e.x x d.toNat e.act v (flagsOver e.act f) ∧ LaneDoes e i e.t x

/-- `i` changes the group to `x` and retires; it changes nothing else (R379). -/
def LaneBecomes (e : LaneEnv) (i : Instr) (x : Group) : Prop :=
  let t' := e.t.laneWent e.g { x with retired := bumpLanes e.split.mask e.x.retired, icnt := e.x.icnt + 1 }
  ∃ u, exec i e.s = .next u ∧ u.team? e.tk = some t' ∧ (e.s.Quiet → u = e.s.setTeam e.tk t')

/-- `i` puts the operation `o` in flight, behind the team's earlier ones that it must follow, marks `n` registers from `d` empty, and
goes on; `s` is the state that its checks left, and where Haeth neither records nor replays nothing else changes. -/
def LaneIssues (e : LaneEnv) (s : State) (i : Instr) (o : Op) (d n : Nat) : Prop :=
  let x := e.x.markEmpty d n
  let t := e.t.setGroup e.g x
  let t' := { t with ops := t.ops ++ [t.stamped o s.serial] }.laneWent e.g ((x.modSplit e.sp fun z => { z with lpc := e.split.lpc + 1 }).counted e.split.mask)
  ∃ u, exec i e.s = .next u ∧ u.team? e.tk = some t' ∧ (s.Quiet → u = { s.setTeam e.tk t' with serial := s.serial + 1 })

/-- `i` takes a trap reported for a lane: its group halts and holds the trap behind those it holds, and registers, splits, frames, counters and memory
are as they were (R108, R352). -/
def LaneTraps (e : LaneEnv) (i : Instr) (c : Cause) (lane : Nat) : Prop :=
  ∃ u t x, exec i e.s = .next u ∧ u.team? e.tk = some t ∧ t.group? e.g = some x ∧ x.halted = true
    ∧ x.traps = e.x.traps ++ [{ cause := c, src := 0, group := e.g, split := e.sp, lane := lane, loc := e.split.lpc.zeroExtend 64 }]
    ∧ x.v = e.x.v ∧ x.p = e.x.p ∧ x.splits = e.x.splits ∧ x.frames = e.x.frames ∧ x.nc = e.x.nc ∧ t.s = e.t.s ∧ u.mem = e.s.mem

/-- The operation of a long-latency producer. -/
def LaneEnv.late (e : LaneEnv) (path : Option Path) (body : OpBody) : Op :=
  { id := 0, path := path, cls := none, group := some e.g, lanes := e.act, split := e.sp, lpc := e.split.lpc.toNat, body := body }

/-- The split goes to `lpc`, and nothing else changes. -/
def LaneGoesTo (e : LaneEnv) (i : Instr) (lpc : BitVec 24) : Prop := LaneBecomes e i (e.x.modSplit e.sp fun y => { y with lpc := lpc })

/-- W(v, n) of R221: an exact integer written in n bits, wrapping, or clamped to the range of its signedness with FLG.SAT where the clamp
changes it. -/
def intW (n : Nat) (unsigned sat : Bool) (v : Int) : BitVec n × Flags :=
  let lo : Int := if unsigned then 0 else -(2 ^ (n - 1) : Nat)
  let hi : Int := if unsigned then (2 ^ n : Nat) - 1 else (2 ^ (n - 1) : Nat) - 1
  if sat then (BitVec.ofInt n (max lo (min hi v)), if v < lo ∨ hi < v then flSAT else 0) else (BitVec.ofInt n v, 0)

/-! The command processor's words. -/

/-- A command record (R405, R406): OPC, SUB, what SEQ, LAP and the status doubleword hold, and the operands, each at a bit of the 512. -/
def recordWord (opc sub tag status : Nat) (fs : List (Nat × Nat)) : Nat :=
  opc + sub * 2 ^ 8 + tag * 2 ^ 12 + status * 2 ^ 448 + (fs.map fun f => f.2 * 2 ^ f.1).sum

/-- A record with these operands is the command `i` where `ok` holds, and no command where it does not. -/
def RecordReads (opc sub : Nat) (fs : List (Nat × Nat)) (ok : Prop) (i : Instr) : Prop :=
  ∀ tag status, tag < 2 ^ 20 → status < 2 ^ 64 →
    (ok → commandOf (recordWord opc sub tag status fs) = some i) ∧ (¬ok → commandOf (recordWord opc sub tag status fs) = none)

/-- A record that holds this command: its operands are in the ranges of R406. -/
def Commanded (i : Instr) : Prop := ∃ w, commandOf w = some i

/-- The operand fields that the table of R406 names for an OPC and a SUB, as (first bit, width); none for those it does not list. -/
def recordFields : Nat → Nat → Option (List (Nat × Nat))
  | 1, 0 => some [(32, 4), (64, 304)]
  | 1, 1 => some [(32, 13), (64, 304), (384, 32)]
  | 2, 0 => some [(32, 28), (64, 64), (128, 64)]
  | 2, 1 => some [(32, 10)]
  | 2, 2 => some [(32, 23)]
  | 3, 0 => some [(32, 13)]
  | 4, 0 => some [(32, 11), (64, 64)]
  | 5, 0 => some [(32, 4), (64, 64), (128, 64)]
  | 6, 0 => some [(64, 64), (128, 32), (192, 10), (256, 64)]
  | 6, 1 => some [(64, 64), (128, 32)]
  | 7, 0 => some [(32, 24)]
  | 8, 0 => some [(64, 4)]
  | 8, 1 => some [(64, 1)]
  | 8, 2 => some [(64, 64), (128, 64)]
  | 8, 3 => some [(32, 4), (64, 64), (128, 64)]
  | 8, 4 => some [(32, 28), (64, 64), (128, 64), (192, 3)]
  | 8, 5 => some [(64, 64), (128, 64)]
  | 9, 0 => some [(32, 10), (64, 64), (128, 64), (192, 64)]
  | 9, 1 => some []
  | 9, 2 => some [(32, 12)]
  | 10, 0 => some [(32, 8)]
  | 10, 1 => some [(32, 16), (64, 16)]
  | 10, 2 => some [(32, 12), (64, 145)]
  | 10, 3 => some [(32, 5)]
  | 11, 0 | 11, 1 => some [(32, 2), (40, 24), (64, 64), (128, 64), (192, 64)]
  | 12, 0 => some [(64, 64), (128, 64)]
  | _, _ => none

/-- The privileged command `c` executes. -/
def CommandAt (s : State) (c : PendCmd) : Prop := s.cur = .command c.id ∧ s.cp.cmds.find? (fun x => x.id == c.id) = some c

/-- The same, asked for by the physical function of a device that is not in recovery: nothing denies it (R404, R409). -/
def PhysicalAt (s : State) (c : PendCmd) : Prop := CommandAt s c ∧ c.fn = 0 ∧ s.mgmt.recovery = false

/-- The command `i` leaves the state `s'` and ends with a status. -/
def CommandEnds (s : State) (c : PendCmd) (i : Instr) (s' : State) (status : Nat := 1) : Prop := exec i s = .next (s'.finishCommand c.id status)

end Sys2Proof.Machine
end

