-- ==== Sys2Proof/Certificates/Slice0/Obligations.lean ====
section
/-!
DEFINITION. Certificates/Slice0/Obligations.lean: the statements about the machine. Each docstring names the rules that the statement rests on.
-/
open Sys2Proof Sys2Proof.Machine

/-! The machine. -/

/-- R22, R26, R61, R216, R344, R348, R382, R383: what device reset leaves. That memory lists nothing, and so reads as zero, is the model's choice (log
entry 1); of the other values that no rule gives, which are the model's too (log entries 2 to 6), nothing is stated here. -/
def Obligations.ResetState : Prop :=
  let s := State.reset
  s.Inv ∧ s.mem = [] ∧ s.teams = [] ∧ s.lease = 0 ∧ s.clk.cycle = 0 ∧ s.halt = none ∧ s.debugHalt = none ∧ s.cp.tReply = 13 ∧ s.cp.nextLaunch = 1 ∧ s.cp.queues = []
    ∧ s.cp.launches = [] ∧ s.fab.redK = 20 ∧ s.fab.self = none ∧ s.haeth.enable = false ∧ s.haeth.clog2 = 16 ∧ s.haeth.slog2 = 30 ∧ s.haeth.bound = 26
    ∧ (∃ p, s.cp.parts = [(0, p)] ∧ p.cores = List.range 304) ∧ ∀ c, (s.core c).firstUnit = 3 ∧ (s.core c).frozen = false

/-- Every step keeps memory in its canonical form. -/
def Obligations.StepKeepsInvariant : Prop := ∀ s t : State, s.Inv → step s = .next t → t.Inv

/-- R4, R14, R167: bytes written read back, least significant first, no other byte changes and memory keeps its canonical form; s0 reads as zero and p0 and
q0 as true whatever is written to them, and every other register holds what it was given. -/
def Obligations.StorageReadsBack : Prop :=
  (∀ (s : State) (die : Option Nat) (k : Nat) (bs : List Byte), keyPa k + bs.length ≤ 2 ^ 52 → let u := (s.writeLong die k (bs.length + 1) bs).1
    u.bytesAt k bs.length = bs ∧ (∀ a, a < s.storeKey k ∨ s.storeKey k + bs.length ≤ a → sparseGet 0 u.mem a = sparseGet 0 s.mem a) ∧ (s.Inv → u.Inv) ∧ u.fab = s.fab)
  ∧ (∀ (s : State) (k n v : Nat), keyPa k + n ≤ 2 ^ 52 → (s.poke k n v).numAt k n = v % 2 ^ (8 * n))
  ∧ (∀ (t : Team) (d r : SReg) (v : U64), (t.setSreg d v).sreg r = (if r = 0 then 0 else if r = d then v else t.sreg r))
  ∧ (∀ (t : Team) (d r : BitVec 3) (v : Bool), (t.setQreg d v).qreg r = (if r = 0 then true else if r = d then v else t.qreg r))
  ∧ (∀ (x : Group) (n k l m : Nat) (v : U32), l < 32 → m < 32 → (x.setVreg n l v).vreg k m = if k = n ∧ m = l then v else x.vreg k m)
  ∧ ∀ (x : Group) (n k l m : Nat) (v : Bool), l < 32 → m < 32 → (x.setPreg n l v).preg k m = if k = 0 then true else if k = n ∧ m = l then v else x.preg k m

/-- A step runs what it fetches: where the agenda's next move is due, nothing else comes first, and it names a rider or a split that may issue, and
the words at its PC decode to an instruction, the step is that instruction's meaning; words that decode to none, and a fetch that fails,
trap; a split's instruction that its bay does not take in this cycle leaves it considered (R117). An event's or a command's step is its meaning. The
agenda, what is due before its move, the issues that a cycle owes and the cycle that passes while more are to come before the move are the model's
form of a step (DESIGN CHOICE, log entry 6). -/
def Obligations.StepRunsDecoded : Prop :=
  (∀ (s : State) f, s.urgent = some f → step s = f { s with cur := .none })
  ∧ (∀ s : State, s.urgent = none → (∀ m l, s.agenda ≠ ⟨0, m⟩ :: l) →
      (∀ a, s.clk.ending = false → s.forcedAgent = some a → step s = agentTurn a s)
      ∧ ((s.clk.ending = true ∨ s.forcedAgent = none) →
          (∀ f, s.barrierDue = some f → step s = f { s with cur := .none, clk := { s.clk with ending := true } })
          ∧ (s.barrierDue = none → ∀ n m l, s.agenda = ⟨n + 1, m⟩ :: l → step s = .next ({ s with agenda := ⟨n, m⟩ :: l } : State).tick.settle)))
  ∧ ∀ (s : State) (x : Turn) (l : List Turn), s.agenda = x :: l → x.dt = 0 → s.urgent = none →
    let s0 := ({ s with agenda := l } : State).settle
    (∀ tk t, x.move = .rider tk → s0.team? tk = some t →
      (s0.riderReady t = false → step s = .next s0)
      ∧ (s0.riderReady t = true → ∀ r s1, (s0.setTeam tk { t with ran := true }).fetchScalar t = (r, s1) →
        (∀ w w2, r = .ok (w, w2) → (∀ i, decodeScalar w w2 = some i → step s = exec i { s1 with cur := .rider tk })
          ∧ (decodeScalar w w2 = none → step s = .next (s1.riderFault tk .illegal)))
        ∧ ∀ c a, r = .error (c, a) → step s = .next (s1.riderFault tk c a)))
    ∧ (∀ tk g sp t y, x.move = .split tk g sp → s0.team? tk = some t → t.group? g = some y →
      let z := y.split sp
      (s0.splitReady tk t g sp y = false → step s = .next s0)
      ∧ (s0.splitReady tk t g sp y = true → ∀ r s1, s0.fetch t.core t.root (laneLine t z.lpc).1 (laneLine t z.lpc).2 true = (r, s1) →
        (∀ w, r = .ok w →
          (∀ i, decodeLane (BitVec.ofNat 96 w) = some i →
            (s1.waits tk g sp i = true → step s = exec i { s1 with cur := .split tk g sp })
            ∧ (s1.waits tk g sp i = false → s1.refuses t sp y i = true → step s = .next (s1.consider tk t g sp y none))
            ∧ (s1.waits tk g sp i = false → s1.refuses t sp y i = false →
                step s = exec i { s1.consider tk t g sp y (some i) with cur := .split tk g sp }))
          ∧ (decodeLane (BitVec.ofNat 96 w) = none →
              step s = .next (laneTrap (s1.consider tk t g sp y none) tk g sp z.lpc .illegal (lowestLane z.mask))))
        ∧ ∀ c, r = .error c →
            step s = .next (laneTrap (s1.consider tk t g sp y none) tk g sp z.lpc c (lowestLane z.mask) (BitVec.ofNat 64 (laneAddr t z.lpc)))))
    ∧ (∀ i, x.move = .event i → step s = exec i { s0 with cur := .none })
    ∧ (∀ fn s1 id i, x.move = .command fn → s0.takeCommand fn = (s1, some (id, i)) → step s = exec i { s1 with cur := .command id })
    ∧ (x.move = .idle → step s = .next s0)

/-- R4, R169 to R175, R184: words written out from the encodings of the spec's own worked examples decode to their instructions, and an unassigned or
reserved one to none. -/
def Obligations.DecodeWords : Prop :=
  decodeTableWord 32 0x04285FFD = some (.saddi 5 2 0x1FFD)
  ∧ decodeTableWord 32 0x122091A3 = some (.slui 4 0x091A3)
  ∧ decodeTableWord 32 0x1E5FFFFB = some (.sbr false 2 0x1FFFFB)
  ∧ decodeTableWord 32 0x263882A6 = some (.sld 3 7 4 5 .acq .device)
  ∧ decodeTableWord 32 0x7C212003 = some (.swaitp .mx 9)
  ∧ decodeTableWord 96 0x403940482008040004800000 = some (.ffma { g := .neg 1, rm := .rz, d := 9, a := .reg 8, b := .reg 4, c := .reg 9, fea := true })
  ∧ decodeTableWord 96 0x100020380C4A200000000000 = some (.iadd { sat := true, d := 7, a := .reg 3, b := .const 37 })
  ∧ decodeTableWord 96 0x00130000000000000F000014 = some (.bra { g := .pos 3 } 20 30)
  ∧ decodeTableWord 96 0x60000030080000000000108C = some (.cvt { d := 6, a := .reg 2 } { srx := false, du := false, dsel := 2, sel := 0, df := .e4m3, sf := .f32 })
  ∧ decodeTableWord 96 0x800000401C00000020008800
      = some (.ldg { d := 8, a := .reg 7 } { imm := 64, h := 4, size := .w, kind := .plain, scope := .split, sx := false, a64 := false })
  ∧ decodeTableWord 96 0xA0100060100A000003006846
      = some (.atomcas { d := 12, a := .reg 4, b := .reg 5, c := .reg 6 } 2 { h := 3, ty := .i32, kind := .acqrel, scope := .device })
  ∧ decodeTableWord 96 0xA00100180004000000000116
      = some (.atom { g := .pos 1, d := 3, a := .reg 0, b := .reg 2 } .add { h := 0, ty := .f32, kind := .strong, scope := .device })
  ∧ decodeTableWord 32 0x0000007F = none ∧ decodeTableWord 96 0x000800000000000000000000 = none

/-- R169 to R174, R185: every well-formed scalar instruction, with every operand at every value, is what its word decodes to; and a word decodes only to
the well-formed instruction that it encodes. -/
def Obligations.ScalarWordsRoundTrip : Prop :=
  (∀ (i : Instr) (n w : Nat), wellFormed i = true → encode i = some (n, w) → n ≤ 64 → decodeTableWord n w = some i)
  ∧ ∀ (w w2 : U32) (i : Instr), decodeScalar w w2 = some i → wellFormed i = true ∧ encodeScalar i = some w

/-- R175 to R185: every well-formed lane instruction, with every operand at every value, has a word, which decodes to it; and a word decodes only to the
well-formed instruction that it encodes. -/
def Obligations.LaneWordsRoundTrip : Prop :=
  (∀ (i : Instr) (o : LaneOps), laneOps i = some o → wellFormed i = true → ∃ w, encode i = some (96, w) ∧ decodeTableWord 96 w = some i)
  ∧ ∀ (w : U96) (i : Instr), decodeLane w = some i → wellFormed i = true ∧ encodeLane i = some w

/-- R6, R119, R136, R185, R186: what comes before an instruction's meaning. A word that its formats, its registers or its fields make illegal takes
ILLEGAL_INSTRUCTION whatever its guard, a lane word in the lowest lane of its split, and changes nothing else; a lane word waits for its destination and its
sources to be full, or under FE takes REG_EMPTY where an ACTIVE lane reads an empty one. -/
def Obligations.IllegalWordsAndWaits : Prop :=
  (∀ (s : State) (tk : Nat) (t : Team) (i : Instr) (w : U32), RiderAt s tk t → s.Quiet → t.handler = false → t.trapVec ≠ 0 → t.riderTrap = none →
    encodeScalar i = some w → wellFormed i = false → RiderTraps s tk t i (riderTrapAt t .illegal))
  ∧ ∀ (e : LaneEnv) (i : Instr) (o : LaneOps), e.s.cur = .split e.tk e.g e.sp → e.s.team? e.tk = some e.t → e.t.group? e.g = some e.x → laneOps i = some o →
    e.act = activeMask e.t e.x e.sp o.g → e.s.Quiet → e.t.trapVec ≠ 0 →
    let traps (c : Cause) (lane : Nat) : Prop := (∃ u t x, exec i e.s = .next u ∧ u.team? e.tk = some t ∧ t.group? e.g = some x ∧ x.halted = true
      ∧ x.traps = e.x.traps ++ [{ cause := c, src := 0, group := e.g, split := e.sp, lane := lane, loc := e.split.lpc.zeroExtend 64 }]
      ∧ x.v = e.x.v ∧ x.p = e.x.p ∧ t.s = e.t.s ∧ u.mem = e.s.mem)
    (effective e.fmt i = none → traps .illegal (lowestLane e.split.mask))
    ∧ ∀ j, effective e.fmt i = some j →
      (laneLegal e.t.regLimit e.x.spawned j = false ∨ formLegal e.t.regLimit e.fmt j = false → traps .illegal (lowestLane e.split.mask))
      ∧ (laneLegal e.t.regLimit e.x.spawned j = true → formLegal e.t.regLimit e.fmt j = true →
        (dstFull e.x j = false → exec i e.s = .next e.s)
        ∧ (dstFull e.x j = true → e.act ≠ 0 → feCheck e.x j = .wait → exec i e.s = .next e.s)
        ∧ (dstFull e.x j = true → e.act ≠ 0 → feCheck e.x j = .trap → traps .regEmpty (lowestLane e.act)))

/-! The rider's registers. -/

/-- R193 to R197: the value each word of the integer, immediate and long-constant groups writes, and that the rider goes on with the next
word; SCMP writes a predicate by the codes of R195, and SLI takes two words. -/
def Obligations.ScalarIntegerResults : Prop :=
  ∀ (s : State) (tk : Nat) (t : Team), RiderAt s tk t → ∀ d a b : SReg, t.regsReady [d, a, b] →
    let x := t.sreg a
    let y := t.sreg b
    let writes (i : Instr) (v : U64) : Prop := RiderWrites s tk t i d v
    writes (.sadd d a b) (x + y)
    ∧ writes (.ssub d a b) (x - y)
    ∧ writes (.smul d a b) (x * y)
    ∧ writes (.smulh d a b) ((x.signExtend 128 * y.signExtend 128).extractLsb' 64 64)
    ∧ writes (.smulhU d a b) ((x.zeroExtend 128 * y.zeroExtend 128).extractLsb' 64 64)
    ∧ writes (.sdiv d a b) (if y = 0 then 0xFFFFFFFFFFFFFFFF else x.sdiv y)
    ∧ writes (.sdivU d a b) (if y = 0 then 0xFFFFFFFFFFFFFFFF else x.udiv y)
    ∧ writes (.srem d a b) (if y = 0 then x else x.srem y)
    ∧ writes (.sremU d a b) (if y = 0 then x else x.umod y)
    ∧ writes (.sand d a b) (x &&& y)
    ∧ writes (.sor d a b) (x ||| y)
    ∧ writes (.sxor d a b) (x ^^^ y)
    ∧ writes (.sshl d a b) (x <<< (y.extractLsb' 0 6).toNat)
    ∧ writes (.sshr d a b) (x >>> (y.extractLsb' 0 6).toNat)
    ∧ writes (.ssra d a b) (x.sshiftRight (y.extractLsb' 0 6).toNat)
    ∧ writes (.smin d a b) (if x.slt y then x else y)
    ∧ writes (.sminU d a b) (if x.ult y then x else y)
    ∧ writes (.smax d a b) (if y.slt x then x else y)
    ∧ writes (.smaxU d a b) (if y.ult x then x else y)
    ∧ writes (.spopc d a) (BitVec.ofNat 64 ((List.range 64).countP fun k => x.getLsbD k))
    ∧ writes (.sclz d a) x.clz
    ∧ (∀ q, writes (.ssel q d a b) (if t.qreg q then x else y))
    ∧ (∀ cc q, RiderDoes s tk (.scmp cc q a b) ((t.setQreg q (match cc with
        | .eq => x == y
        | .ne => x != y
        | .lt => x.slt y
        | .ge => !x.slt y
        | .ltu => x.ult y
        | .geu => !x.ult y)).wentTo (t.pc + 4)))
    ∧ (∀ imm, writes (.saddi d a imm) (x + imm.signExtend 64))
    ∧ (∀ imm, writes (.sandi d a imm) (x &&& imm.signExtend 64))
    ∧ (∀ imm, writes (.sori d a imm) (x ||| imm.signExtend 64))
    ∧ (∀ imm, writes (.sxori d a imm) (x ^^^ imm.signExtend 64))
    ∧ (∀ sh, writes (.sshli d a sh) (x <<< sh.toNat))
    ∧ (∀ sh, writes (.sshri d a sh) (x >>> sh.toNat))
    ∧ (∀ sh, writes (.ssrai d a sh) (x.sshiftRight sh.toNat))
    ∧ (∀ imm, writes (.slui d imm) (imm.signExtend 64 * 0x2000))
    ∧ ∀ hi lo, RiderDoes s tk (.sli d hi lo) ((t.setSreg d (hi.signExtend 64 * 0x100000000 + lo.zeroExtend 64)).wentTo (t.pc + 8))

/-- R198: where each branch goes, and the link it writes. SBR with neg set and q0 is no instruction (R185). -/
def Obligations.ScalarBranches : Prop :=
  ∀ (s : State) (tk : Nat) (t : Team), RiderAt s tk t → ∀ d a : SReg, t.regsReady [d, a] →
    (∀ off, RiderDoes s tk (.sjmp off) (t.wentTo (t.pc + 4 * off.signExtend 64)))
    ∧ (∀ off, RiderDoes s tk (.scall d off) ((t.setSreg d (t.pc + 4)).wentTo (t.pc + 4 * off.signExtend 64)))
    ∧ (∀ imm, RiderDoes s tk (.sjmpr d a imm) ((t.setSreg d (t.pc + 4)).wentTo (t.sreg a + 4 * imm.signExtend 64)))
    ∧ RiderDoes s tk (.sret a) (t.wentTo (t.sreg a))
    ∧ ∀ neg q off, (neg = true → q ≠ 0) →
        RiderDoes s tk (.sbr neg q off) (t.wentTo (if (t.qreg q ^^ neg) then t.pc + 4 * off.signExtend 64 else t.pc + 4))

/-! Lane integers. -/

/-- R221, R224 to R227: the arithmetic of OP 0x10. -/
def Obligations.LaneIntegerArithmetic : Prop :=
  ∀ (e : LaneEnv) (o : LaneOps),
    let ds := o.sga && o.sgb
    let a (l : Nat) : Int := e.int l o.sga o.a
    let b (l : Nat) : Int := e.int l o.sgb o.b
    let writes (i : Instr) (v : Nat → U32 × Flags) : Prop := LaneReady e i → LaneWrites e i o.d (fun l => (v l).1) fun l => (v l).2
    let w (u : Bool) (v : Int) : U32 × Flags := intW 32 u o.sat v
    writes (.iadd o) (fun l => w ds (a l + b l))
    ∧ writes (.isub o) (fun l => w ds (a l - b l))
    ∧ writes (.imul o) (fun l => w ds (a l * b l))
    ∧ writes (.imulh o) (fun l => ((BitVec.ofInt 64 (a l * b l)).extractLsb' 32 32, 0))
    ∧ writes (.imad o) (fun l => w ds (a l * b l + e.int l ds o.c))
    ∧ (LaneReady e (.imadWide o) →
        let v (l : Nat) := intW 64 ds o.sat (a l * b l + (if ds then ((e.val64 l o.c).toNat : Int) else (e.val64 l o.c).toInt))
        LanePairs e (.imadWide o) o.d (fun l => (v l).1) fun l => (v l).2)
    ∧ writes (.idiv o) (fun l => (if b l = 0 then 0xFFFFFFFF else BitVec.ofInt 32 ((a l).tdiv (b l)), 0))
    ∧ writes (.irem o) (fun l => (if b l = 0 then e.val l o.a else BitVec.ofInt 32 ((a l).tmod (b l)), 0))
    ∧ writes (.imin o) (fun l => (if a l ≤ b l then e.val l o.a else e.val l o.b, 0))
    ∧ writes (.imax o) (fun l => (if b l ≤ a l then e.val l o.a else e.val l o.b, 0))
    ∧ writes (.iabs o) (fun l => w o.sga (a l).natAbs)
    ∧ writes (.ineg o) (fun l => w o.sga (-a l))

/-- R227: IADDS and ISUBS write the sum or difference of 32 bits and, to the carry predicate, the carry or borrow out. -/
def Obligations.LaneCarryChains : Prop :=
  ∀ (e : LaneEnv) (o : LaneOps) (x : CarryExt),
    let cin (l : Nat) : Int := if x.cie && e.x.preg x.ci.toNat l then 1 else 0
    let does (i : Instr) (v : Nat → Int) : Prop := LaneReady e i → ∃ y, LaneDoes e i e.t y
      ∧ (∀ l, l < 32 → laneIn e.act l = true → y.vreg o.d.toNat l = BitVec.ofInt 32 (v l)
          ∧ (x.co ≠ 0 → y.preg x.co.toNat l = decide (v l < 0 ∨ 2 ^ 32 ≤ v l)))
      ∧ (∀ k l, l < 32 → (k ≠ o.d.toNat ∨ laneIn e.act l = false) → y.vreg k l = e.x.vreg k l)
      ∧ (∀ k l, l < 32 → (k ≠ x.co.toNat ∨ laneIn e.act l = false) → y.preg k l = e.x.preg k l)
      ∧ y.flg = e.x.flg
    does (.iadds o x) (fun l => ((e.val l o.a).toNat : Int) + (e.val l o.b).toNat + cin l)
    ∧ does (.isubs o x) (fun l => ((e.val l o.a).toNat : Int) - (e.val l o.b).toNat - cin l)

/-- R228: comparisons with accumulation, the predicate table, selection and moves. -/
def Obligations.LaneCompareSelect : Prop :=
  ∀ (e : LaneEnv) (o : LaneOps),
    let a (l : Nat) : Int := e.int l o.sga o.a
    let b (l : Nat) : Int := e.int l o.sgb o.b
    (∀ cc acc, LaneReady e (.icmp o cc acc) → LanePreds e (.icmp o cc acc) o.d fun l =>
      let r : Bool := match cc with
        | .eq => decide (a l = b l)
        | .ne => decide (a l ≠ b l)
        | .lt => decide (a l < b l)
        | .le => decide (a l ≤ b l)
        | .gt => decide (b l < a l)
        | .ge => decide (b l ≤ a l)
      match acc with
        | .set => r
        | .and => e.x.preg o.d.toNat l && r
        | .or => e.x.preg o.d.toNat l || r
        | .xor => e.x.preg o.d.toNat l ^^ r)
    ∧ (∀ tt, LaneReady e (.pbool o tt) → LanePreds e (.pbool o tt) o.d fun l =>
        tt.getLsbD ((if e.pred l o.a then 1 else 0) + (if e.pred l o.b then 2 else 0) + (if e.pred l o.c then 4 else 0)))
    ∧ (LaneReady e (.pick o) → LaneWrites e (.pick o) o.d fun l => if e.pred l o.c then e.val l o.a else e.val l o.b)
    ∧ (LaneReady e (.mov o) → LaneWrites e (.mov o) o.d fun l => e.val l o.a)
    ∧ (LaneReady e (.movD o) → LanePairs e (.movD o) o.d fun l => e.val64 l o.a)
    ∧ (LaneReady e (.movi o) → LaneWrites e (.movi o) o.d fun l => e.val l o.b)

/-- R229: sums of halves, and dot products of 16-, 8- and 4-bit elements added to C; under FMTSEL the signedness joins FMT's (R177). -/
def Obligations.LanePackedIntegers : Prop :=
  ∀ (e : LaneEnv) (o : LaneOps),
    let elem (w : Nat) (u : Bool) (r : U32) (k : Nat) : Int := if u then ((r.extractLsb' (w * k) w).toNat : Int) else (r.extractLsb' (w * k) w).toInt
    let halves (i : Instr) (f : Int → Int → Int) : Prop := LaneReady e i →
      let h (l k : Nat) := intW 16 (o.sga && o.sgb) o.sat (f (elem 16 o.sga (e.val l o.a) k) (elem 16 o.sgb (e.val l o.b) k))
      LaneWrites e i o.d (fun l => (h l 1).1 ++ (h l 0).1) fun l => (h l 0).2 ||| (h l 1).2
    let dot (i : Instr) (w : Nat) : Prop := LaneReady e i →
      let sa := o.sga || (o.fmtsel && fmtSGA e.fmt)
      let sb := o.sgb || (o.fmtsel && fmtSGB e.fmt)
      let v (l : Nat) := intW 32 (sa && sb) o.sat
        (e.int l (sa && sb) o.c + ((List.range (32 / w)).map fun k => elem w sa (e.val l o.a) k * elem w sb (e.val l o.b) k).sum)
      LaneWrites e i o.d (fun l => (v l).1) fun l => (v l).2
    halves (.padd2 o) (fun a b => a + b) ∧ halves (.psub2 o) (fun a b => a - b)
    ∧ dot (.pmac2 o) 16 ∧ dot (.dot4 o) 8 ∧ dot (.dot8 o) 4

/-- R230, R231: logic, shifts, counts and bit fields. A shift by 32 or more leaves zeros, or the sign. -/
def Obligations.LaneLogicShifts : Prop :=
  ∀ (e : LaneEnv) (o : LaneOps),
    let writes (i : Instr) (v : U32 → U32 → U32 → U32) : Prop :=
      LaneReady e i → LaneWrites e i o.d fun l => v (e.val l o.a) (e.val l o.b) (e.val l o.c)
    writes (.land o) (fun a b _ => a &&& b)
    ∧ writes (.lor o) (fun a b _ => a ||| b)
    ∧ writes (.lxor o) (fun a b _ => a ^^^ b)
    ∧ writes (.lnot o) (fun a _ _ => ~~~a)
    ∧ (∀ tt, LaneReady e (.blut o tt) → ∃ v, LaneWrites e (.blut o tt) o.d v ∧ ∀ l k, k < 32 → (v l).getLsbD k
        = tt.getLsbD ((if (e.val l o.a).getLsbD k then 1 else 0) + (if (e.val l o.b).getLsbD k then 2 else 0) + if (e.val l o.c).getLsbD k then 4 else 0))
    ∧ writes (.shl o) (fun a b _ => a <<< b)
    ∧ writes (.shr o) (fun a b _ => a >>> b)
    ∧ writes (.sra o) (fun a b _ => a.sshiftRight' b)
    ∧ writes (.rotl o) (fun a b _ => a.rotateLeft b.toNat)
    ∧ writes (.shfd o) (fun a b c => BitVec.setWidth 32 ((c ++ a) >>> b))
    ∧ writes (.popc o) (fun a _ _ => BitVec.ofNat 32 ((List.range 32).countP fun k => a.getLsbD k))
    ∧ writes (.clz o) (fun a _ _ => a.clz)
    ∧ writes (.ctz o) (fun a _ _ => a.reverse.clz)
    ∧ writes (.brev o) (fun a _ _ => a.reverse)
    ∧ writes (.bfe o) (fun a b _ =>
        let len := (b.extractLsb' 8 8).toNat
        let v : Int := (if o.sga then (a.toNat : Int) else a.toInt) / 2 ^ (b.extractLsb' 0 8).toNat
        BitVec.ofInt 32 (if o.sga then (BitVec.ofInt len v).toNat else (BitVec.ofInt len v).toInt))
    ∧ (LaneReady e (.bfi o) → ∃ v, LaneWrites e (.bfi o) o.d v ∧ ∀ l k, k < 32 →
        let pos := ((e.val l o.b).extractLsb' 0 8).toNat
        let len := ((e.val l o.b).extractLsb' 8 8).toNat
        (v l).getLsbD k = if pos ≤ k ∧ k < pos + len then (e.val l o.a).getLsbD (k - pos) else (e.val l o.c).getLsbD k)

/-- R232 to R235: the rounding shift in every mode, beyond 40 places as at 40, and draws: RAND takes the lane's next draw and counts it, RAND.ctr takes
the counter its operands name and counts nothing; nothing else of the group changes. -/
def Obligations.LaneRoundShiftAndDraws : Prop :=
  ∀ (e : LaneEnv) (o : LaneOps),
    let frame (n : RandCount) (x : Group) : Prop := { x with v := e.x.v } = e.x
      ∧ ∀ k l, l < 32 → (laneIn e.act l = false ∨ k < o.d.toNat ∨ o.d.toNat + randRegs n ≤ k) → x.vreg k l = e.x.vreg k l
    (∀ sz, LaneReady e (.rshr o sz) →
      let q (l : Nat) : Int := nearInt o.rm ((e.int l o.sga o.a : Rat) / (2 ^ min (e.val l o.b).toNat 40 : Nat))
      let r (l : Nat) := intW (rshrBits sz) o.sga o.sat (q l)
      LaneWrites e (.rshr o sz) o.d (fun l => if o.sga then (r l).1.setWidth 32 else (r l).1.signExtend 32) fun l => (r l).2)
    ∧ (∀ n r, LaneReady e (.rand o n r) → ∃ x, LaneDoes e (.rand o n r) (e.drawn 1) x ∧ frame n x
        ∧ ∀ l k, l < 32 → laneIn e.act l = true → k < randRegs n → x.vreg (o.d.toNat + k) l
          = ((philox r.toNat ((e.t.drawOf e.g l).toNat, e.g * 32 + l, e.t.teamId % 2 ^ 32, e.t.launch % 2 ^ 32) e.seed)[k]?).getD 0)
    ∧ (∀ n r, LaneReady e (.randCtr o n r) → ∃ x, LaneDoes e (.randCtr o n r) e.t x ∧ frame n x
        ∧ ∀ l k, l < 32 → laneIn e.act l = true → k < randRegs n → x.vreg (o.d.toNat + k) l
          = ((philox r.toNat ((e.val l o.a).toNat, (e.val l o.b).toNat, (e.val l o.c).toNat, 0) e.seed)[k]?).getD 0)

/-! Across the lanes. -/

/-- R56, R240 to R245: the value each gather and collective gives the ACTIVE lanes. REDUX combines 32 lanes in the fixed pairwise tree, a lane that
is not ACTIVE giving the identity; SCAN combines in the order of the lanes; their integer .add writes the exact sum. -/
def Obligations.CrossLaneResults : Prop :=
  ∀ (e : LaneEnv) (o : LaneOps),
    let int (w : U32) : Int := if o.sga then (w.toNat : Int) else w.toInt
    let pat (r : Nat × Flags) : U32 × Flags := (BitVec.ofNat 32 r.1, r.2)
    let step (op : RedOp) (p q : U32) : U32 × Flags := match op with
      | .add => (p + q, 0)
      | .min => (if int q < int p then q else p, 0)
      | .max => (if int p < int q then q else p, 0)
      | .and => (p &&& q, 0)
      | .or => (p ||| q, 0)
      | .xor => (p ^^^ q, 0)
      | .fadd => pat (floatOp .f32 .add o.rm o.sat e.ftz p.toNat q.toNat 0)
      | .fmin => pat (floatMinMax .f32 false e.ftz p.toNat q.toNat)
      | .fmax => pat (floatMinMax .f32 true e.ftz p.toNat q.toNat)
    let identity (op : RedOp) : U32 := match op with
      | .add | .or | .xor => 0
      | .min => if o.sga then 0xFFFFFFFF else 0x7FFFFFFF
      | .max => if o.sga then 0 else 0x80000000
      | .and => 0xFFFFFFFF
      | .fadd => 0x80000000
      | .fmin => 0x7F800000
      | .fmax => 0xFF800000
    (∀ m seg, LaneReady e (.xlane o m seg) → LaneWrites e (.xlane o m seg) o.d fun l =>
      match xlaneSource m (2 ^ seg.toNat) l (e.val l o.b).toNat with
      | some k => if e.liveLane k then e.laneReg o.a k else e.val l o.c
      | none => e.val l o.c)
    ∧ (∀ x, LaneReady e (.slide o x) → x.size = .w → LaneWrites e (.slide o x) o.d fun l =>
        let at_ (src : Src) (k : Nat) : U32 := if e.liveLane k then e.laneReg src k else 0
        let n := x.n.toNat
        if x.up then (if n ≤ l then at_ o.a (l - n) else if x.edge then at_ o.a 0 else at_ o.c (l + 32 - n))
        else (if l + n < 32 then at_ o.a (l + n) else if x.edge then at_ o.a 31 else at_ o.c (l + n - 32)))
    ∧ (∀ x, LaneReady e (.slide o x) →
        let m := match x.size with
          | .w => 1
          | .h => 2
          | .b => 4
        let n := x.n.toNat
        let bit (src : Src) (t b : Nat) : Bool := e.liveLane (t / m) && (e.laneReg src (t / m)).getLsbD (32 / m * (t % m) + b)
        ∃ v, LaneWrites e (.slide o x) o.d v ∧ ∀ l j b, l < 32 → j < m → b < 32 / m →
          (v l).getLsbD (32 / m * j + b) = let t := l * m + j
            if x.up then (if n ≤ t then bit o.a (t - n) b else if x.edge then bit o.a 0 b else bit o.c (t + 32 * m - n) b)
            else (if t + n < 32 * m then bit o.a (t + n) b else if x.edge then bit o.a (32 * m - 1) b else bit o.c (t + n - 32 * m) b))
    ∧ (∀ neg, LaneReady e (.pgath o .mask neg) → ∃ v, LaneWrites e (.pgath o .mask neg) o.d (fun _ => v)
        ∧ ∀ k, k < 32 → v.getLsbD k = (laneIn e.act k && (e.pred k o.a != neg)))
    ∧ (∀ neg, LaneReady e (.pgath o .every neg) → LanePreds e (.pgath o .every neg) o.d fun _ => e.lanes.all fun k => e.pred k o.a != neg)
    ∧ (∀ neg, LaneReady e (.pgath o .some neg) → LanePreds e (.pgath o .some neg) o.d fun _ => e.lanes.any fun k => e.pred k o.a != neg)
    ∧ (∀ neg, LaneReady e (.pgath o .agree neg) → LanePreds e (.pgath o .agree neg) o.d fun _ =>
        e.lanes.all (fun k => e.pred k o.a != neg) || e.lanes.all fun k => e.pred k o.a == neg)
    ∧ (LaneReady e (.redux o .add) → let r := intW 32 o.sga o.sat ((e.lanes.map fun k => int (e.laneReg o.a k)).sum)
        LaneWrites e (.redux o .add) o.d (fun _ => r.1) fun _ => r.2)
    ∧ (∀ op, op ≠ .add → LaneReady e (.redux o op) →
        let leaf (k : Nat) : U32 × Flags := (if laneIn e.act k then e.laneReg o.a k else identity op, 0)
        let r := pairNode (fun p q => ((step op p.1 q.1).1, p.2 ||| q.2 ||| (step op p.1 q.1).2)) leaf 5 0
        LaneWrites e (.redux o op) o.d (fun _ => r.1) fun _ => r.2)
    ∧ (∀ excl, LaneReady e (.scan o .add excl) →
        let r (l : Nat) := intW 32 o.sga o.sat ((e.lanes.filter fun k => decide (k < l ∨ (k = l ∧ excl = false))).map fun k => int (e.laneReg o.a k)).sum
        LaneWrites e (.scan o .add excl) o.d (fun l => (r l).1) fun l => (r l).2)
    ∧ (∀ op excl, op ≠ .add → LaneReady e (.scan o op excl) →
        let before (l : Nat) : U32 := (e.lanes.filter fun k => decide (k < l)).foldl (fun p k => (step op p (e.laneReg o.a k)).1) (identity op)
        LaneWrites e (.scan o op excl) o.d (fun l => if excl then before l else (step op (before l) (e.laneReg o.a l)).1)
          fun l => (step op (before l) (e.laneReg o.a l)).2)
    ∧ (LaneReady e (.vmatch o true false) → LanePreds e (.vmatch o true false) o.d fun l => e.lanes.all fun k => e.val k o.a == e.val l o.a)
    ∧ (LaneReady e (.vmatch o false false) → ∃ v, LaneWrites e (.vmatch o false false) o.d v
        ∧ ∀ l k, l < 32 → k < 32 → (v l).getLsbD k = (laneIn e.act k && e.val k o.a == e.val l o.a))
    ∧ (LaneReady e (.vmatch o true true) → LanePreds e (.vmatch o true true) o.d fun l => e.lanes.all fun k => e.val64 k o.a == e.val64 l o.a)
    ∧ (LaneReady e (.vmatch o false true) → ∃ v, LaneWrites e (.vmatch o false true) o.d v
        ∧ ∀ l k, l < 32 → k < 32 → (v l).getLsbD k = (laneIn e.act k && e.val64 k o.a == e.val64 l o.a))

/-! Lane floating point. -/

/-- R36 to R40, R250 to R254: FP32 arithmetic, minimum and maximum, comparison, classification and rounding to an integer, with the flags they raise
(R42, R43); and what each of these computes of any two or three patterns: the exact result rounded once, NaNs, infinities, zeros, overflow and FTZ.
Of exact results between the largest finite value and the next power of two nothing is said (log entry 20). -/
def Obligations.LaneFloat32Results : Prop :=
  ∀ (e : LaneEnv) (o : LaneOps),
    let a (l : Nat) : Nat := e.fl l .f32 o.a
    let b (l : Nat) : Nat := e.fl l .f32 o.b
    let writes (i : Instr) (v : Nat → Nat × Flags) : Prop := LaneReady e i → LaneWrites e i o.d (fun l => BitVec.ofNat 32 (v l).1) fun l => (v l).2
    writes (.fadd o) (fun l => floatOp .f32 .add (e.rm o) o.sat e.ftz (a l) (b l) (e.fl l .f32 o.c))
    ∧ writes (.fsub o) (fun l => floatOp .f32 .sub (e.rm o) o.sat e.ftz (a l) (b l) (e.fl l .f32 o.c))
    ∧ writes (.fmul o) (fun l => floatOp .f32 .mul (e.rm o) o.sat e.ftz (a l) (b l) (e.fl l .f32 o.c))
    ∧ writes (.ffma o) (fun l => floatOp .f32 .fma (e.rm o) o.sat e.ftz (a l) (b l) (e.fl l .f32 o.c))
    ∧ writes (.fmin o) (fun l => floatMinMax .f32 false e.ftz (a l) (b l))
    ∧ writes (.fmax o) (fun l => floatMinMax .f32 true e.ftz (a l) (b l))
    ∧ writes (.frnd o) (fun l => floatRound (e.rm o) e.ftz (a l))
    ∧ (∀ cc acc, LaneReady e (.fcmp o cc acc) → LanePreds e (.fcmp o cc acc) o.d
        (fun l => accumulate acc (e.x.preg o.d.toNat l) (floatCmp .f32 e.ftz cc (a l) (b l)).1) fun l => (floatCmp .f32 e.ftz cc (a l) (b l)).2)
    ∧ (∀ set, LaneReady e (.fclass o set) → LanePreds e (.fclass o set) o.d fun l => set.getLsbD (floatClass (a l)))
    ∧ ∀ a b c : Nat, a < 2 ^ 32 → b < 2 ^ 32 → c < 2 ^ 32 →
      (∀ op r sat ftz, FloatOpOk .f32 op r sat ftz a b c (floatOp .f32 op r sat ftz a b c))
      ∧ (∀ hi ftz, MinMaxOk .f32 hi ftz a b (floatMinMax .f32 hi ftz a b))
      ∧ (∀ ftz cc, floatCmp .f32 ftz cc a b = compareOk .f32 ftz cc a b)
      ∧ (∀ r ftz, RoundIntOk r ftz a (floatRound r ftz a))
      ∧ floatClass a = classOf (a / 2 ^ 31 % 2) (a / 2 ^ 23 % 256) (a % 2 ^ 23)

/-- R51, R52, R248, R255: a special function with an ACTIVE lane goes into flight with every lane's rounded result and flags, and its destination is
empty until it lands. The result is given for NaNs and the special cases, for every argument of FRCP, FDIV, FSQRT and FRSQ, and for the arguments
at which FEXP2, FLOG2, FSIN and FCOS have rational values. -/
def Obligations.LaneSpecialFunctionsIssue : Prop :=
  ∀ (e : LaneEnv) (o : LaneOps), e.act ≠ 0 →
    let issues (i : Instr) (f : SFun) : Prop := LaneReady e i →
      let r (l : Nat) : Nat × Flags := sfun f (e.rm o) o.sat e.ftz (e.fl l .f32 o.a) (e.fl l .f32 o.b)
      LaneIssues e e.s i
        (e.late none (.land (e.lanes.map fun l => (o.d.toNat, l, BitVec.ofNat 32 (r l).1)) (flagsOver e.act fun l => (r l).2))) o.d.toNat 1
    issues (.frcp o) .rcp ∧ issues (.frsq o) .rsq ∧ issues (.fsqrt o) .sqrt ∧ issues (.fdiv o) .div
    ∧ issues (.fexp2 o) .exp2 ∧ issues (.flog2 o) .log2 ∧ issues (.fsin o) .sin ∧ issues (.fcos o) .cos
    ∧ ∀ (f : SFun) (r : RMode) (sat ftz : Bool) (a b : Nat), a < 2 ^ 32 → b < 2 ^ 32 → SFunOk f r sat ftz a b (sfun f r sat ftz a b)

/-- R36 to R40, R256, R257: the packed instructions compute both halves of a register in FP16 or BF16, the FP64 ones a pair; and what these operations
compute of any patterns of the three formats. -/
def Obligations.LaneHalfAndDoubleResults : Prop :=
  ∀ (e : LaneEnv) (o : LaneOps),
    let halves (i : Instr) (bf : Bool) (g : Fmt → Nat → Nat → Nat → Nat × Flags) : Prop := LaneReady e i →
      ∃ f, packedFmt e.fmt o bf = some f ∧
        let h (l k : Nat) : Nat × Flags :=
          g f (e.packed l f o.a / 2 ^ (16 * k) % 2 ^ 16) (e.packed l f o.b / 2 ^ (16 * k) % 2 ^ 16) (e.packed l f o.c / 2 ^ (16 * k) % 2 ^ 16)
        LaneWrites e i o.d (fun l => BitVec.ofNat 32 ((h l 0).1 + (h l 1).1 * 2 ^ 16)) fun l => (h l 0).2 ||| (h l 1).2
    let doubles (i : Instr) (x : FExpr) : Prop := LaneReady e i →
      let v (l : Nat) : Nat × Flags := floatOp .f64 x (e.rm o) o.sat false (e.fl l .f64 o.a) (e.fl l .f64 o.b) (e.fl l .f64 o.c)
      LanePairs e i o.d (fun l => BitVec.ofNat 64 (v l).1) fun l => (v l).2
    (∀ bf, halves (.hadd2 o bf) bf fun f a b c => floatOp f .add (e.rm o) o.sat false a b c)
    ∧ (∀ bf, halves (.hsub2 o bf) bf fun f a b c => floatOp f .sub (e.rm o) o.sat false a b c)
    ∧ (∀ bf, halves (.hmul2 o bf) bf fun f a b c => floatOp f .mul (e.rm o) o.sat false a b c)
    ∧ (∀ bf, halves (.hfma2 o bf) bf fun f a b c => floatOp f .fma (e.rm o) o.sat false a b c)
    ∧ (∀ bf, halves (.hmin2 o bf) bf fun f a b _ => floatMinMax f false false a b)
    ∧ (∀ bf, halves (.hmax2 o bf) bf fun f a b _ => floatMinMax f true false a b)
    ∧ doubles (.dadd o) .add ∧ doubles (.dmul o) .mul ∧ doubles (.dfma o) .fma
    ∧ (∀ cc acc, LaneReady e (.dcmp o cc acc) → LanePreds e (.dcmp o cc acc) o.d
        (fun l => accumulate acc (e.x.preg o.d.toNat l) (floatCmp .f64 e.ftz cc (e.fl l .f64 o.a) (e.fl l .f64 o.b)).1)
        fun l => (floatCmp .f64 e.ftz cc (e.fl l .f64 o.a) (e.fl l .f64 o.b)).2)
    ∧ ∀ (f : Fmt) (a b c : Nat), f = .f16 ∨ f = .bf16 ∨ f = .f64 → a < 2 ^ fmtWidth f → b < 2 ^ fmtWidth f → c < 2 ^ fmtWidth f →
      (∀ op r sat, FloatOpOk f op r sat false a b c (floatOp f op r sat false a b c))
      ∧ (∀ hi, MinMaxOk f hi false a b (floatMinMax f hi false a b))
      ∧ ∀ ftz cc, floatCmp f ftz cc a b = compareOk f ftz cc a b

/-- R39 to R41, R258 to R262: what CVT, PACKN and UNPACKN leave in the destination of every ACTIVE lane, the flags they raise and what they leave alone;
under SR each lane's draws are counted (R41); and what a rounding to a format, to an integer and under SR gives. Of values
between the largest finite one and the next power of two nothing is said (log entry 20). -/
def Obligations.LaneConversions : Prop :=
  (∀ (e : LaneEnv) (o : LaneOps),
    let flagged (y : Group) (f : Nat → Flags) : Prop := y.flg = e.x.flg ||| flagsOver e.act f
      ∧ { y with v := e.x.v, flg := e.x.flg, raised := e.x.raised } = e.x
    (∀ x, LaneReady e (.cvt o x) → ∃ o' x' y, resolveCvt e.fmt o x = some (o', x')
      ∧ LaneDoes e (.cvt o x) (if x'.srx then e.drawn 1 else e.t) y ∧ (
        let w (l : Nat) : Nat := if fmtWidth x'.sf < 32 then e.packed l x'.sf o'.a / 2 ^ (fmtSlot x'.sf * x'.sel.toNat) else e.packed l x'.sf o'.a
        let r (l : Nat) := cvtElem x'.sf x'.df o'.sga x'.du (if x'.srx then .sr (e.srWord l 0) else .mode o'.rm) o'.sat e.ftz (w l)
        flagged y (fun l => (r l).2)
        ∧ (∀ k l, l < 32 → (laneIn e.act l = false ∨ k ≠ o.d.toNat ∧ (fmtWidth x'.df = 64 → k ≠ o.d.toNat + 1)) → y.vreg k l = e.x.vreg k l)
        ∧ ∀ l, l < 32 → laneIn e.act l = true → let v := (r l).1
          (fmtWidth x'.df = 64 → y.vpair o.d.toNat l = BitVec.ofNat 64 v)
          ∧ (fmtWidth x'.df = 32 → y.vreg o.d.toNat l = BitVec.ofNat 32 v)
          ∧ (fmtWidth x'.df < 32 → let at_ := fmtSlot x'.df * x'.dsel.toNat
            (y.vreg o.d.toNat l).toNat / 2 ^ at_ % 2 ^ fmtSlot x'.df = v % 2 ^ fmtSlot x'.df
            ∧ ∀ k, k < 32 → (k < at_ ∨ at_ + fmtSlot x'.df ≤ k) → (y.vreg o.d.toNat l).getLsbD k = (e.x.vreg o.d.toNat l).getLsbD k)))
    ∧ (∀ x, LaneReady e (.packn o x) → ∃ o' x' y, resolvePack e.fmt o x = some (o', x') ∧ (
        let m := (packCount x'.df).getD 1
        let mx := x'.bsm == .mx
        let ins (k : Nat) : List FVal := (List.range m).map fun i => match o.a with
          | .reg n => decodeFloat .f32 (e.x.vreg (n.toNat + i) k).toNat
          | _ => intVal 0
        let block (l : Nat) := (e.lanes.filter fun k => k / (32 / m) == l / (32 / m)).flatMap ins
        let ok (l : Nat) : Bool := x'.bsm == .none || (block l).all isFinite
        let scale (l : Nat) : Nat := if ok l then blockScale x'.df mx (block l) else scaleNan mx
        let by_ (l : Nat) : FVal := if x'.bsm = .none then .fin false 1 1 else (scaleVal mx (scale l)).getD (.fin false 1 1)
        let codes (l : Nat) := packLane x'.df x'.bsm x'.du o'.sat (by_ l) (ins l) fun j => if x'.srx then .sr (e.srWord l j) else .mode o'.rm
        LaneDoes e (.packn o x) (if x'.srx then e.drawn ((m + 3) / 4) else e.t) y
        ∧ flagged y (fun l => if ok l then (codes l).2 else flNV)
        ∧ (∀ k l, l < 32 → (laneIn e.act l = false ∨ k ≠ o.d.toNat ∧ (x'.bsm ≠ .none → k ≠ x'.sd.toNat)) → y.vreg k l = e.x.vreg k l)
        ∧ ∀ l, l < 32 → laneIn e.act l = true →
          (x'.bsm ≠ .none → y.vreg x'.sd.toNat l = BitVec.ofNat 32 (scale l))
          ∧ (x'.bsm = .none ∨ o.d ≠ x'.sd → y.vreg o.d.toNat l = if ok l then BitVec.ofNat 32 (inSlots (fmtSlot x'.df) (codes l).1) else 0)))
    ∧ ∀ x, LaneReady e (.unpackn o x) → ∃ o' x' y, resolveUnpack e.fmt o x = some (o', x') ∧ LaneDoes e (.unpackn o x) e.t y ∧ (
        let m := (packCount x'.sf).getD 1
        let r (l i : Nat) := unpackOne x'.bsm ((x'.bsm == .mx) && x'.sf == .i8) (scaleVal (x'.bsm == .mx) (e.val l o'.b).toNat)
          o'.rm o'.sat e.ftz (((unpackElems x'.sf o'.sga (e.packed l x'.sf o'.a)).1[i]?).getD (intVal 0))
        flagged y (fun l => joinFlags ((List.range m).map fun i => (r l i).2) ||| flagIf (unpackElems x'.sf o'.sga (e.packed l x'.sf o'.a)).2 flCHK)
        ∧ (∀ k l, l < 32 → (laneIn e.act l = false ∨ k < o.d.toNat ∨ o.d.toNat + m ≤ k) → y.vreg k l = e.x.vreg k l)
        ∧ ∀ l i, l < 32 → laneIn e.act l = true → i < m → y.vreg (o.d.toNat + i) l = BitVec.ofNat 32 (r l i).1))
  ∧ ∀ (f : Fmt) (r : RMode) (sat neg : Bool) (n d : Nat), 0 < n → 0 < d → let x := (FVal.fin neg n d).rat
    (expBits f ≠ 0 → let y := roundTo f (.mode r) sat false (.fin neg n d)
      FloatResult f r sat x y.1 y.2)
    ∧ (expBits f ≠ 0 → x.abs ≤ largestVal f → ∀ w, w < 2 ^ 32 → RoundsSr f x w (roundTo f (.sr w) sat false (.fin neg n d)).1)
    ∧ ∀ w du, 0 < w → w ≤ 64 → let lo : Int := if du then 0 else -(2 ^ (w - 1) : Nat)
      let hi : Int := if du then (2 ^ w : Nat) - 1 else (2 ^ (w - 1) : Nat) - 1
      let q := nearInt r x
      roundToInt w du (.mode r) (.fin neg n d)
        = if q < lo then ((BitVec.ofInt w lo).toNat, flNV) else if hi < q then ((BitVec.ofInt w hi).toNat, flNV)
          else ((BitVec.ofInt w q).toNat, flagIf (decide ((q : Rat) ≠ x)) flNX)

/-- R43, R47, R49, R263 to R265: block scales, RSMERGE in flight, and the reading and clearing of FLG, which wait while flags of the split's earlier
instructions are due; a bit that another split has raised in the same cycle stays set (R43). -/
def Obligations.LaneScalesAndFlags : Prop :=
  ∀ (e : LaneEnv) (o : LaneOps),
    (∀ bsm f, LaneReady e (.qscalePick o bsm f) → ∃ v fl, LaneWrites e (.qscalePick o bsm f) o.d v fl ∧ ∀ l,
      let x := operandVal .f32 e.ftz (e.fl l .f32 o.a)
      let mx := bsm == .mx
      let top := if mx then 0xFE else 0x3FB
      let largest : Rat := match f with
        | .i4x => 7
        | .i8 => 127 / 64
        | f => largestVal f
      (isFinite x = false → v l = BitVec.ofNat 32 (scaleNan mx) ∧ fl l = flNV)
      ∧ (isFinite x = true → fl l = 0 ∧ (v l).toNat ≤ top ∧ ((v l).toNat = top ∨ x.rat.abs / largest ≤ scaleRat mx (v l).toNat)
          ∧ ∀ c, c < (v l).toNat → scaleRat mx c < x.rat.abs / largest))
    ∧ (∀ bsm, LaneReady e (.qscaleVal o bsm) → ∃ v fl, LaneWrites e (.qscaleVal o bsm) o.d v fl ∧ ∀ l,
      let mx := bsm == .mx
      let code := if mx then (e.val l o.a).toNat % 256 else (e.val l o.a).toNat % 1024
      let s := scaleRat mx code
      if scaleIsNan mx code then v l = 0x7FC00000 ∧ fl l = 0
      else if e.ftz = true ∧ s < normalVal .f32 then v l = 0 ∧ fl l = flUF ||| flNX
      else finitePat .f32 (v l).toNat ∧ patVal .f32 (v l).toNat = s ∧ fl l = 0)
    ∧ (∀ bsm, LaneReady e (.qscaleRcp o bsm) → ∃ v fl, LaneWrites e (.qscaleRcp o bsm) o.d v fl ∧ ∀ l,
      let mx := bsm == .mx
      let code := if mx then (e.val l o.a).toNat % 256 else (e.val l o.a).toNat % 1024
      let s := scaleRat mx code
      if scaleIsNan mx code then v l = 0x7FC00000 ∧ fl l = 0
      else if e.ftz = true ∧ 1 / s < normalVal .f32 then v l = 0 ∧ fl l = flUF ||| flNX
      else FloatResult .f32 o.rm false (1 / s) (v l).toNat (fl l))
    ∧ (∀ n, LaneReady e (.rsmerge o n) → e.act = 0 → LaneDoes e (.rsmerge o n) e.t e.x)
    ∧ (∀ n, LaneReady e (.rsmerge o n) → e.act ≠ 0 →
      let r (l : Nat) := rsmMerge (e.triple o.a n.toNat l) (e.triple o.b n.toNat l)
      LaneIssues e e.s (.rsmerge o n) (e.late none (.land (e.lanes.flatMap fun l => (List.range (n.toNat + 2)).map fun i =>
        (o.d.toNat + i, l, ((r l).1[i]?).getD 0)) (flagsOver e.act fun l => (r l).2))) o.d.toNat (n.toNat + 2))
    ∧ (∀ m, LaneReady e (.clrflg o m) →
      (e.act = 0 → LaneDoes e (.clrflg o m) e.t e.x)
      ∧ (e.flagsDue = false → e.act ≠ 0 → LaneDoes e (.clrflg o m) e.t { e.x with flg := e.x.flg &&& (~~~m ||| e.x.raisedBeside e.sp) })
      ∧ (e.flagsDue = true → e.act ≠ 0 → exec (.clrflg o m) e.s = .next e.s))
    ∧ (LaneReady e (.rdflg o) →
      (e.flagsDue = false ∨ e.act = 0 → LaneWrites e (.rdflg o) o.d fun _ => e.x.flg.zeroExtend 32)
      ∧ (e.flagsDue = true → e.act ≠ 0 → exec (.rdflg o) e.s = .next e.s))

/-! Lane control. -/

/-- R97 to R101, R108, R114 to R116: where a branch takes its split. A branch that divides the split pushes a JOIN frame, or where no split is free a
SERIAL one, and in COUNT mode disables the lanes that take it or, backwards, none; one that the stack or a counter has no room for, and a divergent or
guarded one that may not be, traps. That an unguarded BRA of COUNT mode with no enabled lane, of which T and N are both empty, goes on at LPC + 1 is the
model's choice (log entry 10). -/
def Obligations.LaneBranches : Prop :=
  ∀ (e : LaneEnv) (o : LaneOps),
    let lpc := e.split.lpc
    let quiet : Prop := e.s.Quiet ∧ e.t.trapVec ≠ 0
    let isOver (l : Nat) : Bool := laneIn e.x.live l && e.x.ncOf l == 255
    (∀ toff roff, LaneReady e (.bra o toff roff) →
      let i : Instr := .bra o toff roff
      let target := lpc + toff.signExtend 24
      (e.act = 0 → LaneGoesTo e i (lpc + 1))
      ∧ (e.act ≠ 0 → e.branchLanes &&& ~~~e.act = 0 → LaneGoesTo e i target)
      ∧ (e.act ≠ 0 → e.branchLanes &&& ~~~e.act ≠ 0 → e.t.desc.count = false → e.x.frames.length < 16 →
          ∀ j, e.x.ctl.freeEntry = some j → ∃ y, LaneBecomes e i y
            ∧ y.frames = e.x.frames ++ [{ kind := .join, owner := e.sp, parent := e.split.frm, rpc := lpc + roff.signExtend 24,
                                          full := e.split.mask, fmt := e.split.fmt }]
            ∧ y.split j = { st := .run, frm := some (e.x.spilled + e.x.frames.length), lpc := target, mask := e.act, fmt := e.split.fmt }
            ∧ y.split e.sp = { e.split with frm := some (e.x.spilled + e.x.frames.length), lpc := lpc + 1, mask := e.split.mask &&& ~~~e.act })
      ∧ (e.act ≠ 0 → e.branchLanes &&& ~~~e.act ≠ 0 → e.t.desc.count = false → e.x.frames.length < 16 → e.x.ctl.freeEntry = none →
          ∃ y, LaneBecomes e i y
            ∧ y.frames = e.x.frames ++ [{ kind := .serial, owner := e.sp, parent := e.split.frm, rpc := lpc + roff.signExtend 24,
                                          full := e.split.mask, fmt := e.split.fmt, dpc := lpc + 1, dmask := e.split.mask &&& ~~~e.act }]
            ∧ y.split e.sp = { e.split with frm := some (e.x.spilled + e.x.frames.length), lpc := target, mask := e.act }
            ∧ ∀ j, j ≠ e.sp → y.split j = e.x.split j)
      ∧ (e.act ≠ 0 → e.branchLanes &&& ~~~e.act ≠ 0 → e.t.desc.count = false → 16 ≤ e.x.frames.length → quiet →
          LaneTraps e i .stackOverflow (lowestLane e.split.mask))
      ∧ (e.act ≠ 0 → e.branchLanes &&& ~~~e.act ≠ 0 → e.t.desc.count = true → target ≤ lpc → LaneGoesTo e i target)
      ∧ (e.act ≠ 0 → e.branchLanes &&& ~~~e.act ≠ 0 → e.t.desc.count = true → lpc < target → e.split.frm = none → quiet →
          ∀ l0, l0 < 32 → (∀ l, l < 32 → isOver l = true → l0 ≤ l) → isOver l0 = true →
          ∃ u t x, exec i e.s = .next u ∧ u.team? e.tk = some t ∧ t.group? e.g = some x ∧ x.halted = true
            ∧ x.traps = e.x.traps ++ [{ cause := .nestOverflow, src := 0, group := e.g, split := e.sp, lane := l0, loc := lpc.zeroExtend 64 }]
            ∧ (∀ l, l < 32 → laneIn x.live l = (laneIn e.x.live l && !isOver l)) ∧ (x.split e.sp).lpc = lpc
            ∧ (∀ l, l < 32 → laneIn (x.split e.sp).mask l = (laneIn e.split.mask l && !isOver l)) ∧ x.nc = e.x.nc ∧ x.v = e.x.v ∧ x.p = e.x.p
            ∧ t.s = e.t.s ∧ u.mem = e.s.mem)
      ∧ (e.act ≠ 0 → e.branchLanes &&& ~~~e.act ≠ 0 → e.t.desc.count = true → lpc < target → (∀ l, e.x.ncOf l ≠ 255) →
          ∃ y, LaneBecomes e i y ∧ (y.split e.sp).lpc = lpc + 1 ∧ ∀ l, l < 32 →
            y.ncOf l = if laneIn e.act l then 1 else if laneIn e.x.live l ∧ e.x.ncOf l ≠ 0 then e.x.ncOf l + 1 else e.x.ncOf l))
    ∧ (∀ toff, LaneReady e (.braJoin o toff) → e.t.desc.count = true →
        (o.g = .always → ∃ y, LaneBecomes e (.braJoin o toff) y
          ∧ (y.split e.sp).lpc = lpc + toff.signExtend 24 ∧ ∀ l, l < 32 → y.ncOf l = if laneIn e.x.live l then e.x.ncOf l - 1 else e.x.ncOf l)
        ∧ (o.g ≠ .always → quiet → LaneTraps e (.braJoin o toff) .illegal (lowestLane e.split.mask)))
    ∧ (∀ toff, LaneReady e (.braJoin o toff) → e.t.desc.count = false →
        (e.act = 0 → LaneGoesTo e (.braJoin o toff) (lpc + 1))
        ∧ (e.act ≠ 0 → e.split.mask &&& ~~~e.act = 0 → LaneGoesTo e (.braJoin o toff) (lpc + toff.signExtend 24))
        ∧ (e.act ≠ 0 → e.split.mask &&& ~~~e.act ≠ 0 → quiet → LaneTraps e (.braJoin o toff) .illegal (lowestLane e.split.mask)))
    ∧ ∀ roff, LaneReady e (.brx o roff) →
      let i : Instr := .brx o roff
      let target (l : Nat) : BitVec 24 := (e.val l o.a).setWidth 24
      let t0 := target (lowestLane e.branchLanes)
      (e.branchLanes = 0 → LaneGoesTo e i (lpc + 1))
      ∧ (e.branchLanes ≠ 0 → (∀ l, l < 32 → laneIn e.branchLanes l = true → target l = t0) → LaneGoesTo e i t0)
      ∧ ∀ m, (∀ l, l < 32 → laneIn m l = (laneIn e.branchLanes l && target l == t0)) → m ≠ 0 → m ≠ e.branchLanes →
        (e.t.desc.count = true ∨ roff = 0 → quiet → LaneTraps e i .illegal (lowestLane e.split.mask))
        ∧ (e.t.desc.count = false → roff ≠ 0 →
          (16 ≤ e.x.frames.length → quiet → LaneTraps e i .stackOverflow (lowestLane e.split.mask))
          ∧ (e.x.frames.length < 16 → ∀ j, e.x.ctl.freeEntry = some j → ∃ y, LaneBecomes e i y
            ∧ y.frames = e.x.frames ++ [{ kind := .join, owner := e.sp, parent := e.split.frm, rpc := lpc + roff.signExtend 24,
                                          full := e.split.mask, fmt := e.split.fmt }]
            ∧ y.split j = { st := .run, frm := some (e.x.spilled + e.x.frames.length), lpc := t0, mask := m, fmt := e.split.fmt }
            ∧ y.split e.sp = { e.split with frm := some (e.x.spilled + e.x.frames.length), mask := e.split.mask &&& ~~~m }))

/-- R107, R113: a CALL by every lane of the split pushes a CALL frame with the next address; a RET by every lane, its CALL frame the youngest,
pops the frame and goes on at that address. -/
def Obligations.LaneCallReturn : Prop :=
  ∀ (e : LaneEnv) (o : LaneOps),
    (∀ toff, LaneReady e (.call o toff) → e.act ≠ 0 → e.branchLanes &&& ~~~e.act = 0 → e.x.frames.length < 16 → ∃ y, LaneBecomes e (.call o toff) y
      ∧ y.frames = e.x.frames ++ [{ kind := .call, owner := e.sp, parent := e.split.frm, rpc := e.split.lpc + 1,
                                    full := if e.t.desc.count then e.x.live else e.split.mask, fmt := e.split.fmt }]
      ∧ y.split e.sp = { e.split with lpc := e.split.lpc + toff.signExtend 24, frm := some (e.x.spilled + e.x.frames.length) })
    ∧ ∀ (fs : List Frame) (f : Frame), LaneReady e (.ret o) → e.sp < 4 → e.act ≠ 0 → e.act = e.branchLanes → e.x.spilled = 0 → e.x.frames = fs ++ [f] →
        e.split.frm = some fs.length → f.kind = .call → (∀ k, f.parent = some k → k < fs.length) →
        (∀ j, j ≠ e.sp → (e.x.split j).frm ≠ some fs.length) → (e.t.desc.count = false → f.full = e.act ∧ f.park = 0 ∧ e.split.mask = e.act) →
        ∃ y, LaneBecomes e (.ret o) y ∧ y.frames.length = fs.length ∧ (y.split e.sp).st = .run ∧ (y.split e.sp).lpc = f.rpc
          ∧ (y.split e.sp).frm = f.parent ∧ (y.split e.sp).mask = e.split.mask

/-- R95, R103: lanes outside every frame that end their block wait at its end, or under EXITL stop being live; when every live lane waits the
block is over and the group idle. -/
def Obligations.LaneBlockEnds : Prop :=
  ∀ (e : LaneEnv) (o : LaneOps) (exit : Bool),
    let i : Instr := if exit then .exitl o else .endb o
    LaneReady e i → e.act ≠ 0 → e.split.frm = none → e.x.spawned = false → e.x.frames = [] → e.x.spilled = 0 →
    let live := if exit then e.x.live &&& ~~~e.act else e.x.live
    let atEnd := if exit then e.x.atEnd else e.x.atEnd ||| e.act
    ∃ u t, exec i e.s = .next u ∧ u.team? e.tk = some t
      ∧ (live ≠ 0 → atEnd &&& live ≠ live → ∃ y, t.group? e.g = some y ∧ y.live = live ∧ y.atEnd = atEnd
          ∧ y.split e.sp = (if e.act = e.split.mask then {} else { e.split with mask := e.split.mask &&& ~~~e.act, lpc := e.split.lpc + 1 }))
      ∧ (live ≠ 0 → atEnd &&& live = live → e.t.exited = false → ∃ y, t.group? e.g = some y ∧ y.live = live ∧ y.atEnd = 0 ∧ y.idle = true)
      ∧ (live = 0 → ∀ y, t.group? e.g = some y → y.ended = true ∧ y.idle = true)

/-- R236 to R238: NOPL, FMTL and YIELDL complete. A FMTL or YIELDL without an ACTIVE lane has no effect; a YIELDL with one takes its split off for the
next 4 yield cycles, those after the cycle that it issues in, and with the last of them the split is ready again. -/
def Obligations.LaneSmallControl : Prop :=
  (∀ (e : LaneEnv) (o : LaneOps),
    (LaneReady e (.nopl o) → LaneDoes e (.nopl o) e.t e.x)
    ∧ (LaneReady e (.fmtl o) → e.act = 0 → LaneDoes e (.fmtl o) e.t e.x)
    ∧ (LaneReady e (.fmtl o) → e.act ≠ 0 → LaneDoes e (.fmtl o) e.t (e.x.modSplit e.sp fun y => { y with fmt := e.val e.low o.b &&& 0xFFFFF }))
    ∧ (LaneReady e (.yieldl o) → e.act = 0 → LaneDoes e (.yieldl o) e.t e.x)
    ∧ (LaneReady e (.yieldl o) → e.act ≠ 0 → LaneDoes e (.yieldl o) e.t (e.x.modSplit e.sp fun y => { y with hold := some 5 })))
  ∧ (∀ (s : State) (tk g sp : Nat) (t : Team) (x : Group), s.team? tk = some t → t.group? g = some x → (x.split sp).hold = some 0 →
      exec (.yieldlExpire tk g sp) s = .next (s.setTeam tk (t.setGroup g (x.modSplit sp fun y => { y with hold := none }))))
  ∧ ∀ (s : State) (tk g sp : Nat) (t : Team) (x : Group), s.team? tk = some t → t.group? g = some x → (x.split sp).hold ≠ some 0 →
      exec (.yieldlExpire tk g sp) s = .next s

/-! Lane memory. -/

/-- R266 to R275: a load, store or range operation of the ACTIVE lanes, each of whose accesses passes its checks, goes into flight with the
bytes they name; a load's registers are empty until it lands. PREF completes and changes nothing of its team or of memory. -/
def Obligations.LaneMemoryIssues : Prop :=
  ∀ (e : LaneEnv) (o : LaneOps),
    let issues {α : Type} (i : Instr) (path : Path) (f : Nat → State → Except AccFault (List α) × State) (k : List α → Op) (d n : Nat) : Prop :=
      LaneReady e i → e.act ≠ 0 → e.t.pathFull path = false → ∀ ps s, checkLanes f e.lanes [] e.s = (.ok ps, s) → LaneIssues e s i (k ps) d n
    (∀ x : MemExt, let n := msizeBytes x.size
      issues (.ldg o x) .ld (fun l s => s.handleParts e.t l x.h.toNat (e.offset l x.a64 o.a x.imm) n n .rr)
        (fun ps => e.op .ld .ls x.kind x.scope (.load (.vreg o.d.toNat n x.sx) ps)) o.d.toNat (msizeRegs x.size)
      ∧ issues (.stg o x) .st (fun l s => s.handleParts e.t l x.h.toNat (e.offset l x.a64 o.a x.imm) n n .rw (e.data l o.d.toNat n))
        (fun ps => e.op .st .ls x.kind x.scope (.store ps)) 0 0
      ∧ issues (.lds o x) .ld (fun l s => (e.t.scratchParts l (e.offset l false o.a x.imm) n n, s))
        (fun ps => e.op .ld .ls x.kind (teamScope x.scope) (.load (.vreg o.d.toNat n x.sx) ps)) o.d.toNat (msizeRegs x.size)
      ∧ issues (.sts o x) .st (fun l s => (e.t.scratchParts l (e.offset l false o.a x.imm) n n (e.data l o.d.toNat n), s))
        (fun ps => e.op .st .ls x.kind (teamScope x.scope) (.store ps)) 0 0)
    ∧ (∀ x : MemExt, let n := msizeBytes x.size
      LaneReady e (.lda o x) → e.act ≠ 0 → e.t.pathFull .ld = false → ∀ ps s,
        checkLanes (fun l s => (e.t.accParts l (e.offset l false o.a x.imm) n, s)) e.lanes [] e.s = (.ok ps, s) → ps.any e.t.partBusy = false →
        LaneIssues e s (.lda o x) (e.op .ld .ls .plain .split (.load (.vreg o.d.toNat n false) ps)) o.d.toNat (msizeRegs x.size))
    ∧ (∀ x : MemExt, let n := msizeBytes x.size
      LaneReady e (.sta o x) → e.act ≠ 0 → e.t.pathFull .st = false → ∀ ps s,
        checkLanes (fun l s => (e.t.accParts l (e.offset l false o.a x.imm) n (e.data l o.d.toNat n), s)) e.lanes [] e.s = (.ok ps, s) →
        ps.any e.t.partBusy = false → LaneIssues e s (.sta o x) (e.op .st .ls .plain .split (.store ps)) 0 0)
    ∧ (∀ x : SubExt, issues (.ldsub o x) .ld (fun l s => e.subParts o x .rr 0 0 l s)
        (fun ps => e.op .ld .ls x.kind (if x.sp then teamScope x.scope else x.scope) (.load (.sub o.d.toNat (subWidth x.fmt == 6)) ps)) o.d.toNat 1)
    ∧ (∀ x : SubExt, issues (.stsub o x) .st
        (fun l s => let b := subBits x.fmt (e.x.vreg o.d.toNat l).toNat (e.val e.low o.b).toNat
                    e.subParts o x .rw b.1 b.2 l s)
        (fun ps => e.op .st .ls x.kind (if x.sp then teamScope x.scope else x.scope) (.store ps)) 0 0)
    ∧ (∀ (x : RangeExt) (inv : Bool), issues (if inv then .invd o x else .wbk o x) .st
        (fun l s => let len := (e.x.vreg o.d.toNat l).toNat
                    if len = 0 then (.ok [], s) else
                      let r := s.access e.t x.h.toNat (e.offset l x.a64 o.a x.imm) len 1 (if inv then .disc else .rr) 128
                      (r.1.map fun ps => ps.map fun p => (p.2.2.key, p.2.1), r.2))
        (fun rs => e.op .st .ls .plain .split (.range inv rs)) 0 0)
    ∧ ∀ (l2 : Bool) (x : RangeExt), LaneReady e (.pref o l2 x) → e.s.Quiet → ∃ u, exec (.pref o l2 x) e.s = .next u ∧ u.mem = e.s.mem
        ∧ u.team? e.tk = some (e.t.laneWent e.g ((e.x.modSplit e.sp fun z => { z with lpc := e.split.lpc + 1 }).counted e.split.mask))

/-- R276 to R279, R337: an atomic whose lanes' words pass their checks sends one request for each word they name, with the operands of the
lanes that name it, once the core has a return slot for each; its destination is empty until the replies land. -/
def Obligations.LaneAtomicsIssue : Prop :=
  ∀ (e : LaneEnv) (o : LaneOps),
    let sends (i : Instr) (path : Path) (h n align : Nat) (op : AtomOp) (ty : AtomType) (mk : Nat → AtomOperand) (d c : Nat) : Prop :=
      LaneReady e i → e.act ≠ 0 → e.t.pathFull path = false → ∀ rs s, checkLanes (e.atomWord o h n align mk) e.lanes [] e.s = (.ok rs, s) →
      (groupRuns rs).length ≤ ((s.core e.t.core).freeSlotList).length →
      ∃ u t x, exec i e.s = .next u ∧ u.team? e.tk = some t ∧ t.group? e.g = some x ∧ x.full = (e.x.markEmpty d c).full ∧ x.v = e.x.v
        ∧ (x.split e.sp).lpc = e.split.lpc + 1 ∧ t.ops.length = e.t.ops.length + 1
        ∧ ∀ r ∈ groupRuns rs, ∃ id q, sparseFind id u.net.reqs = some q ∧ q.op = op ∧ q.ty = ty ∧ q.segs = r.segs
          ∧ q.members.map (·.operands) = [r.operands]
    (∀ op (x : AtomExt), sends (.atom o op x) .at x.h.toNat (atomBytes x.ty) (atomBytes x.ty) op x.ty
        (fun l => { lane := l, x := e.atomVal x.ty l o.b }) o.d.toNat (atomRegs x.ty))
    ∧ (∀ pf (x : AtomExt), sends (.atomcas o pf x) .at x.h.toNat (atomBytes x.ty) (atomBytes x.ty) .cas x.ty
        (fun l => { lane := l, x := e.atomVal x.ty l o.b, e := e.atomVal x.ty l o.c }) o.d.toNat (atomRegs x.ty))
    ∧ (∀ op (x : AtomExt), sends (.red o op x) .st x.h.toNat (atomBytes x.ty) (atomBytes x.ty) op x.ty
        (fun l => { lane := l, x := e.atomVal x.ty l o.b }) 0 0)
    ∧ ∀ (n : BitVec 7) (vb : VReg) (x : AtomExt), o.b = .reg vb → sends (.redRsm o n x) .st x.h.toNat (4 * (n.toNat + 2)) 128 .rsm .f32
        (fun l => { lane := l, rsm := (List.range (n.toNat + 2)).map fun i => e.x.vreg (vb.toNat + i) l }) 0 0

/-! Lane waits, fences, barriers, SPAWN, QMMA and TRAPL. -/

/-- R280: WAITCMP stalls its split on an operation whose words are satisfied, watched by a monitor, or polled (R140). -/
def Obligations.LaneWaitOnValue : Prop :=
  ∀ (e : LaneEnv) (o : LaneOps) (x : WaitExt), LaneReady e (.waitcmp o x) → e.act ≠ 0 → e.t.pathFull .at = false → ∀ ps s,
    let n := if x.dbl then 8 else 4
    checkLanes (fun l s =>
      let r := s.access e.t x.h.toNat ((e.val l o.a).toNat : Nat) n n .rr
      (r.1.map fun ps => ps.map fun p =>
        ({ lane := l, key := p.2.2.key, val := if x.dbl then e.val64 l o.b else (e.val l o.b).setWidth 64, polls := false, lastPoll := 0,
           va := p.1, cached := p.2.2.mode == 2, policy := p.2.2.policy, migrate := p.2.2.migrate } : WaitPart), r.2)) e.lanes [] e.s = (.ok ps, s) →
    s.Quiet → s.NothingShown → (distinct (ps.map (·.key))).length ≤ ((s.core e.t.core).freeSlotList).length →
    e.t.comesAfter (e.op .at .as x.kind x.scope (.wait none (some o.d.toNat) x.cc x.dbl ps)) = false →
    ∃ u t y, exec (.waitcmp o x) e.s = .next u ∧ u.team? e.tk = some t ∧ t.group? e.g = some y ∧ (e.sp, s.serial) ∈ y.stalls
      ∧ y.full = (e.x.markEmpty o.d.toNat (if x.dbl then 2 else 1)).full
      ∧ ∃ w qs, w ∈ t.ops ∧ w.id = s.serial ∧ w.lanes = e.act ∧ w.body = .wait none (some o.d.toNat) x.cc x.dbl qs ∧ qs.length = ps.length
        ∧ ∀ q ∈ qs, q.got.isSome = true ∨ q.polls = true ∨ ∃ m ∈ u.coh.monitors, m.key = q.key ∧ m.op = s.serial

/-- R154, R160, R281 to R283: fences and path waits of a lane. A FENCE holds its lanes' later accesses behind the earlier ones, towards the
observers in its scope (R148, R154). A FENCE of die scope or wider goes on once its lanes' stores and those that its lanes see have performed and
the lease clock has passed what the team's releases cover (R134, R156). -/
def Obligations.LaneFences : Prop :=
  ∀ (e : LaneEnv) (o : LaneOps),
    let ready : Prop := storesLive e.accesses = false ∧ e.s.vmaxPassed e.t = true ∧ e.s.shownTo e.t (e.op .ld .ls .plain .split .stall) = []
    (∀ sc, LaneReady e (.fence o sc) → e.act ≠ 0 → (wideScope sc = true → ready) →
      ∃ t x, LaneDoes e (.fence o sc) t x ∧ t = e.t.holdScoped (some e.g) e.act e.split.mask sc (e.accesses.map (·.id)) ∧ t.group? e.g = some x)
    ∧ (∀ sc, LaneReady e (.fence o sc) → e.act ≠ 0 → wideScope sc = true → ¬ready → exec (.fence o sc) e.s = .next e.s)
    ∧ (∀ p q, LaneReady e (.cfence o p q) → ∃ u t, exec (.cfence o p q) e.s = .next u ∧ u.team? e.tk = some t
        ∧ ∃ f ∈ t.cfences, f.x = p ∧ f.y = q ∧ f.who = some e.g ∧ ∀ w ∈ e.t.ops, w.done = false → w.cls = some p ∨ w.cls = some q → w.id ∈ f.ids)
    ∧ (∀ p, LaneReady e (.waitp o p) → e.act ≠ 0 → e.t.pathCount p ≤ (e.val e.low o.b).toNat →
        LaneDoes e (.waitp o p) (e.t.pathWaited p) e.x)
    ∧ (∀ p, LaneReady e (.waitp o p) → e.act ≠ 0 → (e.val e.low o.b).toNat < e.t.pathCount p → exec (.waitp o p) e.s = .next e.s)

/-- R139, R208, R284: lane barriers. BARA answers the phase and arrives for the split or, under .lanes, for each ACTIVE lane; BART answers
whether the phase has passed; BARX adds expected bytes; BARW goes on once the phase differs from the one it names. -/
def Obligations.LaneBarriers : Prop :=
  ∀ (e : LaneEnv) (o : LaneOps) (n : BitVec 6), e.s.Quiet → e.act ≠ 0 → n.toNat < e.t.desc.nbar →
    let b := e.t.bar n.toNat
    let now := e.s.clk.cycle
    (∀ ln, LaneReady e (.bara o n ln) → ∃ t x, LaneDoes e (.bara o n ln) t x
      ∧ WritesReg e.x x o.d.toNat e.act (fun _ => if b.phase then 1 else 0) 0
      ∧ (t.bar n.toNat).count = b.count + BitVec.ofNat 16 (if ln then e.lanes.length else 1) ∧ (t.bar n.toNat).phase = b.phase)
    ∧ (LaneReady e (.bart o n) → ∃ t x, LaneDoes e (.bart o n) t x ∧ t.bars = e.t.bars
      ∧ ∀ l, l < 32 → laneIn e.act l = true → o.d ≠ 0 → x.preg o.d.toNat l = (b.phase != (e.val e.low o.a).getLsbD 0))
    ∧ (LaneReady e (.barx o n) → ∃ t, LaneDoes e (.barx o n) t e.x ∧ t.bar n.toNat = b.expect now (e.val e.low o.b).toNat
      ∧ (t.bar n.toNat).expb = b.expb + e.val e.low o.b)
    ∧ (LaneReady e (.barw o n) → (∀ w ∈ e.t.barWaits, w.who ≠ some (e.g, e.sp)) → b.phase ≠ (e.val e.low o.a).getLsbD 0 →
        ∃ t x, LaneDoes e (.barw o n) t x ∧ t.bars = e.t.bars ∧ x.v = e.x.v)
    ∧ (LaneReady e (.barw o n) → (∀ w ∈ e.t.barWaits, w.who ≠ some (e.g, e.sp)) → b.phase = (e.val e.low o.a).getLsbD 0 →
        ∃ u t, exec (.barw o n) e.s = .next u ∧ u.team? e.tk = some t ∧ { who := some (e.g, e.sp), bar := n.toNat } ∈ t.barWaits
          ∧ t.group? e.g = some e.x)

/-- R79, R285, R304, R312: SPAWN puts its lanes' payloads into a bin that has room; QMMA goes into flight with its lanes' operands; TRAPL takes
BREAK in its lowest ACTIVE lane. A bin has room where its threads and the new ones are at most 256 (log entry 38). -/
def Obligations.LaneSpawnQmmaTrap : Prop :=
  ∀ (e : LaneEnv) (o : LaneOps), e.act ≠ 0 →
    (∀ (toff : BitVec 23) (va : VReg), LaneReady e (.spawn o toff) → e.s.Quiet → o.a = .reg va → (e.t.stallOf e.g e.sp).isNone = true →
      e.t.groups.length < 32 → ∀ b, (e.s.core e.t.core).binFor e.t.serial (e.split.lpc + toff.signExtend 24) = some b →
      (∀ x, sparseFind b (e.s.core e.t.core).bins = some x → x.threads.length + e.lanes.length ≤ 256) →
      ∃ u bin, exec (.spawn o toff) e.s = .next u ∧ sparseFind b (u.core e.t.core).bins = some bin
        ∧ (∃ old, bin.threads = old ++ e.lanes.map fun l => { pay := [e.x.vreg va.toNat l, e.x.vreg (va.toNat + 1) l, e.x.vreg (va.toNat + 2) l, e.x.vreg (va.toNat + 3) l] })
        ∧ (32 ≤ bin.threads.length → bin.due = true))
    ∧ (∀ (vs va vc : VReg) fa fb w, LaneReady e (.qmma o vs) → o.a = .reg va → o.c = .reg vc → qmmaFmts e.fmt o.sga o.sgb = some (fa, fb, w) →
      let ra := qmmaK w * w / 32
      let scaled := fa.bsm != .none
      let quarters := (List.range 4).filterMap fun j => (e.lanes.find? fun l => l / 8 == j).map fun l => (j, (e.val l o.b).toNat)
      qmmaRegsOk e.t.regLimit o vs ra scaled = true → e.x.allFull va.toNat ra = true → (scaled = true → e.x.allFull vs.toNat 1 = true) →
      e.t.pathFull .mx = false → (∀ q ∈ quarters, q.2 + qmmaBytes (qmmaK w) w scaled ≤ e.t.scrBytes ∧ q.2 % 256 = 0) →
      LaneIssues e e.s (.qmma o vs) (e.op .mx .mx .plain .split (.qmma o.d.toNat e.fmt o.sga o.sgb quarters (e.lanes.map fun l =>
        { lane := l, a := (List.range ra).map fun i => e.x.vreg (va.toNat + i) l, c := (List.range 8).map fun i => e.x.vreg (vc.toNat + i) l,
          scale := if scaled then e.x.vreg vs.toNat l else 0 }))) o.d.toNat 8)
    ∧ (LaneReady e (.trapl o) → e.s.Quiet → e.t.trapVec ≠ 0 → ∃ u t x, exec (.trapl o) e.s = .next u ∧ u.team? e.tk = some t ∧ t.group? e.g = some x
        ∧ x.halted = true ∧ { cause := .brk, src := 0, group := e.g, split := e.sp, lane := e.low, loc := e.split.lpc.zeroExtend 64,
                              addr := (e.val e.low o.b).zeroExtend 64 } ∈ x.traps)

/-! The rider's memory words. -/

/-- R200, R201: a scalar load or store whose access passes its checks goes into flight with the bytes it names, and the rider goes on; SLDS
into s0 waits for its line. -/
def Obligations.ScalarMemoryIssues : Prop :=
  ∀ (s : State) (tk : Nat) (t : Team), RiderAt s tk t → ∀ (sz : BitVec 2) (d a b : SReg), t.regsReady [d, a, b] →
    let n := 2 ^ sz.toNat
    let h := scalarHandle (t.sreg a)
    (∀ k sc ps s', wellFormed (.sld sz d a b k sc) = true → t.pathFull .ld = false →
      s.handleParts t 0 h (scalarOffset (t.sreg a) (t.sreg b)) n n .rr = (.ok ps, s') →
      RiderIssues s s' tk t (.sld sz d a b k sc) (t.riderOp .ld .ls k sc (.load (.sreg d.toNat) ps)))
    ∧ (∀ k sc ps s', wellFormed (.sst sz d a b k sc) = true → t.pathFull .st = false →
      s.handleParts t 0 h (scalarOffset (t.sreg a) (t.sreg b)) n n .rw (t.sreg d).toNat = (.ok ps, s') →
      RiderIssues s s' tk t (.sst sz d a b k sc) (t.riderOp .st .ls k sc (.store ps)))
    ∧ (∀ imm ps, t.pathFull .ld = false → t.scratchParts 0 ((t.sreg a + imm.signExtend 64).toNat : Nat) n n = .ok ps →
      let o := t.riderOp .ld .ls .plain .split (.load (.sreg d.toNat) ps)
      (d ≠ 0 → RiderIssues s s tk t (.slds sz d a imm) o)
      ∧ (d = 0 → ∃ u t', exec (.slds sz d a imm) s = .next u ∧ u.team? tk = some t' ∧ t'.blocked = some s.serial ∧ t'.pc = t.pc
          ∧ t'.ops = t.ops ++ [t.stamped o s.serial]))
    ∧ ∀ imm ps, t.pathFull .st = false → t.scratchParts 0 ((t.sreg a + imm.signExtend 64).toNat : Nat) n n (t.sreg d).toNat = .ok ps →
      RiderIssues s s tk t (.ssts sz d a imm) (t.riderOp .st .ls .plain .split (.store ps))

/-- R202, R203: SATOM sends one request with its operands and goes on; SWAITCMP holds the rider on an operation that its word satisfies, that a
monitor watches, or that polls (R140). -/
def Obligations.ScalarAtomicsIssue : Prop :=
  ∀ (s : State) (tk : Nat) (t : Team), RiderAt s tk t → ∀ (d a b : SReg) (k : Kind) (sc : Scope), t.regsReady [d, a, b] → t.pathFull .at = false →
    let h := scalarHandle (t.sreg a)
    (∀ ty op p ps s', wellFormed (.satom ty op d a b k sc) = true →
      s.access t h (bitsOf (t.sreg a).toNat 53 0 : Nat) (atomBytes ty) (atomBytes ty) .ra = (.ok (p :: ps), s') →
      ((s'.core t.core).freeSlotList).isEmpty = false →
      ∃ u t', exec (.satom ty op d a b k sc) s = .next u ∧ u.team? tk = some t' ∧ t'.pc = t.pc + 4 ∧ t'.s = t.s ∧ t'.ops.length = t.ops.length + 1
        ∧ ∃ id q, sparseFind id u.net.reqs = some q ∧ q.op = op ∧ q.ty = ty ∧ q.segs = [(p.2.2.key, atomBytes ty)]
          ∧ q.members.map (·.operands) = [[{ lane := 0, x := atomReg ty (t.sreg b), e := atomReg ty (t.sreg d) }]])
    ∧ ∀ dbl cc p s', wellFormed (.swaitcmp dbl cc d a b k sc) = true → let n := if dbl then 8 else 4
      s.access t h (scalarOffset (t.sreg a) (t.sreg b)) n n .rr = (.ok [p], s') → ((s'.core t.core).freeSlotList).isEmpty = false →
      (let w : WaitPart := { lane := 0, key := p.2.2.key, val := if dbl then t.sreg d else (lo32 (t.sreg d)).setWidth 64, polls := false,
                             lastPoll := 0, va := p.1, cached := p.2.2.mode == 2, policy := p.2.2.policy, migrate := p.2.2.migrate }
       t.comesAfter (t.riderOp .at .as k sc (.wait (some d.toNat) none cc dbl [w])) = false) → s'.Quiet → s'.NothingShown →
      ∃ u t', exec (.swaitcmp dbl cc d a b k sc) s = .next u ∧ u.team? tk = some t' ∧ t'.pc = t.pc ∧ t'.blocked = some s'.serial
        ∧ ∃ w q, w ∈ t'.ops ∧ w.id = s'.serial ∧ w.body = .wait (some d.toNat) none cc dbl [q]
          ∧ (q.got.isSome = true ∨ q.polls = true ∨ ∃ m ∈ u.coh.monitors, m.key = q.key ∧ m.op = s'.serial)

/-! The rider's system words. -/

/-- R91, R93, R204 to R207, R213, R214, R219: words that feed the groups and wait for them, and words that only mark the team. LDISP puts one
entry at the end of the rein queue of every group its mask names, with the rein FMT. -/
def Obligations.RiderFeedsAndMarks : Prop :=
  ∀ (s : State) (tk : Nat) (t : Team), RiderAt s tk t → ∀ a b c : SReg, t.regsReady [a, b, c] →
    (let named := t.reinGroups (lo32 (t.sreg a))
     let entry : ReinEntry := { fmt := t.reinFmt, lpc := (t.sreg b).setWidth 24, fbase := (t.sreg c).setWidth 8, deps := t.ldispIds, wrote := some s.clk.cycle }
     (∀ p ∈ named, p.2.rein.length < 16) → ∃ t' : Team, RiderDoes s tk (.ldisp a b c) (t'.wentTo (t.pc + 4)) ∧ t'.s = t.s
      ∧ (∀ g x, t.group? g = some x → t'.group? g = some { x with rein := x.rein ++ List.replicate (named.countP fun p => p.1 == g) entry })
      ∧ (∀ g x, t.group? g = some x → laneIn (lo32 (t.sreg a)) g = true → g < t.desc.groups → x.spawned = false → x.ended = false →
          0 < named.countP fun p => p.1 == g)
      ∧ ∀ g, t.group? g = none → t'.group? g = none)
    ∧ ((∃ p ∈ t.reinGroups (lo32 (t.sreg a)), 16 ≤ p.2.rein.length) → exec (.ldisp a b c) s = .next s)
    ∧ ((∀ p ∈ t.groups, laneIn (lo32 (t.sreg a)) p.1 = true → p.1 < t.desc.groups → p.2.ended = false →
          p.2.idle = true ∧ p.2.rein = [] ∧ p.2.halted = false) →
        ∃ t' : Team, RiderDoes s tk (.lwaitg a) (t'.wentTo (t.pc + 4)) ∧ t'.s = t.s ∧ t'.groups = t.groups)
    ∧ RiderDoes s tk (.setfmt a) ({ t with reinFmt := lo32 (t.sreg a) &&& 0xFFFFF }.wentTo (t.pc + 4))
    ∧ (∀ p, t.pathCount p ≤ (t.sreg b).toNat → RiderDoes s tk (.swaitp p b) ((t.pathWaited p).wentTo (t.pc + 4)))
    ∧ (∀ p, (t.sreg b).toNat < t.pathCount p → exec (.swaitp p b) s = .next s)
    ∧ (s.regionQuiet t = true → let r : IdemRec := { pc := t.pc + 4, s := t.s, q := t.q, draws := t.draws, sdraw := t.sdraw, r := t.laneRetired }
        RiderDoes s tk .idem ({ t with idem := some r }.wentTo (t.pc + 4)))
    ∧ (s.regionQuiet t = false → exec .idem s = .next s)
    ∧ (t.idem = none ∨ s.regionQuiet t = true → RiderDoes s tk .ideme ({ t with idem := none }.wentTo (t.pc + 4)))
    ∧ (t.idem ≠ none → s.regionQuiet t = false → exec .ideme s = .next s)
    ∧ (t.pre.any (fun p => p.compat && p.stopped.isNone && !t.handler) = false →
        RiderDoes s tk (.chkpt a) ({ t with chkptSeen := true }.wentTo (t.pc + 4)))
    ∧ (∀ p, t.pre = some p → p.compat = true → p.stopped = none → t.handler = false → ∃ u t' p', exec (.chkpt a) s = .next u ∧ u.team? tk = some t'
        ∧ t'.pc = t.pc + 4 ∧ t'.s = t.s ∧ t'.chkptSeen = true ∧ t'.pre = some p' ∧ p'.stopped = some s.clk.cycle ∧ p'.mode = p.mode)
    ∧ RiderDoes s tk .snop (t.wentTo (t.pc + 4))

/-- R139, R208: the scalar barriers. SBARI begins a generation, SBARA answers the phase and arrives, SBARX adds expected bytes, and SBARW goes on
once the phase differs from the one it names; a number the team does not own takes ADDR_BOUNDS. -/
def Obligations.ScalarBarriers : Prop :=
  ∀ (s : State) (tk : Nat) (t : Team), RiderAt s tk t → s.Quiet → ∀ a b : SReg, t.regsReady [a, b] →
    let now := s.clk.cycle
    ((t.sreg a).toNat < t.desc.nbar → let n := (t.sreg a).toNat
      let x := t.bar n
      (x.cyc ≠ now → ∃ y : Barrier, RiderDoes s tk (.sbari a b) ((t.setBar n y).wentTo (t.pc + 4)) ∧ y.count = 0 ∧ y.expb = 0 ∧ y.arrb = 0)
      ∧ (∃ y : Barrier, RiderDoes s tk (.sbari a b) ((t.setBar n y).wentTo (t.pc + 4)) ∧ y.target = (t.sreg b).setWidth 16 ∧ y.gen = x.gen + 1
          ∧ y.inc = false ∧ y.phase = x.phase)
      ∧ (∃ y : Barrier, RiderDoes s tk (.sbarx a b) ((t.setBar n y).wentTo (t.pc + 4)) ∧ y.expb = x.expb + lo32 (t.sreg b) ∧ y.count = x.count
          ∧ y.phase = x.phase)
      ∧ ((∀ w ∈ t.barWaits, w.who ≠ none) → x.phase ≠ (t.sreg b).getLsbD 0 → ∃ t' : Team, RiderDoes s tk (.sbarw a b) (t'.wentTo (t.pc + 4))
          ∧ t'.s = t.s ∧ t'.bars = t.bars)
      ∧ ((∀ w ∈ t.barWaits, w.who ≠ none) → x.phase = (t.sreg b).getLsbD 0 →
          exec (.sbarw a b) s = .next (s.setTeam tk { t with barWaits := t.barWaits ++ [{ who := none, bar := n }] })))
    ∧ ((t.sreg b).toNat < t.desc.nbar → let n := (t.sreg b).toNat
      let x := t.bar n
      ∃ y : Barrier, RiderDoes s tk (.sbara a b) (((t.setBar n y).setSreg a (if x.phase then 1 else 0)).wentTo (t.pc + 4))
        ∧ y.count = x.count + 1 ∧ y.phase = x.phase)
    ∧ (t.desc.nbar ≤ (t.sreg a).toNat → t.trapVec ≠ 0 → t.handler = false → t.riderTrap = none →
      RiderTraps s tk t (.sbari a b) (riderTrapAt t .addrBounds) ∧ RiderTraps s tk t (.sbarx a b) (riderTrapAt t .addrBounds)
        ∧ RiderTraps s tk t (.sbarw a b) (riderTrapAt t .addrBounds))

/-- R126, R154, R160, R210 to R212: the rider's fences, of which SFENCE.team waits for the team's stores to its handle table, and YIELD, after which the rider is not ready for 16 cycles. -/
def Obligations.ScalarFencesAndYield : Prop :=
  (∀ (s : State) (tk : Nat) (t : Team), RiderAt s tk t →
    let mine := t.ops.filter fun o => !o.done && o.group == none && (accClass o).isSome
    let ready : Prop := storesLive mine = false ∧ s.vmaxPassed t = true ∧ s.shownTo t (t.riderOp .ld .ls .plain .split .stall) = []
    (∀ sc, wellFormed (.sfence sc) = true → (wideScope sc = true → ready) → (sc = .team → s.tableStore t = false) →
      ∃ u, exec (.sfence sc) s = .next u ∧ u.team? tk = some ((t.holdScoped none 0 0 sc (mine.map (·.id))).wentTo (t.pc + 4)))
    ∧ (∀ sc, wellFormed (.sfence sc) = true → (wideScope sc = true ∧ ¬ready ∨ sc = .team ∧ s.tableStore t = true) → exec (.sfence sc) s = .next s)
    ∧ (∀ p q, ∃ t' : Team, RiderDoes s tk (.scfence p q) (t'.wentTo (t.pc + 4)) ∧ t'.s = t.s
        ∧ ∃ f ∈ t'.cfences, f.x = p ∧ f.y = q ∧ f.who = none ∧ ∀ w ∈ t.ops, w.done = false → w.cls = some p ∨ w.cls = some q → w.id ∈ f.ids)
    ∧ RiderDoes s tk .yield ({ t with yieldUntil := s.clk.cycle + 17 }.wentTo (t.pc + 4)))
  ∧ ∀ (s : State) (tk : Nat) (t : Team), s.team? tk = some t → t.yieldUntil ≠ 0 → t.yieldUntil ≤ s.clk.cycle →
      exec (.yieldExpire tk) s = .next (s.setTeam tk { t with yieldUntil := 0 })

/-- R83, R215 to R218, R311, R314: EXIT ends the rider's stream, and where its register is not zero names a successor, whose descriptor it reads and
which fails unless SCR, ACC and NBAR are the team's; clocks and random words; system registers; a marker; and HALTD in the handler begins a halt with
its reason. -/
def Obligations.RiderExitClocksRegisters : Prop :=
  ∀ (s : State) (tk : Nat) (t : Team), RiderAt s tk t → s.Quiet → ∀ a : SReg, t.regsReady [a] →
    (t.handler = false → t.sreg a = 0 → ∃ u t', exec (.exit a) s = .next u ∧ u.team? tk = some t' ∧ t'.exited = true ∧ t'.st = .draining ∧ t'.succ = none)
    ∧ (∀ d s', t.handler = false → t.sreg a ≠ 0 → s.readDesc (some t.core) t.root (t.sreg a).toNat = (d, s') →
        ∃ u t' x, exec (.exit a) s = .next u ∧ u.team? tk = some t' ∧ t'.exited = true ∧ t'.st = .draining ∧ t'.s = t.s ∧ t'.succ = some x
          ∧ ∀ y, x = some y ↔ d = some y ∧ y.scr = t.desc.scr ∧ y.acc = t.desc.acc ∧ y.nbar = t.desc.nbar)
    ∧ RiderWrites s tk t (.stime a) a (BitVec.ofNat 64 s.clk.cycle)
    ∧ (let ws := philox 10 (t.sdraw.toNat, 0xFFFFFFFF, t.teamId % 2 ^ 32, t.launch % 2 ^ 32) (((s.launch? t.launch).map (·.seed)).getD 0)
       RiderDoes s tk (.srand a) ({ t.setSreg a (pair64 (nth ws 0 0) (nth ws 0 1)) with sdraw := t.sdraw + 1 }.wentTo (t.pc + 4)))
    ∧ (∀ num v, s.sysValue t num.toNat = some v → RiderWrites s tk t (.syrd a num) a v)
    ∧ (∀ num, s.sysValue t num.toNat = none → t.trapVec ≠ 0 → t.handler = false → t.riderTrap = none →
        RiderTraps s tk t (.syrd a num) (riderTrapAt t .illegal) ∧ RiderTraps s tk t (.sywr num a) (riderTrapAt t .illegal))
    ∧ (∀ num, num.toNat < 0x100 → RiderDoes s tk (.sywr num a) ({ t with rein := sparseSet 0 num.toNat (t.sreg a) t.rein }.wentTo (t.pc + 4)))
    ∧ (t.handler = true → RiderDoes s tk (.sywr 0x905 a) ({ t with trapVec := t.sreg a }.wentTo (t.pc + 4)))
    ∧ (t.handler = true → RiderDoes s tk (.sywr 0x901 a) ({ t with trapPc := t.sreg a }.wentTo (t.pc + 4)))
    ∧ (∀ num, num = 0x100 ∨ num = 0x101 ∨ num = 0x102 → RiderDoes s tk (.sywr num a) (t.wentTo (t.pc + 4)))
    ∧ RiderDoes s tk (.recmark a) (t.wentTo (t.pc + 4))
    ∧ (t.handler = true → s.halt = none → ∃ u h, exec (.haltd a) s = .next u ∧ u.halt = some h ∧ h.cause = 0x11 ∧ h.reason = lo32 (t.sreg a) ∧ h.at_ = s.clk.cycle)

/-! Traps. -/

/-- R185, R192, R219, R312, R351, R354: traps that a rider takes at its own word. BRKPT and STRAP take BREAK, STRAP with its code; an ill-formed
word and TRET or HALTD outside a handler take ILLEGAL_INSTRUCTION; with SY.TRAPVEC = 0 the trap kills the team. -/
def Obligations.RiderTrapsTaken : Prop :=
  ∀ (s : State) (tk : Nat) (t : Team), RiderAt s tk t → s.Quiet → t.handler = false → ∀ a : SReg, t.regsReady [a] →
    (t.trapVec ≠ 0 → t.riderTrap = none →
      RiderTraps s tk t .brkpt (riderTrapAt t .brk)
      ∧ RiderTraps s tk t (.strap a) (riderTrapAt t .brk ((lo32 (t.sreg a)).zeroExtend 64))
      ∧ (∀ i ∈ [Instr.tretRetry, .tretSkip, .tretKillg, .tretKillt, .haltd a], RiderTraps s tk t i (riderTrapAt t .illegal))
      ∧ (∀ i ∈ [Instr.sbr true 0 0, .sld 3 0 a a .plain .split, .sfence .split], RiderTraps s tk t i (riderTrapAt t .illegal)))
    ∧ (t.trapVec = 0 → t.killed = false → ∃ u t', exec .brkpt s = .next u ∧ u.team? tk = some t' ∧ t'.killed = true ∧ t'.s = t.s)

/-- R355, R356, R357: the handler is entered with the rider's trap before the team's and the lanes'. SY.TRAPPC takes the address at which the
rider resumes, the PC takes SY.TRAPVEC, and the frame registers take the cause, the place, the address and the count. -/
def Obligations.HandlerEntryEffect : Prop :=
  ∀ (s : State) (tk : Nat) (t : Team) (x : Trap), s.team? tk = some t → s.mayHandle t = true → t.nextTrap = some x →
    (t.trapVec = 0 → exec (.handlerEntry tk) s = .next (s.killTeam tk))
    ∧ (t.trapVec ≠ 0 → ∃ u t', exec (.handlerEntry tk) s = .next u ∧ u.team? tk = some t' ∧ t'.handler = true ∧ t'.handling = some x ∧ t'.pc = t.trapVec
      ∧ t'.trapPc = t.pc ∧ t'.s = t.s ∧ t'.q = t.q ∧ sparseFind 0 t'.frame = some (trapCauseWord x) ∧ sparseFind 2 t'.frame = some x.loc
      ∧ sparseFind 3 t'.frame = some x.addr
      ∧ sparseFind 4 t'.frame = some (BitVec.ofNat 64 (match (if x.src = 0 then t.group? x.group else none) with
          | some g => g.icnt
          | none => t.retired))
      ∧ (∀ r, t.riderTrap = some r → x = r) ∧ (x.src = 1 → t'.riderTrap = none) ∧ u.mem = s.mem)

/-- R313, R359: TRET in the handler. RETRY goes on at SY.TRAPPC with the trapping instruction to execute again; SKIP passes over it; KILLG ends the
group of a lane trap; KILLT kills the team. EXIT in the handler acts as KILLT. -/
def Obligations.TrapReturns : Prop :=
  ∀ (s : State) (tk : Nat) (t : Team) (x : Trap), RiderAt s tk t → s.Quiet → t.handler = true → t.handling = some x → t.exited = false →
    let goes (i : Instr) (p : State → Team → Prop) : Prop := ∃ u t', exec i s = .next u ∧ u.team? tk = some t' ∧ t'.s = t.s ∧ p u t'
    (x.src ≤ 2 → goes .tretRetry fun _ t' => t'.handler = false ∧ t'.handling = none ∧ t'.pc = t.trapPc)
    ∧ (x.src = 0 → ∀ g, t.group? x.group = some g → goes .tretRetry fun _ t' => t'.group? x.group = some
        { g with traps := g.traps.drop 1, halted := !(g.traps.drop 1).isEmpty })
    ∧ (x.src = 0 → lateCause x.cause = false → ∀ g, t.group? x.group = some g → (g.split x.split).st ≠ .free → goes .tretSkip fun _ t' =>
        t'.pc = t.trapPc ∧ ∃ g', t'.group? x.group = some g' ∧ (g'.split x.split).lpc = (g.split x.split).lpc + 1)
    ∧ (x.src = 1 → lateCause x.cause = true → goes .tretSkip fun _ t' => t'.handler = false ∧ t'.pc = t.trapPc)
    ∧ (x.src = 1 → lateCause x.cause = false → goes .tretSkip fun _ t' => t'.handler = false ∧ (t'.pc = t.trapPc + 4 ∨ t'.pc = t.trapPc + 8))
    ∧ (x.src = 0 → ∀ g, t.group? x.group = some g → goes .tretKillg fun _ t' => t'.handler = false ∧ t'.pc = t.trapPc
        ∧ ∀ g', t'.group? x.group = some g' → g'.ended = true)
    ∧ (t.killed = false → goes .tretKillt fun _ t' => t'.killed = true)
    ∧ ∀ a, t.killed = false → t.sregBusy a = false → goes (.exit a) fun _ t' => t'.killed = true

/-! Engine commands. -/

/-- R291 to R293, R315: a copy whose block is read takes the lowest free slot, gives its number to d, and goes on; a scratchpad's lines that it
writes are empty; ORD puts it behind the team's earlier copies. A copy of more than 65,536 bytes whose block is well formed first asks for power
leave. -/
def Obligations.CopiesIssue : Prop :=
  ∀ (s : State) (tk : Nat) (t : Team), RiderAt s tk t → s.Quiet → ∀ (d b : SReg) (c : Option SReg),
    let i : Instr := match c with
      | none => .cpy d b
      | some c => .cpym d b c
    wellFormed i = true → t.regsReady ([d, b, b + 1, b + 2, b + 3, b + 4, b + 5, b + 6] ++ c.toList) → t.pathFull .cp = false →
    ∀ low k s', freeBelow t.copySlots 64 = some low → s.copyBlock t b (c.map t.sreg) low = (k, s') →
      ((k.status = some .badDesc ∨ k.n ≤ 65536 ∨ t.leaveGot = true) →
        ∃ u t', exec i s = .next u ∧ u.team? tk = some t' ∧ t'.pc = t.pc + 4 ∧ t'.s = (t.setSreg d (BitVec.ofNat 64 low)).s ∧ t'.leaveGot = false
          ∧ t'.ops.map (·.body) = t.ops.map (·.body) ++ [.copy k]
          ∧ (∃ ds, t'.ops.getLast? = some { t.stamped { t.riderOp .cp .cp .plain .split (.copy k) with
                leave := k.status != some .badDesc && decide (65536 < k.n) } s'.serial with deps := ds }
              ∧ ((t.sreg (b + 2)).getLsbD 22 = true → ∀ x ∈ t.copyIds, x ∈ ds))
          ∧ (k.status = none → k.dst.isScratch = true → k.mcast = false → ∀ l ∈ k.lines, l ∈ t'.emptyLines)
          ∧ (∀ l ∈ t.emptyLines, l ∈ t'.emptyLines) ∧ u.mem = s.mem)
      ∧ (k.status ≠ some .badDesc → 65536 < k.n → t.leaveGot = false → t.leaveReq = none →
        ∃ u, exec i s = .next u ∧ u.team? tk = some { t with leaveReq := some s.clk.cycle, leaveAgain := false })

/-- R295, R296, R319: LAYLD reads a layout record and answers its status; LAYINV drops the core's copies of one record or of all. -/
def Obligations.LayoutRecords : Prop :=
  ∀ (s : State) (tk : Nat) (t : Team), RiderAt s tk t → ∀ d b : SReg,
    (t.regsReady [d, b] → let va := (t.sreg b).toNat
      let st : EStatus := if va % 64 ≠ 0 then .misalign else match (s.readLayout t.core t.root va).1 with
        | .error e => e
        | .ok none => .badDesc
        | .ok (some _) => .ok
      ∃ u, exec (.layld d b) s = .next u ∧ u.team? tk = some ((t.setSreg d (BitVec.ofNat 64 (statusCode st))).wentTo (t.pc + 4))
        ∧ (s.Quiet → u.mem = s.mem))
    ∧ (t.regsReady [b] → ∃ u, exec (.layinv b) s = .next u ∧ u.team? tk = some (t.wentTo (t.pc + 4))
        ∧ (s.Quiet → u.mem = s.mem ∧ ∀ x ∈ (u.core t.core).layouts, (t.sreg b).toNat ≠ 0 ∧ x.2.1 ≠ (t.sreg b).toNat))

/-- R297 to R303, R315: a matrix command with room in the queue of 16 joins it with the words its registers hold, and the rider goes on; TMMA and
TMMAG need power leave, and ask for it; TMMAG also has a gather in flight; TACC.STAT holds the rider until its answer. A command that finds the queue
full waits; one that has its leave is then marked as waiting for room. -/
def Obligations.MatrixCommandsQueue : Prop :=
  ∀ (s : State) (tk : Nat) (t : Team), RiderAt s tk t → ∀ a b c : SReg, t.regsReady [a, b, c] →
    (t.matQueue.length < 16 → t.pathFull .mx = false →
      let t0 : Team := { t with leaveGot := false, roomWait := false }
      let queues (i : Instr) (m : MatCmd) (leave : Bool := false) : Prop :=
        RiderIssues s (s.setTeam tk t0) tk t0 i { t.riderOp .mx .mx .plain .split (.matrix m false none) with leave := leave }
      (t.leaveGot = true → queues (.tmma a b c) (.tmma (t.sreg a) (t.sreg b) (t.sreg c) false) true)
      ∧ (t.leaveGot = true → t.pathFull .ga = false → ∃ u t', exec (.tmmag a b c) s = .next u ∧ u.team? tk = some t' ∧ t'.pc = t.pc + 4 ∧ t'.s = t.s
          ∧ ∃ o g, t'.ops = t.ops ++ [o, g] ∧ o.id = s.serial ∧ o.path = some .mx
            ∧ o.body = .matrix (.tmma (t.sreg a) (t.sreg b) (t.sreg c) true) false none ∧ g.path = some .ga ∧ g.body = .gather o.id)
      ∧ queues (.taccZero b) (.taccZero (t.sreg b)) ∧ queues (.taccScale b) (.taccScale (t.sreg b)) ∧ queues (.taccAdd b) (.taccAdd (t.sreg b))
      ∧ queues (.taccIadd b) (.taccIadd (t.sreg b)) ∧ queues (.taccMove b) (.taccMove (t.sreg b))
      ∧ queues (.tepi a b) (.tepi (t.sreg a) (t.sreg b))
      ∧ ∃ u t', exec (.taccStat b) s = .next u ∧ u.team? tk = some t' ∧ t'.pc = t.pc ∧ t'.blocked = some s.serial
          ∧ ∃ o, t'.ops = t.ops ++ [o] ∧ o.id = s.serial ∧ o.path = some .mx ∧ o.body = .matrix (.taccStat b.toNat) false none)
    ∧ (t.leaveGot = false → t.leaveReq = none → ∀ i ∈ [Instr.tmma a b c, .tmmag a b c],
        ∃ u, exec i s = .next u ∧ u.team? tk = some { t with leaveReq := some s.clk.cycle, leaveAgain := false })
    ∧ (16 ≤ t.matQueue.length → t.leaveGot = true → ∀ i ∈ [Instr.tmma a b c, .tmmag a b c],
        exec i s = .next (s.setTeam tk { t with roomWait := true }))
    ∧ (16 ≤ t.matQueue.length → t.leaveGot = false → ∀ i ∈ [Instr.taccZero b, .taccScale b, .taccAdd b, .taccIadd b, .taccMove b, .taccStat b, .tepi a b],
        exec i s = .next s)

/-- R307, R309, R310: QPOST claims a slot with an add of 1 to the queue's index, and the rider waits for it; FRED and FMC go into flight with the
ends and the control words that their registers name; FMC asks for power leave first. -/
def Obligations.FabricCommandsIssue : Prop :=
  ∀ (s : State) (tk : Nat) (t : Team), RiderAt s tk t → t.pathFull .cl = false →
    (∀ (d b c : SReg) p ps s', wellFormed (.qpost d b c) = true → t.regsReady ([d, b] ++ (List.range 8).map fun i => c + BitVec.ofNat 6 i) →
      s.access t (scalarHandle (t.sreg b)) (bitsOf (t.sreg b).toNat 53 0 : Nat) 8 8 .ra = (.ok (p :: ps), s') →
      ((s'.core t.core).freeSlotList).isEmpty = false →
      ∃ u t', exec (.qpost d b c) s = .next u ∧ u.team? tk = some t' ∧ t'.pc = t.pc ∧ t'.s = t.s ∧ t'.blocked = some s'.serial
        ∧ ∃ id q, sparseFind id u.net.reqs = some q ∧ q.op = .add ∧ q.ty = .i64 ∧ q.segs = [(p.2.2.key, 8)]
          ∧ q.members.map (·.operands) = [[{ lane := 0, x := 1 }]])
    ∧ ∀ b : SReg, t.regsReady [b, b + 1, b + 2, b + 3] → let r := t.sreg
      let ended (e : CopyEnd) (w : U64) : Prop := ∃ en, e = .handle t.root t.desc.nhandle (bitsOf w.toNat 63 54) en (bitsOf w.toNat 53 0)
      let goes (i : Instr) (p : OpBody → Prop) : Prop := ∃ u t', exec i s = .next u ∧ u.team? tk = some t' ∧ t'.pc = t.pc + 4 ∧ t'.s = t.s
        ∧ ∃ o, t'.ops = t.ops ++ [o] ∧ o.path = some .cl ∧ o.group = none ∧ p o.body
      (wellFormed (.fred b) = true → goes (.fred b) fun y => ∃ src dst sta bad, y = .fred src dst (r (b + 2)) sta false bad [] ∧ ended src (r b) ∧ ended dst (r (b + 1))
        ∧ (sta.isSome = (r (b + 2)).getLsbD 7) ∧ (fredOk (r (b + 2)) = false → bad = some .badDesc))
      ∧ (wellFormed (.fmc b) = true → t.leaveGot = true → goes (.fmc b) fun y => ∃ src dst sta bad,
        y = .fmc src dst (bitsOf (r (b + 2)).toNat 63 24) (bitsOf (r (b + 2)).toNat 11 0) sta false bad [] [] []
        ∧ ended src (r b) ∧ ended dst (r (b + 1)) ∧ (sta.isSome = (r (b + 2)).getLsbD 23)
        ∧ (bitsOf (r (b + 2)).toNat 63 24 = 0 ∨ bitsOf (r (b + 2)).toNat 22 12 ≠ 0 → bad = some .badDesc))
      ∧ (wellFormed (.fmc b) = true → t.leaveGot = false → t.leaveReq = none →
          ∃ u, exec (.fmc b) s = .next u ∧ u.team? tk = some { t with leaveReq := some s.clk.cycle, leaveAgain := false })

/-- R59, R67, R76, R308: LAUNCH. The rider goes on; the request that is formed, not too deep, of a grid that is not empty, with a descriptor that
reads well and a team that fits, is a launch with the next LAUNCHID, a level below its parent's, and SP holds until its record is written. -/
def Obligations.LaunchInstruction : Prop :=
  ∀ (s : State) (tk : Nat) (t : Team), RiderAt s tk t → s.Quiet → ∀ b c : SReg, wellFormed (.launch b c) = true →
    t.regsReady [b, b + 1, b + 2, b + 3, c] → t.pathFull .sp = false →
    let dims := (t.sreg (b + 1)).toNat
    let nx := bitsOf dims 31 0
    let ny := bitsOf dims 47 32
    let nz := bitsOf dims 63 48
    let up := s.launch? t.launch
    let id := s.cp.nextLaunch
    (∃ u t', exec (.launch b c) s = .next u ∧ u.team? tk = some t' ∧ t'.pc = t.pc + 4 ∧ t'.s = t.s)
    ∧ (let s1 := (s.issueOp tk { id := 0, path := some .sp, cls := none, group := none, body := .child 0 }).1
       let s2 : State := { s1 with cp := { s1.cp with nextLaunch := id + 1 } }
       ∀ l d s3, up = some l → t.sreg c = 0 → nx * ny * nz < 2 ^ 32 → nx * ny * nz ≠ 0 → l.depth < 10 →
         s2.readDesc none t.root (t.sreg b).toNat = (some d, s3) →
         (let part := ((s3.queue? l.queue).map (·.part)).getD 0
          s3.fitsPart (((s3.part? part).map (·.cores)).getD []) d false 0 = true) →
         ∃ u t' k, exec (.launch b c) s = .next u ∧ u.team? tk = some t' ∧ u.launch? id = some k ∧ u.cp.nextLaunch = id + 1
           ∧ k.nx = nx ∧ k.ny = ny ∧ k.nz = nz ∧ k.teams = nx * ny * nz ∧ k.desc = d ∧ k.depth = l.depth + 1 ∧ k.seed = t.sreg (b + 2) ∧ k.root = t.root
           ∧ k.compl = some (t.sreg (b + 3)).toNat ∧ k.parent = some (t.serial, s.serial)
           ∧ ∃ o ∈ t'.ops, o.id = s.serial ∧ o.path = some .sp ∧ o.done = false ∧ o.body = .child id)

/-! Privileged commands. -/

/-- R404 to R406, R409: how a command record is read. Each command of the table has the operands that its record holds, an operand outside its range, a
bit that the table does not name, or an OPC or SUB not listed makes a record no command; and the record that a ring's command processor takes is
executed, or, where it is no command, ends with BAD_CMD. A command that a virtual function may not give, and any but FWLOAD in recovery (there log entry
32 says so), ends with DENIED. The end of a command writes its status into its record once the writes before it are visible, and the command is no
longer in progress. -/
def Obligations.CommandOutcome : Prop :=
  ((∀ (p : BitVec 4) (mask : BitVec 320), RecordReads 1 0 [(32, p.toNat), (64, mask.toNat)] (mask.toNat < 2 ^ 304) (.part p mask))
    ∧ (∀ (p : BitVec 4) (e : BitVec 9) (mask : BitVec 320) (blk : U32),
        RecordReads 1 1 [(32, p.toNat), (36, e.toNat), (64, mask.toNat), (384, blk.toNat)]
          (mask.toNat < 2 ^ 304 ∧ blk.toNat % 64 ≤ 32 ∧ blk.toNat / 2 ^ 6 % 512 ≤ 256 ∧ blk.toNat / 2 ^ 15 % 256 ≤ 224 ∧ blk.toNat / 2 ^ 23 % 8 ≤ 4
            ∧ blk.toNat / 2 ^ 26 ≤ 48) (.partExpress p e mask blk))
    ∧ (∀ (q : BitVec 10) (p : BitVec 4) (w : BitVec 8) (e : Bool) (l : BitVec 5) (d r : U64),
        RecordReads 2 0 [(32, q.toNat), (42, p.toNat), (46, w.toNat), (54, e.toNat), (55, l.toNat), (64, d.toNat), (128, r.toNat)]
          (4 ≤ l.toNat ∧ l.toNat ≤ 16 ∧ d.toNat % 64 = 0 ∧ r.toNat % 64 = 0 ∧ d.toNat + 64 ≤ 2 ^ 39) (.qreg q p w e l d r))
    ∧ (∀ q : BitVec 10, RecordReads 2 1 [(32, q.toNat)] True (.qreset q))
    ∧ (∀ (q : BitVec 10) (p : BitVec 4) (w : BitVec 8) (e : Bool),
        RecordReads 2 2 [(32, q.toNat), (42, p.toNat), (46, w.toNat), (54, e.toNat)] True (.qset q p w e))
    ∧ (∀ (k : BitVec 9) (n : BitVec 4), RecordReads 3 0 [(32, k.toNat), (41, n.toNat)] (k.toNat < Config.cores) (.carve k n))
    ∧ (∀ (e : Bool) (n : BitVec 10) (r : U64), RecordReads 4 0 [(32, e.toNat), (33, n.toNat), (64, r.toNat)]
        (r.toNat % 4096 = 0 ∧ r.toNat < 2 ^ 39 ∧ (e = true ∨ n.toNat < 16)) (.ctxroot e n r))
    ∧ (∀ (p : BitVec 4) (v l : U64), RecordReads 5 0 [(32, p.toNat), (64, v.toNat), (128, l.toNat)] (v.toNat % 65536 = 0 ∧ l.toNat % 65536 = 0) (.tlbinv p v l))
    ∧ (∀ (l : U64) (t : U32) (k : BitVec 9) (d : U64),
        RecordReads 6 0 [(64, l.toNat), (128, t.toNat), (193, k.toNat), (256, d.toNat)] (k = 0) (.preempt l t false k d)
        ∧ RecordReads 6 0 [(64, l.toNat), (128, t.toNat), (192, 1), (193, k.toNat), (256, d.toNat)] (l = 0 ∧ t = 0 ∧ k.toNat < Config.cores) (.preempt l t true k d))
    ∧ (∀ (l : U64) (t : U32), RecordReads 6 1 [(64, l.toNat), (128, t.toNat)] True (.restore l t))
    ∧ (∀ (m : BitVec 8) (n : BitVec 16), RecordReads 7 0 [(32, m.toNat), (40, n.toNat)] (masterOk m.toNat n.toNat = true) (.release m n))
    ∧ (∀ k : BitVec 4, RecordReads 8 0 [(64, k.toNat)] (12 ≤ k.toNat) (.setTReply k))
    ∧ (∀ e : Bool, RecordReads 8 1 [(64, e.toNat)] True (.setFreezePolicy e))
    ∧ (∀ b n : U64, RecordReads 8 2 [(64, b.toNat), (128, n.toNat)] (b.toNat % 4096 = 0 ∧ 4096 ≤ n.toNat) (.setDumpArea b n))
    ∧ (∀ (p : BitVec 4) (b n : U64), RecordReads 8 3 [(32, p.toNat), (64, b.toNat), (128, n.toNat)] (b.toNat % 4096 = 0) (.setSaveArea p b n))
    ∧ (∀ (m : BitVec 8) (k : BitVec 16) (w : BitVec 4) (b n : U64) (r : BitVec 3),
        RecordReads 8 4 [(32, m.toNat), (40, k.toNat), (56, w.toNat), (64, b.toNat), (128, n.toNat), (192, r.toNat)]
          (b.toNat % 65536 = 0 ∧ n.toNat % 65536 = 0 ∧ 2 ≤ m.toNat ∧ m.toNat ≤ 4 ∧ masterOk m.toNat k.toNat = true) (.setInboundWindow m k w b n r))
    ∧ (∀ b n : U64, RecordReads 8 5 [(64, b.toNat), (128, n.toNat)] (b.toNat % 65536 = 0 ∧ n.toNat % 65536 = 0) (.setMulticastWindow b n))
    ∧ (∀ (q : BitVec 10) (i l n : U64), RecordReads 9 0 [(32, q.toNat), (64, i.toNat), (128, l.toNat), (192, n.toNat)] True (.replay q i l n))
    ∧ RecordReads 9 1 [] True .resume
    ∧ (∀ n : BitVec 12, RecordReads 9 2 [(32, n.toNat)] (n = 0xFFF ∨ streamOk n.toNat = true) (.flush n))
    ∧ (∀ n : BitVec 8, RecordReads 10 0 [(32, n.toNat)] (1 ≤ n.toNat ∧ n.toNat ≤ 144) (.podPeer n))
    ∧ (∀ (g p : BitVec 8) (m : BitVec 16), RecordReads 10 1 [(32, g.toNat), (40, p.toNat), (64, m.toNat)]
        (242 ≤ g.toNat ∧ g.toNat ≤ 254 ∧ p.toNat ≤ 143) (.podGateway g p m))
    ∧ (∀ (g : BitVec 12) (m : BitVec 192), RecordReads 10 2 [(32, g.toNat), (64, m.toNat)] (m.toNat % 2 = 0 ∧ m.toNat < 2 ^ 145) (.podMcastGroup g m))
    ∧ (∀ k : BitVec 5, RecordReads 10 3 [(32, k.toNat)] (10 ≤ k.toNat ∧ k.toNat ≤ 24) (.podReductionTimer k))
    ∧ (∀ (p : BitVec 2) (g : BitVec 8) (m : BitVec 16) (a b c : U64),
        let fs := [(32, p.toNat), (40, g.toNat), (48, m.toNat), (64, a.toNat), (128, b.toNat), (192, c.toNat)]
        let ok : Prop := (g = 0 ∨ 242 ≤ g.toNat ∧ g.toNat ≤ 254) ∧ (p ≠ 0 ∨ g ≠ 0)
        RecordReads 11 0 fs ok (.snapshot p g m a b c) ∧ RecordReads 11 1 fs ok (.snaprest p g m a b c))
    ∧ (∀ a n : U64, RecordReads 12 0 [(64, a.toNat), (128, n.toNat)] True (.fwload a n)))
  ∧ (∀ w j, (commandOf w).isSome = true → w.testBit j = true → j < 512 → j < 32 ∨ 448 ≤ j
      ∨ ∃ fs f, recordFields (w % 256) (w / 256 % 16) = some fs ∧ f ∈ fs ∧ f.1 ≤ j ∧ j < f.1 + f.2)
  ∧ (∀ w, recordFields (w % 256) (w / 256 % 16) = none → commandOf w = none)
  ∧ (∀ (s : State) (fn : Nat), let r := sparseGet ({ admq := 0 } : AdminRing) s.cp.rings fn
      let k := keyOf 255 r.admq.toNat
      let ring := s.numAt (k + 0x10) 8
      let at_ := keyOf 255 ring + 64 * (r.ridx % 2 ^ (s.numAt (k + 0x18) 4 % 32))
      let w := s.numAt at_ 4
      r.admq ≠ 0 → r.stopped = false → r.admq.toNat % 64 = 0 → ring % 64 = 0 → bitsOf w 7 0 ≠ 0 → bitsOf w 31 16 = r.ridx % 2 ^ 16 →
      bitsOf w 15 12 = r.ridx / 2 ^ 16 % 2 ^ 4 →
      let c : PendCmd := { id := s.cp.nextCmd, fn := fn, record := at_, cmd := commandOf (s.numAt at_ 64), start := s.clk.cycle }
      ∃ s' : State, s'.cp.cmds = s.cp.cmds ++ [c] ∧ s'.cp.queues = s.cp.queues ∧ s'.cp.parts = s.cp.parts ∧ s'.cores = s.cores ∧ s'.teams = s.teams
        ∧ s'.fab = s.fab ∧ s'.mgmt = s.mgmt ∧ (sparseGet ({ admq := 0 } : AdminRing) s'.cp.rings fn).ridx = r.ridx + 1
        ∧ (∀ j, ¬(s.storeKey at_ ≤ j ∧ j < s.storeKey at_ + 4) → ¬(s.storeKey (k + 8) ≤ j ∧ j < s.storeKey (k + 8) + 8) →
            sparseGet 0 s'.mem j = sparseGet 0 s.mem j)
        ∧ (c.cmd = none → stepCommand fn s = .next (s'.finishCommand c.id 2))
        ∧ ∀ i, c.cmd = some i → stepCommand fn s = exec i { s' with cur := .command c.id })
  ∧ ∀ (s : State) (c : PendCmd), CommandAt s c →
    (c.fn ≠ 0 → ∀ i ∈ [Instr.part 0 0, .carve 0 3, .release 0 0, .setTReply 13, .setFreezePolicy true, .setDumpArea 0 4096, .setSaveArea 0 0 0,
        .setInboundWindow 2 0 0 0 0 0, .setMulticastWindow 0 0, .replay 0 0 0 0, .resume, .flush 0xFFF, .podPeer 1, .podGateway 242 0 0, .podMcastGroup 0 0,
        .podReductionTimer 20, .snapshot 1 0 0 0 0 0, .snaprest 1 0 0 0 0 0, .fwload 0 0], CommandEnds s c i s 4)
    ∧ (c.fn ≠ 0 → s.boundPart c.fn = none → ∀ i ∈ [Instr.qreg 0 0 1 false 4 0 0, .qreset 0, .qset 0 0 1 false, .ctxroot true 0 0, .tlbinv 0 0 0, .preempt 0 0 false 0 0,
        .restore 0 0], CommandEnds s c i s 4)
    ∧ (s.mgmt.recovery = true → c.cmd = some .resume → CommandEnds s c .resume s 4)
    ∧ ∀ status : Nat, status < 256 → c.status = none → (sparseGet ({ admq := 0 } : AdminRing) s.cp.rings c.fn).next = none → c.record % 64 = 0 →
        let u := s.finishCommand c.id status
        (s.settled s.cp.vmax = true → u.numAt (c.record + 0x38) 8 = status ∧ (∀ x, x ∈ u.cp.cmds ↔ x ∈ s.cp.cmds ∧ x.id ≠ c.id)
          ∧ ∀ k, (k < s.storeKey (c.record + 0x38) ∨ s.storeKey (c.record + 0x38) + 8 ≤ k) → sparseGet 0 u.mem k = sparseGet 0 s.mem k)
        ∧ (s.settled s.cp.vmax = false → u.mem = s.mem ∧ { c with status := some status, v := s.cp.vmax } ∈ u.cp.cmds)

/-- R344, R362, R371, R390, R400, R406, R409: SET, POD, CTXROOT, FWLOAD and RESUME, with operands that some record holds, put what they name into the
machine's settings. -/
def Obligations.CommandSettings : Prop :=
  ∀ (s : State) (c : PendCmd), PhysicalAt s c →
    let puts (i : Instr) (p : CmdProc) : Prop := Commanded i → CommandEnds s c i { s with cp := p }
    let binds (i : Instr) (f : Fabric) : Prop := Commanded i → CommandEnds s c i { s with fab := f }
    (∀ k, puts (.setTReply k) { s.cp with tReply := k.toNat })
    ∧ (∀ b, puts (.setFreezePolicy b) { s.cp with freezeHalt := b })
    ∧ (∀ base size, puts (.setDumpArea base size) { s.cp with dumpArea := some (base.toNat, size.toNat) })
    ∧ (∀ p base size, ∃ m, puts (.setSaveArea p base size) { s.cp with saveAreas := m } ∧ sparseFind p.toNat m = some (base.toNat, size.toNat)
        ∧ ∀ k, k ≠ p.toNat → sparseFind k m = sparseFind k s.cp.saveAreas)
    ∧ (∀ mkind mnum win base size rights, ∃ ws, puts (.setInboundWindow mkind mnum win base size rights) { s.cp with windows := ws }
        ∧ ∀ w, w ∈ ws ↔ (w ∈ s.cp.windows ∧ ¬(w.mkind = mkind.toNat ∧ w.mnum = mnum.toNat ∧ w.win = win.toNat))
            ∨ (size ≠ 0 ∧ w = { mkind := mkind.toNat, mnum := mnum.toNat, win := win.toNat, base := base.toNat, size := size.toNat, rights := rights }))
    ∧ (∀ base size, puts (.setMulticastWindow base size) { s.cp with mcastWindow := if size = 0 then none else some (base.toNat, size.toNat) })
    ∧ (∀ n root, (∃ m, puts (.ctxroot true n root) { s.cp with queueRoots := m } ∧ sparseFind n.toNat m = some root.toNat
          ∧ ∀ k, k ≠ n.toNat → sparseFind k m = sparseFind k s.cp.queueRoots)
        ∧ ∃ m, puts (.ctxroot false n root) { s.cp with partRoots := m } ∧ sparseFind n.toNat m = some root.toNat
          ∧ ∀ k, k ≠ n.toNat → sparseFind k m = sparseFind k s.cp.partRoots)
    ∧ (∀ n, binds (.podPeer n) { s.fab with self := some n.toNat })
    ∧ (∀ gw port planes, ∃ m, binds (.podGateway gw port planes) { s.fab with gateways := m } ∧ sparseFind gw.toNat m = some (port.toNat, planes)
        ∧ ∀ k, k ≠ gw.toNat → sparseFind k m = sparseFind k s.fab.gateways)
    ∧ (∀ g mask, ∃ m l, binds (.podMcastGroup g mask) { s.fab with groups := m } ∧ sparseFind g.toNat m = some l
        ∧ (∀ p, p ∈ l ↔ p ≤ 144 ∧ mask.getLsbD p = true) ∧ ∀ k, k ≠ g.toNat → sparseFind k m = sparseFind k s.fab.groups)
    ∧ (∀ k, binds (.podReductionTimer k) { s.fab with redK := k.toNat })
    ∧ (∀ addr len, CommandEnds s c (.fwload addr len)
        { s with mgmt := { s.mgmt with staged := some (s.bytesAt (keyOf 255 addr.toNat) len.toNat) } })
    ∧ (∃ h, CommandEnds s c .resume { s with haeth := h, debugHalt := none, halt := none }
        ∧ (s.debugHalt ≠ some true → h = s.haeth)
        ∧ ∀ r, s.debugHalt = some true → s.haeth.replay = some r → h = { s.haeth with replay := some { r with gating := false } })

/-- R61, R62, R64, R73, R75, R135, R406: QREG writes the queue's descriptor and starts it at index 0; QRESET cancels packets that have not
started and clears STOPPED; QSET moves a queue, and pending teams of another class are then admitted outside reserved blocks; PART gives cores to a
partition and takes others from it, each once it holds no resident or pending team; PART.EXPRESS sets what the partition reserves; CARVE and its
completion move the boundary of the L1. That QREG's descriptor lies at a physical address is the model's choice (log entry 16). -/
def Obligations.CommandQueuesAndCores : Prop :=
  ∀ (s : State) (c : PendCmd), PhysicalAt s c →
    (∀ (q : BitVec 10) (part : BitVec 4) (weight : BitVec 8) (cls : Bool) (log2n : BitVec 5) (desc ring : U64),
      Commanded (.qreg q part weight cls log2n desc ring) → desc.toNat % 64 = 0 → desc.toNat + 64 ≤ 2 ^ 39 →
      let d := desc.toNat
      ∃ s', CommandEnds s c (.qreg q part weight cls log2n desc ring) s'
        ∧ s'.queue? q.toNat = some { part := part.toNat, weight := weight.toNat, express := cls, log2n := log2n.toNat, desc := d, ring := ring.toNat }
        ∧ s'.numAt d 8 = 0 ∧ s'.numAt (d + 8) 8 = 0 ∧ s'.numAt (d + 0x10) 8 = ring.toNat
        ∧ s'.numAt (d + 0x18) 4 = part.toNat * 2 ^ 24 + weight.toNat * 2 ^ 16 + (if cls then 2 ^ 8 else 0) + log2n.toNat ∧ s'.numAt (d + 0x1C) 4 = 0
        ∧ ∀ k, k < d ∨ d + 0x20 ≤ k → sparseGet 0 s'.mem k = sparseGet 0 s.mem k)
    ∧ (∀ (q : BitVec 10) x, s.queue? q.toNat = some x →
      (∃ s' x', CommandEnds s c (.qreset q) s' ∧ s'.queue? q.toNat = some x' ∧ x'.stopped = false ∧ x'.status = 0 ∧ x'.ridx = x.ridx
        ∧ (∀ p ∈ x'.pkts, ∃ p0 ∈ x.pkts, p0.idx = p.idx) ∧ ∀ p ∈ x.pkts, p.started = false → p.compl = none → ∀ p' ∈ x'.pkts, p'.idx ≠ p.idx)
      ∧ ∀ part weight cls, ∃ s' x', CommandEnds s c (.qset q part weight cls) s'
        ∧ s'.queue? q.toNat = some x' ∧ x'.part = part.toNat ∧ x'.weight = weight.toNat ∧ x'.express = cls ∧ x'.ridx = x.ridx ∧ x'.stopped = x.stopped
        ∧ ∀ k, (s'.core k).pending = (s.core k).pending.map fun p =>
            if p.express ≠ cls ∧ (s.launch? p.launch).any (fun l => l.queue == q.toNat) = true then { p with express := cls, reserved := false } else p)
    ∧ (∀ q, s.queue? q.toNat = none → CommandEnds s c (.qreset q) s 2 ∧ ∀ part weight cls, CommandEnds s c (.qset q part weight cls) s 2)
    ∧ (∀ (p : BitVec 4) (mask : BitVec 320), Commanded (.part p mask) →
        let idle (k : Nat) : Prop := (s.core k).pending = [] ∧ s.coreTeams k = []
        let held (s : State) (r k : Nat) : Prop := ∃ y, s.part? r = some y ∧ k ∈ y.cores
        ∃ s', CommandEnds s c (.part p mask) s' ∧ s'.mem = s.mem ∧ s'.teams = s.teams ∧ s'.cores = s.cores
          ∧ (∀ k, k < s.numCores → mask.getLsbD k = true → ¬held s p.toNat k → idle k → held s' p.toNat k ∧ ∀ r, r ≠ p.toNat → ¬held s' r k)
          ∧ (∀ k, k < s.numCores → mask.getLsbD k = true → ¬held s p.toNat k → ¬idle k →
              sparseFind k s'.cp.moving = some (some p.toNat) ∧ ∀ r, held s' r k ↔ held s r k)
          ∧ (∀ k, k < s.numCores → mask.getLsbD k = true → held s p.toNat k → sparseFind k s'.cp.moving = none ∧ held s' p.toNat k)
          ∧ (∀ k, k < s.numCores → mask.getLsbD k = false → sparseFind k s.cp.moving = none → held s p.toNat k →
              (idle k → ∀ r, ¬held s' r k) ∧ (¬idle k → sparseFind k s'.cp.moving = some none ∧ held s' p.toNat k))
          ∧ ∀ k, k < s.numCores → mask.getLsbD k = false → sparseFind k s.cp.moving = none → ¬held s p.toNat k →
              sparseFind k s'.cp.moving = none ∧ ∀ r, held s' r k ↔ held s r k)
    ∧ (∀ (p : BitVec 4) ecap mask block x, Commanded (.partExpress p ecap mask block) → s.part? p.toNat = some x → x.gone = false →
        ecap.toNat ≤ (s.namedCores p.toNat).length → (∀ k ∈ coresOf mask 320, k ∈ s.namedCores p.toNat) →
        ∃ s', CommandEnds s c (.partExpress p ecap mask block) s'
          ∧ s'.part? p.toNat = some { x with ecap := ecap.toNat, reserved := coresOf mask 320, block := blockOf block })
    ∧ (∀ (core : BitVec 9) (units : BitVec 4), let k := core.toNat
      let n := units.toNat
      (n < 3 ∨ 7 < n ∨ (s.core k).carve ≠ none ∨ s.numCores ≤ k → CommandEnds s c (.carve core units) s 3)
      ∧ (3 ≤ n → n ≤ 7 → (s.core k).carve = none → k < s.numCores →
        (n ≤ (s.core k).l1 → ∃ s', CommandEnds s c (.carve core units) s' ∧ (s'.core k).l1 = n
          ∧ ∀ t, t ∈ s'.coh.tokens ↔ t ∈ s.coh.tokens ∧ ¬(t.2.1 = k ∧ n ≤ Config.l1Unit (s.core k).l1 t.1 % max 1 (s.core k).l1))
        ∧ ((s.core k).l1 < n → ∃ u, exec (.carve core units) s = .next u ∧ (u.core k).carve = some n ∧ (u.core k).l1 = (s.core k).l1 ∧ u.cp = s.cp)))
    ∧ ∀ core n, (s.core core).carve = some n → s.carveFree core n = true →
        ∃ u, exec (.carveComplete core) s = .next u ∧ (u.core core).l1 = n ∧ (u.core core).carve = none

/-- R145, R362, R363, R369, R380, R384, R406: TLBINV drops the copies of a range, in TLBs and page-walk caches, and waits for the accesses translated
before it; PREEMPT and RESTORE go on until the last of the teams that they name; RELEASE frees a frozen unit, and resets a PCIe function; REPLAY posts its
image in the queue's next slot with RECLVL 0, and arms the bridles; FLUSH closes chunks. That the image lies at a physical address is the model's choice
(log entry 33). -/
def Obligations.CommandTeamsAndReplay : Prop :=
  ∀ (s : State) (c : PendCmd), PhysicalAt s c →
    let waiting (s : State) (i : Instr) (ws : List Nat) (s' : State) : Prop := if ws = [] then CommandEnds s c i s'
      else exec i s = .next { s' with cp := { s'.cp with cmds := s'.cp.cmds.map fun x => if x.id = c.id then { x with waits := ws } else x } }
    (∀ (p : BitVec 4) (va len : U64), Commanded (.tlbinv p va len) →
        let hit (root lo n : Nat) : Prop := root ∈ s.rootsOf p.toNat ∧ (len = 0 ∨ lo < va.toNat + len.toNat ∧ va.toNat < lo + n)
        ∃ s', waiting s (.tlbinv p va len) (s.translated (s.rootsOf p.toNat)) s' ∧ s'.mem = s.mem ∧ s'.cp = s.cp
        ∧ (∀ k e, e ∈ (s'.core k).tlb ↔ e ∈ (s.core k).tlb ∧ ¬hit e.root e.va e.size)
        ∧ ∀ k e, e ∈ sparseGet [] s'.coh.walks k ↔ e ∈ sparseGet [] s.coh.walks k ∧ ¬hit e.root (e.tag * 2 ^ e.lo) (2 ^ e.lo))
    ∧ (∀ launch team core dl, Commanded (.preempt launch team false core dl) → ∃ ws, waiting s (.preempt launch team false core dl) ws s
        ∧ ∀ n, n ∈ ws ↔ ∃ x ∈ s.teams, x.2.serial = n ∧ x.2.killed = false ∧ x.2.launch = launch.toNat ∧ x.2.teamId = team.toNat)
    ∧ (∀ launch team core dl, Commanded (.preempt launch team true core dl) → ∃ ws, waiting s (.preempt launch team true core dl) ws s
        ∧ ∀ n, n ∈ ws ↔ ∃ x ∈ s.teams, x.2.serial = n ∧ x.2.killed = false ∧ x.2.core = core.toNat)
    ∧ (∀ launch team, ∃ ws, waiting s (.restore launch team) ws s ∧ ∀ n, n ∈ ws ↔ ∃ x ∈ s.cp.saved, x.team.serial = n ∧ x.team.launch = launch.toNat
        ∧ (team = 0xFFFFFFFF ∨ x.team.teamId = team.toNat))
    ∧ (∀ mnum : BitVec 16, Commanded (.release 0 mnum) → ∃ s', CommandEnds s c (.release 0 mnum) s' ∧ (s'.core mnum.toNat).frozen = false
        ∧ ((s.core mnum.toNat).frozen = true → ∀ tk t, s'.team? tk = some t → t.core = mnum.toNat → t.killed = true))
    ∧ (∀ (mkind : BitVec 8) (mnum : BitVec 16), Commanded (.release mkind mnum) → mkind ≠ 0 → ∃ s', CommandEnds s c (.release mkind mnum) s' ∧ s'.teams = s.teams
        ∧ (∀ m, m ∈ s'.cp.frozen ↔ m ∈ s.cp.frozen ∧ m ≠ (mkind.toNat, mnum.toNat))
        ∧ ((3, mnum.toNat) ∈ s.cp.frozen → mkind = 3 → sparseFind mnum.toNat s'.cp.rings = none))
    ∧ (∀ (q : BitVec 10) (image log len : U64) x bs ks s1, s.queue? q.toNat = some x →
        s.readVa none (s.queueRoot q.toNat) log.toNat len.toNat = (.ok bs, s1) → parseLog (len.toNat / 64 + 1) bs = some ks →
        let i := s1.numAt x.desc 8
        let img := s1.bytesAt image.toNat 64
        let valid := i % 2 ^ 16 * 2 ^ 16 + i / 2 ^ 16 % 16 * 2 ^ 12 + ofBytes (img.take 4) % 2 ^ 10
        ∃ s' r, CommandEnds s c (.replay q image log len) s' ∧ s'.haeth.replay = some r ∧ r.queue = q.toNat ∧ r.log = ks ∧ r.gating = true
          ∧ r.idx = i ∧ s'.haeth.brbase = log
          ∧ s'.mem = (((s1.poke x.desc 8 (i + 1)).writeVa none none (s1.queueRoot q.toNat) (x.ring + 64 * (i % 2 ^ x.log2n)) (bytesOf valid 4 ++ img.drop 4)).2).mem)
    ∧ (∀ (q : BitVec 10) (image log len : U64) x e s1, s.queue? q.toNat = some x → s.readVa none (s.queueRoot q.toNat) log.toNat len.toNat = (.error e, s1) →
        CommandEnds s c (.replay q image log len) s1 7)
    ∧ (∀ (q : BitVec 10) (image log len : U64) x bs s1, s.queue? q.toNat = some x → s.readVa none (s.queueRoot q.toNat) log.toNat len.toNat = (.ok bs, s1) →
        parseLog (len.toNat / 64 + 1) bs = none → CommandEnds s c (.replay q image log len) s1 7)
    ∧ ∀ st : BitVec 12, Commanded (.flush st) → ∃ s', CommandEnds s c (.flush st) s' ∧ ∀ n ch, (st = 0xFFF ∨ st.toNat = n) → sparseFind n s.haeth.chunks = some ch →
        ∃ ch', sparseFind n s'.haeth.chunks = some ch' ∧ ch'.events = []

/-- R361, R406, R408, R409: SNAPSHOT is accepted where none runs; its stream copies local memory to the sink and writes the block map; SNAPREST brings it
back, and waits while the engine is frozen; a device reset gives every state its reset value, keeps what the memory devices hold, and verifies the
stages of its image in turn, recording the digest of each up to the first that fails. The number of the engine as a master is the model's choice (log
entry 32), and how an image divides into stages a free value (log entry 25). -/
def Obligations.SnapshotsAndReset : Prop :=
  (∀ (s : State) (c : PendCmd), PhysicalAt s c → ∀ ports gw planes s0 s1 s2,
    let i := Instr.snapshot ports gw planes s0 s1 s2
    Commanded i →
    (s.cp.snap ≠ none → CommandEnds s c i s 5)
    ∧ (s.cp.snap = none → s.planesBound gw.toNat planes = false → CommandEnds s c i s 2)
    ∧ (s.cp.snap = none → s.planesBound gw.toNat planes = true →
        exec i s = .next { s with cp := { s.cp with snap := some (snapOf false ports gw planes s0 s1 s2 c) } }))
  ∧ (∀ (s : State) x code base sinks, s.Inv → s.cp.snap = some x → s.snapReady = true → (∀ l ∈ s.coh.bad, 2 ^ 39 ≤ l * 128) → x.sinks = [(code, base)] →
      s.sinkOk x code = true → ∃ s' : State, exec (.snapshotStream sinks) s = .next (s'.endSnap x 1) ∧ s'.coh.dirty = []
        ∧ (∀ a, a < 2 ^ 39 → sparseGet 0 s'.mem (base + a) = sparseGet 0 s.mem a)
        ∧ ∀ b, b < 2 ^ 18 → sparseGet 0 s'.mem (base + 2 ^ 39 + b) = BitVec.ofNat 8 code)
  ∧ (∀ (s : State) (c : PendCmd), PhysicalAt s c → s.Inv → ∀ ports gw planes s0 s1 s2 code base, Commanded (.snaprest ports gw planes s0 s1 s2) →
      s.cp.snap = none → s.teams = [] → s.planesBound gw.toNat planes = true →
      (s.frozenMaster 5 snapMaster = true → exec (.snaprest ports gw planes s0 s1 s2) s = .next s)
      ∧ (s.frozenMaster 5 snapMaster = false → (snapOf true ports gw planes s0 s1 s2 c).sinks = [(code, base)] →
        s.sinkOk (snapOf true ports gw planes s0 s1 s2 c) code = true →
        ∃ s', CommandEnds s c (.snaprest ports gw planes s0 s1 s2) s' ∧ s'.coh.hist = [] ∧ s'.coh.tokens = []
          ∧ ∀ a, a < 2 ^ 39 → sparseGet 0 s'.mem a = if (s.byteAt (base + 2 ^ 39 + a / 2 ^ 21)).toNat = code then sparseGet 0 s.mem (base + a) else 0))
  ∧ ∀ s : State, let stages := Config.stages (s.mgmt.staged.getD s.mgmt.image)
      ∃ u, exec .deviceReset s = .next u ∧ u.mem = s.mem ∧ u.fuses = s.fuses ∧ u.teams = [] ∧ u.cores = [] ∧ u.cp = State.reset.cp ∧ u.clk = State.reset.clk
      ∧ u.coh = State.reset.coh ∧ u.net = State.reset.net ∧ u.fab = State.reset.fab ∧ u.haeth = State.reset.haeth ∧ u.halt = none ∧ u.mgmt.staged = none
      ∧ u.mgmt.image = s.mgmt.staged.getD s.mgmt.image ∧ u.mgmt.log = []
      ∧ ∃ n, (∀ x ∈ stages.take n, stageVerifies x = true) ∧ (n = stages.length ∨ ∃ x, stages[n]? = some x ∧ stageVerifies x = false)
          ∧ u.mgmt.measurements = (stages.take (n + 1)).map sha384 ∧ (u.mgmt.recovery = false ↔ n = stages.length ∧ stages ≠ [])

/-! Events: the queues. -/

/-- R62 to R65, R67, R327: the command processor takes the packet in its slot, or stops the queue; MARKER, WAIT_VALUE, BARRIER_AND, COPY and LAUNCH
packets start and complete; a completion writes its record, or, under NOCOMP, only ends the packet. -/
def Obligations.QueuePackets : Prop :=
  ∀ (s : State) (qn : Nat) (q : Queue), s.queue? qn = some q →
    let root := s.queueRoot qn
    let va := q.ring + 64 * (q.ridx % 2 ^ q.log2n)
    let goes (i : Instr) (p : State → Prop) : Prop := ∃ u, exec i s = .next u ∧ p u
    let stops (c : Nat) : Prop := goes (.slotConsume qn) fun u => ∃ q', u.queue? qn = some q' ∧ q'.stopped = true ∧ q'.status = c ∧ q'.ridx = q.ridx
    (q.stopped = false → s.halt = none →
      (∀ e s1, s.readVaNum none root va 4 = (.error e, s1) → stops 3)
      ∧ ∀ w s1, s.readVaNum none root va 4 = (.ok w, s1) →
        let named := bitsOf w 31 16 = q.ridx % 2 ^ 16 ∧ bitsOf w 15 12 = q.ridx / 2 ^ 16 % 2 ^ 4
        (bitsOf w 7 0 = 0 → exec (.slotConsume qn) s = .next s1)
        ∧ (bitsOf w 7 0 ≠ 0 → ¬named → stops 1)
        ∧ (5 < bitsOf w 7 0 → named → stops 2)
        ∧ (bitsOf w 7 0 ≠ 0 → bitsOf w 7 0 ≤ 5 → named → ∀ bs s2, s1.readVa none root va 64 = (.ok bs, s2) → q.desc % 64 = 0 → q.desc + 64 ≤ 2 ^ 39 →
          q.ridx + 1 < 2 ^ 64 → goes (.slotConsume qn) fun u => ∃ q' p, u.queue? qn = some q' ∧ q'.ridx = q.ridx + 1
            ∧ q'.pkts.map (·.idx) = q.pkts.map (·.idx) ++ [q.ridx] ∧ p ∈ q'.pkts ∧ p.idx = q.ridx ∧ p.started = false ∧ p.words.length = 16
            ∧ nth p.words 0 0 = BitVec.ofNat 32 w ∧ u.numAt (q.desc + 8) 8 = q.ridx + 1))
    ∧ (∀ p, s.startable qn 3 = some (q, p) → exec (.marker qn) s = .next (s.completePkt qn p (if p.formed then 1 else 3)))
    ∧ (∀ p, s.startable qn 4 = some (q, p) → p.formed = true →
        (∀ v k s1, s.waitWord qn p = (some (v, k), s1) → goes (.waitValue qn) fun u =>
          (∃ q' p', u.queue? qn = some q' ∧ p' ∈ q'.pkts ∧ p'.idx = p.idx ∧ p'.started = true ∧ (p.waitHolds v = true → p'.sat = true))
          ∧ (p.waitHolds v = false → keyPeer k = 0 → s1.monitorsFull k = false → ∃ m ∈ u.coh.monitors, m.key = k ∧ m.n = 8 ∧ m.op = p.idx))
        ∧ ∀ s1, s.waitWord qn p = (none, s1) → exec (.waitValue qn) s = .next (s1.completePkt qn p 9))
    ∧ (∀ p, s.waitingPkt qn 4 = some (q, p) →
        (p.sat = true → exec (.waitValueComplete qn) s = .next (s.completePkt qn p 1))
        ∧ (p.sat = false → s.pktArmed qn p = false → ∀ v k s1, s.waitWord qn p = (some (v, k), s1) →
          exec (.waitValueComplete qn) s = .next (if p.waitHolds v then s1.completePkt qn p 1 else s1)))
    ∧ (∀ p, s.startable qn 5 = some (q, p) → p.formed = true → goes (.barrierAnd qn) fun u =>
        ∃ q' p', u.queue? qn = some q' ∧ p' ∈ q'.pkts ∧ p'.idx = p.idx ∧ p'.started = true)
    ∧ (∀ p, s.waitingPkt qn 5 = some (q, p) → ∀ r s1, statusesSet root ([0x08, 0x10, 0x18, 0x20, 0x28, 0x30].map p.dword) true s = (r, s1) →
        exec (.barrierAndComplete qn) s = .next (match r with
          | none => s1.completePkt qn p 9
          | some true => s1.completePkt qn p 1
          | some false => s1))
    ∧ (∀ p, s.startable qn 2 = some (q, p) → p.formed = true → goes (.copyPacket qn) fun u => ∃ k ch, sparseFind k u.cp.channels = some ch
        ∧ sparseFind k s.cp.channels = none ∧ ch.queue = qn ∧ ch.copy.src = .virt root (p.dword 8) ∧ ch.copy.dst = .virt root (p.dword 0x10)
        ∧ ch.copy.n = p.dword 0x18 ∧ ch.copy.landed = [] ∧ ch.leaveReq.isSome = decide (65536 < p.dword 0x18))
    ∧ (∀ p, s.startable qn 1 = some (q, p) → p.formed = true → s.Quiet →
        let id := s.cp.nextLaunch
        let nx := p.word 4
        let ny := bitsOf (p.word 8) 15 0
        let nz := bitsOf (p.word 8) 31 16
        let persist := bitsOf (p.word 0xC) 5 5 == 1
        let w := bitsOf (p.word 0xC) 4 0
        nx * ny * nz ≠ 0 → ∀ d s3, ({ s with cp := { s.cp with nextLaunch := id + 1 } } : State).readDesc none root (p.dword 0x10) = (some d, s3) →
          let cores := ((s3.part? (((s3.queue? qn).map (·.part)).getD 0)).map (·.cores)).getD []
          s3.fitsPart cores d persist w = true →
          goes (.launchPacket qn) fun u => (∃ k, u.launch? id = some k ∧ k.nx = nx ∧ k.ny = ny ∧ k.nz = nz ∧ k.desc = d ∧ k.depth = 1 ∧ k.queue = qn
            ∧ k.seed = BitVec.ofNat 64 (p.dword 0x18) ∧ k.root = root ∧ k.level = p.recLvl ∧ k.parent = none ∧ k.compl = p.compl
            ∧ k.teams = (if persist then w * cores.length else nx * ny * nz) ∧ k.next = 0 ∧ k.retired = 0)
            ∧ u.cp.nextLaunch = id + 1
            ∧ ∃ q' p', u.queue? qn = some q' ∧ p' ∈ q'.pkts ∧ p'.idx = p.idx ∧ p'.started = true ∧ p'.launch = some id)
    ∧ (∀ (p : PktSt) st n v, p.compl = none → ∃ q', (s.completePkt qn p st n v).queue? qn = some q' ∧ ∀ x ∈ q'.pkts, x.idx ≠ p.idx)
    ∧ ∀ (p : PktSt) st n v va' k k' l s1, p.compl = some va' → va' % 64 = 0 →
        (s.markEnded (.packet qn p.idx none)).spots none root va' 64 .write = (.ok ((k, k') :: l), s1) → k % 64 = 0 →
        s.cp.records = [] → st < 256 → let u := s.completePkt qn p st n v
        (v ≠ 0 → s.lease ≤ v → u.mem = s1.mem ∧ ∃ r ∈ u.cp.records, r.key = k ∧ r.word = st ∧ r.v = v)
        ∧ (v = 0 ∨ v < s.lease → u.bytesAt (k + 4) 60 = bytesOf 0 4 ++ bytesOf 0 8 ++ bytesOf (if p.started then p.start else s.stamp).toNat 16 ++ bytesOf s.stamp.toNat 16
            ++ bytesOf n 8 ++ bytesOf 0 8
          ∧ (u.numAt k 4 = st ∨ ∃ r ∈ u.cp.records, r.key = k ∧ r.word = st))

/-! Events: groups, teams and the scheduler. -/

/-- R79, R86, R94, R102, R109 to R111: a group takes its rein entry; a split that reaches the RPC of its frame parks, is re-pointed, or completes the
merge; frames return from the spill area and go to it; a bin forms a group; a team without progress takes its trap, behind those that it holds. -/
def Obligations.GroupEvents : Prop :=
  (∀ (s : State) (tk g : Nat) (t : Team) (x : Group), s.team? tk = some t → t.group? g = some x → x.halted = false → x.ended = false → s.stopped t = false →
    (∀ r rest, x.rein = r :: rest → x.spawned = false → x.idle = true → r.wrote ≠ some s.clk.cycle → (∀ d ∈ r.deps, t.opLive d = false) →
      let ys : List Split := [{ st := .run, frm := none, lpc := r.lpc, mask := x.live, fmt := r.fmt }, {}, {}, {}]
      let x' : Group := { x with rein := rest, fbase := r.fbase, atEnd := 0, nc := [], frames := [], spilled := 0, tried := List.range 4, splits := ys }
      exec (.reinDequeue tk g) s = .next (s.setTeam tk (t.setGroup g x')))
    ∧ (∀ sp k f, t.desc.count = false → sp < 4 → (x.split sp).st = .run → (x.split sp).frm = some k → x.spilled ≤ k → x.frames[k - x.spilled]? = some f →
      f.rpc = (x.split sp).lpc → let y := x.split sp
      let puts (x' : Group) : Prop := exec (.splitReachRpc tk g sp) s = .next (s.setTeam tk (t.setGroup g x'))
      let becomes (fs : List Frame) (ys : List Split) : Prop := puts (x.withFrames { x with frames := fs, splits := ys })
      let parked := f.park ||| y.mask
      (¬(f.kind = .serial ∧ f.dmask ≠ 0) → parked ≠ f.full →
        becomes (modNth (fun f => { f with park := parked }) (k - x.spilled) x.frames) (modNth (fun y => { y with st := .park }) sp x.splits))
      ∧ (f.kind = .serial → f.dmask ≠ 0 →
        let y' : Split := { st := .run, frm := some k, lpc := f.dpc, mask := f.dmask, fmt := f.fmt }
        becomes (modNth (fun f => { f with park := parked, dmask := 0 }) (k - x.spilled) x.frames) (modNth (fun _ => y') sp x.splits))
      ∧ (¬(f.kind = .serial ∧ f.dmask ≠ 0) → parked = f.full → x.spilled = 0 → ∃ x' j, puts x' ∧ j ≤ sp ∧ (x'.split j).st = .run ∧ (x'.split j).lpc = f.rpc
          ∧ (x'.split j).mask = f.full ∧ (x'.split j).fmt = f.fmt ∧ x'.frames.length + 1 = x.frames.length ∧ x'.v = x.v))
    ∧ (∀ sp k f s', refillWanted s t g x = some sp → x.frames.length < 16 → readSpilled t g [x.spilled - 1] s = (.ok [(k, f)], s') →
        exec (.stackRefill tk g) s = .next (s'.setTeam tk (t.setGroup g { x with frames := f :: x.frames, spilled := x.spilled - 1,
                                                                                 spilledRpc := x.spilledRpc.take (x.spilled - 1) }))))
  ∧ (∀ (s : State) (tk g : Nat) (t : Team) (x : Group) (n : BitVec 5) v s', s.team? tk = some t → t.trapGroup = some (g, x) → n ≠ 0 → n.toNat ≤ 16 →
      x.spilled + n.toNat ≤ 256 → n.toNat ≤ x.frames.length →
      s.writeVa (some t.core) (some (s.dieOf t.core)) t.root (t.spillBase.toNat + g * 8192 + 32 * x.spilled) ((x.frames.take n.toNat).flatMap frameBytes) = (.ok v, s') →
      ∃ u t' y, exec (.stkctlSpill tk n) s = .next u ∧ u.mem = s'.mem ∧ u.team? tk = some t' ∧ t'.group? g = some y ∧ y.frames = x.frames.drop n.toNat
        ∧ y.spilled = x.spilled + n.toNat ∧ y.splits = x.splits ∧ y.v = x.v)
  ∧ (∀ (s : State) (core bin tk gid bay slot : Nat) (b : Bin) (t : Team) (l : Load), s.Quiet → sparseFind bin (s.core core).bins = some b →
      s.teamBySerial b.team = some (tk, t) → s.team? tk = some t → freeBelow (t.groups.map (·.1)) 32 = some gid →
      placeGroups (t.desc.regs * 32) 1 (s.loadOf core) [] = some ([(bay, slot)], l) → t.killed = false → s.halt = none → (s.core core).frozen = false →
      b.threads ≠ [] → (t.reserved = true ∨ s.keepsBlock core (fun bare => bare.takeSlot bay slot (t.desc.regs * 32)) = true) →
      (b.due = true → let k := min 32 b.threads.length
        ∃ u t' x, exec (.spawnGroupForm core bin) s = .next u ∧ u.team? tk = some t' ∧ t'.group? gid = some x ∧ x.spawned = true
          ∧ x.live = BitVec.ofNat 32 (2 ^ k - 1) ∧ x.split 0 = { st := .run, frm := none, lpc := b.lpc, mask := BitVec.ofNat 32 (2 ^ k - 1), fmt := 0x00000CCC }
          ∧ (∀ i r, i < k → r < 4 → x.vreg r i = nth (nth b.threads ⟨[]⟩ i).pay 0 r) ∧ x.slot = slot ∧ x.bay = bay
          ∧ sparseFind bin (u.core core).bins = if b.threads.drop k = [] then none else
              some { b with threads := b.threads.drop k, due := decide (32 ≤ (b.threads.drop k).length), expiry := s.clk.cycle + t.spawnTmo.toNat })
      ∧ (b.due = false → b.expiry ≤ s.clk.cycle → exec (.spawnBinTimeout core bin) s
          = exec (.spawnGroupForm core bin) (s.modCore core fun c => { c with bins := sparsePut bin { b with due := true } c.bins })))
  ∧ ∀ (s : State) (tk : Nat) (t : Team), s.Quiet → s.team? tk = some t → t.killed = false → t.stalledTrap = false → Config.noProgress ≤ t.npc → t.trapVec ≠ 0 →
      let held := t.teamTrap.toList ++ t.teamKept ++ [{ cause := .noProgress, src := 2 }]
      exec (.noProgress tk) s = .next (s.setTeam tk { t with npc := 0, trapAt := some s.clk.cycle, teamTrap := held.head?, teamKept := held.drop 1 })

/-- R60, R68 to R72, R77, R81 to R83: a round distributes the next team of a launch to an open core; a core admits a team, which starts as its
descriptor says; a team retires, or its successor starts in its place; a child grid that fits nowhere ends. -/
def Obligations.TeamLifeEvents : Prop :=
  (∀ (s : State) (pn : Nat) (place : List Nat), ∃ u, exec (.arbitrationRound pn place) s = .next u ∧ ∀ c, (s.core c).pending <+: (u.core c).pending
      ∧ ∀ x ∈ (u.core c).pending.drop (s.core c).pending.length, x.part = pn)
  ∧ (∀ (s : State) (pn qn c id : Nat) (p : Partition) (q : Queue) (l : Launch), s.Quiet → s.halt = none → s.part? pn = some p → s.cp.queues = [(qn, q)] →
      q.part = pn → q.express = false → q.deficit = 0 → (s.openLaunches qn).head? = some (id, l) → s.launch? id = some l → l.persist = false →
      c ∈ s.placesFor pn p false l →
      ∃ u x, exec (.arbitrationRound pn [c]) s = .next u ∧ ((s.core c).pending ++ [x]) <+: (u.core c).pending ∧ x.launch = id ∧ x.teamId = l.next ∧ x.part = pn
        ∧ x.express = false)
  ∧ (∀ (s : State) (core i : Nat) (p : Pending) (b : Berth) (l : Launch), s.mayAdmit core i = some (p, b) → s.launch? p.launch = some l →
      ∃ u t, exec (.admission core i) s = .next u ∧ u.team? (teamKey core b.ctx) = some t ∧ t.core = core ∧ t.launch = p.launch ∧ t.teamId = p.teamId
        ∧ t.desc = l.desc ∧ t.pc = l.desc.spc ∧ t.st = .resident ∧ t.handler = false ∧ t.reinFmt = 0xCCC ∧ t.spawnTmo = 2000 ∧ t.mstat = 0
        ∧ t.sreg 1 = l.desc.arg ∧ t.sreg 2 = BitVec.ofNat 64 p.teamId
        ∧ t.sreg 3 = BitVec.ofNat 64 (if l.persist then l.nx * l.ny * l.nz else l.teams) ∧ (∀ r, r ≠ 1 → r ≠ 2 → r ≠ 3 → t.sreg r = 0)
        ∧ (∀ g, g < b.groups.length → ∃ x, t.group? g = some x ∧ x.rein = [] ∧ x.spawned = false ∧ x.live = 0xFFFFFFFF ∧ x.flg = 0)
        ∧ ∀ x ∈ (u.core core).pending, ¬(x.launch = p.launch ∧ x.teamId = p.teamId))
  ∧ (∀ (s : State) (tk : Nat) (t : Team), s.team? tk = some t → t.exited = true → t.st = .draining → t.killed = false → t.groups = [] → s.binsEmpty t = true →
      s.liveChildren t ≠ [] → exec (.enterWaitingChildren tk) s = .next (s.setTeam tk { t with st := .waitingChildren }))
  ∧ (∀ (s : State) (n : Nat), s.stuckChild n = true → ∃ u, exec (.childNoFit n) s = .next u ∧ (∀ c, ∀ p ∈ (u.core c).pending, p.launch ≠ n)
      ∧ ∀ l, u.launch? n = some l → l.noFit = true)
  ∧ (∀ (s : State) (tk : Nat) (t : Team), s.team? tk = some t → t.retiredKilled = true → t.quiet = true → exec (.teamRetire tk) s = .next (s.dropTeam tk))
  ∧ (∀ (s : State) (tk : Nat) (t : Team), s.team? tk = some t → tk < 8192 → s.mayRetire t = true → ∃ u, exec (.teamRetire tk) s = .next u ∧ u.team? tk = none
      ∧ (∀ m ∈ u.coh.monitors, m.team ≠ t.serial)
      ∧ ∀ l l', s.launch? t.launch = some l → u.launch? t.launch = some l' → l'.retired = l.retired + 1)
  ∧ ∀ (s : State) (tk : Nat) (t : Team) (d : TaskDesc), s.team? tk = some t → s.maySucceed t = some d →
      ∃ u t', exec (.successorStart tk) s = .next u ∧ u.team? tk = some t' ∧ t'.desc = d ∧ t'.pc = d.spc ∧ t'.exited = false ∧ t'.st = .resident ∧ t'.succ = none
        ∧ t'.s = t.s ∧ t'.rein = t.rein ∧ t'.scrStart = t.scrStart ∧ t'.ops = t.ops
        ∧ ∀ g, g < d.groups → ∃ x, t'.group? g = some x ∧ x.rein = [] ∧ x.spawned = false

/-! Events: results, stores and barriers. -/

/-- R119, R132, R133, R139, R140: results land in their registers; a store performs, and memory changes in the bytes it stores, under their masks,
and nowhere else; a poll tests its word; a phase of a barrier completes, at the end of a cycle and once in it; leases run out. -/
def Obligations.MemoryEvents : Prop :=
  (∀ (s : State) (tk op : Nat) (t : Team) (o : Op), s.Quiet → s.team? tk = some t → t.op? op = some o → o.done = false →
    (∀ ws f g x mask, o.body = .land ws f → o.group = some g → t.group? g = some x → x.ended = false →
      ∃ t' x', exec (.resultLand tk op mask) s = .next (s.setTeam tk t') ∧ t'.group? g = some x'
        ∧ x'.v = (ws.foldl (fun y w => y.setVreg w.1 w.2.1 w.2.2) x).v ∧ x'.flg = x.flg ||| f ∧ (∀ w ∈ ws, w.1 < 512 → x'.full.getLsbD w.1 = true)
        ∧ t'.opLive op = false ∧ t'.s = t.s)
    ∧ (∀ (d : Nat) (p : Part) bs s1 mask, o.body = .load (.sreg d) [p] → o.group = none → 0 < d → d < 64 → p.lane = 0 → p.done = false → p.n ≤ 8 →
      laneIn mask 0 = true → t.depsReady o = true → o.near = [] → s.NothingShown → p.early = none → t.partReady p = true → s.readPart t o p = some (bs, s1) → s1.checkFails t o p = false →
      ∃ u t', exec (.resultLand tk op mask) s = .next u ∧ u.team? tk = some t' ∧ t'.sreg (BitVec.ofNat 6 d) = BitVec.ofNat 64 (ofBytes bs)
        ∧ (∀ r, r.toNat ≠ d → t'.sreg r = t.sreg r) ∧ t'.opLive op = false ∧ u.mem = s.mem)
    ∧ (∀ ps mask, o.body = .store ps → o.near = [] → s.NothingShown →
      (∃ u, exec (.storePerform tk op mask) s = .next u ∧ ∀ k, (∀ p ∈ ps, ∀ key, p.place = .mem key → laneIn mask p.lane = true → p.done = false →
          k < s.storeKey key ∨ s.storeKey key + p.n ≤ k) → sparseGet 0 u.mem k = sparseGet 0 s.mem k)
      ∧ ∀ p key, ps = [p] → p.place = .mem key → laneIn mask p.lane = true → p.done = false → p.n ≤ 16 → t.depsReady o = true → s.storeReady t o = true →
        s.crosses key p.n 1 = true →
        ∃ u t', exec (.storePerform tk op mask) s = .next u ∧ u.team? tk = some t' ∧ t'.opLive op = false
          ∧ ∀ i, i < p.n → let m : Byte := BitVec.ofNat 8 (p.mask.toNat / 2 ^ (8 * i))
            sparseGet 0 u.mem (s.storeKey key + i)
              = (sparseGet 0 s.mem (s.storeKey key + i) &&& ~~~m) ||| (BitVec.ofNat 8 (p.data.toNat / 2 ^ (8 * i)) &&& m))
    ∧ ∀ sr vr cc dbl w, o.body = .wait sr vr cc dbl [w] → w.polls = true → w.got = none → w.lastPoll + 256 ≤ s.clk.cycle → keyPeer w.key = 0 → s.NothingShown →
      let v := s.numAt w.key (if dbl then 8 else 4)
      let n := if dbl then 64 else 32
      ∃ u t' o' w', exec (.monitorPoll tk op) s = .next u ∧ u.team? tk = some t' ∧ t'.op? op = some o' ∧ o'.body = .wait sr vr cc dbl [w'] ∧ w'.key = w.key
        ∧ w'.lastPoll = s.clk.cycle ∧ w'.got = if cmpHolds cc n v (w.val.toNat % 2 ^ n) then some (BitVec.ofNat 64 v) else none)
  ∧ (∀ (s : State) (tk n : Nat) (t : Team), s.team? tk = some t → s.clk.ending = true → (t.bar n).due = true → (t.bar n).last ≠ some s.clk.cycle →
      let b := t.bar n
      ∃ u t', exec (.barrierPhaseComplete tk n) s = .next u ∧ u.team? tk = some t' ∧ (t'.bar n).phase = !b.phase ∧ (t'.bar n).count = b.count - b.target
        ∧ (t'.bar n).arrb = b.arrb - b.expb ∧ (t'.bar n).expb = 0 ∧ (t'.bar n).target = b.target ∧ (t'.bar n).gen = b.gen
        ∧ (∀ k, k ≠ n → t'.bar k = t.bar k) ∧ t'.s = t.s ∧ u.mem = s.mem ∧ (∀ w, w ∈ t'.barWaits ↔ w ∈ t.barWaits ∧ w.bar ≠ n)
        ∧ ((∀ w ∈ t.barWaits, w.bar ≠ n) → u = s.setTeam tk t' ∧ t'.pc = t.pc ∧ t'.groups = t.groups)
        ∧ (t.barWaits = [{ who := none, bar := n }] → t'.pc = t.pc + 4 ∧ t'.groups = t.groups)
        ∧ ∀ g sp ls x, t.barWaits = [{ who := some (g, sp), bar := n, lanes := ls }] → t.group? g = some x → (x.split sp).st = .run →
            t'.pc = t.pc ∧ ∃ x', t'.group? g = some x' ∧ (x'.split sp).lpc = (x.split sp).lpc + 1 ∧ x'.v = x.v)
  ∧ (∀ (s : State) (tk n : Nat) (t : Team), s.team? tk = some t → s.clk.ending = false ∨ (t.bar n).due = false ∨ (t.bar n).last = some s.clk.cycle →
      exec (.barrierPhaseComplete tk n) s = .next s)
  ∧ ∀ s : State, ∃ u, exec .leaseExpire s = .next u ∧ u.mem = s.mem ∧ u.teams = s.teams
      ∧ ∀ c, c ∈ u.coh.rdc ↔ c ∈ s.coh.rdc ∧ ∀ e, c.expiry = some e → s.lease < e

/-! Events: the engines. -/

/-- R289 to R294, R297 to R302, R310, R315, R318, R327 to R329: a unit of a copy lands, and at its end its counter falls and a status other than OK is kept; a
delivery is accepted or refused; a matrix command starts, is refused before it touches a tile, and ends with its tile written; leave is granted. The
budget of leave is a free value, of one unit an operation (log entry 40), and the byte that answers another module's delivery is the model's (log entry 45). -/
def Obligations.EngineEvents : Prop :=
  (∀ (s : State) (tk op : Nat) (t : Team) (o : Op) (c : CopySt), s.Quiet → s.team? tk = some t → t.op? op = some o → o.done = false → o.body = .copy c →
    t.depsMet o = true →
    (∀ u k bit i, c.status = none → (s.core t.core).frozen = false → k < 32 → u < c.units → bit < 64 → c.stepPart u k = some i →
      let n := if c.mcast then 64 * (32 * u + k) + bit else 32 * u + k
      let src := s.readSource (s.copyMover tk t) o c i
      (∀ c1 s1, src = some (.ok c1, s1) → ∃ w t' o' bs, exec (.copyLand (.team tk op) n) s = .next w ∧ w.team? tk = some t' ∧ t'.op? op = some o'
        ∧ o'.body = .copy c1 ∧ c1 = { c with got := sparsePut i bs c.got } ∧ w.mem = s.mem
        ∧ (c.src.isScratch = true → bs = s.scrBytesFor t o .cp (16 * i) 16 ∧ t.linesFull (16 * i) 16 = true))
      ∧ ∀ e s1, src = some (.error e, s1) → ∃ w t' o', exec (.copyLand (.team tk op) n) s = .next w ∧ w.team? tk = some t' ∧ t'.op? op = some o'
        ∧ o'.body = .copy { c with status := some e } ∧ w.mem = s.mem)
    ∧ (∀ u, c.status = none → (s.core t.core).frozen = false → c.mcast = false → u < c.units → u ∉ c.landed → c.dst.isScratch = true →
      if c.ready (c.unitBytes u) = true then
        ∃ w t' o' c', exec (.copyLand (.team tk op) (32 * u)) s = .next w ∧ w.team? tk = some t' ∧ t'.op? op = some o' ∧ o'.body = .copy c'
          ∧ c'.landed = c.landed ++ [u] ∧ c'.got = c.got ∧ c'.status = none ∧ w.mem = s.mem
          ∧ (c.srcRec = none → c.dstRec = none → ∀ d ∈ c.unitBytes u, w.scrByte t d.off = c.value c.got d)
      else exec (.copyLand (.team tk op) (32 * u)) s = .next s)
    ∧ (∀ e, c.outcome = some e → c.sta = none → c.mcast = false → s.copyHeld t c = false → ∃ u t', exec (.copyEnd (.team tk op)) s = .next u ∧ u.team? tk = some t' ∧ t'.opLive op = false
        ∧ (t'.mstat = if e = .ok then t.mstat else t.mstat ||| BitVec.ofNat 32 (2 ^ 9)) ∧ t'.s = t.s)
    ∧ ∀ recv r k rt, c.status = none → c.sends = true → c.recvs.find? (fun r => r.bit == recv) = some r → r.decided = none → (s.core r.core).frozen = false →
        (s.coreTeams r.core).find? (fun x => x.2.launch == t.launch && x.2.teamId == r.team && !x.2.killed) = some (k, rt) →
        ∃ u t' o', exec (.mcastDeliveryArrive tk op recv) s = .next u ∧ u.team? tk = some t' ∧ t'.op? op = some o'
          ∧ o'.body = .copy (c.setRecv recv fun r => { r with decided := some (if acceptsDelivery rt c then some rt.serial else none) }))
  ∧ (∀ (s : State) (k : Nat) (ch : Channel), sparseFind k s.cp.channels = some ch →
    let c := ch.copy
    let o : Op := { id := 0, path := none, cls := none, group := none, body := .copy c }
    (∀ u j, ch.leaveReq = none → c.status = none → s.frozenMaster 1 k = false → j < 32 → u < c.units →
      (∀ i, c.stepPart u j = some i → let src := s.readSource { die := channelDie } o c i
        (∀ c1 s1, src = some (.ok c1, s1) → ∃ w ch' bs, exec (.copyLand (.chan k) (32 * u + j)) s = .next w ∧ w.mem = s.mem
          ∧ sparseFind k w.cp.channels = some ch' ∧ ch'.copy = c1 ∧ c1 = { c with got := sparsePut i bs c.got })
        ∧ ∀ e s1, src = some (.error e, s1) → ∃ w ch', exec (.copyLand (.chan k) (32 * u + j)) s = .next w ∧ w.mem = s.mem
          ∧ sparseFind k w.cp.channels = some ch' ∧ if e = .integrity then ch' = ch ∧ w.frozenMaster 1 k = true else ch'.copy = { c with status := some e })
      ∧ ∀ v s1, u ∉ c.landed → c.ready (c.unitBytes u) = true →
        storeLines { die := channelDie } c.dst [] (lineWrites ((c.unitBytes u).map fun d => (d, c.value c.got d))) [] s = some (.ok v, s1) →
        ∃ w ch', exec (.copyLand (.chan k) (32 * u)) s = .next w ∧ w.mem = s1.mem ∧ sparseFind k w.cp.channels = some ch'
          ∧ ch'.copy.landed = c.landed ++ [u])
    ∧ ∀ e, c.outcome = some e → s.frozenMaster 1 k = false ∨ s.halt.isSome = true → ∃ u, exec (.copyEnd (.chan k)) s = .next u
        ∧ sparseFind k u.cp.channels = none)
  ∧ (∀ (s : State) (tk : Nat) (t : Team), s.team? tk = some t →
    (∀ o m, t.matTurn = some (o, m) → t.depsMet o = true → t.killed = false → s.engineBusy t.core = false → s.halt = none →
      (s.core t.core).frozen = false →
      let starts : Prop := exec (.matrixCmdStart tk) s = .next (s.setTeam tk (t.modOp o.id fun o => { o with body := .matrix m true none }))
      let fails (e : EStatus) : Prop := exec (.matrixCmdStart tk) s = .next (s.setTeam tk (t.matFail o.id e))
      (∀ d src two, taccTiles m = some (d, src, two) → if d < t.desc.acc ∧ (two = true → src < t.desc.acc) then starts else fails .bounds)
      ∧ (∀ n, m = .taccStat n → starts)
      ∧ (∀ a b c, m = .tmma a b c false → (matMul a b c false = none → fails .badDesc)
          ∧ ∀ x, matMul a b c false = some x → match x.check t false with
            | some e => fails e
            | none => starts))
    ∧ (∀ id e, bitsOf t.mstat.toNat 15 12 = 0 → bitsOf (t.matFail id e).mstat.toNat 15 12 = statusCode e ∧ (t.matFail id e).opLive id = false)
    ∧ (∀ o b l, t.matRunning = some (o, .taccZero b, l) → ∃ u t', exec (.matrixCmdEnd tk) s = .next u ∧ u.team? tk = some t' ∧ t'.opLive o.id = false
        ∧ ∀ w, w < 16384 → u.accWord t (bitsOf b.toNat 1 0 * 16384 + w) = 0)
    ∧ (∀ o a b c l x, t.matRunning = some (o, .tmma a b c false, l) → l = none → matMul a b c false = some x → x.zero = true →
        x.a.rowsFull t x.k allRows = true → x.b.rowsFull t x.k allRows = true →
        let as := readRows x.a s t o .mx x.k allRows
        let bs := readRows x.b s t o .mx x.k allRows
        ∃ u t', exec (.matrixCmdEnd tk) s = .next u ∧ u.team? tk = some t' ∧ t'.opLive o.id = false ∧ u.mem = s.mem
          ∧ ∀ i j, i < 128 → j < 128 → u.accWord t (x.tile * 16384 + 128 * i + j)
              = (dotBlocks x.a.f x.b.f (nth (as.map (x.a.row x.k)) ⟨[], []⟩ i) (nth (bs.map (x.b.row x.k)) ⟨[], []⟩ j) 0 x.k).1)
    ∧ (∀ o a b c (l : Latch) x, t.matRunning = some (o, .tmma a b c true, some l) → matMul a b c true = some x → l.rows = none →
        t.gatherReady o.id = true → x.a.rowsFull t x.k l.idx = true →
        ∃ u t', exec (.gatherComplete tk) s = .next u ∧ u.team? tk = some t' ∧ u.mem = s.mem
          ∧ ∃ o' ∈ t'.ops, o'.id = o.id ∧ o'.body = .matrix (.tmma a b c true) true (some { l with rows := some (readRows x.a s t o .ga x.k l.idx) }))
    ∧ ∀ die c, earliest (s.leaveQueue die) = some (c, tk) → tk < 0x10000 →
        let u := s.setTeam tk { t with leaveReq := none, leaveGot := true }
        exec (.leaveGrant die) s = .next (if s.leaveHeld die < Config.leaveBudget die then u else s) ∧ (c + 6600 ≤ s.clk.cycle → exec (.leaveBoundExpire die) s = .next u)
          ∧ (s.clk.cycle < c + 6600 → exec (.leaveBoundExpire die) s = .next s))
  ∧ (∀ (s : State) (x : FmcLine), s.frozenMaster 2 x.port = false → (∀ d ∈ s.fab.fmcIn, d.src ≠ x.src ∨ d.id ≠ x.id) →
      (x.bad = true → ∃ u, exec (.fmcDeliveryArrive (.received x)) s = .next u ∧ u.frozenMaster 2 x.port = true ∧ u.mem = s.mem)
      ∧ (x.bad = false → (x.pa, x.bytes.length) ∈ lineRanges x.base x.len → x.base + x.len ≤ 2 ^ 39 → s.forwardOf x.pa = none →
        ∃ u, exec (.fmcDeliveryArrive (.received x)) s = .next u
          ∧ if s.inMcastWindow x.base x.len = true then u.bytesAt x.pa x.bytes.length = x.bytes else u.mem = s.mem ∧ (2, x.port, [0]) ∈ u.fab.replies))
  ∧ ∀ (s : State) (tk op member : Nat) (ok : Bool) (t : Team) (o : Op) src dst len g sta bs ds ms, s.team? tk = some t → t.op? op = some o → o.done = false →
      o.body = .fmc src dst len g sta true none bs ds ms → (member, none) ∈ ms → s.fab.self ≠ some member →
      ∃ u t', exec (.fmcDeliveryArrive (.sent tk op member ok)) s = .next u ∧ u.team? tk = some t'
        ∧ (t'.opLive op = false ∨ ∃ o' ms', t'.op? op = some o' ∧ o'.body = .fmc src dst len g sta true none bs ds ms' ∧ (member, some ok) ∈ ms')

/-! Events: the atomic services, combining, and packets between modules. -/

/-- R277, R334 to R345: a request is granted a credit, combines, and is performed as one step of its word's serial order; its reply reaches its
register; a lost reply is asked for; a request that finds no module fails, and one that is forwarded goes on. The model's are: the routers on the way, a
free value (log entry 24), that an AREP or a QANS leaves once the lease clock has passed its V (log entry 12), its payload where a request neither sums nor
folds (log entry 11), when a NOROUTE can come (log entry 26), and the numbers of a packet that is sent again (log entry 45). -/
def Obligations.AtomicEvents : Prop :=
  (∀ (s : State) (req : Nat) (q : AtomReq), sparseFind req s.net.reqs = some q →
    ((s.asksCredit q = false → exec (.creditGrant q.svc req) s = .next s)
      ∧ (let n := if (q.members.any fun m => m.pkt.isSome) = true then q.members.length else 1
        (q.svc < 0x400 → (512 < s.creditsOut q.svc + n ∨ s.nextAsker q.svc ≠ some q.asker) → exec (.creditGrant q.svc req) s = .next s)
      ∧ (s.asksCredit q = true → (q.svc < 0x400 → s.creditsOut q.svc + n ≤ 512 ∧ s.nextAsker q.svc = some q.asker) →
        ∃ u, exec (.creditGrant q.svc req) s = .next u ∧ u.mem = s.mem ∧ u.teams = s.teams ∧ u.net.queues = s.net.queues
          ∧ sparseFind req u.net.reqs = some { q with stage := .route (s.pointsOf q), port :=
              (if q.asker < 0x400 then q.asker % 4 else facing (switchPoint (q.asker - 0x400)) (portPoint (q.asker - 0x400))), credits := n, left := s.clk.cycle }
          ∧ (∀ m tk t o sl, q.members = [m] → s.fab.quiesce = false → s.slotOp m = some (tk, t, o, sl) →
              sparseFind m.slot (u.core m.core).slots = some { sl with left := true, held := false, sent := s.clk.cycle })
          ∧ (∀ k, k ≠ req → sparseFind k u.net.reqs = sparseFind k s.net.reqs)
          ∧ (q.svc < 0x400 → sparseGet 0x3FF u.net.grants q.svc = q.asker)))
      ∧ ∀ m l, q.members = m :: l → m.pkt = none → q.svc < 0x400 → 
        if q.svc = m.core / 4 then s.pointsOf q = [q.svc] else
          ∃ way, s.pointsOf q = m.core / 4 :: way ++ [q.svc] ∧ ∀ r ∈ way, r < 76 ∧ r ≠ m.core / 4 ∧ r ≠ q.svc)
    ∧ (∀ p rest, q.stage = .route (p :: rest) → s.haeth.replay = none →
      (q.combines p = false ∨ s.overdue q = true → (∀ x ∈ s.net.entries, x.req ≠ req) → exec (.combineArrive req) s = .next (s.passOn req q p rest))
      ∧ (q.combines p = true → s.overdue q = false → (∀ x ∈ s.net.entries, x.point ≠ p ∧ x.req ≠ req) → exec (.combineArrive req) s = .next
          (if q.entryFull p = true then s.passOn req q p rest
           else { s with net := { s.net with entries := s.net.entries ++ [{ point := p, port := q.port, opened := s.clk.cycle, req := req }] } }))
      ∧ ∀ x e, q.combines p = true → s.overdue q = false → s.net.entries = [x] → x.point = p → x.req ≠ req → x.cid = none → sparseFind x.req s.net.reqs = some e → e.sameKey q = true →
          e.fits q p = true → let both : AtomReq := { e with members := e.members ++ q.members, credits := e.credits + q.credits }
          both.entryFull p = false → ∃ u, exec (.combineArrive req) s = .next u
            ∧ sparseFind x.req u.net.reqs = some both ∧ sparseFind req u.net.reqs = none
            ∧ ∃ r ∈ u.net.recs, r.tags = (e.members ++ q.members).map (fun m => (m.core, m.ctx, m.slot, m.seq))
              ∧ r.prefixes = prefixesFrom both 0 both.members)
    ∧ (∀ x p, s.net.entries.find? (fun y => y.point == x.point && y.req == x.req) = some x → x.req = req → x.point < 0x200 → q.stage = .route [p] →
        q.svc < 0x400 →
        if (s.clk.cycle - x.opened) * 20 < 32 * 33 ∧ s.overdue q = false then exec (.combineWindowExpire x.point req) s = .next s
        else ∃ u, exec (.combineWindowExpire x.point req) s = .next u ∧ sparseFind req u.net.reqs = some { q with stage := .queued, port := 4, credits := 1 }
          ∧ sparseGet [] u.net.queues q.svc = sparseGet [] s.net.queues q.svc ++ [req])
    ∧ ∀ svc l m o k, s.Quiet → s.NothingShown → s.haeth.stalled = [] → sparseGet [] s.net.queues svc = req :: l → q.members = [m] → m.operands = [o] → q.peer = 0 → m.srcPeer = 0 →
        q.op ≠ .rsm → q.segs = [(k, atomBytes q.ty)] → k + atomBytes q.ty ≤ 2 ^ 39 →
        let n := atomBytes q.ty
        let old : U64 := BitVec.ofNat 64 (s.numAt k n)
        ∃ u, exec (.atomicDequeue svc) s = .next u ∧ u.numAt k n = (atomNew q.op q.ty old o.x o.e).toNat % 2 ^ (8 * n)
          ∧ (∀ a, a < k ∨ k + n ≤ a → sparseGet 0 u.mem a = sparseGet 0 s.mem a) ∧ sparseFind req u.net.reqs = none
          ∧ ∃ rid r b, sparseFind rid u.net.replies = some r ∧ r.shares = [{ member := m, vals := [old], bad := b }]
            ∧ u.net.journal.map (·.share) = s.net.journal.map (·.share) ++ r.shares)
  ∧ (∀ (s : State) (rep : Nat) (r : AtomReply),
    (∀ cid x, s.net.replies.find? (fun y => y.2.cid == some cid) = some (rep, r) → s.net.recs = [x] → x.cid = cid →
      if x.lost = true then ∃ u, exec (.decombine cid) s = .next u ∧ sparseFind rep u.net.replies = none ∧ u.net.recs = []
        ∧ sparseGet 0 u.net.losses (cid / 2 ^ 20) = sparseGet 0 s.net.losses (cid / 2 ^ 20) + 1
      else ∃ u, exec (.decombine cid) s = .next u ∧ u.net.recs = []
        ∧ ∀ sh ∈ r.shares, ∃ k r', sparseFind k u.net.replies = some r' ∧ r'.cid = none ∧ r'.v = r.v
          ∧ r'.shares = match sh.member.pkt with
              | none => [sh]
              | some p => r.shares.filter fun y => y.member.pkt == some p)
    ∧ (∀ x sl tk t o pf expected places d, sparseFind rep s.net.replies = some r → r.cid = none → r.shares = [x] → x.member.pkt = none → s.haeth.replay = none →
        sparseFind x.member.slot (s.core x.member.core).slots = some sl → sl.seq = x.member.seq → s.teamBySerial sl.team = some (tk, t) →
        t.op? sl.op = some o → o.lates = [] → x.bad = false → (let vals := sl.lanes.zip (sl.laneVals x.vals)
        let ends (u : State) (t' : Team) : Prop := (u.team? tk = some t' ∧ t'.opLive sl.op = false
          ∧ sparseFind x.member.slot (u.core x.member.core).slots = none ∧ u.mem = s.mem)
        (o.body = .atom (some d) none pf false [x.member.slot] expected places → o.group = none → 0 < d → d < 64 → ∃ u t', exec (.atomicReply rep) s = .next u
          ∧ ends u t' ∧ t'.sreg (BitVec.ofNat 6 d) = nth (vals.map (·.2)) 0 0 ∧ ∀ y, y.toNat ≠ d → t'.sreg y = t.sreg y)
        ∧ ∀ g y, o.body = .atom none (some d) none false [x.member.slot] expected places → o.group = some g → t.group? g = some y → y.ended = false → d < 512 →
          ∃ u t' y', exec (.atomicReply rep) s = .next u ∧ ends u t' ∧ t'.group? g = some y'
            ∧ y'.v = (vals.foldl (fun y v => y.setVreg d v.1 (lo32 v.2)) y).v ∧ y'.full.getLsbD d = true))
    ∧ ∀ p, sparseFind rep s.net.replies = some r → r.cid = none → (r.shares.head?.bind fun x => x.member.pkt) = some p → s.fab.dead = [] →
        if s.settled r.v = false then exec (.atomicReply rep) s = .next s else ∃ u pk, exec (.atomicReply rep) s = .next u
        ∧ pk ∈ u.fab.out ∧ pk.ptype = 2 ∧ pk.dst = p.src ∧ pk.members = p.members ∧ pk.opc = p.opc ∧ pk.ty = p.ty ∧ pk.rn = p.rn ∧ pk.cid = p.cid
        ∧ pk.payload = r.payload)
  ∧ (∀ (s : State) (core slot : Nat) (sl : RetSlot), sparseFind slot (s.core core).slots = some sl → let tag := s.slotTag core slot sl
    (s.queryDue sl = false → exec (.replyQueryTimeout core slot) s = .next s)
    ∧ (s.queryDue sl = true → sl.svc < 0x400 →
      (∀ j, s.journalFind 0 tag = some j → exec (.replyQueryTimeout core slot) s = .next ((s.slotAnswer core slot sl.seq j.share.vals j.v false j.share.bad).getD s))
      ∧ (s.journalFind 0 tag = none → s.runLive 0 tag = false → exec (.replyQueryTimeout core slot) s = .next ((s.slotAnswer core slot sl.seq [] 0 true false).getD s))
      ∧ (s.journalFind 0 tag = none → s.runLive 0 tag = true → ∃ u, exec (.replyQueryTimeout core slot) s = .next u
          ∧ sparseFind slot (u.core core).slots = some { sl with sent := s.clk.cycle, asked := true }))
    ∧ ∀ q, s.queryDue sl = true → 0x400 ≤ sl.svc → s.fab.dead = [] → sl.run = some q → ∃ u pk, exec (.replyQueryTimeout core slot) s = .next u ∧ pk ∈ u.fab.out
        ∧ pk.ptype = 3 ∧ pk.dst = sl.peer ∧ pk.addr = sl.pa ∧ pk.opc = opCode q.op ∧ pk.ty = tyCode q.ty ∧ pk.rn = q.rn
        ∧ pk.members = q.members.map (q.recordFor s.selfPeer) ∧ sparseFind slot (u.core core).slots = some { sl with sent := s.clk.cycle, asked := true })
  ∧ (∀ (s : State) (svc : Nat), ∃ u, exec (.journalEntryExpire svc) s = .next u ∧ u.mem = s.mem
      ∧ ∀ j, j ∈ u.net.journal ↔ j ∈ s.net.journal ∧ (j.svc = svc → s.clk.cycle < j.time + 65536))
  ∧ (∀ (s : State) (p : Packet), s.frozenMaster 2 p.plane = false → packetOk p = true → s.Quiet → s.haeth.stalled = [] → s.fab.dead = [] →
      sparseFind (seqKey p.plane p.src p.resent) s.fab.pseqIn = none → p ∉ s.fab.out →
    (∀ op ty, p.ptype = 1 → s.answersSettled p = true → decodeAtomOp (BitVec.ofNat 4 p.opc) = some op → decodeAtomType (BitVec.ofNat 2 p.ty) = some ty →
      let n := if op = .rsm then 4 * (p.rn + 2) else atomBytes ty
      let svc := s.ownerOn (homeDie p.addr) p.addr
      (∀ peer frame, s.forwardOf p.addr = some (peer, frame) → ∃ u, exec (.areq p) s = .next u ∧ u.mem = s.mem ∧ u.net = s.net
        ∧ u.fab.replies = s.fab.replies ++ [(2, p.plane, bytesOf (peer * 2 ^ 52 + frame * 65536) 8)])
      ∧ (s.forwardOf p.addr = none → s.inWindow 2 p.plane p.addr n 2 = false → ∃ u, exec (.areq p) s = .next u ∧ u.frozenMaster 2 p.plane = true ∧ u.net = s.net)
      ∧ (s.forwardOf p.addr = none → s.inWindow 2 p.plane p.addr n 2 = true → svc < 0x400 → ∃ u id q, exec (.areq p) s = .next u
          ∧ sparseFind id u.net.reqs = some q ∧ u.net.queues = s.net.queues ∧ u.mem = s.mem ∧ q.op = op ∧ q.ty = ty ∧ q.peer = 0 ∧ q.svc = svc
          ∧ q.segs = [(p.addr, n)] ∧ q.stage = .credit ∧ q.members = areqMembers p op ty p.members p.agents (unpackVals (atomBytes ty) p.payload)))
    ∧ (∀ m l id q, p.ptype = 2 → p.members = m :: l → s.sentRun m.1 = some (id, q) → ∃ u rid r, exec (.arep p) s = .next u ∧ sparseFind id u.net.reqs = none
        ∧ sparseFind rid u.net.replies = some r ∧ r.shares = splitValues q q.members (unpackVals (atomBytes q.ty) p.payload) ∧ r.cid = s.net.outerCid q.members)
    ∧ (∀ m, p.ptype = 3 → s.answersSettled p = true → p.members = [m] → ∃ u pk, exec (.query p) s = .next u ∧ pk ∈ u.fab.out ∧ pk.ptype = 4 ∧ pk.dst = p.src ∧ pk.members = [m]
        ∧ pk.status = (if (s.journalFind m.2.1 m.1).isSome then 1 else if s.runLive m.2.1 m.1 then 2 else 3))
    ∧ (∀ m l sl, p.ptype = 4 → p.members = m :: l → sparseFind (tagSlot m.1) (s.core (tagCore m.1)).slots = some sl → sl.seq = tagSeq m.1 →
        (p.status = 2 → ∃ u, exec (.qans p) s = .next u ∧ sparseFind (tagSlot m.1) (u.core (tagCore m.1)).slots = some { sl with sent := s.clk.cycle })
        ∧ ∀ tk t o d pf expected places, p.status = 1 → s.sentRun m.1 = none → s.teamBySerial sl.team = some (tk, t) → t.op? sl.op = some o → o.lates = [] →
          o.body = .atom (some d) none pf false [tagSlot m.1] expected places → o.group = none → 0 < d → d < 64 →
          let vals := unpackVals (((decodeAtomType (BitVec.ofNat 2 p.ty)).map atomBytes).getD 4) p.payload
          ∃ u t', exec (.qans p) s = .next u ∧ u.team? tk = some t' ∧ t'.opLive sl.op = false ∧ sparseFind (tagSlot m.1) (u.core (tagCore m.1)).slots = none
            ∧ t'.sreg (BitVec.ofNat 6 d) = nth ((sl.lanes.zip (sl.laneVals vals)).map (·.2)) 0 0 ∧ u.mem = s.mem))
  ∧ ∀ (s : State) (tk op u : Nat) (t : Team) (o : Op) d ps p, s.team? tk = some t → t.op? op = some o → o.done = false → o.body = .load d ps → ps[u]? = some p → p.done = false →
      ∀ key, p.place = .mem key →
    (s.mayNoroute key = false → exec (.norouteReply (.op tk op u)) s = .next s)
    ∧ (s.mayNoroute key = true → t.mayFail o = false → exec (.norouteReply (.op tk op u)) s = .next (s.noteAbsent (keyPeer key)))
    ∧ (s.Quiet → s.mayNoroute key = true → t.mayFail o = true → (s.requestsOf t o).all (fun x => x.2.single) = true → o.group = none → t.handler = false → t.trapVec ≠ 0 →
      ∃ w t', exec (.norouteReply (.op tk op u)) s = .next w ∧ w.team? tk = some t'
      ∧ t'.opLive op = false ∧ t'.s = t.s ∧ t'.pc = BitVec.ofNat 64 o.lpc ∧ t'.riderTrap = some { cause := .addrTranslate, src := 1, loc := BitVec.ofNat 64 o.lpc, addr := BitVec.ofNat 64 p.va, check := 6 }
      ∧ (keyPeer key ≤ 144 → keyPeer key ∈ w.fab.absent))
    ∧ ∀ peer frame, s.mayForward key peer frame = true → if p.forwarded = true then ∃ w, exec (.forwardReply (.op tk op u) peer frame) s = .next w
          ∧ w.frozenMaster 2 (s.planeNow (keyPa key)) = true
        else ∃ w t' o' ps', exec (.forwardReply (.op tk op u) peer frame) s = .next w ∧ w.team? tk = some t' ∧ t'.op? op = some o' ∧ o'.body = .load d ps'
          ∧ ps'[u]? = some { p with place := .mem (keyOf peer (frame * 65536 + keyPa key % 65536)), forwarded := true }

/-! Events: the fabric. -/

/-- R159, R309, R346 to R348, R361, R394 to R399: contributions fold at the switch and the result is written; a unit of a FRED ends; planes die and are
remapped; accesses from outside perform, or freeze their port; a page moves. The numbers that a packet sent again on the buddy plane is tested against are
the model's choice (log entry 45). -/
def Obligations.FabricEvents : Prop :=
  (∀ (s : State) (p : Packet), s.fab.dead = [] → packetOk p = true → p ∉ s.fab.out →
    (p.ptype = 5 → s.fab.timeouts = [] →
      let same (g : FoldSt) : Bool := g.plane == p.plane && g.rid == p.rid && g.unit == p.addr && g.dst == p.dst && !g.done
      let elems := unpackVals (if p.ty = 1 then 8 else 4) p.payload
      (s.fab.folds.find? same = none → 1 < p.n → ∃ u f, exec (.rcontrib p) s = .next u ∧ u.fab.folds = s.fab.folds ++ [f] ∧ f.n = p.n ∧ f.opc = p.opc ∧ f.ty = p.ty
        ∧ f.contribs = [(p.src, elems)] ∧ f.opened = s.clk.cycle ∧ f.done = false)
      ∧ ∀ f, s.fab.folds.find? same = some f →
        (f.opc ≠ p.opc ∨ f.n ≠ p.n ∨ f.ty ≠ p.ty ∨ f.rn ≠ p.rn ∨ f.det ≠ p.det ∨ (∃ c ∈ f.contribs, c.1 = p.src) → ∃ u pk, exec (.rcontrib p) s = .next u ∧ pk ∈ u.fab.out ∧ pk.ptype = 8 ∧ pk.dst = p.src ∧ pk.status = 2 ∧ u.fab.folds = s.fab.folds)
        ∧ ∀ a xs op ty, f.n = 2 → f.contribs = [(a, xs)] → p.src ≠ a → f.n = p.n → f.opc = p.opc → f.ty = p.ty → f.rn = p.rn → f.det = true → p.det = true →
          decodeAtomOp (BitVec.ofNat 4 p.opc) = some op → decodeAtomType (BitVec.ofNat 2 p.ty) = some ty → s.fab.self ≠ some p.dst →
          ∃ u, exec (.rcontrib p) s = .next u ∧ (∃ pk ∈ u.fab.out, pk.ptype = 6 ∧ pk.dst = p.dst ∧ pk.addr = p.addr
              ∧ pk.payload = packVals (atomBytes ty) (if p.src ≤ a then foldElems op ty elems xs else foldElems op ty xs elems))
            ∧ ∀ c, c = a ∨ c = p.src → ∃ pk ∈ u.fab.out, pk.ptype = 7 ∧ pk.dst = c ∧ pk.rid = p.rid)
    ∧ (s.frozenMaster 2 p.plane = false → s.Quiet → s.haeth.stalled = [] → sparseFind (seqKey p.plane p.src p.resent) s.fab.pseqIn = none →
      (let bs := p.payload
       p.ptype = 6 → p.det = true → s.forwardOf p.addr = none →
        (s.inWindow 2 p.plane p.addr bs.length 1 = true → ∃ u, exec (.rwrite p) s = .next u ∧ u.bytesAt p.addr bs.length = bs
          ∧ ∀ a, a < p.addr ∨ p.addr + bs.length ≤ a → sparseGet 0 u.mem a = sparseGet 0 s.mem a)
        ∧ (s.inWindow 2 p.plane p.addr bs.length 1 = false → ∃ u, exec (.rwrite p) s = .next u ∧ u.frozenMaster 2 p.plane = true ∧ u.mem = s.mem))
      ∧ ∀ tk t o src dst ctl x, s.teams = [(tk, t)] → t.ops = [o] → o.done = false → o.body = .fred src dst ctl none true none [x] → x.status = none →
          x.pa = p.addr → fredRid ctl = p.rid → s.halt = none → (s.core t.core).frozen = false →
          (p.ptype = 7 → ∃ u t', exec (.rdone p) s = .next u ∧ u.team? tk = some t' ∧ t'.opLive o.id = false ∧ t'.mstat = t.mstat ∧ t'.s = t.s)
          ∧ (p.ptype = 8 → p.status ≠ 1 → ∃ u t', exec (.rabort p) s = .next u ∧ u.team? tk = some t' ∧ t'.opLive o.id = false
            ∧ t'.mstat = t.mstat ||| BitVec.ofNat 32 (2 ^ 10) ∧ t'.s = t.s)))
  ∧ (∀ (s : State) plane rid unit, match s.fab.folds.find? (fun f => f.plane == plane && f.rid == rid && f.unit == unit && !f.done
      && decide (33 * 2 ^ s.fab.redK ≤ (s.clk.cycle - f.opened) * 10)) with
    | none => exec (.reductionTimeout plane rid unit) s = .next s
    | some f => ∃ u, exec (.reductionTimeout plane rid unit) s = .next u ∧ u.fab.folds = s.fab.folds.filter (· != f)
      ∧ (∀ c ∈ f.contribs, ∃ pk ∈ u.fab.out, pk.ptype = 8 ∧ pk.dst = c.1 ∧ pk.rid = f.rid ∧ pk.addr = f.unit ∧ pk.status = 10)
      ∧ (plane, rid, unit, f.dst, s.clk.cycle) ∈ u.fab.timeouts)
  ∧ (∀ (s : State) (p : Nat), if p ∈ s.fab.dead ∨ 16 ≤ p then exec (.planeDead p) s = .next s
      else (∃ u, exec (.planeDead p) s = .next u) ∧ ((∀ f ∈ s.fab.folds, f.plane = p → ∀ c ∈ f.contribs, s.fab.self ≠ some c.1) →
        ∃ u, exec (.planeDead p) s = .next u ∧ u.fab.dead = s.fab.dead ++ [p] ∧ u.fab.quiesce = true ∧ ∀ f, f ∈ u.fab.folds ↔ f ∈ s.fab.folds ∧ f.plane ≠ p))
  ∧ (∀ s : State, if s.fab.quiesce = false then exec .remapComplete s = .next s
      else s.fab.held = [] → ∃ u, exec .remapComplete s = .next u ∧ u.fab.quiesce = false ∧ (∀ p, p ∈ u.fab.remap ↔ p ∈ s.fab.dead ∧ p ^^^ 1 ∉ s.fab.dead)
        ∧ ∀ pk ∈ s.fab.unacked, pk.plane ∈ u.fab.remap → { pk with plane := pk.plane ^^^ 1, resent := !pk.resent } ∈ u.fab.out)
  ∧ (∀ (s : State) (x : Inbound), s.frozenMaster x.mkind x.mnum = false → (x.mkind = 2 → s.forwardOf x.pa = none) → 2 ≤ x.mkind →
    let freezes (i : Instr) : Prop := ∃ u, exec i s = .next u ∧ u.frozenMaster x.mkind x.mnum = true ∧ u.mem = s.mem
    let again : Bool := match x.seq with | some q => s.seqOld (seqKey x.mnum q.1 x.resent) q.2 | none => false
    (x.bad = true ∨ (again = false ∧ s.inWindow x.mkind x.mnum x.pa x.bytes.length 1 = false) → freezes (.inboundWrite x))
    ∧ (x.bad = false → again = true → ∃ u, exec (.inboundWrite x) s = .next u ∧ u.mem = s.mem ∧ u.fab.pseqIn = s.fab.pseqIn)
    ∧ (x.bad = true ∨ s.inWindow x.mkind x.mnum x.pa x.len (if x.atomic.isSome then 2 else 0) = false → freezes (.inboundRead x))
    ∧ (x.bad = false → again = false → s.inWindow x.mkind x.mnum x.pa x.bytes.length 1 = true →
      (x.mkind = 3 → x.seq = none → s.settled (sparseGet 0 s.fab.posted x.mnum) = false → exec (.inboundWrite x) s = .next s)
      ∧ (x.mkind ≠ 3 ∨ s.settled (sparseGet 0 s.fab.posted x.mnum) = true → ∃ u, exec (.inboundWrite x) s = .next u
        ∧ u.bytesAt x.pa x.bytes.length = x.bytes ∧ ∀ a, a < x.pa ∨ x.pa + x.bytes.length ≤ a → sparseGet 0 u.mem a = sparseGet 0 s.mem a))
    ∧ (x.bad = false → s.inWindow x.mkind x.mnum x.pa x.len (if x.atomic.isSome then 2 else 0) = true →
      ((∀ l ∈ linesOf x.pa x.len, s.lineBad (128 * l) = false) → ∃ u, exec (.inboundRead x) s = .next u
        ∧ (x.atomic = none → u.mem = s.mem ∧ u.fab.replies = s.fab.replies ++ [(x.mkind, x.mnum, s.bytesAt x.pa x.len)])
        ∧ ∀ a, x.atomic = some a → ((x.mkind, x.mnum, s.bytesAt x.pa x.len) ∈ u.fab.replies ∨ ∃ v, (x.mkind, x.mnum, v, s.bytesAt x.pa x.len) ∈ u.fab.ackWait)
          ∧ u.numAt x.pa x.len = (s.numAt x.pa x.len + a.toNat) % 2 ^ (8 * x.len))))
  ∧ (∀ (s : State) (x : RawPacket),
      if s.frozenMaster 2 x.port = true ∨ (x.bad = false ∧ (packetOf x.bytes).isSome = true) then exec (.malformedPacket x) s = .next s
      else ∃ u, exec (.malformedPacket x) s = .next u ∧ u.frozenMaster 2 x.port = true ∧ u.mem = s.mem ∧ u.teams = s.teams)
  ∧ (∀ (s : State) (n : Nat), exec (.pageMove (.told n)) s = .next (if n ∈ s.fab.told then
        { s with fab := { s.fab with forward := sparseErase n s.fab.forward, told := s.fab.told.filter (· != n) } } else s))
  ∧ (∀ (s : State) (peer frame : Nat), ∃ u, exec (.pageMove (.hint peer frame)) s = .next u ∧ (peer, frame) ∈ u.fab.hints ∧ u.mem = s.mem ∧ u.teams = s.teams)
  ∧ ∀ (s : State) (m : PageMoveArgs), if (s.namedIn m = true ∧ (s.teams ≠ [] ∨ s.enginesBusy = true)) ∨ s.moveWanted m = false then exec (.pageMove (.move m)) s = .next s
      else s.Inv → s.fab.forward = [] → m.fromPeer = 0 → 0 < m.toPeer → s.fab.self ≠ some m.toPeer → m.size ≤ 4096 * 65536 → m.fromPa + m.size ≤ 2 ^ 39 →
        m.toPa + m.size ≤ 2 ^ 52 → ∃ (s' : State) (pte : Nat), exec (.pageMove (.move m)) s = .next (s'.poke m.pte 8 pte)
          ∧ (∀ i, i < m.size / 65536 → sparseFind (m.fromPa / 65536 + i) s'.fab.forward = some (m.toPeer, m.toPa / 65536 + i)
              ∧ m.fromPa / 65536 + i ∈ s'.fab.told)
          ∧ (∀ i, i < m.size → sparseGet 0 s'.mem (keyOf m.toPeer m.toPa + i) = sparseGet 0 s.mem (m.fromPa + i))
          ∧ pte = let old := (s.dwordAt m.pte).toNat
                  old - bitsOf old 63 56 * 2 ^ 56 - bitsOf old 51 16 * 65536 + m.toPeer % 256 * 2 ^ 56 + m.toPa / 65536 * 65536

/-! Events: pre-emption and the halt. -/

/-- R363 to R367, R370, R371, R374, R411: the choice for a team that is pre-empted; a deadline turns a drain into a save; the multicast window
closes; a stopped team's state is saved or dropped; a halt begins, cancels the engines' operations at its bound, and writes its dump. That a team is saved
also where no save area is set, without bytes in memory, is the model's choice (log entry 23). -/
def Obligations.PreemptionAndHalt : Prop :=
  (∀ (s : State) (tk : Nat) (t : Team), s.team? tk = some t →
    (∀ cmd start dl, ∃ t' p, (s.choosePre tk t cmd start dl).team? tk = some t' ∧ t'.pre = some p ∧ p.deadline = start + dl * 33 / 10 ∧ p.cmd = cmd
      ∧ (p.mode = .drain → p.stopped = none ∧ t.laneRetired < t.desc.work)
      ∧ (p.mode = .discard → t.idem ≠ none ∧ p.stopped = some s.clk.cycle ∧ p.closed = true)
      ∧ (p.mode = .save → (t.chkptSeen = true → p.stopped = none ∧ p.compat = true) ∧ (t.chkptSeen = false → p.stopped = some s.clk.cycle ∧ p.closed = false)))
    ∧ (∀ p, t.pre = some p →
      (p.stopped ≠ none ∨ s.clk.cycle < p.deadline ∨ t.inHandler = true → exec (.drainDeadline tk) s = .next s)
      ∧ (p.stopped = none → p.deadline ≤ s.clk.cycle → t.inHandler = false → ∃ u t' p', exec (.drainDeadline tk) s = .next u ∧ u.team? tk = some t' ∧ t'.pre = some p'
          ∧ p'.stopped = some s.clk.cycle ∧ (p.mode = .drain → p'.mode = .save) ∧ (p.mode ≠ .drain → p'.mode = p.mode ∧ p'.fallback = some .timeout)
          ∧ t'.s = t.s ∧ t'.pc = t.pc ∧ t'.leaveReq = none ∧ t'.barWaits = [])
      ∧ (s.windowDone t p = false → exec (.mcastWindowClose tk) s = .next s)
      ∧ (s.windowDone t p = true → ∃ u t' p', exec (.mcastWindowClose tk) s = .next u ∧ u.team? tk = some t' ∧ t'.pre = some p' ∧ p'.closed = true
          ∧ p'.stopped = p.stopped ∧ (∀ b ∈ p.refused, b ∈ p'.refused) ∧ t'.s = t.s ∧ t'.groups = t.groups ∧ u.mem = s.mem))
    ∧ (s.mayMoveOut t .save = none → exec (.teamSave tk) s = .next s)
    ∧ (∀ p, s.mayMoveOut t .save = some p → s.Quiet → ∃ u x, exec (.teamSave tk) s = .next u ∧ u.team? tk = none ∧ u.cp.saved = s.cp.saved ++ [x]
        ∧ x.discard = false ∧ x.team.serial = t.serial ∧ x.team.pc = t.pc ∧ (∀ m ∈ u.coh.monitors, m.team ≠ t.serial)
        ∧ (sparseFind t.part s.cp.saveAreas = none → x.parts = [] ∧ u.mem = s.mem)
        ∧ (p.ranges = none → x.team.s = t.s ∧ x.team.groups = t.groups ∧ (∀ i, i < t.scrBytes → sparseGet 0 x.scr i = s.scrByte t i)
          ∧ ∀ w, w < t.desc.acc * 16384 → sparseGet 0 x.acc w = s.accWord t w))
    ∧ (s.mayMoveOut t .discard = none → exec (.teamDiscard tk) s = .next s)
    ∧ ∀ p r, s.mayMoveOut t .discard = some p → s.Quiet → t.idem = some r → ∃ u x, exec (.teamDiscard tk) s = .next u ∧ u.team? tk = none
        ∧ u.cp.saved = s.cp.saved ++ [x] ∧ x.discard = true ∧ x.team.serial = t.serial ∧ x.scr = [] ∧ x.acc = []
        ∧ (p.ranges = none → x.team.s = r.s ∧ x.team.pc = r.pc ∧ x.team.mstat = 0 ∧ x.team.exited = false ∧ x.team.leaveReq = none ∧ x.team.leaveGot = false ∧ x.team.teamTrap = none ∧ x.team.groups.map (·.1) = List.range t.desc.groups))
  ∧ (∀ s : State, s.halt = none → ∃ u h, exec .thermalLimit s = .next u ∧ u.halt = some h ∧ h.cause = 0xF0 ∧ h.reason = 0 ∧ h.stamp = s.stamp ∧ h.at_ = s.clk.cycle
      ∧ h.dumped = false ∧ exec .haltCopyDrainTimeout s = .next s ∧ exec .dumpWrite s = .next s)
  ∧ ∀ (s : State) (h : HaltSt), s.halt = some h → exec .thermalLimit s = .next s
    ∧ (s.clk.cycle < h.at_ + 66000 → exec .haltCopyDrainTimeout s = .next s)
    ∧ (h.at_ + 66000 ≤ s.clk.cycle → (∀ x ∈ s.teams, ∀ o ∈ x.2.ops, o.done = false → ¬∃ a b c d e f g, o.body = .fred a b c d e f g) →
        (∀ x ∈ s.teams, ∀ o ∈ x.2.ops, o.done = false → ¬∃ a b c d e f g i j k, o.body = .fmc a b c d e f g i j k) → ∃ u, exec .haltCopyDrainTimeout s = .next u
        ∧ (∀ k ch, sparseFind k u.cp.channels = some ch → ch.copy.status ≠ none)
        ∧ ∀ tk t o c, s.team? tk = some t → t.op? o.id = some o → o.done = false → o.body = .copy c → ∃ t' o' c', u.team? tk = some t'
          ∧ t'.op? o.id = some o' ∧ o'.body = .copy c' ∧ c'.status ≠ none)
    ∧ (h.dumped = true ∨ s.haltDrained = false → exec .dumpWrite s = .next s)
    ∧ (h.dumped = false → s.haltDrained = true →
      (s.cp.dumpArea = none → ∃ u, exec .dumpWrite s = .next u ∧ u.halt = some { h with dumped := true } ∧ u.mem = s.mem)
      ∧ ∀ base size, s.cp.dumpArea = some (base, size) →
        (h.sect = none → exec .dumpWrite s = .next { s with halt := some { h with sect := some 0 } })
        ∧ ∀ k, h.sect = some k → let x := (s.dumpOrder.flatMap fun t => (s.sections t).map fun x => (t, x))[k]?
          (∀ t y, h.full = false → x = some (t, y) →
            let p := planSection t y (s.goodBytes t y.1 y.2.1) (localBytes base size - h.off) (decide (localBytes base size < size))
            ∃ u, exec .dumpWrite s = .next u ∧ u.bytesAt (base + h.off) p.bytes.length = p.bytes
              ∧ u.halt = some { h with sect := some (k + 1), written := h.written + (if p.bytes = [] then 0 else 1), off := h.off + p.bytes.length, full := p.full })
          ∧ (h.full = true ∨ x = none → ∃ u, exec .dumpWrite s = .next u ∧ u.halt = some { h with dumped := true }
              ∧ if 256 ≤ localBytes base size then u.bytesAt base 256 = h.header h.written h.off else u.mem = s.mem))

/-! Events: Haeth, errors, clocks and management. -/

/-- R218, R361, R378 to R388, R405, R407, R410, R412, R413: chunks close; a late replay diverges; breakpoints fire; the registers of Haeth and of the
riders take what is written; soft errors and the scrubber; the PTP clock; ADMQ, with whose write a virtual function's partition is a free value (log entry
31); the attestation messages, whose bytes are free values (log entry 25). -/
def Obligations.HaethAndManagement : Prop :=
  (∀ (s : State) (stream : Nat),
    (s.chunkDue stream = false → exec (.chunkClose stream) s = .next s)
    ∧ (s.chunkDue stream = true → ∃ u ch, exec (.chunkClose stream) s = .next u ∧ sparseFind stream u.haeth.chunks = some ch ∧ ch.events = []
        ∧ ch.id = sparseGet 0 s.haeth.ids stream ∧ sparseGet 0 u.haeth.ids stream = sparseGet 0 s.haeth.ids stream + 1)
    ∧ (s.replayLate stream = false → exec (.replayTimeout stream) s = .next s)
    ∧ (s.replayLate stream = true → (∀ r, s.haeth.replay = some r → r.diverged = none) → ∃ u chunk ty idx, exec (.replayTimeout stream) s = .next u ∧ u.debugHalt = some true ∧ u.mem = s.mem ∧ u.teams = s.teams
        ∧ u.haeth.divpos = BitVec.ofNat 64 (stream * 2 ^ 52 + chunk % 2 ^ 48) ∧ u.haeth.divevt = BitVec.ofNat 64 (ty * 2 ^ 58 + 2 ^ 48 + idx)))
  ∧ (∀ (s : State) (n : Nat), (n < 8 → s.breakDue n = false → exec (.breakpointFire n) s = .next s)
      ∧ (10 ≤ n → exec (.breakpointFire n) s = .next s)
      ∧ (n = 8 ∨ n = 9 → exec (.breakpointFire n) s = .next (if s.replaying = true ∧ s.fab.self.isSome = true then
          { s with debugHalt := if n = 9 then some true else some (s.debugHalt.getD false) } else s))
      ∧ (n < 8 → s.breakDue n = true → ∃ u, exec (.breakpointFire n) s = .next u ∧ u.debugHalt ≠ none ∧ n ∈ u.haeth.fired ∧ u.teams = s.teams ∧ u.mem = s.mem))
  ∧ (∀ (s : State) (w : U64),
    (w.getLsbD 63 = true → s.haeth.enable = false → ∃ u, exec (.cisctlEnable w) s = .next u ∧ u.haeth.enable = true ∧ u.haeth.lost = 0 ∧ u.mem = s.mem ∧ u.teams = s.teams
        ∧ (bitsOf w.toNat 59 58 ≠ 3 → u.haeth.policy = BitVec.ofNat 2 (bitsOf w.toNat 59 58))
        ∧ ∀ k, k < s.numCores → ∃ ch, sparseFind k u.haeth.chunks = some ch)
    ∧ (w.getLsbD 63 = false ∨ s.haeth.enable = true → exec (.cisctlEnable w) s = .next s)
    ∧ (w.getLsbD 63 = false → s.haeth.enable = true → ∃ u, exec (.cisctlDisable w) s = .next u ∧ u.haeth.enable = false ∧ u.haeth.chunks = [])
    ∧ (w.getLsbD 63 = true ∨ s.haeth.enable = false → exec (.cisctlDisable w) s = .next s)
    ∧ exec (.cisbaseWrite w) s = .next (if s.haeth.enable then s else { s with haeth := { s.haeth with base := w, head := 0, tail := 0 } })
    ∧ (s.haeth.stalled = [] → exec (.cistailWrite w) s = .next { s with haeth := { s.haeth with tail := w.toNat } }))
  ∧ (∀ (s : State) (tk : Nat) (t : Team) (num : BitVec 12) (w : U64), s.team? tk = some t → let n := num.toNat
    (s.sysValue t n = none → exec (.sysregWrite tk num w) s = .next s)
    ∧ (n < 0x100 → ∃ t', exec (.sysregWrite tk num w) s = .next (s.setTeam tk t') ∧ s.sysValue t' n = some w ∧ (∀ k, k ≠ n → sparseGet 0 t'.rein k = sparseGet 0 t.rein k)
        ∧ { t' with rein := t.rein } = t)
    ∧ (t.handler = true → (n = 0x901 → exec (.sysregWrite tk num w) s = .next (s.setTeam tk { t with trapPc := w }))
        ∧ (n = 0x905 → exec (.sysregWrite tk num w) s = .next (s.setTeam tk { t with trapVec := w }))
        ∧ (0xA10 ≤ n → n ≤ 0xA17 → ∃ u, exec (.sysregWrite tk num w) s = .next u ∧ sparseGet 0 u.haeth.brk (n - 0xA10) = w &&& 0x8FFFFFFFFFFFFFFF ∧ u.teams = s.teams)))
  ∧ (∀ s : State, (∀ unit, exec (.softError (.corrected unit)) s
        = .next { s with mgmt := { s.mgmt with secded := sparsePut unit (sparseGet 0 s.mgmt.secded unit + 1) s.mgmt.secded } })
    ∧ (∀ c addr place, s.cp.freezeHalt = false → ∃ u, exec (.softError (.core c addr place)) s = .next u ∧ (u.core c).frozen = true ∧ u.mem = s.mem ∧ u.halt.isSome = s.halt.isSome)
    ∧ (∀ c addr place, s.cp.freezeHalt = true → ∃ u, exec (.softError (.core c addr place)) s = .next u ∧ u.halt ≠ none)
    ∧ (∀ k addr, ∃ u, exec (.softError (.channel k addr)) s = .next u ∧ u.frozenMaster 1 k = true ∧ u.mem = s.mem)
    ∧ (∀ pa, 2 ^ 39 ≤ pa → exec (.softError (.line pa)) s = .fault .noSuchAddress ∧ exec (.patrolScrub pa) s = .fault .noSuchAddress)
    ∧ (∀ pa, pa < 2 ^ 39 → (∃ u, exec (.softError (.line pa)) s = .next u ∧ pa / 128 ∈ u.coh.bad ∧ u.mem = s.mem)
        ∧ exec (.patrolScrub pa) s = .next { s with mgmt := { s.mgmt with scrubbed := s.mgmt.scrubbed + 1 } })
    ∧ (∀ cid, ∃ u, exec (.softError (.record cid)) s = .next u ∧ u.mem = s.mem ∧ ∀ r ∈ u.net.recs, r.cid = cid → r.lost = true)
    ∧ (∀ plane rid unit f, s.fab.folds.find? (fun f => f.plane == plane && f.rid == rid && f.unit == unit && !f.done) = some f → ∃ u,
        exec (.softError (.fold plane rid unit)) s = .next u ∧ u.fab.folds = s.fab.folds.filter (· != f)
          ∧ ∀ c ∈ f.contribs, ∃ pk ∈ u.fab.out, pk.ptype = 8 ∧ pk.dst = c.1 ∧ pk.status = 9)
    ∧ ∀ a, ∃ u, exec (.softError (.control a)) s = .next u ∧ u.halt ≠ none)
  ∧ (∀ (s : State) (sec ns : Nat), exec (.ptpCorrection sec ns) s
        = .next { s with clk := { s.clk with ptp := (sec * 10 ^ 9 + ns) * 33, ptm := some s.clk.cycle } })
  ∧ (∀ (s : State) (fn : Nat) (w : U64), if 16 < fn then exec (.admqWrite fn w) s = .next s else ∃ u r, exec (.admqWrite fn w) s = .next u
      ∧ sparseFind fn u.cp.rings = some r ∧ (1 ≤ fn → sparseFind fn u.cp.vfs = (Config.vfPart fn s.free).map fun p => p.val)
      ∧ ((∀ c ∈ s.cp.cmds, c.fn ≠ fn) → r.admq = w ∧ r.ridx = 0 ∧ r.stopped = false ∧ (w ≠ 0 → w.toNat + 0x20 ≤ 2 ^ 52 → u.numAt (keyOf 255 w.toNat + 8) 8 = 0))
      ∧ ((∃ c ∈ s.cp.cmds, c.fn = fn) → r.next = some w ∧ r.admq = (sparseGet { admq := 0 } s.cp.rings fn).admq ∧ u.mem = s.mem))
  ∧ ∀ (s : State) (msg : List Byte), let a : SpdmAnswer := { bytes := Config.spdmAnswer msg s.blocks s.mgmt.spdm }
    let answers (i : Instr) (need stage : Nat) (offered : Bool) (full : SpdmAnswer) : Prop :=
      (∃ u, exec i s = .next u ∧ u.mem = s.mem ∧ u.teams = s.teams
        ∧ if need ≤ s.mgmt.spdm ∧ offered = true then u.mgmt.out = s.mgmt.out ++ [full] ∧ u.mgmt.spdm = stage ∧ u.mgmt.log = s.mgmt.log
          else u.mgmt.out = s.mgmt.out ++ [a] ∧ u.mgmt.spdm = s.mgmt.spdm ∧ u.mgmt.log ≠ [])
    answers (.getVersion msg) 0 1 true a ∧ answers (.getCapabilities msg) 1 2 true a
      ∧ answers (.negotiateAlgorithms msg) 2 3 (Config.spdmOffers msg) { a with algorithms := true } ∧ answers (.getCertificate msg) 3 3 true a
      ∧ answers (.challenge msg) 3 3 true a ∧ answers (.getMeasurements msg) 3 3 true { a with blocks := s.blocks }
end

