-- ==== Sys2Proof/Laws/Sparse.lean ====
section
/-!
SUPPORT. Laws/Sparse.lean: what the operations on finite maps do, and that each keeps the canonical form.
-/
namespace Sys2Proof.Machine

variable {α : Type}

/-! Erasing and inserting. -/

@[simp] theorem sparseFind_nil (k : Nat) : sparseFind k ([] : Sparse α) = none := rfl

theorem sparseFind_cons (k j : Nat) (v : α) (m : Sparse α) : sparseFind k ((j, v) :: m) = if j = k then some v else sparseFind k m := rfl

theorem sparseErase_cons (k j : Nat) (v : α) (m : Sparse α) :
    sparseErase k ((j, v) :: m) = if j = k then sparseErase k m else (j, v) :: sparseErase k m := rfl

theorem sparseInsert_cons (k j : Nat) (v w : α) (m : Sparse α) :
    sparseInsert k v ((j, w) :: m) = if k < j then (k, v) :: (j, w) :: m else (j, w) :: sparseInsert k v m := rfl

@[simp] theorem sparseFind_erase_same (k : Nat) (m : Sparse α) : sparseFind k (sparseErase k m) = none := by
  induction m with
  | nil => rfl
  | cons x m ih =>
    obtain ⟨j, v⟩ := x
    rw [sparseErase_cons]
    split
    · exact ih
    · rename_i h
      rw [sparseFind_cons, if_neg h, ih]

theorem sparseFind_erase_ne {k j : Nat} (h : k ≠ j) (m : Sparse α) : sparseFind k (sparseErase j m) = sparseFind k m := by
  induction m with
  | nil => rfl
  | cons x m ih =>
    obtain ⟨i, v⟩ := x
    rw [sparseErase_cons, sparseFind_cons]
    split
    · rename_i hi
      rw [ih, if_neg (by omega)]
    · rw [sparseFind_cons, ih]

theorem sparseFind_insert_ne {k j : Nat} (h : k ≠ j) (v : α) (m : Sparse α) : sparseFind k (sparseInsert j v m) = sparseFind k m := by
  induction m with
  | nil => simp [sparseInsert, sparseFind, Ne.symm h]
  | cons x m ih =>
    obtain ⟨i, w⟩ := x
    rw [sparseInsert_cons]
    split
    · rw [sparseFind_cons, if_neg (Ne.symm h)]
    · rw [sparseFind_cons, sparseFind_cons, ih]

theorem sparseFind_insert_same {k : Nat} {m : Sparse α} (h : sparseFind k m = none) (v : α) : sparseFind k (sparseInsert k v m) = some v := by
  induction m with
  | nil => simp [sparseInsert, sparseFind]
  | cons x m ih =>
    obtain ⟨i, w⟩ := x
    rw [sparseFind_cons] at h
    split at h
    · cases h
    · rename_i hi
      rw [sparseInsert_cons]
      split
      · simp [sparseFind]
      · rw [sparseFind_cons, if_neg hi, ih h]

/-! Reading after writing. -/

@[simp] theorem sparseFind_put_same (k : Nat) (v : α) (m : Sparse α) : sparseFind k (sparsePut k v m) = some v :=
  sparseFind_insert_same (sparseFind_erase_same k m) v

theorem sparseFind_put_ne {k j : Nat} (h : k ≠ j) (v : α) (m : Sparse α) : sparseFind k (sparsePut j v m) = sparseFind k m := by
  rw [sparsePut, sparseFind_insert_ne h, sparseFind_erase_ne h]

theorem sparseErase_of_none {k : Nat} {m : Sparse α} (h : sparseFind k m = none) : sparseErase k m = m := by
  induction m with
  | nil => rfl
  | cons x m ih =>
    obtain ⟨j, w⟩ := x
    rw [sparseFind_cons] at h
    split at h
    · cases h
    · rename_i hj
      rw [sparseErase_cons, if_neg hj, ih h]

theorem sparseErase_insert {k : Nat} (v : α) {m : Sparse α} (h : sparseFind k m = none) : sparseErase k (sparseInsert k v m) = m := by
  induction m with
  | nil => simp [sparseInsert, sparseErase]
  | cons x m ih =>
    obtain ⟨j, w⟩ := x
    have h' := h
    rw [sparseFind_cons] at h'
    split at h'
    · cases h'
    · rename_i hj
      rw [sparseInsert_cons]
      split
      · rw [sparseErase_cons, if_pos rfl, sparseErase_of_none h]
      · rw [sparseErase_cons, if_neg hj, ih h']

/-- The later of two writes to one key stands. -/
@[simp] theorem sparsePut_put (k : Nat) (v w : α) (m : Sparse α) : sparsePut k w (sparsePut k v m) = sparsePut k w m := by
  rw [sparsePut, sparsePut, sparseErase_insert v (sparseFind_erase_same k m), sparsePut]

@[simp] theorem sparseGet_put_same (d : α) (k : Nat) (v : α) (m : Sparse α) : sparseGet d (sparsePut k v m) k = v := by
  simp [sparseGet]

theorem sparseGet_put_ne (d : α) {k j : Nat} (h : k ≠ j) (v : α) (m : Sparse α) : sparseGet d (sparsePut j v m) k = sparseGet d m k := by
  rw [sparseGet, sparseFind_put_ne h, sparseGet]

@[simp] theorem sparseGet_set_same [DecidableEq α] (d : α) (k : Nat) (v : α) (m : Sparse α) : sparseGet d (sparseSet d k v m) k = v := by
  unfold sparseSet
  split
  · rename_i h; simp [sparseGet, h]
  · simp

theorem sparseGet_set_ne [DecidableEq α] (d : α) {k j : Nat} (h : k ≠ j) (v : α) (m : Sparse α) :
    sparseGet d (sparseSet d j v m) k = sparseGet d m k := by
  unfold sparseSet
  split
  · rw [sparseGet, sparseFind_erase_ne h, sparseGet]
  · exact sparseGet_put_ne d h v m

/-! The canonical form. -/

theorem risesFrom_mono {a b : Option Nat} {m : Sparse α} (h : risesFrom b m = true) (hab : ∀ x, a = some x → ∃ y, b = some y ∧ x ≤ y) :
    risesFrom a m = true := by
  cases m with
  | nil => rfl
  | cons x m =>
    obtain ⟨k, v⟩ := x
    simp only [risesFrom, Bool.and_eq_true] at h ⊢
    refine ⟨?_, h.2⟩
    cases a with
    | none => rfl
    | some x =>
      obtain ⟨y, rfl, hy⟩ := hab x rfl
      have := h.1
      simp only [Option.all_some, decide_eq_true_eq] at this ⊢
      omega

theorem risesFrom_erase {lo : Option Nat} (k : Nat) {m : Sparse α} (h : risesFrom lo m = true) : risesFrom lo (sparseErase k m) = true := by
  induction m generalizing lo with
  | nil => rfl
  | cons x m ih =>
    obtain ⟨j, v⟩ := x
    simp only [risesFrom, Bool.and_eq_true] at h
    rw [sparseErase_cons]
    split
    · refine risesFrom_mono (ih h.2) fun x hx => ⟨j, rfl, ?_⟩
      subst hx
      have := h.1
      simp only [Option.all_some, decide_eq_true_eq] at this
      omega
    · simp only [risesFrom, Bool.and_eq_true]
      exact ⟨h.1, ih h.2⟩

theorem risesFrom_insert {lo : Option Nat} {k : Nat} (v : α) {m : Sparse α} (h : risesFrom lo m = true) (hk : lo.all (fun j => decide (j < k)) = true)
    (hm : sparseFind k m = none) : risesFrom lo (sparseInsert k v m) = true := by
  induction m generalizing lo with
  | nil => simpa [sparseInsert, risesFrom] using hk
  | cons x m ih =>
    obtain ⟨j, w⟩ := x
    rw [sparseFind_cons] at hm
    split at hm
    · cases hm
    · rename_i hj
      simp only [risesFrom, Bool.and_eq_true] at h
      rw [sparseInsert_cons]
      split
      · rename_i hlt
        simp only [risesFrom, Bool.and_eq_true]
        exact ⟨hk, by simpa using hlt, h.2⟩
      · simp only [risesFrom, Bool.and_eq_true]
        exact ⟨h.1, ih h.2 (by simp only [Option.all_some, decide_eq_true_eq]; omega) hm⟩

theorem risesFrom_put (k : Nat) (v : α) {m : Sparse α} (h : risesFrom none m = true) : risesFrom none (sparsePut k v m) = true :=
  risesFrom_insert v (risesFrom_erase k h) rfl (sparseFind_erase_same k m)

theorem all_erase {p : Nat × α → Bool} (k : Nat) {m : Sparse α} (h : m.all p = true) : (sparseErase k m).all p = true := by
  induction m with
  | nil => rfl
  | cons x m ih =>
    obtain ⟨j, v⟩ := x
    simp only [List.all_cons, Bool.and_eq_true] at h
    rw [sparseErase_cons]
    split
    · exact ih h.2
    · simp only [List.all_cons, Bool.and_eq_true]
      exact ⟨h.1, ih h.2⟩

theorem all_insert {p : Nat × α → Bool} {k : Nat} {v : α} (hp : p (k, v) = true) {m : Sparse α} (h : m.all p = true) :
    (sparseInsert k v m).all p = true := by
  induction m with
  | nil => simpa [sparseInsert] using hp
  | cons x m ih =>
    obtain ⟨j, w⟩ := x
    have h' := h
    simp only [List.all_cons, Bool.and_eq_true] at h'
    rw [sparseInsert_cons]
    split
    · rw [List.all_cons, hp, h]; rfl
    · rw [List.all_cons, h'.1, ih h'.2]; rfl

/-- Writing an entry keeps the canonical form. -/
theorem sparseWf_set [DecidableEq α] (d : α) (k : Nat) (v : α) {m : Sparse α} (h : sparseWf d m = true) : sparseWf d (sparseSet d k v m) = true := by
  simp only [sparseWf, Bool.and_eq_true] at h ⊢
  unfold sparseSet
  split
  · exact ⟨risesFrom_erase k h.1, all_erase k h.2⟩
  · rename_i hv
    exact ⟨risesFrom_put k v h.1, all_insert (by simpa using hv) (all_erase k h.2)⟩

theorem sparseFind_above {lo : Nat} {m : Sparse α} (h : risesFrom (some lo) m = true) {k : Nat} (hk : k ≤ lo) : sparseFind k m = none := by
  induction m generalizing lo with
  | nil => rfl
  | cons x m ih =>
    obtain ⟨j, v⟩ := x
    simp only [risesFrom, Bool.and_eq_true, Option.all_some, decide_eq_true_eq] at h
    rw [sparseFind_cons, if_neg (by omega)]
    exact ih h.2 (by omega)

/-- Maps in canonical form that read alike are equal. -/
theorem sparse_ext [DecidableEq α] (d : α) {m n : Sparse α} (hm : sparseWf d m = true) (hn : sparseWf d n = true)
    (h : ∀ k, sparseGet d m k = sparseGet d n k) : m = n := by
  simp only [sparseWf, Bool.and_eq_true] at hm hn
  obtain ⟨rm, am⟩ := hm
  obtain ⟨rn, an⟩ := hn
  generalize none = lo at rm rn
  induction m generalizing lo n with
  | nil =>
    cases n with
    | nil => rfl
    | cons x n =>
      obtain ⟨k, v⟩ := x
      have := h k
      simp only [List.all_cons, Bool.and_eq_true, decide_eq_true_eq] at an
      simp [sparseGet, sparseFind_cons] at this
      exact absurd this.symm an.1
  | cons x m ih =>
    obtain ⟨k, v⟩ := x
    simp only [List.all_cons, Bool.and_eq_true, decide_eq_true_eq] at am
    simp only [risesFrom, Bool.and_eq_true] at rm
    cases n with
    | nil =>
      have := h k
      simp [sparseGet, sparseFind_cons] at this
      exact absurd this am.1
    | cons y n =>
      obtain ⟨j, w⟩ := y
      simp only [List.all_cons, Bool.and_eq_true, decide_eq_true_eq] at an
      simp only [risesFrom, Bool.and_eq_true] at rn
      have hkj : k = j := by
        rcases Nat.lt_trichotomy k j with hlt | heq | hgt
        · have := h k
          simp [sparseGet, sparseFind_cons, Nat.ne_of_gt hlt, sparseFind_above rn.2 (Nat.le_of_lt hlt)] at this
          exact absurd this am.1
        · exact heq
        · have := h j
          simp [sparseGet, sparseFind_cons, Nat.ne_of_gt hgt, sparseFind_above rm.2 (Nat.le_of_lt hgt)] at this
          exact absurd this.symm an.1
      subst hkj
      have hv := h k
      simp [sparseGet, sparseFind_cons] at hv
      subst hv
      rw [ih (n := n) (lo := some k) (am := am.2) (rm := rm.2) (an := an.2) (rn := rn.2) (h := fun i => ?_)]
      by_cases hi : k = i
      · subst hi
        simp [sparseGet, sparseFind_above rm.2 (Nat.le_refl _), sparseFind_above rn.2 (Nat.le_refl _)]
      · have := h i
        simpa [sparseGet, sparseFind_cons, hi] using this

end Sys2Proof.Machine
end

