-- ==== Sys2Proof/Laws/State.lean ====
section
/-!
SUPPORT. Laws/State.lean: what each update of the state, of a team and of a group leaves as it was, and what is read after a write.
-/
namespace Sys2Proof.Machine

/-! setTeam changes `teams` alone. -/

@[simp] theorem State.setTeam_clk (s : State) (k : Nat) (t : Team) : (s.setTeam k t).clk = s.clk := rfl
@[simp] theorem State.setTeam_fuses (s : State) (k : Nat) (t : Team) : (s.setTeam k t).fuses = s.fuses := rfl
@[simp] theorem State.setTeam_mem (s : State) (k : Nat) (t : Team) : (s.setTeam k t).mem = s.mem := rfl
@[simp] theorem State.setTeam_coh (s : State) (k : Nat) (t : Team) : (s.setTeam k t).coh = s.coh := rfl
@[simp] theorem State.setTeam_cores (s : State) (k : Nat) (t : Team) : (s.setTeam k t).cores = s.cores := rfl
@[simp] theorem State.setTeam_cp (s : State) (k : Nat) (t : Team) : (s.setTeam k t).cp = s.cp := rfl
@[simp] theorem State.setTeam_net (s : State) (k : Nat) (t : Team) : (s.setTeam k t).net = s.net := rfl
@[simp] theorem State.setTeam_fab (s : State) (k : Nat) (t : Team) : (s.setTeam k t).fab = s.fab := rfl
@[simp] theorem State.setTeam_haeth (s : State) (k : Nat) (t : Team) : (s.setTeam k t).haeth = s.haeth := rfl
@[simp] theorem State.setTeam_mgmt (s : State) (k : Nat) (t : Team) : (s.setTeam k t).mgmt = s.mgmt := rfl
@[simp] theorem State.setTeam_halt (s : State) (k : Nat) (t : Team) : (s.setTeam k t).halt = s.halt := rfl
@[simp] theorem State.setTeam_debugHalt (s : State) (k : Nat) (t : Team) : (s.setTeam k t).debugHalt = s.debugHalt := rfl
@[simp] theorem State.setTeam_agenda (s : State) (k : Nat) (t : Team) : (s.setTeam k t).agenda = s.agenda := rfl
@[simp] theorem State.setTeam_cur (s : State) (k : Nat) (t : Team) : (s.setTeam k t).cur = s.cur := rfl
@[simp] theorem State.setTeam_free (s : State) (k : Nat) (t : Team) : (s.setTeam k t).free = s.free := rfl
@[simp] theorem State.setTeam_serial (s : State) (k : Nat) (t : Team) : (s.setTeam k t).serial = s.serial := rfl

/-! modTeam changes `teams` alone. -/

@[simp] theorem State.modTeam_clk (s : State) (k : Nat) (f : Team → Team) : (s.modTeam k f).clk = s.clk := rfl
@[simp] theorem State.modTeam_fuses (s : State) (k : Nat) (f : Team → Team) : (s.modTeam k f).fuses = s.fuses := rfl
@[simp] theorem State.modTeam_mem (s : State) (k : Nat) (f : Team → Team) : (s.modTeam k f).mem = s.mem := rfl
@[simp] theorem State.modTeam_coh (s : State) (k : Nat) (f : Team → Team) : (s.modTeam k f).coh = s.coh := rfl
@[simp] theorem State.modTeam_cores (s : State) (k : Nat) (f : Team → Team) : (s.modTeam k f).cores = s.cores := rfl
@[simp] theorem State.modTeam_cp (s : State) (k : Nat) (f : Team → Team) : (s.modTeam k f).cp = s.cp := rfl
@[simp] theorem State.modTeam_net (s : State) (k : Nat) (f : Team → Team) : (s.modTeam k f).net = s.net := rfl
@[simp] theorem State.modTeam_fab (s : State) (k : Nat) (f : Team → Team) : (s.modTeam k f).fab = s.fab := rfl
@[simp] theorem State.modTeam_haeth (s : State) (k : Nat) (f : Team → Team) : (s.modTeam k f).haeth = s.haeth := rfl
@[simp] theorem State.modTeam_mgmt (s : State) (k : Nat) (f : Team → Team) : (s.modTeam k f).mgmt = s.mgmt := rfl
@[simp] theorem State.modTeam_halt (s : State) (k : Nat) (f : Team → Team) : (s.modTeam k f).halt = s.halt := rfl
@[simp] theorem State.modTeam_debugHalt (s : State) (k : Nat) (f : Team → Team) : (s.modTeam k f).debugHalt = s.debugHalt := rfl
@[simp] theorem State.modTeam_agenda (s : State) (k : Nat) (f : Team → Team) : (s.modTeam k f).agenda = s.agenda := rfl
@[simp] theorem State.modTeam_cur (s : State) (k : Nat) (f : Team → Team) : (s.modTeam k f).cur = s.cur := rfl
@[simp] theorem State.modTeam_free (s : State) (k : Nat) (f : Team → Team) : (s.modTeam k f).free = s.free := rfl
@[simp] theorem State.modTeam_serial (s : State) (k : Nat) (f : Team → Team) : (s.modTeam k f).serial = s.serial := rfl

/-! dropTeam changes `teams` alone. -/

@[simp] theorem State.dropTeam_clk (s : State) (k : Nat) : (s.dropTeam k).clk = s.clk := rfl
@[simp] theorem State.dropTeam_fuses (s : State) (k : Nat) : (s.dropTeam k).fuses = s.fuses := rfl
@[simp] theorem State.dropTeam_mem (s : State) (k : Nat) : (s.dropTeam k).mem = s.mem := rfl
@[simp] theorem State.dropTeam_coh (s : State) (k : Nat) : (s.dropTeam k).coh = s.coh := rfl
@[simp] theorem State.dropTeam_cores (s : State) (k : Nat) : (s.dropTeam k).cores = s.cores := rfl
@[simp] theorem State.dropTeam_cp (s : State) (k : Nat) : (s.dropTeam k).cp = s.cp := rfl
@[simp] theorem State.dropTeam_net (s : State) (k : Nat) : (s.dropTeam k).net = s.net := rfl
@[simp] theorem State.dropTeam_fab (s : State) (k : Nat) : (s.dropTeam k).fab = s.fab := rfl
@[simp] theorem State.dropTeam_haeth (s : State) (k : Nat) : (s.dropTeam k).haeth = s.haeth := rfl
@[simp] theorem State.dropTeam_mgmt (s : State) (k : Nat) : (s.dropTeam k).mgmt = s.mgmt := rfl
@[simp] theorem State.dropTeam_halt (s : State) (k : Nat) : (s.dropTeam k).halt = s.halt := rfl
@[simp] theorem State.dropTeam_debugHalt (s : State) (k : Nat) : (s.dropTeam k).debugHalt = s.debugHalt := rfl
@[simp] theorem State.dropTeam_agenda (s : State) (k : Nat) : (s.dropTeam k).agenda = s.agenda := rfl
@[simp] theorem State.dropTeam_cur (s : State) (k : Nat) : (s.dropTeam k).cur = s.cur := rfl
@[simp] theorem State.dropTeam_free (s : State) (k : Nat) : (s.dropTeam k).free = s.free := rfl
@[simp] theorem State.dropTeam_serial (s : State) (k : Nat) : (s.dropTeam k).serial = s.serial := rfl

/-! modGroup changes `teams` alone. -/

@[simp] theorem State.modGroup_clk (s : State) (k g : Nat) (f : Group → Group) : (s.modGroup k g f).clk = s.clk := rfl
@[simp] theorem State.modGroup_fuses (s : State) (k g : Nat) (f : Group → Group) : (s.modGroup k g f).fuses = s.fuses := rfl
@[simp] theorem State.modGroup_mem (s : State) (k g : Nat) (f : Group → Group) : (s.modGroup k g f).mem = s.mem := rfl
@[simp] theorem State.modGroup_coh (s : State) (k g : Nat) (f : Group → Group) : (s.modGroup k g f).coh = s.coh := rfl
@[simp] theorem State.modGroup_cores (s : State) (k g : Nat) (f : Group → Group) : (s.modGroup k g f).cores = s.cores := rfl
@[simp] theorem State.modGroup_cp (s : State) (k g : Nat) (f : Group → Group) : (s.modGroup k g f).cp = s.cp := rfl
@[simp] theorem State.modGroup_net (s : State) (k g : Nat) (f : Group → Group) : (s.modGroup k g f).net = s.net := rfl
@[simp] theorem State.modGroup_fab (s : State) (k g : Nat) (f : Group → Group) : (s.modGroup k g f).fab = s.fab := rfl
@[simp] theorem State.modGroup_haeth (s : State) (k g : Nat) (f : Group → Group) : (s.modGroup k g f).haeth = s.haeth := rfl
@[simp] theorem State.modGroup_mgmt (s : State) (k g : Nat) (f : Group → Group) : (s.modGroup k g f).mgmt = s.mgmt := rfl
@[simp] theorem State.modGroup_halt (s : State) (k g : Nat) (f : Group → Group) : (s.modGroup k g f).halt = s.halt := rfl
@[simp] theorem State.modGroup_debugHalt (s : State) (k g : Nat) (f : Group → Group) : (s.modGroup k g f).debugHalt = s.debugHalt := rfl
@[simp] theorem State.modGroup_agenda (s : State) (k g : Nat) (f : Group → Group) : (s.modGroup k g f).agenda = s.agenda := rfl
@[simp] theorem State.modGroup_cur (s : State) (k g : Nat) (f : Group → Group) : (s.modGroup k g f).cur = s.cur := rfl
@[simp] theorem State.modGroup_free (s : State) (k g : Nat) (f : Group → Group) : (s.modGroup k g f).free = s.free := rfl
@[simp] theorem State.modGroup_serial (s : State) (k g : Nat) (f : Group → Group) : (s.modGroup k g f).serial = s.serial := rfl

/-! setCore changes `cores` alone. -/

@[simp] theorem State.setCore_clk (s : State) (c : Nat) (x : Core) : (s.setCore c x).clk = s.clk := rfl
@[simp] theorem State.setCore_fuses (s : State) (c : Nat) (x : Core) : (s.setCore c x).fuses = s.fuses := rfl
@[simp] theorem State.setCore_mem (s : State) (c : Nat) (x : Core) : (s.setCore c x).mem = s.mem := rfl
@[simp] theorem State.setCore_coh (s : State) (c : Nat) (x : Core) : (s.setCore c x).coh = s.coh := rfl
@[simp] theorem State.setCore_teams (s : State) (c : Nat) (x : Core) : (s.setCore c x).teams = s.teams := rfl
@[simp] theorem State.setCore_cp (s : State) (c : Nat) (x : Core) : (s.setCore c x).cp = s.cp := rfl
@[simp] theorem State.setCore_net (s : State) (c : Nat) (x : Core) : (s.setCore c x).net = s.net := rfl
@[simp] theorem State.setCore_fab (s : State) (c : Nat) (x : Core) : (s.setCore c x).fab = s.fab := rfl
@[simp] theorem State.setCore_haeth (s : State) (c : Nat) (x : Core) : (s.setCore c x).haeth = s.haeth := rfl
@[simp] theorem State.setCore_mgmt (s : State) (c : Nat) (x : Core) : (s.setCore c x).mgmt = s.mgmt := rfl
@[simp] theorem State.setCore_halt (s : State) (c : Nat) (x : Core) : (s.setCore c x).halt = s.halt := rfl
@[simp] theorem State.setCore_debugHalt (s : State) (c : Nat) (x : Core) : (s.setCore c x).debugHalt = s.debugHalt := rfl
@[simp] theorem State.setCore_agenda (s : State) (c : Nat) (x : Core) : (s.setCore c x).agenda = s.agenda := rfl
@[simp] theorem State.setCore_cur (s : State) (c : Nat) (x : Core) : (s.setCore c x).cur = s.cur := rfl
@[simp] theorem State.setCore_free (s : State) (c : Nat) (x : Core) : (s.setCore c x).free = s.free := rfl
@[simp] theorem State.setCore_serial (s : State) (c : Nat) (x : Core) : (s.setCore c x).serial = s.serial := rfl

/-! modCore changes `cores` alone. -/

@[simp] theorem State.modCore_clk (s : State) (c : Nat) (f : Core → Core) : (s.modCore c f).clk = s.clk := rfl
@[simp] theorem State.modCore_fuses (s : State) (c : Nat) (f : Core → Core) : (s.modCore c f).fuses = s.fuses := rfl
@[simp] theorem State.modCore_mem (s : State) (c : Nat) (f : Core → Core) : (s.modCore c f).mem = s.mem := rfl
@[simp] theorem State.modCore_coh (s : State) (c : Nat) (f : Core → Core) : (s.modCore c f).coh = s.coh := rfl
@[simp] theorem State.modCore_teams (s : State) (c : Nat) (f : Core → Core) : (s.modCore c f).teams = s.teams := rfl
@[simp] theorem State.modCore_cp (s : State) (c : Nat) (f : Core → Core) : (s.modCore c f).cp = s.cp := rfl
@[simp] theorem State.modCore_net (s : State) (c : Nat) (f : Core → Core) : (s.modCore c f).net = s.net := rfl
@[simp] theorem State.modCore_fab (s : State) (c : Nat) (f : Core → Core) : (s.modCore c f).fab = s.fab := rfl
@[simp] theorem State.modCore_haeth (s : State) (c : Nat) (f : Core → Core) : (s.modCore c f).haeth = s.haeth := rfl
@[simp] theorem State.modCore_mgmt (s : State) (c : Nat) (f : Core → Core) : (s.modCore c f).mgmt = s.mgmt := rfl
@[simp] theorem State.modCore_halt (s : State) (c : Nat) (f : Core → Core) : (s.modCore c f).halt = s.halt := rfl
@[simp] theorem State.modCore_debugHalt (s : State) (c : Nat) (f : Core → Core) : (s.modCore c f).debugHalt = s.debugHalt := rfl
@[simp] theorem State.modCore_agenda (s : State) (c : Nat) (f : Core → Core) : (s.modCore c f).agenda = s.agenda := rfl
@[simp] theorem State.modCore_cur (s : State) (c : Nat) (f : Core → Core) : (s.modCore c f).cur = s.cur := rfl
@[simp] theorem State.modCore_free (s : State) (c : Nat) (f : Core → Core) : (s.modCore c f).free = s.free := rfl
@[simp] theorem State.modCore_serial (s : State) (c : Nat) (f : Core → Core) : (s.modCore c f).serial = s.serial := rfl

/-! modLaunch changes `cp` alone. -/

@[simp] theorem State.modLaunch_clk (s : State) (n : Nat) (f : Launch → Launch) : (s.modLaunch n f).clk = s.clk := rfl
@[simp] theorem State.modLaunch_fuses (s : State) (n : Nat) (f : Launch → Launch) : (s.modLaunch n f).fuses = s.fuses := rfl
@[simp] theorem State.modLaunch_mem (s : State) (n : Nat) (f : Launch → Launch) : (s.modLaunch n f).mem = s.mem := rfl
@[simp] theorem State.modLaunch_coh (s : State) (n : Nat) (f : Launch → Launch) : (s.modLaunch n f).coh = s.coh := rfl
@[simp] theorem State.modLaunch_cores (s : State) (n : Nat) (f : Launch → Launch) : (s.modLaunch n f).cores = s.cores := rfl
@[simp] theorem State.modLaunch_teams (s : State) (n : Nat) (f : Launch → Launch) : (s.modLaunch n f).teams = s.teams := rfl
@[simp] theorem State.modLaunch_net (s : State) (n : Nat) (f : Launch → Launch) : (s.modLaunch n f).net = s.net := rfl
@[simp] theorem State.modLaunch_fab (s : State) (n : Nat) (f : Launch → Launch) : (s.modLaunch n f).fab = s.fab := rfl
@[simp] theorem State.modLaunch_haeth (s : State) (n : Nat) (f : Launch → Launch) : (s.modLaunch n f).haeth = s.haeth := rfl
@[simp] theorem State.modLaunch_mgmt (s : State) (n : Nat) (f : Launch → Launch) : (s.modLaunch n f).mgmt = s.mgmt := rfl
@[simp] theorem State.modLaunch_halt (s : State) (n : Nat) (f : Launch → Launch) : (s.modLaunch n f).halt = s.halt := rfl
@[simp] theorem State.modLaunch_debugHalt (s : State) (n : Nat) (f : Launch → Launch) : (s.modLaunch n f).debugHalt = s.debugHalt := rfl
@[simp] theorem State.modLaunch_agenda (s : State) (n : Nat) (f : Launch → Launch) : (s.modLaunch n f).agenda = s.agenda := rfl
@[simp] theorem State.modLaunch_cur (s : State) (n : Nat) (f : Launch → Launch) : (s.modLaunch n f).cur = s.cur := rfl
@[simp] theorem State.modLaunch_free (s : State) (n : Nat) (f : Launch → Launch) : (s.modLaunch n f).free = s.free := rfl
@[simp] theorem State.modLaunch_serial (s : State) (n : Nat) (f : Launch → Launch) : (s.modLaunch n f).serial = s.serial := rfl

/-! modQueue changes `cp` alone. -/

@[simp] theorem State.modQueue_clk (s : State) (q : Nat) (f : Queue → Queue) : (s.modQueue q f).clk = s.clk := rfl
@[simp] theorem State.modQueue_fuses (s : State) (q : Nat) (f : Queue → Queue) : (s.modQueue q f).fuses = s.fuses := rfl
@[simp] theorem State.modQueue_mem (s : State) (q : Nat) (f : Queue → Queue) : (s.modQueue q f).mem = s.mem := rfl
@[simp] theorem State.modQueue_coh (s : State) (q : Nat) (f : Queue → Queue) : (s.modQueue q f).coh = s.coh := rfl
@[simp] theorem State.modQueue_cores (s : State) (q : Nat) (f : Queue → Queue) : (s.modQueue q f).cores = s.cores := rfl
@[simp] theorem State.modQueue_teams (s : State) (q : Nat) (f : Queue → Queue) : (s.modQueue q f).teams = s.teams := rfl
@[simp] theorem State.modQueue_net (s : State) (q : Nat) (f : Queue → Queue) : (s.modQueue q f).net = s.net := rfl
@[simp] theorem State.modQueue_fab (s : State) (q : Nat) (f : Queue → Queue) : (s.modQueue q f).fab = s.fab := rfl
@[simp] theorem State.modQueue_haeth (s : State) (q : Nat) (f : Queue → Queue) : (s.modQueue q f).haeth = s.haeth := rfl
@[simp] theorem State.modQueue_mgmt (s : State) (q : Nat) (f : Queue → Queue) : (s.modQueue q f).mgmt = s.mgmt := rfl
@[simp] theorem State.modQueue_halt (s : State) (q : Nat) (f : Queue → Queue) : (s.modQueue q f).halt = s.halt := rfl
@[simp] theorem State.modQueue_debugHalt (s : State) (q : Nat) (f : Queue → Queue) : (s.modQueue q f).debugHalt = s.debugHalt := rfl
@[simp] theorem State.modQueue_agenda (s : State) (q : Nat) (f : Queue → Queue) : (s.modQueue q f).agenda = s.agenda := rfl
@[simp] theorem State.modQueue_cur (s : State) (q : Nat) (f : Queue → Queue) : (s.modQueue q f).cur = s.cur := rfl
@[simp] theorem State.modQueue_free (s : State) (q : Nat) (f : Queue → Queue) : (s.modQueue q f).free = s.free := rfl
@[simp] theorem State.modQueue_serial (s : State) (q : Nat) (f : Queue → Queue) : (s.modQueue q f).serial = s.serial := rfl

/-! modPart changes `cp` alone. -/

@[simp] theorem State.modPart_clk (s : State) (p : Nat) (f : Partition → Partition) : (s.modPart p f).clk = s.clk := rfl
@[simp] theorem State.modPart_fuses (s : State) (p : Nat) (f : Partition → Partition) : (s.modPart p f).fuses = s.fuses := rfl
@[simp] theorem State.modPart_mem (s : State) (p : Nat) (f : Partition → Partition) : (s.modPart p f).mem = s.mem := rfl
@[simp] theorem State.modPart_coh (s : State) (p : Nat) (f : Partition → Partition) : (s.modPart p f).coh = s.coh := rfl
@[simp] theorem State.modPart_cores (s : State) (p : Nat) (f : Partition → Partition) : (s.modPart p f).cores = s.cores := rfl
@[simp] theorem State.modPart_teams (s : State) (p : Nat) (f : Partition → Partition) : (s.modPart p f).teams = s.teams := rfl
@[simp] theorem State.modPart_net (s : State) (p : Nat) (f : Partition → Partition) : (s.modPart p f).net = s.net := rfl
@[simp] theorem State.modPart_fab (s : State) (p : Nat) (f : Partition → Partition) : (s.modPart p f).fab = s.fab := rfl
@[simp] theorem State.modPart_haeth (s : State) (p : Nat) (f : Partition → Partition) : (s.modPart p f).haeth = s.haeth := rfl
@[simp] theorem State.modPart_mgmt (s : State) (p : Nat) (f : Partition → Partition) : (s.modPart p f).mgmt = s.mgmt := rfl
@[simp] theorem State.modPart_halt (s : State) (p : Nat) (f : Partition → Partition) : (s.modPart p f).halt = s.halt := rfl
@[simp] theorem State.modPart_debugHalt (s : State) (p : Nat) (f : Partition → Partition) : (s.modPart p f).debugHalt = s.debugHalt := rfl
@[simp] theorem State.modPart_agenda (s : State) (p : Nat) (f : Partition → Partition) : (s.modPart p f).agenda = s.agenda := rfl
@[simp] theorem State.modPart_cur (s : State) (p : Nat) (f : Partition → Partition) : (s.modPart p f).cur = s.cur := rfl
@[simp] theorem State.modPart_free (s : State) (p : Nat) (f : Partition → Partition) : (s.modPart p f).free = s.free := rfl
@[simp] theorem State.modPart_serial (s : State) (p : Nat) (f : Partition → Partition) : (s.modPart p f).serial = s.serial := rfl

/-! setScrByte changes `cores` alone. -/

@[simp] theorem State.setScrByte_clk (s : State) (t : Team) (o : Nat) (b : Byte) : (s.setScrByte t o b).clk = s.clk := rfl
@[simp] theorem State.setScrByte_fuses (s : State) (t : Team) (o : Nat) (b : Byte) : (s.setScrByte t o b).fuses = s.fuses := rfl
@[simp] theorem State.setScrByte_mem (s : State) (t : Team) (o : Nat) (b : Byte) : (s.setScrByte t o b).mem = s.mem := rfl
@[simp] theorem State.setScrByte_coh (s : State) (t : Team) (o : Nat) (b : Byte) : (s.setScrByte t o b).coh = s.coh := rfl
@[simp] theorem State.setScrByte_teams (s : State) (t : Team) (o : Nat) (b : Byte) : (s.setScrByte t o b).teams = s.teams := rfl
@[simp] theorem State.setScrByte_cp (s : State) (t : Team) (o : Nat) (b : Byte) : (s.setScrByte t o b).cp = s.cp := rfl
@[simp] theorem State.setScrByte_net (s : State) (t : Team) (o : Nat) (b : Byte) : (s.setScrByte t o b).net = s.net := rfl
@[simp] theorem State.setScrByte_fab (s : State) (t : Team) (o : Nat) (b : Byte) : (s.setScrByte t o b).fab = s.fab := rfl
@[simp] theorem State.setScrByte_haeth (s : State) (t : Team) (o : Nat) (b : Byte) : (s.setScrByte t o b).haeth = s.haeth := rfl
@[simp] theorem State.setScrByte_mgmt (s : State) (t : Team) (o : Nat) (b : Byte) : (s.setScrByte t o b).mgmt = s.mgmt := rfl
@[simp] theorem State.setScrByte_halt (s : State) (t : Team) (o : Nat) (b : Byte) : (s.setScrByte t o b).halt = s.halt := rfl
@[simp] theorem State.setScrByte_debugHalt (s : State) (t : Team) (o : Nat) (b : Byte) : (s.setScrByte t o b).debugHalt = s.debugHalt := rfl
@[simp] theorem State.setScrByte_agenda (s : State) (t : Team) (o : Nat) (b : Byte) : (s.setScrByte t o b).agenda = s.agenda := rfl
@[simp] theorem State.setScrByte_cur (s : State) (t : Team) (o : Nat) (b : Byte) : (s.setScrByte t o b).cur = s.cur := rfl
@[simp] theorem State.setScrByte_free (s : State) (t : Team) (o : Nat) (b : Byte) : (s.setScrByte t o b).free = s.free := rfl
@[simp] theorem State.setScrByte_serial (s : State) (t : Team) (o : Nat) (b : Byte) : (s.setScrByte t o b).serial = s.serial := rfl

/-! setAccWord changes `cores` alone. -/

@[simp] theorem State.setAccWord_clk (s : State) (t : Team) (w : Nat) (x : U32) : (s.setAccWord t w x).clk = s.clk := rfl
@[simp] theorem State.setAccWord_fuses (s : State) (t : Team) (w : Nat) (x : U32) : (s.setAccWord t w x).fuses = s.fuses := rfl
@[simp] theorem State.setAccWord_mem (s : State) (t : Team) (w : Nat) (x : U32) : (s.setAccWord t w x).mem = s.mem := rfl
@[simp] theorem State.setAccWord_coh (s : State) (t : Team) (w : Nat) (x : U32) : (s.setAccWord t w x).coh = s.coh := rfl
@[simp] theorem State.setAccWord_teams (s : State) (t : Team) (w : Nat) (x : U32) : (s.setAccWord t w x).teams = s.teams := rfl
@[simp] theorem State.setAccWord_cp (s : State) (t : Team) (w : Nat) (x : U32) : (s.setAccWord t w x).cp = s.cp := rfl
@[simp] theorem State.setAccWord_net (s : State) (t : Team) (w : Nat) (x : U32) : (s.setAccWord t w x).net = s.net := rfl
@[simp] theorem State.setAccWord_fab (s : State) (t : Team) (w : Nat) (x : U32) : (s.setAccWord t w x).fab = s.fab := rfl
@[simp] theorem State.setAccWord_haeth (s : State) (t : Team) (w : Nat) (x : U32) : (s.setAccWord t w x).haeth = s.haeth := rfl
@[simp] theorem State.setAccWord_mgmt (s : State) (t : Team) (w : Nat) (x : U32) : (s.setAccWord t w x).mgmt = s.mgmt := rfl
@[simp] theorem State.setAccWord_halt (s : State) (t : Team) (w : Nat) (x : U32) : (s.setAccWord t w x).halt = s.halt := rfl
@[simp] theorem State.setAccWord_debugHalt (s : State) (t : Team) (w : Nat) (x : U32) : (s.setAccWord t w x).debugHalt = s.debugHalt := rfl
@[simp] theorem State.setAccWord_agenda (s : State) (t : Team) (w : Nat) (x : U32) : (s.setAccWord t w x).agenda = s.agenda := rfl
@[simp] theorem State.setAccWord_cur (s : State) (t : Team) (w : Nat) (x : U32) : (s.setAccWord t w x).cur = s.cur := rfl
@[simp] theorem State.setAccWord_free (s : State) (t : Team) (w : Nat) (x : U32) : (s.setAccWord t w x).free = s.free := rfl
@[simp] theorem State.setAccWord_serial (s : State) (t : Team) (w : Nat) (x : U32) : (s.setAccWord t w x).serial = s.serial := rfl

/-! A team of the state after one is written. -/

@[simp] theorem State.team?_setTeam_same (s : State) (k : Nat) (t : Team) : (s.setTeam k t).team? k = some t := by
  simp [State.team?, State.setTeam]

theorem State.team?_setTeam_ne (s : State) {j k : Nat} (h : j ≠ k) (t : Team) : (s.setTeam k t).team? j = s.team? j := by
  simp [State.team?, State.setTeam, sparseFind_put_ne h]

theorem State.team?_modTeam_same {s : State} {k : Nat} {t : Team} (h : s.team? k = some t) (f : Team → Team) :
    (s.modTeam k f).team? k = some (f t) := by
  simp only [State.team?] at h
  simp [State.team?, State.modTeam, sparseMod, h]

theorem State.team?_modTeam_ne (s : State) {j k : Nat} (h : j ≠ k) (f : Team → Team) : (s.modTeam k f).team? j = s.team? j := by
  simp only [State.team?, State.modTeam, sparseMod]
  split
  · rfl
  · exact sparseFind_put_ne h _ _

@[simp] theorem State.core_setCore_same (s : State) (c : Nat) (x : Core) : (s.setCore c x).core c = x := by
  simp [State.core, State.setCore]

theorem State.core_setCore_ne (s : State) {c d : Nat} (h : d ≠ c) (x : Core) : (s.setCore c x).core d = s.core d := by
  simp [State.core, State.setCore, sparseGet_put_ne _ h]

@[simp] theorem State.core_modCore_same (s : State) (c : Nat) (f : Core → Core) : (s.modCore c f).core c = f (s.core c) := by
  simp [State.modCore]

/-! Registers of a team. -/

theorem Team.sreg_zero (t : Team) : t.sreg 0 = 0 := by simp [Team.sreg]

theorem Team.sreg_setSreg_same {r : SReg} (h : r ≠ 0) (t : Team) (v : U64) : (t.setSreg r v).sreg r = v := by
  unfold Team.sreg Team.setSreg
  rw [if_neg h, if_neg h]
  exact sparseGet_set_same _ _ _ _

@[simp] theorem Team.setSreg_zero (t : Team) (v : U64) : t.setSreg 0 v = t := by simp [Team.setSreg]

theorem Team.sreg_setSreg_ne {q r : SReg} (h : q ≠ r) (t : Team) (v : U64) : (t.setSreg r v).sreg q = t.sreg q := by
  unfold Team.sreg Team.setSreg
  split
  · rfl
  · split
    · rfl
    · rw [sparseGet_set_ne]
      exact fun e => h (BitVec.eq_of_toNat_eq e)

theorem Team.qreg_setQreg_same {r : BitVec 3} (h : r ≠ 0) (t : Team) (v : Bool) : (t.setQreg r v).qreg r = v := by
  unfold Team.qreg Team.setQreg
  rw [if_neg h, if_neg h]
  exact sparseGet_set_same _ _ _ _

@[simp] theorem Team.setQreg_zero (t : Team) (v : Bool) : t.setQreg 0 v = t := by simp [Team.setQreg]

theorem Team.qreg_setQreg_ne {q r : BitVec 3} (h : q ≠ r) (t : Team) (v : Bool) : (t.setQreg r v).qreg q = t.qreg q := by
  unfold Team.qreg Team.setQreg
  split
  · rfl
  · split
    · rfl
    · rw [sparseGet_set_ne]
      exact fun e => h (BitVec.eq_of_toNat_eq e)

@[simp] theorem Team.group?_setGroup_same (t : Team) (g : Nat) (x : Group) : (t.setGroup g x).group? g = some x := by
  simp [Team.group?, Team.setGroup]

theorem Team.group?_setGroup_ne (t : Team) {g h : Nat} (n : h ≠ g) (x : Group) : (t.setGroup g x).group? h = t.group? h := by
  simp [Team.group?, Team.setGroup, sparseFind_put_ne n]

theorem Team.group?_modGroup_same {t : Team} {g : Nat} {x : Group} (h : t.group? g = some x) (f : Group → Group) :
    (t.modGroup g f).group? g = some (f x) := by
  simp only [Team.group?] at h
  simp [Team.group?, Team.modGroup, sparseMod, h]


/-! setSreg changes `s` alone. -/

@[simp] theorem Team.setSreg_serial (t : Team) (r : SReg) (v : U64) : (t.setSreg r v).serial = t.serial := by unfold Team.setSreg; split <;> rfl
@[simp] theorem Team.setSreg_core (t : Team) (r : SReg) (v : U64) : (t.setSreg r v).core = t.core := by unfold Team.setSreg; split <;> rfl
@[simp] theorem Team.setSreg_ctx (t : Team) (r : SReg) (v : U64) : (t.setSreg r v).ctx = t.ctx := by unfold Team.setSreg; split <;> rfl
@[simp] theorem Team.setSreg_launch (t : Team) (r : SReg) (v : U64) : (t.setSreg r v).launch = t.launch := by unfold Team.setSreg; split <;> rfl
@[simp] theorem Team.setSreg_teamId (t : Team) (r : SReg) (v : U64) : (t.setSreg r v).teamId = t.teamId := by unfold Team.setSreg; split <;> rfl
@[simp] theorem Team.setSreg_part (t : Team) (r : SReg) (v : U64) : (t.setSreg r v).part = t.part := by unfold Team.setSreg; split <;> rfl
@[simp] theorem Team.setSreg_express (t : Team) (r : SReg) (v : U64) : (t.setSreg r v).express = t.express := by unfold Team.setSreg; split <;> rfl
@[simp] theorem Team.setSreg_reserved (t : Team) (r : SReg) (v : U64) : (t.setSreg r v).reserved = t.reserved := by unfold Team.setSreg; split <;> rfl
@[simp] theorem Team.setSreg_desc (t : Team) (r : SReg) (v : U64) : (t.setSreg r v).desc = t.desc := by unfold Team.setSreg; split <;> rfl
@[simp] theorem Team.setSreg_root (t : Team) (r : SReg) (v : U64) : (t.setSreg r v).root = t.root := by unfold Team.setSreg; split <;> rfl
@[simp] theorem Team.setSreg_st (t : Team) (r : SReg) (v : U64) : (t.setSreg r v).st = t.st := by unfold Team.setSreg; split <;> rfl
@[simp] theorem Team.setSreg_succ (t : Team) (r : SReg) (v : U64) : (t.setSreg r v).succ = t.succ := by unfold Team.setSreg; split <;> rfl
@[simp] theorem Team.setSreg_exited (t : Team) (r : SReg) (v : U64) : (t.setSreg r v).exited = t.exited := by unfold Team.setSreg; split <;> rfl
@[simp] theorem Team.setSreg_killed (t : Team) (r : SReg) (v : U64) : (t.setSreg r v).killed = t.killed := by unfold Team.setSreg; split <;> rfl
@[simp] theorem Team.setSreg_q (t : Team) (r : SReg) (v : U64) : (t.setSreg r v).q = t.q := by unfold Team.setSreg; split <;> rfl
@[simp] theorem Team.setSreg_pc (t : Team) (r : SReg) (v : U64) : (t.setSreg r v).pc = t.pc := by unfold Team.setSreg; split <;> rfl
@[simp] theorem Team.setSreg_reinFmt (t : Team) (r : SReg) (v : U64) : (t.setSreg r v).reinFmt = t.reinFmt := by unfold Team.setSreg; split <;> rfl
@[simp] theorem Team.setSreg_rein (t : Team) (r : SReg) (v : U64) : (t.setSreg r v).rein = t.rein := by unfold Team.setSreg; split <;> rfl
@[simp] theorem Team.setSreg_reinWas (t : Team) (r : SReg) (v : U64) : (t.setSreg r v).reinWas = t.reinWas := by unfold Team.setSreg; split <;> rfl
@[simp] theorem Team.setSreg_spillBase (t : Team) (r : SReg) (v : U64) : (t.setSreg r v).spillBase = t.spillBase := by unfold Team.setSreg; split <;> rfl
@[simp] theorem Team.setSreg_spawnTmo (t : Team) (r : SReg) (v : U64) : (t.setSreg r v).spawnTmo = t.spawnTmo := by unfold Team.setSreg; split <;> rfl
@[simp] theorem Team.setSreg_trapVec (t : Team) (r : SReg) (v : U64) : (t.setSreg r v).trapVec = t.trapVec := by unfold Team.setSreg; split <;> rfl
@[simp] theorem Team.setSreg_trapPc (t : Team) (r : SReg) (v : U64) : (t.setSreg r v).trapPc = t.trapPc := by unfold Team.setSreg; split <;> rfl
@[simp] theorem Team.setSreg_frame (t : Team) (r : SReg) (v : U64) : (t.setSreg r v).frame = t.frame := by unfold Team.setSreg; split <;> rfl
@[simp] theorem Team.setSreg_handling (t : Team) (r : SReg) (v : U64) : (t.setSreg r v).handling = t.handling := by unfold Team.setSreg; split <;> rfl
@[simp] theorem Team.setSreg_handler (t : Team) (r : SReg) (v : U64) : (t.setSreg r v).handler = t.handler := by unfold Team.setSreg; split <;> rfl
@[simp] theorem Team.setSreg_riderTrap (t : Team) (r : SReg) (v : U64) : (t.setSreg r v).riderTrap = t.riderTrap := by unfold Team.setSreg; split <;> rfl
@[simp] theorem Team.setSreg_riderKept (t : Team) (r : SReg) (v : U64) : (t.setSreg r v).riderKept = t.riderKept := by unfold Team.setSreg; split <;> rfl
@[simp] theorem Team.setSreg_teamTrap (t : Team) (r : SReg) (v : U64) : (t.setSreg r v).teamTrap = t.teamTrap := by unfold Team.setSreg; split <;> rfl
@[simp] theorem Team.setSreg_teamKept (t : Team) (r : SReg) (v : U64) : (t.setSreg r v).teamKept = t.teamKept := by unfold Team.setSreg; split <;> rfl
@[simp] theorem Team.setSreg_trapAt (t : Team) (r : SReg) (v : U64) : (t.setSreg r v).trapAt = t.trapAt := by unfold Team.setSreg; split <;> rfl
@[simp] theorem Team.setSreg_mstat (t : Team) (r : SReg) (v : U64) : (t.setSreg r v).mstat = t.mstat := by unfold Team.setSreg; split <;> rfl
@[simp] theorem Team.setSreg_bars (t : Team) (r : SReg) (v : U64) : (t.setSreg r v).bars = t.bars := by unfold Team.setSreg; split <;> rfl
@[simp] theorem Team.setSreg_barWaits (t : Team) (r : SReg) (v : U64) : (t.setSreg r v).barWaits = t.barWaits := by unfold Team.setSreg; split <;> rfl
@[simp] theorem Team.setSreg_scrStart (t : Team) (r : SReg) (v : U64) : (t.setSreg r v).scrStart = t.scrStart := by unfold Team.setSreg; split <;> rfl
@[simp] theorem Team.setSreg_emptyLines (t : Team) (r : SReg) (v : U64) : (t.setSreg r v).emptyLines = t.emptyLines := by unfold Team.setSreg; split <;> rfl
@[simp] theorem Team.setSreg_owners (t : Team) (r : SReg) (v : U64) : (t.setSreg r v).owners = t.owners := by unfold Team.setSreg; split <;> rfl
@[simp] theorem Team.setSreg_accTiles (t : Team) (r : SReg) (v : U64) : (t.setSreg r v).accTiles = t.accTiles := by unfold Team.setSreg; split <;> rfl
@[simp] theorem Team.setSreg_groups (t : Team) (r : SReg) (v : U64) : (t.setSreg r v).groups = t.groups := by unfold Team.setSreg; split <;> rfl
@[simp] theorem Team.setSreg_draws (t : Team) (r : SReg) (v : U64) : (t.setSreg r v).draws = t.draws := by unfold Team.setSreg; split <;> rfl
@[simp] theorem Team.setSreg_sdraw (t : Team) (r : SReg) (v : U64) : (t.setSreg r v).sdraw = t.sdraw := by unfold Team.setSreg; split <;> rfl
@[simp] theorem Team.setSreg_ops (t : Team) (r : SReg) (v : U64) : (t.setSreg r v).ops = t.ops := by unfold Team.setSreg; split <;> rfl
@[simp] theorem Team.setSreg_cfences (t : Team) (r : SReg) (v : U64) : (t.setSreg r v).cfences = t.cfences := by unfold Team.setSreg; split <;> rfl
@[simp] theorem Team.setSreg_clsV (t : Team) (r : SReg) (v : U64) : (t.setSreg r v).clsV = t.clsV := by unfold Team.setSreg; split <;> rfl
@[simp] theorem Team.setSreg_stale (t : Team) (r : SReg) (v : U64) : (t.setSreg r v).stale = t.stale := by unfold Team.setSreg; split <;> rfl
@[simp] theorem Team.setSreg_staleAcc (t : Team) (r : SReg) (v : U64) : (t.setSreg r v).staleAcc = t.staleAcc := by unfold Team.setSreg; split <;> rfl
@[simp] theorem Team.setSreg_riderFence (t : Team) (r : SReg) (v : U64) : (t.setSreg r v).riderFence = t.riderFence := by unfold Team.setSreg; split <;> rfl
@[simp] theorem Team.setSreg_riderNear (t : Team) (r : SReg) (v : U64) : (t.setSreg r v).riderNear = t.riderNear := by unfold Team.setSreg; split <;> rfl
@[simp] theorem Team.setSreg_endedV (t : Team) (r : SReg) (v : U64) : (t.setSreg r v).endedV = t.endedV := by unfold Team.setSreg; split <;> rfl
@[simp] theorem Team.setSreg_gone (t : Team) (r : SReg) (v : U64) : (t.setSreg r v).gone = t.gone := by unfold Team.setSreg; split <;> rfl
@[simp] theorem Team.setSreg_counts (t : Team) (r : SReg) (v : U64) : (t.setSreg r v).counts = t.counts := by unfold Team.setSreg; split <;> rfl
@[simp] theorem Team.setSreg_blocked (t : Team) (r : SReg) (v : U64) : (t.setSreg r v).blocked = t.blocked := by unfold Team.setSreg; split <;> rfl
@[simp] theorem Team.setSreg_leaveReq (t : Team) (r : SReg) (v : U64) : (t.setSreg r v).leaveReq = t.leaveReq := by unfold Team.setSreg; split <;> rfl
@[simp] theorem Team.setSreg_leaveGot (t : Team) (r : SReg) (v : U64) : (t.setSreg r v).leaveGot = t.leaveGot := by unfold Team.setSreg; split <;> rfl
@[simp] theorem Team.setSreg_roomWait (t : Team) (r : SReg) (v : U64) : (t.setSreg r v).roomWait = t.roomWait := by unfold Team.setSreg; split <;> rfl
@[simp] theorem Team.setSreg_leaveAgain (t : Team) (r : SReg) (v : U64) : (t.setSreg r v).leaveAgain = t.leaveAgain := by unfold Team.setSreg; split <;> rfl
@[simp] theorem Team.setSreg_vmax (t : Team) (r : SReg) (v : U64) : (t.setSreg r v).vmax = t.vmax := by unfold Team.setSreg; split <;> rfl
@[simp] theorem Team.setSreg_seen (t : Team) (r : SReg) (v : U64) : (t.setSreg r v).seen = t.seen := by unfold Team.setSreg; split <;> rfl
@[simp] theorem Team.setSreg_retired (t : Team) (r : SReg) (v : U64) : (t.setSreg r v).retired = t.retired := by unfold Team.setSreg; split <;> rfl
@[simp] theorem Team.setSreg_laneRetired (t : Team) (r : SReg) (v : U64) : (t.setSreg r v).laneRetired = t.laneRetired := by unfold Team.setSreg; split <;> rfl
@[simp] theorem Team.setSreg_yieldUntil (t : Team) (r : SReg) (v : U64) : (t.setSreg r v).yieldUntil = t.yieldUntil := by unfold Team.setSreg; split <;> rfl
@[simp] theorem Team.setSreg_idem (t : Team) (r : SReg) (v : U64) : (t.setSreg r v).idem = t.idem := by unfold Team.setSreg; split <;> rfl
@[simp] theorem Team.setSreg_chkptSeen (t : Team) (r : SReg) (v : U64) : (t.setSreg r v).chkptSeen = t.chkptSeen := by unfold Team.setSreg; split <;> rfl
@[simp] theorem Team.setSreg_npc (t : Team) (r : SReg) (v : U64) : (t.setSreg r v).npc = t.npc := by unfold Team.setSreg; split <;> rfl
@[simp] theorem Team.setSreg_ran (t : Team) (r : SReg) (v : U64) : (t.setSreg r v).ran = t.ran := by unfold Team.setSreg; split <;> rfl
@[simp] theorem Team.setSreg_waited (t : Team) (r : SReg) (v : U64) : (t.setSreg r v).waited = t.waited := by unfold Team.setSreg; split <;> rfl
@[simp] theorem Team.setSreg_admitted (t : Team) (r : SReg) (v : U64) : (t.setSreg r v).admitted = t.admitted := by unfold Team.setSreg; split <;> rfl
@[simp] theorem Team.setSreg_scrSize (t : Team) (r : SReg) (v : U64) : (t.setSreg r v).scrSize = t.scrSize := by unfold Team.setSreg; split <;> rfl
@[simp] theorem Team.setSreg_groupsHeld (t : Team) (r : SReg) (v : U64) : (t.setSreg r v).groupsHeld = t.groupsHeld := by unfold Team.setSreg; split <;> rfl
@[simp] theorem Team.setSreg_pre (t : Team) (r : SReg) (v : U64) : (t.setSreg r v).pre = t.pre := by unfold Team.setSreg; split <;> rfl
@[simp] theorem Team.setSreg_retiredKilled (t : Team) (r : SReg) (v : U64) : (t.setSreg r v).retiredKilled = t.retiredKilled := by unfold Team.setSreg; split <;> rfl

/-! setQreg changes `q` alone. -/

@[simp] theorem Team.setQreg_serial (t : Team) (r : BitVec 3) (v : Bool) : (t.setQreg r v).serial = t.serial := by unfold Team.setQreg; split <;> rfl
@[simp] theorem Team.setQreg_core (t : Team) (r : BitVec 3) (v : Bool) : (t.setQreg r v).core = t.core := by unfold Team.setQreg; split <;> rfl
@[simp] theorem Team.setQreg_ctx (t : Team) (r : BitVec 3) (v : Bool) : (t.setQreg r v).ctx = t.ctx := by unfold Team.setQreg; split <;> rfl
@[simp] theorem Team.setQreg_launch (t : Team) (r : BitVec 3) (v : Bool) : (t.setQreg r v).launch = t.launch := by unfold Team.setQreg; split <;> rfl
@[simp] theorem Team.setQreg_teamId (t : Team) (r : BitVec 3) (v : Bool) : (t.setQreg r v).teamId = t.teamId := by unfold Team.setQreg; split <;> rfl
@[simp] theorem Team.setQreg_part (t : Team) (r : BitVec 3) (v : Bool) : (t.setQreg r v).part = t.part := by unfold Team.setQreg; split <;> rfl
@[simp] theorem Team.setQreg_express (t : Team) (r : BitVec 3) (v : Bool) : (t.setQreg r v).express = t.express := by unfold Team.setQreg; split <;> rfl
@[simp] theorem Team.setQreg_reserved (t : Team) (r : BitVec 3) (v : Bool) : (t.setQreg r v).reserved = t.reserved := by unfold Team.setQreg; split <;> rfl
@[simp] theorem Team.setQreg_desc (t : Team) (r : BitVec 3) (v : Bool) : (t.setQreg r v).desc = t.desc := by unfold Team.setQreg; split <;> rfl
@[simp] theorem Team.setQreg_root (t : Team) (r : BitVec 3) (v : Bool) : (t.setQreg r v).root = t.root := by unfold Team.setQreg; split <;> rfl
@[simp] theorem Team.setQreg_st (t : Team) (r : BitVec 3) (v : Bool) : (t.setQreg r v).st = t.st := by unfold Team.setQreg; split <;> rfl
@[simp] theorem Team.setQreg_succ (t : Team) (r : BitVec 3) (v : Bool) : (t.setQreg r v).succ = t.succ := by unfold Team.setQreg; split <;> rfl
@[simp] theorem Team.setQreg_exited (t : Team) (r : BitVec 3) (v : Bool) : (t.setQreg r v).exited = t.exited := by unfold Team.setQreg; split <;> rfl
@[simp] theorem Team.setQreg_killed (t : Team) (r : BitVec 3) (v : Bool) : (t.setQreg r v).killed = t.killed := by unfold Team.setQreg; split <;> rfl
@[simp] theorem Team.setQreg_s (t : Team) (r : BitVec 3) (v : Bool) : (t.setQreg r v).s = t.s := by unfold Team.setQreg; split <;> rfl
@[simp] theorem Team.setQreg_pc (t : Team) (r : BitVec 3) (v : Bool) : (t.setQreg r v).pc = t.pc := by unfold Team.setQreg; split <;> rfl
@[simp] theorem Team.setQreg_reinFmt (t : Team) (r : BitVec 3) (v : Bool) : (t.setQreg r v).reinFmt = t.reinFmt := by unfold Team.setQreg; split <;> rfl
@[simp] theorem Team.setQreg_rein (t : Team) (r : BitVec 3) (v : Bool) : (t.setQreg r v).rein = t.rein := by unfold Team.setQreg; split <;> rfl
@[simp] theorem Team.setQreg_reinWas (t : Team) (r : BitVec 3) (v : Bool) : (t.setQreg r v).reinWas = t.reinWas := by unfold Team.setQreg; split <;> rfl
@[simp] theorem Team.setQreg_spillBase (t : Team) (r : BitVec 3) (v : Bool) : (t.setQreg r v).spillBase = t.spillBase := by unfold Team.setQreg; split <;> rfl
@[simp] theorem Team.setQreg_spawnTmo (t : Team) (r : BitVec 3) (v : Bool) : (t.setQreg r v).spawnTmo = t.spawnTmo := by unfold Team.setQreg; split <;> rfl
@[simp] theorem Team.setQreg_trapVec (t : Team) (r : BitVec 3) (v : Bool) : (t.setQreg r v).trapVec = t.trapVec := by unfold Team.setQreg; split <;> rfl
@[simp] theorem Team.setQreg_trapPc (t : Team) (r : BitVec 3) (v : Bool) : (t.setQreg r v).trapPc = t.trapPc := by unfold Team.setQreg; split <;> rfl
@[simp] theorem Team.setQreg_frame (t : Team) (r : BitVec 3) (v : Bool) : (t.setQreg r v).frame = t.frame := by unfold Team.setQreg; split <;> rfl
@[simp] theorem Team.setQreg_handling (t : Team) (r : BitVec 3) (v : Bool) : (t.setQreg r v).handling = t.handling := by unfold Team.setQreg; split <;> rfl
@[simp] theorem Team.setQreg_handler (t : Team) (r : BitVec 3) (v : Bool) : (t.setQreg r v).handler = t.handler := by unfold Team.setQreg; split <;> rfl
@[simp] theorem Team.setQreg_riderTrap (t : Team) (r : BitVec 3) (v : Bool) : (t.setQreg r v).riderTrap = t.riderTrap := by unfold Team.setQreg; split <;> rfl
@[simp] theorem Team.setQreg_riderKept (t : Team) (r : BitVec 3) (v : Bool) : (t.setQreg r v).riderKept = t.riderKept := by unfold Team.setQreg; split <;> rfl
@[simp] theorem Team.setQreg_teamTrap (t : Team) (r : BitVec 3) (v : Bool) : (t.setQreg r v).teamTrap = t.teamTrap := by unfold Team.setQreg; split <;> rfl
@[simp] theorem Team.setQreg_teamKept (t : Team) (r : BitVec 3) (v : Bool) : (t.setQreg r v).teamKept = t.teamKept := by unfold Team.setQreg; split <;> rfl
@[simp] theorem Team.setQreg_trapAt (t : Team) (r : BitVec 3) (v : Bool) : (t.setQreg r v).trapAt = t.trapAt := by unfold Team.setQreg; split <;> rfl
@[simp] theorem Team.setQreg_mstat (t : Team) (r : BitVec 3) (v : Bool) : (t.setQreg r v).mstat = t.mstat := by unfold Team.setQreg; split <;> rfl
@[simp] theorem Team.setQreg_bars (t : Team) (r : BitVec 3) (v : Bool) : (t.setQreg r v).bars = t.bars := by unfold Team.setQreg; split <;> rfl
@[simp] theorem Team.setQreg_barWaits (t : Team) (r : BitVec 3) (v : Bool) : (t.setQreg r v).barWaits = t.barWaits := by unfold Team.setQreg; split <;> rfl
@[simp] theorem Team.setQreg_scrStart (t : Team) (r : BitVec 3) (v : Bool) : (t.setQreg r v).scrStart = t.scrStart := by unfold Team.setQreg; split <;> rfl
@[simp] theorem Team.setQreg_emptyLines (t : Team) (r : BitVec 3) (v : Bool) : (t.setQreg r v).emptyLines = t.emptyLines := by unfold Team.setQreg; split <;> rfl
@[simp] theorem Team.setQreg_owners (t : Team) (r : BitVec 3) (v : Bool) : (t.setQreg r v).owners = t.owners := by unfold Team.setQreg; split <;> rfl
@[simp] theorem Team.setQreg_accTiles (t : Team) (r : BitVec 3) (v : Bool) : (t.setQreg r v).accTiles = t.accTiles := by unfold Team.setQreg; split <;> rfl
@[simp] theorem Team.setQreg_groups (t : Team) (r : BitVec 3) (v : Bool) : (t.setQreg r v).groups = t.groups := by unfold Team.setQreg; split <;> rfl
@[simp] theorem Team.setQreg_draws (t : Team) (r : BitVec 3) (v : Bool) : (t.setQreg r v).draws = t.draws := by unfold Team.setQreg; split <;> rfl
@[simp] theorem Team.setQreg_sdraw (t : Team) (r : BitVec 3) (v : Bool) : (t.setQreg r v).sdraw = t.sdraw := by unfold Team.setQreg; split <;> rfl
@[simp] theorem Team.setQreg_ops (t : Team) (r : BitVec 3) (v : Bool) : (t.setQreg r v).ops = t.ops := by unfold Team.setQreg; split <;> rfl
@[simp] theorem Team.setQreg_cfences (t : Team) (r : BitVec 3) (v : Bool) : (t.setQreg r v).cfences = t.cfences := by unfold Team.setQreg; split <;> rfl
@[simp] theorem Team.setQreg_clsV (t : Team) (r : BitVec 3) (v : Bool) : (t.setQreg r v).clsV = t.clsV := by unfold Team.setQreg; split <;> rfl
@[simp] theorem Team.setQreg_stale (t : Team) (r : BitVec 3) (v : Bool) : (t.setQreg r v).stale = t.stale := by unfold Team.setQreg; split <;> rfl
@[simp] theorem Team.setQreg_staleAcc (t : Team) (r : BitVec 3) (v : Bool) : (t.setQreg r v).staleAcc = t.staleAcc := by unfold Team.setQreg; split <;> rfl
@[simp] theorem Team.setQreg_riderFence (t : Team) (r : BitVec 3) (v : Bool) : (t.setQreg r v).riderFence = t.riderFence := by unfold Team.setQreg; split <;> rfl
@[simp] theorem Team.setQreg_riderNear (t : Team) (r : BitVec 3) (v : Bool) : (t.setQreg r v).riderNear = t.riderNear := by unfold Team.setQreg; split <;> rfl
@[simp] theorem Team.setQreg_endedV (t : Team) (r : BitVec 3) (v : Bool) : (t.setQreg r v).endedV = t.endedV := by unfold Team.setQreg; split <;> rfl
@[simp] theorem Team.setQreg_gone (t : Team) (r : BitVec 3) (v : Bool) : (t.setQreg r v).gone = t.gone := by unfold Team.setQreg; split <;> rfl
@[simp] theorem Team.setQreg_counts (t : Team) (r : BitVec 3) (v : Bool) : (t.setQreg r v).counts = t.counts := by unfold Team.setQreg; split <;> rfl
@[simp] theorem Team.setQreg_blocked (t : Team) (r : BitVec 3) (v : Bool) : (t.setQreg r v).blocked = t.blocked := by unfold Team.setQreg; split <;> rfl
@[simp] theorem Team.setQreg_leaveReq (t : Team) (r : BitVec 3) (v : Bool) : (t.setQreg r v).leaveReq = t.leaveReq := by unfold Team.setQreg; split <;> rfl
@[simp] theorem Team.setQreg_leaveGot (t : Team) (r : BitVec 3) (v : Bool) : (t.setQreg r v).leaveGot = t.leaveGot := by unfold Team.setQreg; split <;> rfl
@[simp] theorem Team.setQreg_roomWait (t : Team) (r : BitVec 3) (v : Bool) : (t.setQreg r v).roomWait = t.roomWait := by unfold Team.setQreg; split <;> rfl
@[simp] theorem Team.setQreg_leaveAgain (t : Team) (r : BitVec 3) (v : Bool) : (t.setQreg r v).leaveAgain = t.leaveAgain := by unfold Team.setQreg; split <;> rfl
@[simp] theorem Team.setQreg_vmax (t : Team) (r : BitVec 3) (v : Bool) : (t.setQreg r v).vmax = t.vmax := by unfold Team.setQreg; split <;> rfl
@[simp] theorem Team.setQreg_seen (t : Team) (r : BitVec 3) (v : Bool) : (t.setQreg r v).seen = t.seen := by unfold Team.setQreg; split <;> rfl
@[simp] theorem Team.setQreg_retired (t : Team) (r : BitVec 3) (v : Bool) : (t.setQreg r v).retired = t.retired := by unfold Team.setQreg; split <;> rfl
@[simp] theorem Team.setQreg_laneRetired (t : Team) (r : BitVec 3) (v : Bool) : (t.setQreg r v).laneRetired = t.laneRetired := by unfold Team.setQreg; split <;> rfl
@[simp] theorem Team.setQreg_yieldUntil (t : Team) (r : BitVec 3) (v : Bool) : (t.setQreg r v).yieldUntil = t.yieldUntil := by unfold Team.setQreg; split <;> rfl
@[simp] theorem Team.setQreg_idem (t : Team) (r : BitVec 3) (v : Bool) : (t.setQreg r v).idem = t.idem := by unfold Team.setQreg; split <;> rfl
@[simp] theorem Team.setQreg_chkptSeen (t : Team) (r : BitVec 3) (v : Bool) : (t.setQreg r v).chkptSeen = t.chkptSeen := by unfold Team.setQreg; split <;> rfl
@[simp] theorem Team.setQreg_npc (t : Team) (r : BitVec 3) (v : Bool) : (t.setQreg r v).npc = t.npc := by unfold Team.setQreg; split <;> rfl
@[simp] theorem Team.setQreg_ran (t : Team) (r : BitVec 3) (v : Bool) : (t.setQreg r v).ran = t.ran := by unfold Team.setQreg; split <;> rfl
@[simp] theorem Team.setQreg_waited (t : Team) (r : BitVec 3) (v : Bool) : (t.setQreg r v).waited = t.waited := by unfold Team.setQreg; split <;> rfl
@[simp] theorem Team.setQreg_admitted (t : Team) (r : BitVec 3) (v : Bool) : (t.setQreg r v).admitted = t.admitted := by unfold Team.setQreg; split <;> rfl
@[simp] theorem Team.setQreg_scrSize (t : Team) (r : BitVec 3) (v : Bool) : (t.setQreg r v).scrSize = t.scrSize := by unfold Team.setQreg; split <;> rfl
@[simp] theorem Team.setQreg_groupsHeld (t : Team) (r : BitVec 3) (v : Bool) : (t.setQreg r v).groupsHeld = t.groupsHeld := by unfold Team.setQreg; split <;> rfl
@[simp] theorem Team.setQreg_pre (t : Team) (r : BitVec 3) (v : Bool) : (t.setQreg r v).pre = t.pre := by unfold Team.setQreg; split <;> rfl
@[simp] theorem Team.setQreg_retiredKilled (t : Team) (r : BitVec 3) (v : Bool) : (t.setQreg r v).retiredKilled = t.retiredKilled := by unfold Team.setQreg; split <;> rfl

/-! setGroup changes `groups` alone. -/

@[simp] theorem Team.setGroup_serial (t : Team) (g : Nat) (x : Group) : (t.setGroup g x).serial = t.serial := rfl
@[simp] theorem Team.setGroup_core (t : Team) (g : Nat) (x : Group) : (t.setGroup g x).core = t.core := rfl
@[simp] theorem Team.setGroup_ctx (t : Team) (g : Nat) (x : Group) : (t.setGroup g x).ctx = t.ctx := rfl
@[simp] theorem Team.setGroup_launch (t : Team) (g : Nat) (x : Group) : (t.setGroup g x).launch = t.launch := rfl
@[simp] theorem Team.setGroup_teamId (t : Team) (g : Nat) (x : Group) : (t.setGroup g x).teamId = t.teamId := rfl
@[simp] theorem Team.setGroup_part (t : Team) (g : Nat) (x : Group) : (t.setGroup g x).part = t.part := rfl
@[simp] theorem Team.setGroup_express (t : Team) (g : Nat) (x : Group) : (t.setGroup g x).express = t.express := rfl
@[simp] theorem Team.setGroup_reserved (t : Team) (g : Nat) (x : Group) : (t.setGroup g x).reserved = t.reserved := rfl
@[simp] theorem Team.setGroup_desc (t : Team) (g : Nat) (x : Group) : (t.setGroup g x).desc = t.desc := rfl
@[simp] theorem Team.setGroup_root (t : Team) (g : Nat) (x : Group) : (t.setGroup g x).root = t.root := rfl
@[simp] theorem Team.setGroup_st (t : Team) (g : Nat) (x : Group) : (t.setGroup g x).st = t.st := rfl
@[simp] theorem Team.setGroup_succ (t : Team) (g : Nat) (x : Group) : (t.setGroup g x).succ = t.succ := rfl
@[simp] theorem Team.setGroup_exited (t : Team) (g : Nat) (x : Group) : (t.setGroup g x).exited = t.exited := rfl
@[simp] theorem Team.setGroup_killed (t : Team) (g : Nat) (x : Group) : (t.setGroup g x).killed = t.killed := rfl
@[simp] theorem Team.setGroup_s (t : Team) (g : Nat) (x : Group) : (t.setGroup g x).s = t.s := rfl
@[simp] theorem Team.setGroup_q (t : Team) (g : Nat) (x : Group) : (t.setGroup g x).q = t.q := rfl
@[simp] theorem Team.setGroup_pc (t : Team) (g : Nat) (x : Group) : (t.setGroup g x).pc = t.pc := rfl
@[simp] theorem Team.setGroup_reinFmt (t : Team) (g : Nat) (x : Group) : (t.setGroup g x).reinFmt = t.reinFmt := rfl
@[simp] theorem Team.setGroup_rein (t : Team) (g : Nat) (x : Group) : (t.setGroup g x).rein = t.rein := rfl
@[simp] theorem Team.setGroup_reinWas (t : Team) (g : Nat) (x : Group) : (t.setGroup g x).reinWas = t.reinWas := rfl
@[simp] theorem Team.setGroup_spillBase (t : Team) (g : Nat) (x : Group) : (t.setGroup g x).spillBase = t.spillBase := rfl
@[simp] theorem Team.setGroup_spawnTmo (t : Team) (g : Nat) (x : Group) : (t.setGroup g x).spawnTmo = t.spawnTmo := rfl
@[simp] theorem Team.setGroup_trapVec (t : Team) (g : Nat) (x : Group) : (t.setGroup g x).trapVec = t.trapVec := rfl
@[simp] theorem Team.setGroup_trapPc (t : Team) (g : Nat) (x : Group) : (t.setGroup g x).trapPc = t.trapPc := rfl
@[simp] theorem Team.setGroup_frame (t : Team) (g : Nat) (x : Group) : (t.setGroup g x).frame = t.frame := rfl
@[simp] theorem Team.setGroup_handling (t : Team) (g : Nat) (x : Group) : (t.setGroup g x).handling = t.handling := rfl
@[simp] theorem Team.setGroup_handler (t : Team) (g : Nat) (x : Group) : (t.setGroup g x).handler = t.handler := rfl
@[simp] theorem Team.setGroup_riderTrap (t : Team) (g : Nat) (x : Group) : (t.setGroup g x).riderTrap = t.riderTrap := rfl
@[simp] theorem Team.setGroup_riderKept (t : Team) (g : Nat) (x : Group) : (t.setGroup g x).riderKept = t.riderKept := rfl
@[simp] theorem Team.setGroup_teamTrap (t : Team) (g : Nat) (x : Group) : (t.setGroup g x).teamTrap = t.teamTrap := rfl
@[simp] theorem Team.setGroup_teamKept (t : Team) (g : Nat) (x : Group) : (t.setGroup g x).teamKept = t.teamKept := rfl
@[simp] theorem Team.setGroup_trapAt (t : Team) (g : Nat) (x : Group) : (t.setGroup g x).trapAt = t.trapAt := rfl
@[simp] theorem Team.setGroup_mstat (t : Team) (g : Nat) (x : Group) : (t.setGroup g x).mstat = t.mstat := rfl
@[simp] theorem Team.setGroup_bars (t : Team) (g : Nat) (x : Group) : (t.setGroup g x).bars = t.bars := rfl
@[simp] theorem Team.setGroup_barWaits (t : Team) (g : Nat) (x : Group) : (t.setGroup g x).barWaits = t.barWaits := rfl
@[simp] theorem Team.setGroup_scrStart (t : Team) (g : Nat) (x : Group) : (t.setGroup g x).scrStart = t.scrStart := rfl
@[simp] theorem Team.setGroup_emptyLines (t : Team) (g : Nat) (x : Group) : (t.setGroup g x).emptyLines = t.emptyLines := rfl
@[simp] theorem Team.setGroup_owners (t : Team) (g : Nat) (x : Group) : (t.setGroup g x).owners = t.owners := rfl
@[simp] theorem Team.setGroup_accTiles (t : Team) (g : Nat) (x : Group) : (t.setGroup g x).accTiles = t.accTiles := rfl
@[simp] theorem Team.setGroup_draws (t : Team) (g : Nat) (x : Group) : (t.setGroup g x).draws = t.draws := rfl
@[simp] theorem Team.setGroup_sdraw (t : Team) (g : Nat) (x : Group) : (t.setGroup g x).sdraw = t.sdraw := rfl
@[simp] theorem Team.setGroup_ops (t : Team) (g : Nat) (x : Group) : (t.setGroup g x).ops = t.ops := rfl
@[simp] theorem Team.setGroup_cfences (t : Team) (g : Nat) (x : Group) : (t.setGroup g x).cfences = t.cfences := rfl
@[simp] theorem Team.setGroup_clsV (t : Team) (g : Nat) (x : Group) : (t.setGroup g x).clsV = t.clsV := rfl
@[simp] theorem Team.setGroup_stale (t : Team) (g : Nat) (x : Group) : (t.setGroup g x).stale = t.stale := rfl
@[simp] theorem Team.setGroup_staleAcc (t : Team) (g : Nat) (x : Group) : (t.setGroup g x).staleAcc = t.staleAcc := rfl
@[simp] theorem Team.setGroup_riderFence (t : Team) (g : Nat) (x : Group) : (t.setGroup g x).riderFence = t.riderFence := rfl
@[simp] theorem Team.setGroup_riderNear (t : Team) (g : Nat) (x : Group) : (t.setGroup g x).riderNear = t.riderNear := rfl
@[simp] theorem Team.setGroup_endedV (t : Team) (g : Nat) (x : Group) : (t.setGroup g x).endedV = t.endedV := rfl
@[simp] theorem Team.setGroup_gone (t : Team) (g : Nat) (x : Group) : (t.setGroup g x).gone = t.gone := rfl
@[simp] theorem Team.setGroup_counts (t : Team) (g : Nat) (x : Group) : (t.setGroup g x).counts = t.counts := rfl
@[simp] theorem Team.setGroup_blocked (t : Team) (g : Nat) (x : Group) : (t.setGroup g x).blocked = t.blocked := rfl
@[simp] theorem Team.setGroup_leaveReq (t : Team) (g : Nat) (x : Group) : (t.setGroup g x).leaveReq = t.leaveReq := rfl
@[simp] theorem Team.setGroup_leaveGot (t : Team) (g : Nat) (x : Group) : (t.setGroup g x).leaveGot = t.leaveGot := rfl
@[simp] theorem Team.setGroup_roomWait (t : Team) (g : Nat) (x : Group) : (t.setGroup g x).roomWait = t.roomWait := rfl
@[simp] theorem Team.setGroup_leaveAgain (t : Team) (g : Nat) (x : Group) : (t.setGroup g x).leaveAgain = t.leaveAgain := rfl
@[simp] theorem Team.setGroup_vmax (t : Team) (g : Nat) (x : Group) : (t.setGroup g x).vmax = t.vmax := rfl
@[simp] theorem Team.setGroup_seen (t : Team) (g : Nat) (x : Group) : (t.setGroup g x).seen = t.seen := rfl
@[simp] theorem Team.setGroup_retired (t : Team) (g : Nat) (x : Group) : (t.setGroup g x).retired = t.retired := rfl
@[simp] theorem Team.setGroup_laneRetired (t : Team) (g : Nat) (x : Group) : (t.setGroup g x).laneRetired = t.laneRetired := rfl
@[simp] theorem Team.setGroup_yieldUntil (t : Team) (g : Nat) (x : Group) : (t.setGroup g x).yieldUntil = t.yieldUntil := rfl
@[simp] theorem Team.setGroup_idem (t : Team) (g : Nat) (x : Group) : (t.setGroup g x).idem = t.idem := rfl
@[simp] theorem Team.setGroup_chkptSeen (t : Team) (g : Nat) (x : Group) : (t.setGroup g x).chkptSeen = t.chkptSeen := rfl
@[simp] theorem Team.setGroup_npc (t : Team) (g : Nat) (x : Group) : (t.setGroup g x).npc = t.npc := rfl
@[simp] theorem Team.setGroup_ran (t : Team) (g : Nat) (x : Group) : (t.setGroup g x).ran = t.ran := rfl
@[simp] theorem Team.setGroup_waited (t : Team) (g : Nat) (x : Group) : (t.setGroup g x).waited = t.waited := rfl
@[simp] theorem Team.setGroup_admitted (t : Team) (g : Nat) (x : Group) : (t.setGroup g x).admitted = t.admitted := rfl
@[simp] theorem Team.setGroup_scrSize (t : Team) (g : Nat) (x : Group) : (t.setGroup g x).scrSize = t.scrSize := rfl
@[simp] theorem Team.setGroup_groupsHeld (t : Team) (g : Nat) (x : Group) : (t.setGroup g x).groupsHeld = t.groupsHeld := rfl
@[simp] theorem Team.setGroup_pre (t : Team) (g : Nat) (x : Group) : (t.setGroup g x).pre = t.pre := rfl
@[simp] theorem Team.setGroup_retiredKilled (t : Team) (g : Nat) (x : Group) : (t.setGroup g x).retiredKilled = t.retiredKilled := rfl

/-! modGroup changes `groups` alone. -/

@[simp] theorem Team.modGroup_serial (t : Team) (g : Nat) (f : Group → Group) : (t.modGroup g f).serial = t.serial := rfl
@[simp] theorem Team.modGroup_core (t : Team) (g : Nat) (f : Group → Group) : (t.modGroup g f).core = t.core := rfl
@[simp] theorem Team.modGroup_ctx (t : Team) (g : Nat) (f : Group → Group) : (t.modGroup g f).ctx = t.ctx := rfl
@[simp] theorem Team.modGroup_launch (t : Team) (g : Nat) (f : Group → Group) : (t.modGroup g f).launch = t.launch := rfl
@[simp] theorem Team.modGroup_teamId (t : Team) (g : Nat) (f : Group → Group) : (t.modGroup g f).teamId = t.teamId := rfl
@[simp] theorem Team.modGroup_part (t : Team) (g : Nat) (f : Group → Group) : (t.modGroup g f).part = t.part := rfl
@[simp] theorem Team.modGroup_express (t : Team) (g : Nat) (f : Group → Group) : (t.modGroup g f).express = t.express := rfl
@[simp] theorem Team.modGroup_reserved (t : Team) (g : Nat) (f : Group → Group) : (t.modGroup g f).reserved = t.reserved := rfl
@[simp] theorem Team.modGroup_desc (t : Team) (g : Nat) (f : Group → Group) : (t.modGroup g f).desc = t.desc := rfl
@[simp] theorem Team.modGroup_root (t : Team) (g : Nat) (f : Group → Group) : (t.modGroup g f).root = t.root := rfl
@[simp] theorem Team.modGroup_st (t : Team) (g : Nat) (f : Group → Group) : (t.modGroup g f).st = t.st := rfl
@[simp] theorem Team.modGroup_succ (t : Team) (g : Nat) (f : Group → Group) : (t.modGroup g f).succ = t.succ := rfl
@[simp] theorem Team.modGroup_exited (t : Team) (g : Nat) (f : Group → Group) : (t.modGroup g f).exited = t.exited := rfl
@[simp] theorem Team.modGroup_killed (t : Team) (g : Nat) (f : Group → Group) : (t.modGroup g f).killed = t.killed := rfl
@[simp] theorem Team.modGroup_s (t : Team) (g : Nat) (f : Group → Group) : (t.modGroup g f).s = t.s := rfl
@[simp] theorem Team.modGroup_q (t : Team) (g : Nat) (f : Group → Group) : (t.modGroup g f).q = t.q := rfl
@[simp] theorem Team.modGroup_pc (t : Team) (g : Nat) (f : Group → Group) : (t.modGroup g f).pc = t.pc := rfl
@[simp] theorem Team.modGroup_reinFmt (t : Team) (g : Nat) (f : Group → Group) : (t.modGroup g f).reinFmt = t.reinFmt := rfl
@[simp] theorem Team.modGroup_rein (t : Team) (g : Nat) (f : Group → Group) : (t.modGroup g f).rein = t.rein := rfl
@[simp] theorem Team.modGroup_reinWas (t : Team) (g : Nat) (f : Group → Group) : (t.modGroup g f).reinWas = t.reinWas := rfl
@[simp] theorem Team.modGroup_spillBase (t : Team) (g : Nat) (f : Group → Group) : (t.modGroup g f).spillBase = t.spillBase := rfl
@[simp] theorem Team.modGroup_spawnTmo (t : Team) (g : Nat) (f : Group → Group) : (t.modGroup g f).spawnTmo = t.spawnTmo := rfl
@[simp] theorem Team.modGroup_trapVec (t : Team) (g : Nat) (f : Group → Group) : (t.modGroup g f).trapVec = t.trapVec := rfl
@[simp] theorem Team.modGroup_trapPc (t : Team) (g : Nat) (f : Group → Group) : (t.modGroup g f).trapPc = t.trapPc := rfl
@[simp] theorem Team.modGroup_frame (t : Team) (g : Nat) (f : Group → Group) : (t.modGroup g f).frame = t.frame := rfl
@[simp] theorem Team.modGroup_handling (t : Team) (g : Nat) (f : Group → Group) : (t.modGroup g f).handling = t.handling := rfl
@[simp] theorem Team.modGroup_handler (t : Team) (g : Nat) (f : Group → Group) : (t.modGroup g f).handler = t.handler := rfl
@[simp] theorem Team.modGroup_riderTrap (t : Team) (g : Nat) (f : Group → Group) : (t.modGroup g f).riderTrap = t.riderTrap := rfl
@[simp] theorem Team.modGroup_riderKept (t : Team) (g : Nat) (f : Group → Group) : (t.modGroup g f).riderKept = t.riderKept := rfl
@[simp] theorem Team.modGroup_teamTrap (t : Team) (g : Nat) (f : Group → Group) : (t.modGroup g f).teamTrap = t.teamTrap := rfl
@[simp] theorem Team.modGroup_teamKept (t : Team) (g : Nat) (f : Group → Group) : (t.modGroup g f).teamKept = t.teamKept := rfl
@[simp] theorem Team.modGroup_trapAt (t : Team) (g : Nat) (f : Group → Group) : (t.modGroup g f).trapAt = t.trapAt := rfl
@[simp] theorem Team.modGroup_mstat (t : Team) (g : Nat) (f : Group → Group) : (t.modGroup g f).mstat = t.mstat := rfl
@[simp] theorem Team.modGroup_bars (t : Team) (g : Nat) (f : Group → Group) : (t.modGroup g f).bars = t.bars := rfl
@[simp] theorem Team.modGroup_barWaits (t : Team) (g : Nat) (f : Group → Group) : (t.modGroup g f).barWaits = t.barWaits := rfl
@[simp] theorem Team.modGroup_scrStart (t : Team) (g : Nat) (f : Group → Group) : (t.modGroup g f).scrStart = t.scrStart := rfl
@[simp] theorem Team.modGroup_emptyLines (t : Team) (g : Nat) (f : Group → Group) : (t.modGroup g f).emptyLines = t.emptyLines := rfl
@[simp] theorem Team.modGroup_owners (t : Team) (g : Nat) (f : Group → Group) : (t.modGroup g f).owners = t.owners := rfl
@[simp] theorem Team.modGroup_accTiles (t : Team) (g : Nat) (f : Group → Group) : (t.modGroup g f).accTiles = t.accTiles := rfl
@[simp] theorem Team.modGroup_draws (t : Team) (g : Nat) (f : Group → Group) : (t.modGroup g f).draws = t.draws := rfl
@[simp] theorem Team.modGroup_sdraw (t : Team) (g : Nat) (f : Group → Group) : (t.modGroup g f).sdraw = t.sdraw := rfl
@[simp] theorem Team.modGroup_ops (t : Team) (g : Nat) (f : Group → Group) : (t.modGroup g f).ops = t.ops := rfl
@[simp] theorem Team.modGroup_cfences (t : Team) (g : Nat) (f : Group → Group) : (t.modGroup g f).cfences = t.cfences := rfl
@[simp] theorem Team.modGroup_clsV (t : Team) (g : Nat) (f : Group → Group) : (t.modGroup g f).clsV = t.clsV := rfl
@[simp] theorem Team.modGroup_stale (t : Team) (g : Nat) (f : Group → Group) : (t.modGroup g f).stale = t.stale := rfl
@[simp] theorem Team.modGroup_staleAcc (t : Team) (g : Nat) (f : Group → Group) : (t.modGroup g f).staleAcc = t.staleAcc := rfl
@[simp] theorem Team.modGroup_riderFence (t : Team) (g : Nat) (f : Group → Group) : (t.modGroup g f).riderFence = t.riderFence := rfl
@[simp] theorem Team.modGroup_riderNear (t : Team) (g : Nat) (f : Group → Group) : (t.modGroup g f).riderNear = t.riderNear := rfl
@[simp] theorem Team.modGroup_endedV (t : Team) (g : Nat) (f : Group → Group) : (t.modGroup g f).endedV = t.endedV := rfl
@[simp] theorem Team.modGroup_gone (t : Team) (g : Nat) (f : Group → Group) : (t.modGroup g f).gone = t.gone := rfl
@[simp] theorem Team.modGroup_counts (t : Team) (g : Nat) (f : Group → Group) : (t.modGroup g f).counts = t.counts := rfl
@[simp] theorem Team.modGroup_blocked (t : Team) (g : Nat) (f : Group → Group) : (t.modGroup g f).blocked = t.blocked := rfl
@[simp] theorem Team.modGroup_leaveReq (t : Team) (g : Nat) (f : Group → Group) : (t.modGroup g f).leaveReq = t.leaveReq := rfl
@[simp] theorem Team.modGroup_leaveGot (t : Team) (g : Nat) (f : Group → Group) : (t.modGroup g f).leaveGot = t.leaveGot := rfl
@[simp] theorem Team.modGroup_roomWait (t : Team) (g : Nat) (f : Group → Group) : (t.modGroup g f).roomWait = t.roomWait := rfl
@[simp] theorem Team.modGroup_leaveAgain (t : Team) (g : Nat) (f : Group → Group) : (t.modGroup g f).leaveAgain = t.leaveAgain := rfl
@[simp] theorem Team.modGroup_vmax (t : Team) (g : Nat) (f : Group → Group) : (t.modGroup g f).vmax = t.vmax := rfl
@[simp] theorem Team.modGroup_seen (t : Team) (g : Nat) (f : Group → Group) : (t.modGroup g f).seen = t.seen := rfl
@[simp] theorem Team.modGroup_retired (t : Team) (g : Nat) (f : Group → Group) : (t.modGroup g f).retired = t.retired := rfl
@[simp] theorem Team.modGroup_laneRetired (t : Team) (g : Nat) (f : Group → Group) : (t.modGroup g f).laneRetired = t.laneRetired := rfl
@[simp] theorem Team.modGroup_yieldUntil (t : Team) (g : Nat) (f : Group → Group) : (t.modGroup g f).yieldUntil = t.yieldUntil := rfl
@[simp] theorem Team.modGroup_idem (t : Team) (g : Nat) (f : Group → Group) : (t.modGroup g f).idem = t.idem := rfl
@[simp] theorem Team.modGroup_chkptSeen (t : Team) (g : Nat) (f : Group → Group) : (t.modGroup g f).chkptSeen = t.chkptSeen := rfl
@[simp] theorem Team.modGroup_npc (t : Team) (g : Nat) (f : Group → Group) : (t.modGroup g f).npc = t.npc := rfl
@[simp] theorem Team.modGroup_ran (t : Team) (g : Nat) (f : Group → Group) : (t.modGroup g f).ran = t.ran := rfl
@[simp] theorem Team.modGroup_waited (t : Team) (g : Nat) (f : Group → Group) : (t.modGroup g f).waited = t.waited := rfl
@[simp] theorem Team.modGroup_admitted (t : Team) (g : Nat) (f : Group → Group) : (t.modGroup g f).admitted = t.admitted := rfl
@[simp] theorem Team.modGroup_scrSize (t : Team) (g : Nat) (f : Group → Group) : (t.modGroup g f).scrSize = t.scrSize := rfl
@[simp] theorem Team.modGroup_groupsHeld (t : Team) (g : Nat) (f : Group → Group) : (t.modGroup g f).groupsHeld = t.groupsHeld := rfl
@[simp] theorem Team.modGroup_pre (t : Team) (g : Nat) (f : Group → Group) : (t.modGroup g f).pre = t.pre := rfl
@[simp] theorem Team.modGroup_retiredKilled (t : Team) (g : Nat) (f : Group → Group) : (t.modGroup g f).retiredKilled = t.retiredKilled := rfl

/-! setVreg changes `v` alone. -/

@[simp] theorem Group.setVreg_spawned (x : Group) (n l : Nat) (w : U32) : (x.setVreg n l w).spawned = x.spawned := rfl
@[simp] theorem Group.setVreg_slot (x : Group) (n l : Nat) (w : U32) : (x.setVreg n l w).slot = x.slot := rfl
@[simp] theorem Group.setVreg_bay (x : Group) (n l : Nat) (w : U32) : (x.setVreg n l w).bay = x.bay := rfl
@[simp] theorem Group.setVreg_base (x : Group) (n l : Nat) (w : U32) : (x.setVreg n l w).base = x.base := rfl
@[simp] theorem Group.setVreg_units (x : Group) (n l : Nat) (w : U32) : (x.setVreg n l w).units = x.units := rfl
@[simp] theorem Group.setVreg_old (x : Group) (n l : Nat) (w : U32) : (x.setVreg n l w).old = x.old := rfl
@[simp] theorem Group.setVreg_p (x : Group) (n l : Nat) (w : U32) : (x.setVreg n l w).p = x.p := rfl
@[simp] theorem Group.setVreg_full (x : Group) (n l : Nat) (w : U32) : (x.setVreg n l w).full = x.full := rfl
@[simp] theorem Group.setVreg_flg (x : Group) (n l : Nat) (w : U32) : (x.setVreg n l w).flg = x.flg := rfl
@[simp] theorem Group.setVreg_raised (x : Group) (n l : Nat) (w : U32) : (x.setVreg n l w).raised = x.raised := rfl
@[simp] theorem Group.setVreg_landed (x : Group) (n l : Nat) (w : U32) : (x.setVreg n l w).landed = x.landed := rfl
@[simp] theorem Group.setVreg_live (x : Group) (n l : Nat) (w : U32) : (x.setVreg n l w).live = x.live := rfl
@[simp] theorem Group.setVreg_was (x : Group) (n l : Nat) (w : U32) : (x.setVreg n l w).was = x.was := rfl
@[simp] theorem Group.setVreg_atEnd (x : Group) (n l : Nat) (w : U32) : (x.setVreg n l w).atEnd = x.atEnd := rfl
@[simp] theorem Group.setVreg_splits (x : Group) (n l : Nat) (w : U32) : (x.setVreg n l w).splits = x.splits := rfl
@[simp] theorem Group.setVreg_frames (x : Group) (n l : Nat) (w : U32) : (x.setVreg n l w).frames = x.frames := rfl
@[simp] theorem Group.setVreg_spilled (x : Group) (n l : Nat) (w : U32) : (x.setVreg n l w).spilled = x.spilled := rfl
@[simp] theorem Group.setVreg_spilledRpc (x : Group) (n l : Nat) (w : U32) : (x.setVreg n l w).spilledRpc = x.spilledRpc := rfl
@[simp] theorem Group.setVreg_stkErr (x : Group) (n l : Nat) (w : U32) : (x.setVreg n l w).stkErr = x.stkErr := rfl
@[simp] theorem Group.setVreg_nc (x : Group) (n l : Nat) (w : U32) : (x.setVreg n l w).nc = x.nc := rfl
@[simp] theorem Group.setVreg_rein (x : Group) (n l : Nat) (w : U32) : (x.setVreg n l w).rein = x.rein := rfl
@[simp] theorem Group.setVreg_fbase (x : Group) (n l : Nat) (w : U32) : (x.setVreg n l w).fbase = x.fbase := rfl
@[simp] theorem Group.setVreg_vmax (x : Group) (n l : Nat) (w : U32) : (x.setVreg n l w).vmax = x.vmax := rfl
@[simp] theorem Group.setVreg_seen (x : Group) (n l : Nat) (w : U32) : (x.setVreg n l w).seen = x.seen := rfl
@[simp] theorem Group.setVreg_retired (x : Group) (n l : Nat) (w : U32) : (x.setVreg n l w).retired = x.retired := rfl
@[simp] theorem Group.setVreg_icnt (x : Group) (n l : Nat) (w : U32) : (x.setVreg n l w).icnt = x.icnt := rfl
@[simp] theorem Group.setVreg_traps (x : Group) (n l : Nat) (w : U32) : (x.setVreg n l w).traps = x.traps := rfl
@[simp] theorem Group.setVreg_halted (x : Group) (n l : Nat) (w : U32) : (x.setVreg n l w).halted = x.halted := rfl
@[simp] theorem Group.setVreg_chosen (x : Group) (n l : Nat) (w : U32) : (x.setVreg n l w).chosen = x.chosen := rfl
@[simp] theorem Group.setVreg_tried (x : Group) (n l : Nat) (w : U32) : (x.setVreg n l w).tried = x.tried := rfl
@[simp] theorem Group.setVreg_refused (x : Group) (n l : Nat) (w : U32) : (x.setVreg n l w).refused = x.refused := rfl
@[simp] theorem Group.setVreg_passed (x : Group) (n l : Nat) (w : U32) : (x.setVreg n l w).passed = x.passed := rfl
@[simp] theorem Group.setVreg_begun (x : Group) (n l : Nat) (w : U32) : (x.setVreg n l w).begun = x.begun := rfl
@[simp] theorem Group.setVreg_first (x : Group) (n l : Nat) (w : U32) : (x.setVreg n l w).first = x.first := rfl
@[simp] theorem Group.setVreg_unissued (x : Group) (n l : Nat) (w : U32) : (x.setVreg n l w).unissued = x.unissued := rfl
@[simp] theorem Group.setVreg_missed (x : Group) (n l : Nat) (w : U32) : (x.setVreg n l w).missed = x.missed := rfl
@[simp] theorem Group.setVreg_fences (x : Group) (n l : Nat) (w : U32) : (x.setVreg n l w).fences = x.fences := rfl
@[simp] theorem Group.setVreg_nearFences (x : Group) (n l : Nat) (w : U32) : (x.setVreg n l w).nearFences = x.nearFences := rfl
@[simp] theorem Group.setVreg_stalls (x : Group) (n l : Nat) (w : U32) : (x.setVreg n l w).stalls = x.stalls := rfl
@[simp] theorem Group.setVreg_ended (x : Group) (n l : Nat) (w : U32) : (x.setVreg n l w).ended = x.ended := rfl
@[simp] theorem Group.setVreg_placed (x : Group) (n l : Nat) (w : U32) : (x.setVreg n l w).placed = x.placed := rfl

/-! setPreg changes `p` alone. -/

@[simp] theorem Group.setPreg_spawned (x : Group) (n l : Nat) (b : Bool) : (x.setPreg n l b).spawned = x.spawned := by unfold Group.setPreg; split <;> rfl
@[simp] theorem Group.setPreg_slot (x : Group) (n l : Nat) (b : Bool) : (x.setPreg n l b).slot = x.slot := by unfold Group.setPreg; split <;> rfl
@[simp] theorem Group.setPreg_bay (x : Group) (n l : Nat) (b : Bool) : (x.setPreg n l b).bay = x.bay := by unfold Group.setPreg; split <;> rfl
@[simp] theorem Group.setPreg_base (x : Group) (n l : Nat) (b : Bool) : (x.setPreg n l b).base = x.base := by unfold Group.setPreg; split <;> rfl
@[simp] theorem Group.setPreg_units (x : Group) (n l : Nat) (b : Bool) : (x.setPreg n l b).units = x.units := by unfold Group.setPreg; split <;> rfl
@[simp] theorem Group.setPreg_old (x : Group) (n l : Nat) (b : Bool) : (x.setPreg n l b).old = x.old := by unfold Group.setPreg; split <;> rfl
@[simp] theorem Group.setPreg_v (x : Group) (n l : Nat) (b : Bool) : (x.setPreg n l b).v = x.v := by unfold Group.setPreg; split <;> rfl
@[simp] theorem Group.setPreg_full (x : Group) (n l : Nat) (b : Bool) : (x.setPreg n l b).full = x.full := by unfold Group.setPreg; split <;> rfl
@[simp] theorem Group.setPreg_flg (x : Group) (n l : Nat) (b : Bool) : (x.setPreg n l b).flg = x.flg := by unfold Group.setPreg; split <;> rfl
@[simp] theorem Group.setPreg_raised (x : Group) (n l : Nat) (b : Bool) : (x.setPreg n l b).raised = x.raised := by unfold Group.setPreg; split <;> rfl
@[simp] theorem Group.setPreg_landed (x : Group) (n l : Nat) (b : Bool) : (x.setPreg n l b).landed = x.landed := by unfold Group.setPreg; split <;> rfl
@[simp] theorem Group.setPreg_live (x : Group) (n l : Nat) (b : Bool) : (x.setPreg n l b).live = x.live := by unfold Group.setPreg; split <;> rfl
@[simp] theorem Group.setPreg_was (x : Group) (n l : Nat) (b : Bool) : (x.setPreg n l b).was = x.was := by unfold Group.setPreg; split <;> rfl
@[simp] theorem Group.setPreg_atEnd (x : Group) (n l : Nat) (b : Bool) : (x.setPreg n l b).atEnd = x.atEnd := by unfold Group.setPreg; split <;> rfl
@[simp] theorem Group.setPreg_splits (x : Group) (n l : Nat) (b : Bool) : (x.setPreg n l b).splits = x.splits := by unfold Group.setPreg; split <;> rfl
@[simp] theorem Group.setPreg_frames (x : Group) (n l : Nat) (b : Bool) : (x.setPreg n l b).frames = x.frames := by unfold Group.setPreg; split <;> rfl
@[simp] theorem Group.setPreg_spilled (x : Group) (n l : Nat) (b : Bool) : (x.setPreg n l b).spilled = x.spilled := by unfold Group.setPreg; split <;> rfl
@[simp] theorem Group.setPreg_spilledRpc (x : Group) (n l : Nat) (b : Bool) : (x.setPreg n l b).spilledRpc = x.spilledRpc := by unfold Group.setPreg; split <;> rfl
@[simp] theorem Group.setPreg_stkErr (x : Group) (n l : Nat) (b : Bool) : (x.setPreg n l b).stkErr = x.stkErr := by unfold Group.setPreg; split <;> rfl
@[simp] theorem Group.setPreg_nc (x : Group) (n l : Nat) (b : Bool) : (x.setPreg n l b).nc = x.nc := by unfold Group.setPreg; split <;> rfl
@[simp] theorem Group.setPreg_rein (x : Group) (n l : Nat) (b : Bool) : (x.setPreg n l b).rein = x.rein := by unfold Group.setPreg; split <;> rfl
@[simp] theorem Group.setPreg_fbase (x : Group) (n l : Nat) (b : Bool) : (x.setPreg n l b).fbase = x.fbase := by unfold Group.setPreg; split <;> rfl
@[simp] theorem Group.setPreg_vmax (x : Group) (n l : Nat) (b : Bool) : (x.setPreg n l b).vmax = x.vmax := by unfold Group.setPreg; split <;> rfl
@[simp] theorem Group.setPreg_seen (x : Group) (n l : Nat) (b : Bool) : (x.setPreg n l b).seen = x.seen := by unfold Group.setPreg; split <;> rfl
@[simp] theorem Group.setPreg_retired (x : Group) (n l : Nat) (b : Bool) : (x.setPreg n l b).retired = x.retired := by unfold Group.setPreg; split <;> rfl
@[simp] theorem Group.setPreg_icnt (x : Group) (n l : Nat) (b : Bool) : (x.setPreg n l b).icnt = x.icnt := by unfold Group.setPreg; split <;> rfl
@[simp] theorem Group.setPreg_traps (x : Group) (n l : Nat) (b : Bool) : (x.setPreg n l b).traps = x.traps := by unfold Group.setPreg; split <;> rfl
@[simp] theorem Group.setPreg_halted (x : Group) (n l : Nat) (b : Bool) : (x.setPreg n l b).halted = x.halted := by unfold Group.setPreg; split <;> rfl
@[simp] theorem Group.setPreg_chosen (x : Group) (n l : Nat) (b : Bool) : (x.setPreg n l b).chosen = x.chosen := by unfold Group.setPreg; split <;> rfl
@[simp] theorem Group.setPreg_tried (x : Group) (n l : Nat) (b : Bool) : (x.setPreg n l b).tried = x.tried := by unfold Group.setPreg; split <;> rfl
@[simp] theorem Group.setPreg_refused (x : Group) (n l : Nat) (b : Bool) : (x.setPreg n l b).refused = x.refused := by unfold Group.setPreg; split <;> rfl
@[simp] theorem Group.setPreg_passed (x : Group) (n l : Nat) (b : Bool) : (x.setPreg n l b).passed = x.passed := by unfold Group.setPreg; split <;> rfl
@[simp] theorem Group.setPreg_begun (x : Group) (n l : Nat) (b : Bool) : (x.setPreg n l b).begun = x.begun := by unfold Group.setPreg; split <;> rfl
@[simp] theorem Group.setPreg_first (x : Group) (n l : Nat) (b : Bool) : (x.setPreg n l b).first = x.first := by unfold Group.setPreg; split <;> rfl
@[simp] theorem Group.setPreg_unissued (x : Group) (n l : Nat) (b : Bool) : (x.setPreg n l b).unissued = x.unissued := by unfold Group.setPreg; split <;> rfl
@[simp] theorem Group.setPreg_missed (x : Group) (n l : Nat) (b : Bool) : (x.setPreg n l b).missed = x.missed := by unfold Group.setPreg; split <;> rfl
@[simp] theorem Group.setPreg_fences (x : Group) (n l : Nat) (b : Bool) : (x.setPreg n l b).fences = x.fences := by unfold Group.setPreg; split <;> rfl
@[simp] theorem Group.setPreg_nearFences (x : Group) (n l : Nat) (b : Bool) : (x.setPreg n l b).nearFences = x.nearFences := by unfold Group.setPreg; split <;> rfl
@[simp] theorem Group.setPreg_stalls (x : Group) (n l : Nat) (b : Bool) : (x.setPreg n l b).stalls = x.stalls := by unfold Group.setPreg; split <;> rfl
@[simp] theorem Group.setPreg_ended (x : Group) (n l : Nat) (b : Bool) : (x.setPreg n l b).ended = x.ended := by unfold Group.setPreg; split <;> rfl
@[simp] theorem Group.setPreg_placed (x : Group) (n l : Nat) (b : Bool) : (x.setPreg n l b).placed = x.placed := by unfold Group.setPreg; split <;> rfl

/-! modSplit changes `splits` alone. -/

@[simp] theorem Group.modSplit_spawned (x : Group) (k : Nat) (f : Split → Split) : (x.modSplit k f).spawned = x.spawned := rfl
@[simp] theorem Group.modSplit_slot (x : Group) (k : Nat) (f : Split → Split) : (x.modSplit k f).slot = x.slot := rfl
@[simp] theorem Group.modSplit_bay (x : Group) (k : Nat) (f : Split → Split) : (x.modSplit k f).bay = x.bay := rfl
@[simp] theorem Group.modSplit_base (x : Group) (k : Nat) (f : Split → Split) : (x.modSplit k f).base = x.base := rfl
@[simp] theorem Group.modSplit_units (x : Group) (k : Nat) (f : Split → Split) : (x.modSplit k f).units = x.units := rfl
@[simp] theorem Group.modSplit_old (x : Group) (k : Nat) (f : Split → Split) : (x.modSplit k f).old = x.old := rfl
@[simp] theorem Group.modSplit_v (x : Group) (k : Nat) (f : Split → Split) : (x.modSplit k f).v = x.v := rfl
@[simp] theorem Group.modSplit_p (x : Group) (k : Nat) (f : Split → Split) : (x.modSplit k f).p = x.p := rfl
@[simp] theorem Group.modSplit_full (x : Group) (k : Nat) (f : Split → Split) : (x.modSplit k f).full = x.full := rfl
@[simp] theorem Group.modSplit_flg (x : Group) (k : Nat) (f : Split → Split) : (x.modSplit k f).flg = x.flg := rfl
@[simp] theorem Group.modSplit_raised (x : Group) (k : Nat) (f : Split → Split) : (x.modSplit k f).raised = x.raised := rfl
@[simp] theorem Group.modSplit_landed (x : Group) (k : Nat) (f : Split → Split) : (x.modSplit k f).landed = x.landed := rfl
@[simp] theorem Group.modSplit_live (x : Group) (k : Nat) (f : Split → Split) : (x.modSplit k f).live = x.live := rfl
@[simp] theorem Group.modSplit_was (x : Group) (k : Nat) (f : Split → Split) : (x.modSplit k f).was = x.was := rfl
@[simp] theorem Group.modSplit_atEnd (x : Group) (k : Nat) (f : Split → Split) : (x.modSplit k f).atEnd = x.atEnd := rfl
@[simp] theorem Group.modSplit_frames (x : Group) (k : Nat) (f : Split → Split) : (x.modSplit k f).frames = x.frames := rfl
@[simp] theorem Group.modSplit_spilled (x : Group) (k : Nat) (f : Split → Split) : (x.modSplit k f).spilled = x.spilled := rfl
@[simp] theorem Group.modSplit_spilledRpc (x : Group) (k : Nat) (f : Split → Split) : (x.modSplit k f).spilledRpc = x.spilledRpc := rfl
@[simp] theorem Group.modSplit_stkErr (x : Group) (k : Nat) (f : Split → Split) : (x.modSplit k f).stkErr = x.stkErr := rfl
@[simp] theorem Group.modSplit_nc (x : Group) (k : Nat) (f : Split → Split) : (x.modSplit k f).nc = x.nc := rfl
@[simp] theorem Group.modSplit_rein (x : Group) (k : Nat) (f : Split → Split) : (x.modSplit k f).rein = x.rein := rfl
@[simp] theorem Group.modSplit_fbase (x : Group) (k : Nat) (f : Split → Split) : (x.modSplit k f).fbase = x.fbase := rfl
@[simp] theorem Group.modSplit_vmax (x : Group) (k : Nat) (f : Split → Split) : (x.modSplit k f).vmax = x.vmax := rfl
@[simp] theorem Group.modSplit_seen (x : Group) (k : Nat) (f : Split → Split) : (x.modSplit k f).seen = x.seen := rfl
@[simp] theorem Group.modSplit_retired (x : Group) (k : Nat) (f : Split → Split) : (x.modSplit k f).retired = x.retired := rfl
@[simp] theorem Group.modSplit_icnt (x : Group) (k : Nat) (f : Split → Split) : (x.modSplit k f).icnt = x.icnt := rfl
@[simp] theorem Group.modSplit_traps (x : Group) (k : Nat) (f : Split → Split) : (x.modSplit k f).traps = x.traps := rfl
@[simp] theorem Group.modSplit_halted (x : Group) (k : Nat) (f : Split → Split) : (x.modSplit k f).halted = x.halted := rfl
@[simp] theorem Group.modSplit_chosen (x : Group) (k : Nat) (f : Split → Split) : (x.modSplit k f).chosen = x.chosen := rfl
@[simp] theorem Group.modSplit_tried (x : Group) (k : Nat) (f : Split → Split) : (x.modSplit k f).tried = x.tried := rfl
@[simp] theorem Group.modSplit_refused (x : Group) (k : Nat) (f : Split → Split) : (x.modSplit k f).refused = x.refused := rfl
@[simp] theorem Group.modSplit_passed (x : Group) (k : Nat) (f : Split → Split) : (x.modSplit k f).passed = x.passed := rfl
@[simp] theorem Group.modSplit_begun (x : Group) (k : Nat) (f : Split → Split) : (x.modSplit k f).begun = x.begun := rfl
@[simp] theorem Group.modSplit_first (x : Group) (k : Nat) (f : Split → Split) : (x.modSplit k f).first = x.first := rfl
@[simp] theorem Group.modSplit_unissued (x : Group) (k : Nat) (f : Split → Split) : (x.modSplit k f).unissued = x.unissued := rfl
@[simp] theorem Group.modSplit_missed (x : Group) (k : Nat) (f : Split → Split) : (x.modSplit k f).missed = x.missed := rfl
@[simp] theorem Group.modSplit_fences (x : Group) (k : Nat) (f : Split → Split) : (x.modSplit k f).fences = x.fences := rfl
@[simp] theorem Group.modSplit_nearFences (x : Group) (k : Nat) (f : Split → Split) : (x.modSplit k f).nearFences = x.nearFences := rfl
@[simp] theorem Group.modSplit_stalls (x : Group) (k : Nat) (f : Split → Split) : (x.modSplit k f).stalls = x.stalls := rfl
@[simp] theorem Group.modSplit_ended (x : Group) (k : Nat) (f : Split → Split) : (x.modSplit k f).ended = x.ended := rfl
@[simp] theorem Group.modSplit_placed (x : Group) (k : Nat) (f : Split → Split) : (x.modSplit k f).placed = x.placed := rfl

/-! raise changes `flg` and `raised` alone. -/

@[simp] theorem Group.raise_spawned (x : Group) (f : Flags) : (x.raise f).spawned = x.spawned := rfl
@[simp] theorem Group.raise_slot (x : Group) (f : Flags) : (x.raise f).slot = x.slot := rfl
@[simp] theorem Group.raise_bay (x : Group) (f : Flags) : (x.raise f).bay = x.bay := rfl
@[simp] theorem Group.raise_base (x : Group) (f : Flags) : (x.raise f).base = x.base := rfl
@[simp] theorem Group.raise_units (x : Group) (f : Flags) : (x.raise f).units = x.units := rfl
@[simp] theorem Group.raise_old (x : Group) (f : Flags) : (x.raise f).old = x.old := rfl
@[simp] theorem Group.raise_v (x : Group) (f : Flags) : (x.raise f).v = x.v := rfl
@[simp] theorem Group.raise_p (x : Group) (f : Flags) : (x.raise f).p = x.p := rfl
@[simp] theorem Group.raise_full (x : Group) (f : Flags) : (x.raise f).full = x.full := rfl
@[simp] theorem Group.raise_landed (x : Group) (f : Flags) : (x.raise f).landed = x.landed := rfl
@[simp] theorem Group.raise_live (x : Group) (f : Flags) : (x.raise f).live = x.live := rfl
@[simp] theorem Group.raise_was (x : Group) (f : Flags) : (x.raise f).was = x.was := rfl
@[simp] theorem Group.raise_atEnd (x : Group) (f : Flags) : (x.raise f).atEnd = x.atEnd := rfl
@[simp] theorem Group.raise_splits (x : Group) (f : Flags) : (x.raise f).splits = x.splits := rfl
@[simp] theorem Group.raise_frames (x : Group) (f : Flags) : (x.raise f).frames = x.frames := rfl
@[simp] theorem Group.raise_spilled (x : Group) (f : Flags) : (x.raise f).spilled = x.spilled := rfl
@[simp] theorem Group.raise_spilledRpc (x : Group) (f : Flags) : (x.raise f).spilledRpc = x.spilledRpc := rfl
@[simp] theorem Group.raise_stkErr (x : Group) (f : Flags) : (x.raise f).stkErr = x.stkErr := rfl
@[simp] theorem Group.raise_nc (x : Group) (f : Flags) : (x.raise f).nc = x.nc := rfl
@[simp] theorem Group.raise_rein (x : Group) (f : Flags) : (x.raise f).rein = x.rein := rfl
@[simp] theorem Group.raise_fbase (x : Group) (f : Flags) : (x.raise f).fbase = x.fbase := rfl
@[simp] theorem Group.raise_vmax (x : Group) (f : Flags) : (x.raise f).vmax = x.vmax := rfl
@[simp] theorem Group.raise_seen (x : Group) (f : Flags) : (x.raise f).seen = x.seen := rfl
@[simp] theorem Group.raise_retired (x : Group) (f : Flags) : (x.raise f).retired = x.retired := rfl
@[simp] theorem Group.raise_icnt (x : Group) (f : Flags) : (x.raise f).icnt = x.icnt := rfl
@[simp] theorem Group.raise_traps (x : Group) (f : Flags) : (x.raise f).traps = x.traps := rfl
@[simp] theorem Group.raise_halted (x : Group) (f : Flags) : (x.raise f).halted = x.halted := rfl
@[simp] theorem Group.raise_chosen (x : Group) (f : Flags) : (x.raise f).chosen = x.chosen := rfl
@[simp] theorem Group.raise_tried (x : Group) (f : Flags) : (x.raise f).tried = x.tried := rfl
@[simp] theorem Group.raise_refused (x : Group) (f : Flags) : (x.raise f).refused = x.refused := rfl
@[simp] theorem Group.raise_passed (x : Group) (f : Flags) : (x.raise f).passed = x.passed := rfl
@[simp] theorem Group.raise_begun (x : Group) (f : Flags) : (x.raise f).begun = x.begun := rfl
@[simp] theorem Group.raise_first (x : Group) (f : Flags) : (x.raise f).first = x.first := rfl
@[simp] theorem Group.raise_unissued (x : Group) (f : Flags) : (x.raise f).unissued = x.unissued := rfl
@[simp] theorem Group.raise_missed (x : Group) (f : Flags) : (x.raise f).missed = x.missed := rfl
@[simp] theorem Group.raise_fences (x : Group) (f : Flags) : (x.raise f).fences = x.fences := rfl
@[simp] theorem Group.raise_nearFences (x : Group) (f : Flags) : (x.raise f).nearFences = x.nearFences := rfl
@[simp] theorem Group.raise_stalls (x : Group) (f : Flags) : (x.raise f).stalls = x.stalls := rfl
@[simp] theorem Group.raise_ended (x : Group) (f : Flags) : (x.raise f).ended = x.ended := rfl
@[simp] theorem Group.raise_placed (x : Group) (f : Flags) : (x.raise f).placed = x.placed := rfl

/-! markEmpty changes `full` alone. -/

@[simp] theorem Group.markEmpty_spawned (x : Group) (n k : Nat) : (x.markEmpty n k).spawned = x.spawned := rfl
@[simp] theorem Group.markEmpty_slot (x : Group) (n k : Nat) : (x.markEmpty n k).slot = x.slot := rfl
@[simp] theorem Group.markEmpty_bay (x : Group) (n k : Nat) : (x.markEmpty n k).bay = x.bay := rfl
@[simp] theorem Group.markEmpty_base (x : Group) (n k : Nat) : (x.markEmpty n k).base = x.base := rfl
@[simp] theorem Group.markEmpty_units (x : Group) (n k : Nat) : (x.markEmpty n k).units = x.units := rfl
@[simp] theorem Group.markEmpty_old (x : Group) (n k : Nat) : (x.markEmpty n k).old = x.old := rfl
@[simp] theorem Group.markEmpty_v (x : Group) (n k : Nat) : (x.markEmpty n k).v = x.v := rfl
@[simp] theorem Group.markEmpty_p (x : Group) (n k : Nat) : (x.markEmpty n k).p = x.p := rfl
@[simp] theorem Group.markEmpty_flg (x : Group) (n k : Nat) : (x.markEmpty n k).flg = x.flg := rfl
@[simp] theorem Group.markEmpty_raised (x : Group) (n k : Nat) : (x.markEmpty n k).raised = x.raised := rfl
@[simp] theorem Group.markEmpty_landed (x : Group) (n k : Nat) : (x.markEmpty n k).landed = x.landed := rfl
@[simp] theorem Group.markEmpty_live (x : Group) (n k : Nat) : (x.markEmpty n k).live = x.live := rfl
@[simp] theorem Group.markEmpty_was (x : Group) (n k : Nat) : (x.markEmpty n k).was = x.was := rfl
@[simp] theorem Group.markEmpty_atEnd (x : Group) (n k : Nat) : (x.markEmpty n k).atEnd = x.atEnd := rfl
@[simp] theorem Group.markEmpty_splits (x : Group) (n k : Nat) : (x.markEmpty n k).splits = x.splits := rfl
@[simp] theorem Group.markEmpty_frames (x : Group) (n k : Nat) : (x.markEmpty n k).frames = x.frames := rfl
@[simp] theorem Group.markEmpty_spilled (x : Group) (n k : Nat) : (x.markEmpty n k).spilled = x.spilled := rfl
@[simp] theorem Group.markEmpty_spilledRpc (x : Group) (n k : Nat) : (x.markEmpty n k).spilledRpc = x.spilledRpc := rfl
@[simp] theorem Group.markEmpty_stkErr (x : Group) (n k : Nat) : (x.markEmpty n k).stkErr = x.stkErr := rfl
@[simp] theorem Group.markEmpty_nc (x : Group) (n k : Nat) : (x.markEmpty n k).nc = x.nc := rfl
@[simp] theorem Group.markEmpty_rein (x : Group) (n k : Nat) : (x.markEmpty n k).rein = x.rein := rfl
@[simp] theorem Group.markEmpty_fbase (x : Group) (n k : Nat) : (x.markEmpty n k).fbase = x.fbase := rfl
@[simp] theorem Group.markEmpty_vmax (x : Group) (n k : Nat) : (x.markEmpty n k).vmax = x.vmax := rfl
@[simp] theorem Group.markEmpty_seen (x : Group) (n k : Nat) : (x.markEmpty n k).seen = x.seen := rfl
@[simp] theorem Group.markEmpty_retired (x : Group) (n k : Nat) : (x.markEmpty n k).retired = x.retired := rfl
@[simp] theorem Group.markEmpty_icnt (x : Group) (n k : Nat) : (x.markEmpty n k).icnt = x.icnt := rfl
@[simp] theorem Group.markEmpty_traps (x : Group) (n k : Nat) : (x.markEmpty n k).traps = x.traps := rfl
@[simp] theorem Group.markEmpty_halted (x : Group) (n k : Nat) : (x.markEmpty n k).halted = x.halted := rfl
@[simp] theorem Group.markEmpty_chosen (x : Group) (n k : Nat) : (x.markEmpty n k).chosen = x.chosen := rfl
@[simp] theorem Group.markEmpty_tried (x : Group) (n k : Nat) : (x.markEmpty n k).tried = x.tried := rfl
@[simp] theorem Group.markEmpty_refused (x : Group) (n k : Nat) : (x.markEmpty n k).refused = x.refused := rfl
@[simp] theorem Group.markEmpty_passed (x : Group) (n k : Nat) : (x.markEmpty n k).passed = x.passed := rfl
@[simp] theorem Group.markEmpty_begun (x : Group) (n k : Nat) : (x.markEmpty n k).begun = x.begun := rfl
@[simp] theorem Group.markEmpty_first (x : Group) (n k : Nat) : (x.markEmpty n k).first = x.first := rfl
@[simp] theorem Group.markEmpty_unissued (x : Group) (n k : Nat) : (x.markEmpty n k).unissued = x.unissued := rfl
@[simp] theorem Group.markEmpty_missed (x : Group) (n k : Nat) : (x.markEmpty n k).missed = x.missed := rfl
@[simp] theorem Group.markEmpty_fences (x : Group) (n k : Nat) : (x.markEmpty n k).fences = x.fences := rfl
@[simp] theorem Group.markEmpty_nearFences (x : Group) (n k : Nat) : (x.markEmpty n k).nearFences = x.nearFences := rfl
@[simp] theorem Group.markEmpty_stalls (x : Group) (n k : Nat) : (x.markEmpty n k).stalls = x.stalls := rfl
@[simp] theorem Group.markEmpty_ended (x : Group) (n k : Nat) : (x.markEmpty n k).ended = x.ended := rfl
@[simp] theorem Group.markEmpty_placed (x : Group) (n k : Nat) : (x.markEmpty n k).placed = x.placed := rfl

/-! Lane registers. -/

@[simp] theorem Group.oldReg_setVreg (x : Group) (n l : Nat) (w : U32) (m k : Nat) : (x.setVreg n l w).oldReg m k = x.oldReg m k := rfl
@[simp] theorem Group.oldReg_setPreg (x : Group) (n l : Nat) (b : Bool) (m k : Nat) : (x.setPreg n l b).oldReg m k = x.oldReg m k := by
  simp [Group.oldReg]

@[simp] theorem Group.vreg_setVreg_same (x : Group) (n l : Nat) (w : U32) : (x.setVreg n l w).vreg n l = w := by
  simp [Group.vreg, Group.setVreg]

theorem Group.vreg_setVreg_ne (x : Group) {n l m k : Nat} (hl : l < 32) (hk : k < 32) (h : m ≠ n ∨ k ≠ l) (w : U32) :
    (x.setVreg n l w).vreg m k = x.vreg m k := by
  unfold Group.vreg Group.setVreg
  rw [sparseFind_put_ne (by omega)]
  rfl

@[simp] theorem Group.vreg_raise (x : Group) (f : Flags) (n l : Nat) : (x.raise f).vreg n l = x.vreg n l := rfl
@[simp] theorem Group.preg_raise (x : Group) (f : Flags) (n l : Nat) : (x.raise f).preg n l = x.preg n l := rfl
@[simp] theorem Group.preg_setVreg (x : Group) (n l : Nat) (w : U32) (m k : Nat) : (x.setVreg n l w).preg m k = x.preg m k := rfl

theorem Group.vreg_setPreg (x : Group) (n l : Nat) (b : Bool) (m k : Nat) : (x.setPreg n l b).vreg m k = x.vreg m k := by
  simp [Group.vreg]

end Sys2Proof.Machine
end

