-- ==== Sys2Proof/Laws/Rider.lean ====
section
/-!
SUPPORT. Laws/Rider.lean: what running and retiring a scalar word does.
-/
namespace Sys2Proof.Machine

/-! Without recording and replay. -/

theorem State.record_quiet {s : State} (h : s.Quiet) (a b c d e f) : s.record a b c d e f = s := by
  simp [State.record, h.1]

theorem State.recordIssue_quiet {s : State} (h : s.Quiet) (core : Nat) (c : Ctx) (sp : Nat) : s.recordIssue core c sp = s := by
  simp [State.recordIssue, h.1, State.record_quiet h]

theorem State.gating_quiet {s : State} (h : s.Quiet) (n : Nat) : s.gating n = none := by simp [State.gating, h.2]

theorem State.replayIssue_quiet {s : State} (h : s.Quiet) (core : Nat) (c : Ctx) : s.replayIssue core c = s := by
  simp [State.replayIssue, State.gating_quiet h]

/-- Issuing leaves no trace where Haeth neither records nor replays. -/
theorem State.issued_quiet {s : State} (h : s.Quiet) (core : Nat) (c : Ctx) (sp : Nat) : s.issued core c sp = s := by
  simp [State.issued, State.recordIssue_quiet h, State.replayIssue_quiet h]

theorem State.closeCore_quiet {s : State} (h : s.Quiet) (core code : Nat) : s.closeCore core code = s := by
  simp [State.closeCore, h.1]

theorem State.chunkRetire_quiet {s : State} (h : s.Quiet) (core launch n : Nat) : s.chunkRetire core launch n = s := by
  simp [State.chunkRetire, State.recorded, h.1]

theorem State.coreEvent_quiet {s : State} (h : s.Quiet) (core ety : Nat) (c : Ctx) (body : List U64) (lv : Nat) :
    s.coreEvent core ety c body lv = (none, true, s) := by
  simp [State.coreEvent, State.gateCore, State.gating_quiet h, State.record_quiet h]

theorem State.Quiet.setTeam {s : State} (h : s.Quiet) (k : Nat) (t : Team) : (s.setTeam k t).Quiet := h
theorem State.Quiet.modTeam {s : State} (h : s.Quiet) (k : Nat) (f : Team → Team) : (s.modTeam k f).Quiet := h

/-! Retiring. -/

theorem State.setTeam_setTeam (s : State) (k : Nat) (t t' : Team) : (s.setTeam k t).setTeam k t' = s.setTeam k t' := by
  simp only [State.setTeam, sparsePut_put]

theorem State.retireTo_team {s : State} {tk : Nat} {t : Team} (h : s.team? tk = some t) (pc : U64) :
    (s.retireTo tk pc).team? tk = some (t.wentTo pc) := by
  simp [State.retireTo, h, Team.wentTo]

theorem State.retireTo_quiet {s : State} (q : s.Quiet) {tk : Nat} {t : Team} (h : s.team? tk = some t) (pc : U64) :
    s.retireTo tk pc = s.setTeam tk (t.wentTo pc) := by
  simp [State.retireTo, h, Team.wentTo, State.issued_quiet q]

theorem State.retireRider_eq {s : State} {tk : Nat} {t : Team} (h : s.team? tk = some t) : s.retireRider tk = s.retireTo tk (t.pc + 4) := by
  simp [State.retireRider, h]

/-- A team written and then retired: the form most scalar words end in. -/
theorem RiderDoes.of_retireTo {s : State} {tk : Nat} {i : Instr} {t : Team} {pc : U64} (h : exec i s = .next ((s.setTeam tk t).retireTo tk pc)) :
    RiderDoes s tk i (t.wentTo pc) :=
  ⟨_, h, State.retireTo_team (State.team?_setTeam_same ..) _, fun q => by
    rw [State.retireTo_quiet (q.setTeam tk t) (State.team?_setTeam_same ..), State.setTeam_setTeam]⟩

theorem RiderDoes.of_retireRider {s : State} {tk : Nat} {i : Instr} {t : Team} (h : exec i s = .next ((s.setTeam tk t).retireRider tk)) :
    RiderDoes s tk i (t.wentTo (t.pc + 4)) :=
  .of_retireTo (by rw [h, State.retireRider_eq (State.team?_setTeam_same ..)])

/-! Running a scalar word. -/

theorem RiderAt.run {s : State} {tk : Nat} {t : Team} (h : RiderAt s tk t) {i : Instr} {rs : List SReg} (hw : wellFormed i = true)
    (hr : t.regsReady rs) (f : Nat → Team → Out) : scalarRun i rs s f = f tk t := by
  have : rs.any t.sregBusy = false := by simpa [Team.regsReady] using hr
  simp [Sys2Proof.Machine.scalarRun, withRider, h.1, h.2, hw, this]

/-- A word that names a register in flight waits (R191). -/
theorem RiderAt.run_waits {s : State} {tk : Nat} {t : Team} (h : RiderAt s tk t) {i : Instr} {rs : List SReg} (hw : wellFormed i = true)
    {r : SReg} (hr : r ∈ rs) (hb : t.sregBusy r = true) (f : Nat → Team → Out) : scalarRun i rs s f = .next s := by
  have : rs.any t.sregBusy = true := List.any_eq_true.2 ⟨r, hr, hb⟩
  simp [Sys2Proof.Machine.scalarRun, withRider, h.1, h.2, hw, this]

/-- A word that writes a register from the team's registers. -/
theorem RiderAt.runD {s : State} {tk : Nat} {t : Team} (h : RiderAt s tk t) {i : Instr} {d : SReg} {rs : List SReg} (hw : wellFormed i = true)
    (hr : t.regsReady (d :: rs)) {f : Team → U64} (hi : exec i s = scalarD i d rs s f) : RiderWrites s tk t i d (f t) := by
  rw [Sys2Proof.Machine.scalarD, h.run hw hr] at hi
  have := RiderDoes.of_retireRider hi
  simpa [RiderWrites] using this

/-- A branch. -/
theorem RiderAt.runJump {s : State} {tk : Nat} {t : Team} (h : RiderAt s tk t) {i : Instr} {d : SReg} {rs : List SReg} (hw : wellFormed i = true)
    (hr : t.regsReady (d :: rs)) {f : Team → U64} (hi : exec i s = scalarJump i d rs s f) :
    RiderDoes s tk i ((t.setSreg d (t.pc + 4)).wentTo (f t)) := by
  rw [Sys2Proof.Machine.scalarJump, h.run hw hr] at hi
  exact .of_retireTo hi

end Sys2Proof.Machine
end

