-- ==== Sys2Proof/Laws/Lane.lean ====
section
/-!
SUPPORT. Laws/Lane.lean: what running and retiring a lane word does, and what the writes of its destination leave.
-/
namespace Sys2Proof.Machine

/-! Lists of lanes. -/

theorem mem_lanesOf {m : U32} {l : Nat} : l ∈ lanesOf m ↔ l < 32 ∧ laneIn m l = true := by simp [lanesOf]

theorem lanesOf_nodup (m : U32) : (lanesOf m).Nodup := List.nodup_range.filter _

@[simp] theorem lanesOf_zero : lanesOf 0 = [] := by decide

/-! Running a lane word. -/

/-- A split whose instruction is ready runs it in its environment. -/
theorem LaneReady.run {e : LaneEnv} {i : Instr} (h : LaneReady e i) (f : LaneEnv → Out) : laneRun i e.s f = f e := by
  obtain ⟨hc, ht, hg, -, ha, j, hj, hl, hm, hd, hf⟩ := h
  have hf' : (if activeMask e.t e.x e.sp ((laneOps i).getD {}).g = 0 then FeResult.ok else feCheck e.x j) = .ok := by
    rw [← ha]; split
    · rfl
    · exact hf.resolve_left ‹_›
  simp only [laneRun, withSplit, hc, ht, hg]
  change (match effective e.fmt i with | none => _ | some j => _) = _
  rw [← ha] at hf'
  change formLegal e.t.regLimit (e.x.split e.sp).fmt j = true at hm
  simp only [hj, hl, hm, hd, ← ha, hf', Bool.not_true, Bool.or_self, Bool.false_eq_true, if_false]

/-! Retiring. -/

theorem State.retireWith_team {s : State} {tk g : Nat} {t : Team} {x : Group} (ht : s.team? tk = some t) (hg : t.group? g = some x)
    (sp : Nat) (m act : U32) (f : Group → Group) : (s.retireWith tk g sp m act f).team? tk = some (t.laneWent g { f x with retired := bumpLanes m x.retired, icnt := x.icnt + 1 }) := by
  simp only [State.retireWith, ht, hg]
  have chunk : ∀ (s : State) (a b c : Nat), (s.chunkRetire a b c).team? tk = s.team? tk := by
    intro s a b c
    unfold State.chunkRetire
    split
    · rfl
    · unfold State.openChunk
      split
      · rfl
      · dsimp only
        split <;> rfl
  rw [chunk]
  exact (State.team?_setTeam_same ..).trans rfl

theorem State.retireWith_quiet {s : State} (q : s.Quiet) {tk g : Nat} {t : Team} {x : Group} (ht : s.team? tk = some t) (hg : t.group? g = some x)
    (sp : Nat) (m act : U32) (f : Group → Group) : s.retireWith tk g sp m act f = s.setTeam tk (t.laneWent g { f x with retired := bumpLanes m x.retired, icnt := x.icnt + 1 }) := by
  simp only [State.retireWith, ht, hg, State.issued_quiet q]
  rw [State.chunkRetire_quiet (q.setTeam ..)]
  rfl

theorem Team.laneWent_setGroup (t : Team) (g : Nat) (x y : Group) : (t.setGroup g x).laneWent g y = t.laneWent g y := by
  simp [Team.laneWent, Team.setGroup]

/-- An instruction that leaves the team as `t` and the group as `x`, and goes on. -/
theorem LaneDoes.of_doneIn {e : LaneEnv} {i : Instr} {t : Team} {x : Group} (h : exec i e.s = e.doneIn e.s t x) : LaneDoes e i t x := by
  have hs : (e.s.setTeam e.tk (t.setGroup e.g x)).retireLane e.tk e.g e.sp (e.split.lpc + 1) e.act
      = (e.s.setTeam e.tk (t.setGroup e.g x)).retireWith e.tk e.g e.sp (x.split e.sp).mask e.act
          fun y => y.modSplit e.sp fun z => { z with lpc := e.split.lpc + 1 } := by
    simp [State.retireLane]
  refine ⟨_, by rw [h, LaneEnv.doneIn, hs], ?_, fun q => ?_⟩
  · rw [State.retireWith_team (State.team?_setTeam_same ..) (Team.group?_setGroup_same ..), Team.laneWent_setGroup]
    rfl
  · rw [State.retireWith_quiet (q.setTeam ..) (State.team?_setTeam_same ..) (Team.group?_setGroup_same ..), Team.laneWent_setGroup,
      State.setTeam_setTeam]
    rfl

theorem LaneDoes.of_done {e : LaneEnv} {i : Instr} {x : Group} (h : exec i e.s = e.done x) : LaneDoes e i e.t x := .of_doneIn h

/-! The writes of a destination. -/

/-- Writing lane registers, lane after lane. -/
theorem writeReg_fold (n : Nat) (f : Nat → U32 × Flags) : ∀ (ls : List Nat) (x : Group), ls.Nodup → (∀ l ∈ ls, l < 32) →
    let x' := ls.foldl (fun x l => (x.setVreg n l (f l).1).raise (f l).2) x
    (∀ l ∈ ls, x'.vreg n l = (f l).1) ∧ (∀ k l, l < 32 → (k ≠ n ∨ l ∉ ls) → x'.vreg k l = x.vreg k l)
      ∧ x'.flg = (ls.map fun l => (f l).2).foldl (· ||| ·) x.flg ∧ x'.raised = (ls.map fun l => (f l).2).foldl (· ||| ·) x.raised
      ∧ { x' with v := x.v, flg := x.flg, raised := x.raised } = x
  | [], x, _, _ => by simp
  | a :: ls, x, hn, hl => by
      have hn' := List.nodup_cons.1 hn
      obtain ⟨h1, h2, h3, h3', h4⟩ := writeReg_fold n f ls ((x.setVreg n a (f a).1).raise (f a).2) hn'.2 fun l h => hl l (List.mem_cons_of_mem _ h)
      have ha : a < 32 := hl a List.mem_cons_self
      refine ⟨fun l h => ?_, fun k l hl' h => ?_, ?_, ?_, ?_⟩
      · rcases List.mem_cons.1 h with rfl | h
        · rw [List.foldl_cons, h2 _ _ ha (.inr hn'.1), Group.vreg_raise, Group.vreg_setVreg_same]
        · exact h1 l h
      · rw [List.foldl_cons, h2 k l hl' (h.imp_right fun h m => h (List.mem_cons_of_mem _ m)), Group.vreg_raise]
        refine Group.vreg_setVreg_ne _ ha hl' (h.imp_right fun h e => h ?_) _
        rw [e]; exact List.mem_cons_self
      · exact h3
      · exact h3'
      · have h5 := congrArg (fun y : Group => { y with v := x.v, flg := x.flg, raised := x.raised }) h4
        exact h5

theorem joinFlags_from (fs : List Flags) (x : Flags) : fs.foldl (· ||| ·) x = x ||| joinFlags fs := by
  induction fs generalizing x with
  | nil => simp [joinFlags]
  | cons f fs ih => simp only [joinFlags, List.foldl_cons] at ih ⊢; rw [ih, ih (0 ||| f)]; simp [BitVec.or_assoc]

/-- What writing D does. -/
theorem LaneEnv.writeD_writes (e : LaneEnv) (d : VReg) (f : Nat → U32 × Flags) :
    WritesReg e.x (e.writeD d f) d.toNat e.act (fun l => (f l).1) (flagsOver e.act fun l => (f l).2) := by
  obtain ⟨h1, h2, h3, h3', h4⟩ := writeReg_fold d.toNat f e.lanes e.x (lanesOf_nodup _) fun l h => (mem_lanesOf.1 h).1
  refine ⟨fun l hl h => h1 l (mem_lanesOf.2 ⟨hl, h⟩), fun k l hl h => h2 k l hl (h.imp_right fun h m => ?_), ?_, ?_, h4⟩
  · simp [(mem_lanesOf.1 m).2] at h
  · exact h3.trans (joinFlags_from _ _)
  · exact h3'.trans (joinFlags_from _ _)

/-- An instruction that writes a register of every ACTIVE lane. -/
theorem LaneReady.runD {e : LaneEnv} {i : Instr} (h : LaneReady e i) {d : VReg} {f : LaneEnv → Nat → U32 × Flags}
    (hi : exec i e.s = laneD i d e.s f) : LaneWrites e i d (fun l => (f e l).1) fun l => (f e l).2 :=
  ⟨_, e.writeD_writes d (f e), .of_done (by rw [hi, laneD, h.run])⟩

end Sys2Proof.Machine
end

