-- ==== Sys2Proof/Tests/Slice0.lean ====
section
/-! SUPPORT. Tests/Slice0.lean: words written out from the encodings of the specification, ill-formed terms that each check of WellFormed refuses, single steps against values of the specification, and for each statement of Certificates/Slice0 a state that meets its hypotheses. -/

open Sys2Proof Sys2Proof.Machine

namespace Sys2Proof.Tests

set_option Elab.async false

/-- The integer group: SCMP has its comparison in d[5:3] and its predicate in d[2:0], SSEL its predicate in FN7[2:0] (R172). -/
theorem test_decode_scalar_integer :
    decodeTableWord 32 0x03188290 = some (.scmp .ltu 3 4 5)
      ∧ decodeTableWord 32 0x0238211E = some (.ssel 6 7 1 2)
      ∧ decodeTableWord 32 0x024903C5 = some (.sremU 9 8 7)
      ∧ decodeTableWord 32 0x0249000E = some (.spopc 9 8)
      ∧ decodeTableWord 32 0x1008403F = some (.ssrai 1 2 63) := by decide +kernel

/-- SLI takes a second word (R169); a shift of 64 or more is no instruction (R170). -/
theorem test_decode_scalar_long :
    decodeTableWord 64 0xDEADBEEF141FFFFF = some (.sli 3 0x7FFFF 0xDEADBEEF)
      ∧ decodeTableWord 32 0x10084040 = none := by decide +kernel

/-- Branches, their offsets signed words; SRET keeps d and imm13 zero (R171). -/
theorem test_decode_scalar_branches :
    decodeTableWord 32 0x16000005 = some (.sjmp 5)
      ∧ decodeTableWord 32 0x1857FFFE = some (.scall 10 0x7FFFE)
      ∧ decodeTableWord 32 0x1A517FFF = some (.sjmpr 10 11 0x1FFF)
      ∧ decodeTableWord 32 0x1C014000 = some (.sret 10)
      ∧ decodeTableWord 32 0x1C094000 = none
      ∧ decodeTableWord 32 0x1F400007 = some (.sbr true 2 7) := by decide +kernel

/-- Loads, stores, waits and atomics, KIND in [6:4] and SCOPE in [3:0] (R149, R169, R171, R174). -/
theorem test_decode_scalar_memory :
    decodeTableWord 32 0x2C3882B6 = some (.sst 2 7 4 5 .rel .device)
      ∧ decodeTableWord 32 0x36188008 = some (.slds 3 3 4 8)
      ∧ decodeTableWord 32 0x3A189FF8 = some (.ssts 1 3 4 0x1FF8)
      ∧ decodeTableWord 32 0x5A3882A8 = some (.swaitcmp true .geu 7 4 5 .acq .system)
      ∧ decodeTableWord 32 0xB23882C3 = some (.satom .i64 .cas 7 4 5 .acqrel .core)
      ∧ decodeTableWord 32 0xD23882C3 = none := by decide +kernel

/-- The system group: operands in a, b and c, codes where R206 to R219 name them (R173). -/
theorem test_decode_scalar_system :
    decodeTableWord 32 0x7C084180 = some (.ldisp 1 2 3)
      ∧ decodeTableWord 32 0x7C300008 = some (.sfence .device)
      ∧ decodeTableWord 32 0x7C006009 = some (.scfence .ls .mx)
      ∧ decodeTableWord 32 0x7C4C8291 = some (.syrd 9 0x905)
      ∧ decodeTableWord 32 0x7C4C8292 = some (.sywr 0x905 9)
      ∧ decodeTableWord 32 0x7C002014 = some (.tretSkip)
      ∧ decodeTableWord 32 0x7C008014 = none
      ∧ decodeTableWord 32 0x7C000016 = some (.snop)
      ∧ decodeTableWord 32 0x7C080016 = none := by decide +kernel

/-- Engine commands: operation codes in c, descriptor blocks in b (R287, R302). -/
theorem test_decode_engine_commands :
    decodeTableWord 32 0x7C210020 = some (.cpy 4 8)
      ∧ decodeTableWord 32 0x7C2104A1 = some (.cpym 4 8 9)
      ∧ decodeTableWord 32 0x7C27A020 = none
      ∧ decodeTableWord 32 0x7C00A1A6 = some (.taccIadd 5)
      ∧ decodeTableWord 32 0x7C2802A6 = some (.taccStat 5)
      ∧ decodeTableWord 32 0x7C018329 = some (.launch 12 6)
      ∧ decodeTableWord 32 0x7C38002D = some (.haltd 7) := by decide +kernel

/-- Control words: toff in EXT, roff in B and C (R236). -/
theorem test_decode_lane_control :
    decodeTableWord 96 0x000000000000000000000000 = some (.nopl {})
      ∧ decodeTableWord 96 0x0030000000000000007FFFFF = some (.call {} 0x7FFFFF)
      ∧ decodeTableWord 96 0x001100000000000000FFFFFC = some (.bra { g := .pos 1 } 0x7FFFFC 1)
      ∧ decodeTableWord 96 0x007000000000000100000CCC = some (.fmtl { b := .imm 0xCCC })
      ∧ decodeTableWord 96 0x008800000000000000000000 = none := by decide +kernel

/-- Integer words: SG in [39:38], IMAD.wide by EXT[0], the carry fields of IADDS (R224 to R228). -/
theorem test_decode_lane_integer :
    decodeTableWord 96 0x10400030040400C002000001 = some (.imadWide { d := 6, a := .reg 1, b := .reg 2, c := .reg 4, sga := true, sgb := true })
      ∧ decodeTableWord 96 0x10B000080C0A00000000001A = some (.iadds { d := 1, a := .reg 3, b := .reg 5 } { cie := true, ci := 1, co := 2 })
      ∧ decodeTableWord 96 0x11000018040400000000000A = some (.icmp { d := 3, a := .reg 1, b := .reg 2 } .lt .and)
      ∧ decodeTableWord 96 0x114000280000000112345678 = some (.movi { d := 5, b := .imm 0x12345678 }) := by decide +kernel

/-- Packed integers, logic and shifts (R229 to R232); a kind of source that A does not take is refused. -/
theorem test_decode_lane_packed_logic :
    decodeTableWord 96 0x202020080806000002000000 = some (.pmac2 { sat := true, d := 1, a := .reg 2, b := .reg 3, c := .reg 4 })
      ∧ decodeTableWord 96 0x30F000482842200005800000 = some (.bfi { d := 9, a := .reg 10, b := .const 33, c := .reg 11 })
      ∧ decodeTableWord 96 0x310080080808200000000001 = some (.rshr { rm := .ru, d := 1, a := .reg 2, b := .const 4 } .h)
      ∧ decodeTableWord 96 0x310000080806000000000003 = none := by decide +kernel

/-- Floating words: FCMP codes in EXT, the format of HFMA2 in EXT[0], pairs for FP64 (R249 to R257). -/
theorem test_decode_lane_float :
    decodeTableWord 96 0x406000100406000000000024 = some (.fcmp { d := 2, a := .reg 1, b := .reg 3 } .gt .or)
      ∧ decodeTableWord 96 0x416000100400000000000000 = some (.fsin { d := 2, a := .reg 1 })
      ∧ decodeTableWord 96 0x503000100406000002000001 = some (.hfma2 { d := 2, a := .reg 1, b := .reg 3, c := .reg 4 } true)
      ∧ decodeTableWord 96 0x51200010100C000004000000 = some (.dfma { d := 2, a := .reg 4, b := .reg 6, c := .reg 8 })
      ∧ decodeTableWord 96 0x51200018100C000004000000 = none := by decide +kernel

/-- Conversions and flags (R258 to R265). -/
theorem test_decode_lane_conversion :
    decodeTableWord 96 0x604000402020000000000001 = some (.rsmerge { d := 8, a := .reg 8, b := .reg 16 } 1)
      ∧ decodeTableWord 96 0x60500000000000000000007F = some (.clrflg {} 0x7F)
      ∧ decodeTableWord 96 0x606000180000000000000000 = some (.rdflg { d := 3 })
      ∧ decodeTableWord 96 0x603000080800000000000042 = some (.qscaleRcp { d := 1, a := .reg 2 } .zb) := by decide +kernel

/-- Gathers and collectives (R240 to R245): the worked SLIDE of the spec among them. -/
theorem test_decode_cross_lane :
    decodeTableWord 96 0x700000080808000001800019 = some (.xlane { d := 1, a := .reg 2, b := .reg 4, c := .reg 3 } .back 3)
      ∧ decodeTableWord 96 0x70100008080000000580020F = some (.slide { d := 1, a := .reg 2, c := .reg 11 } { edge := false, size := .h, up := false, n := 15 })
      ∧ decodeTableWord 96 0x704000080800000000000010 = some (.scan { d := 1, a := .reg 2 } .add true)
      ∧ decodeTableWord 96 0x705000080800000000000003 = some (.vmatch { d := 1, a := .reg 2 } true true)
      ∧ decodeTableWord 96 0x701000080800000005800021 = none := by decide +kernel

/-- Accesses: H, SIZE, KIND and SCOPE in EXT, the 18-bit offset over B and C (R266 to R276). -/
theorem test_decode_lane_memory :
    decodeTableWord 96 0x801000401C00000020008800 = some (.stg { d := 8, a := .reg 7 } { imm := 64, h := 4, size := .w, kind := .plain, scope := .split, sx := false, a64 := false })
      ∧ decodeTableWord 96 0x904000401C00000000000800 = some (.lda { d := 8, a := .reg 7 } { imm := 0, h := 0, size := .w, kind := .plain, scope := .split, sx := false, a64 := false })
      ∧ decodeTableWord 96 0x904000401C00000000008800 = none := by decide +kernel

/-- Waits and barriers (R281 to R285): the example words of the spec among them. -/
theorem test_decode_lane_sync :
    decodeTableWord 96 0xB01000000000000000000006 = some (.fence {} .device)
      ∧ decodeTableWord 96 0xB02000000000000000000018 = some (.cfence {} .ls .mx)
      ∧ decodeTableWord 96 0xB03000000000200000000003 = some (.waitp { b := .const 0 } .cp)
      ∧ decodeTableWord 96 0xB0400018000000000000006F = some (.bara { d := 3 } 47 true)
      ∧ decodeTableWord 96 0xB04000180000000000000030 = none
      ∧ decodeTableWord 96 0xB08000001000000000000009 = some (.spawn { a := .reg 4 } 9) := by decide +kernel

/-- QMMA under FMTSEL, RAND and TRAPL (R233, R304, R312). -/
theorem test_decode_lane_engines :
    decodeTableWord 96 0xC0001040400600000C000000 = some (.qmma { fmtsel := true, d := 8, a := .reg 16, b := .reg 3, c := .reg 24 } 0)
      ∧ decodeTableWord 96 0xC0000040400600000C000000 = none
      ∧ decodeTableWord 96 0xD00000200000000000000027 = some (.rand { d := 4 } .w4 7)
      ∧ decodeTableWord 96 0xD00000100000000000000027 = none
      ∧ decodeTableWord 96 0xE00000000000000100000077 = some (.trapl { b := .imm 0x77 }) := by decide +kernel
/-! A small machine: one team of one group, two of whose lanes are live, on core 0. -/

def aDesc : TaskDesc :=
  { spc := 0x1000, lbase := 0x2000, htab := 0x8000, regs := 4, groups := 1, nhandle := 4, count := false, nbar := 4, acc := 1, scr := 8, arg := 7,
    work := 10, spill := 0x40000 }

/-- Lanes 0 and 1 hold 5 and -3 in v1, 7 and 2 in v2. -/
def aGroup : Group :=
  { live := 3, was := { v := [(32, 5), (33, 0xFFFFFFFD)], live := 3 }, v := [(32, 5), (33, 0xFFFFFFFD), (64, 7), (65, 2)],
    splits := [{ st := .run, lpc := 5, mask := 3, fmt := 0xCCC }, {}, {}, {}] }

def aTeam : Team :=
  { serial := 1, core := 0, ctx := 0, launch := 1, teamId := 0, desc := aDesc, root := 0x10000, pc := 0x1000, s := [(4, 7), (5, 0xFFFFFFFFFFFFFFFD)],
    trapVec := 0x9000, groups := [(0, aGroup)], groupsHeld := 1, accTiles := [0] }

/-- The machine with that team alone, its page tables the ones that placeWord writes, and `a` executing. -/
def world (t : Team) (a : Agent) : State := { State.reset with mem := placedTables [], teams := [(0, t)], cur := a }

/-- The team after its rider's word, where the word completes. -/
def ran (i : Instr) (t : Team := aTeam) (s : State := world t (.rider 0)) : Option Team :=
  match exec i s with
  | .next u => u.team? 0
  | _ => none

/-- The group's environment under split 0. -/
def laneAt (x : Group := aGroup) (t : Team := aTeam) : LaneEnv :=
  let t := t.setGroup 0 x
  { s := world t (.split 0 0 0), tk := 0, g := 0, sp := 0, t := t, x := x, act := activeMask t x 0 .always }

/-- The group after a lane word, where the word completes. -/
def laneRan (i : Instr) (x : Group := aGroup) (t : Team := aTeam) : Option Group := (ran i t (laneAt x t).s).bind fun t => t.group? 0

/-- What LaneReady asks of a word without a guard, as a test. -/
def readyTest (e : LaneEnv) (i : Instr) : Bool :=
  (((laneOps i).getD {}).g == .always) && (e.split.st == .run) && match effective e.fmt i with
    | none => false
    | some j => laneLegal e.t.regLimit e.x.spawned j && formLegal e.t.regLimit e.fmt j && dstFull e.x j && (feCheck e.x j == .ok)

theorem ready_of_test {x : Group} {t : Team} {i : Instr} (h : readyTest (laneAt x t) i = true) : LaneReady (laneAt x t) i := by
  simp only [readyTest, Bool.and_eq_true, beq_iff_eq] at h
  obtain ⟨⟨hg, hs⟩, h⟩ := h
  split at h
  · cases h
  · rename_i j hj
    simp only [Bool.and_eq_true, beq_iff_eq] at h
    exact ⟨rfl, rfl, Team.group?_setGroup_same .., hs, by rw [hg]; rfl, j, hj, h.1.1.1, h.1.1.2, h.1.2, .inr h.2⟩
/-- A load of a word through handle 0, as plain as can be. -/
def plainMem : MemExt := { imm := 0, h := 0, size := .w, kind := .plain, scope := .split, sx := false, a64 := false }

/-! Each check of WellFormed.lean refuses a term that fails it alone (R185), and takes the term beside it. -/

/-- Guards, destinations and sources. -/
theorem test_refused_operands :
    wellFormed (.iadd { d := 1 }) = true ∧ wellFormed (.iadd { g := .pos 0 }) = false ∧ wellFormed (.movD { d := 3 }) = false
      ∧ wellFormed (.movD { d := 2, a := .reg 3 }) = false ∧ wellFormed (.movD { d := 2, a := .reg 510 }) = true ∧ wellFormed (.icmp { d := 8 } .eq .set) = false
      ∧ wellFormed (.nopl { d := 1 }) = false ∧ wellFormed (.nopl { a := .reg 1 }) = false ∧ wellFormed (.nopl { a := .const 0 }) = false
      ∧ wellFormed (.imad { b := .imm 1 }) = false ∧ wellFormed (.redux { a := .const 1 } .add) = false ∧ wellFormed (.pbool { a := .reg 8 } 0) = false
      ∧ wellFormed (.dadd { a := .special .laneid }) = false ∧ wellFormed (.ldg { a := .const 1 } plainMem) = false
      ∧ wellFormed (.iadd { c := .reg 1 }) = false := by decide +kernel

/-- Rounding, saturation, FMTSEL, FE and SG, each where the instruction has none. -/
theorem test_refused_modifiers :
    wellFormed (.fadd { rm := .rz, sat := true }) = true ∧ wellFormed (.iadd { rm := .rz }) = false ∧ wellFormed (.land { sat := true }) = false
      ∧ wellFormed (.iadd { fmtsel := true }) = false ∧ wellFormed (.fadd { fmtsel := true, rm := .rz }) = false ∧ wellFormed (.iadd { a := .const 1, fea := true }) = false
      ∧ wellFormed (.iadd { a := .reg 1, fea := true }) = true ∧ wellFormed (.mov { feb := true }) = false ∧ wellFormed (.mov { fec := true }) = false
      ∧ wellFormed (.fadd { sga := true }) = false ∧ wellFormed (.bfe { sgb := true }) = false := by decide +kernel

/-- Kinds, scopes and operations of accesses and atomics. -/
theorem test_refused_accesses :
    wellFormed (.sld 3 1 2 3 .acq .device) = true ∧ wellFormed (.sld 3 0 2 3 .plain .split) = false ∧ wellFormed (.sld 3 1 2 3 .rel .device) = false
      ∧ wellFormed (.sld 3 1 2 3 .plain .team) = false ∧ wellFormed (.sld 3 1 2 3 .acq .group) = false ∧ wellFormed (.sst 3 1 2 3 .acq .device) = false
      ∧ wellFormed (.swaitcmp true .eq 0 1 2 .plain .split) = false ∧ wellFormed (.satom .f32 .add 1 2 3 .strong .team) = true
      ∧ wellFormed (.satom .f32 .and 1 2 3 .strong .team) = false ∧ wellFormed (.satom .i32 .rsm 1 2 3 .strong .team) = false
      ∧ wellFormed (.satom .i32 .add 1 2 3 .plain .split) = false ∧ wellFormed (.ldg {} { plainMem with sx := true }) = false
      ∧ wellFormed (.stg {} { plainMem with sx := true, size := .b }) = false ∧ wellFormed (.lds {} { plainMem with h := 1 }) = false
      ∧ wellFormed (.sts {} { plainMem with a64 := true }) = false ∧ wellFormed (.lda {} { plainMem with size := .b }) = false
      ∧ wellFormed (.atom {} .cas { h := 0, ty := .i32, kind := .strong, scope := .team }) = false
      ∧ wellFormed (.red {} .exch { h := 0, ty := .i32, kind := .strong, scope := .team }) = false
      ∧ wellFormed (.red {} .add { h := 0, ty := .i32, kind := .acq, scope := .team }) = false
      ∧ wellFormed (.redRsm {} 127 { h := 0, ty := .f32, kind := .strong, scope := .team }) = false
      ∧ wellFormed (.atomcas {} 0 { h := 0, ty := .f32, kind := .strong, scope := .team }) = false
      ∧ wellFormed (.ldsub {} { h := 1, sp := true, fmt := .i4, kind := .plain, scope := .split, a64 := false }) = false
      ∧ wellFormed (.stsub { b := .imm 256 } { h := 1, sp := false, fmt := .i4, kind := .plain, scope := .split, a64 := false }) = false := by decide +kernel

/-- Control, blocks, barriers, counts and segments. -/
theorem test_refused_fields :
    wellFormed (.sbr true 0 1) = false ∧ wellFormed (.sfence .group) = false ∧ wellFormed (.cpy 1 0) = false ∧ wellFormed (.cpy 1 60) = true
      ∧ wellFormed (.cpy 1 61) = false ∧ wellFormed (.qpost 1 2 57) = false ∧ wellFormed (.bra {} 1 0) = false
      ∧ wellFormed (.brx { g := .pos 1, a := .reg 1 } 1) = false ∧ wellFormed (.movi { d := 1, b := .reg 0 }) = false ∧ wellFormed (.rand {} .w1 11) = false
      ∧ wellFormed (.xlane {} .at 6) = false ∧ wellFormed (.slide {} { edge := false, size := .w, up := true, n := 33 }) = false
      ∧ wellFormed (.iadds {} { cie := false, ci := 1, co := 0 }) = false ∧ wellFormed (.hadd2 { fmtsel := true } true) = false
      ∧ wellFormed (.bara {} 48 false) = false ∧ wellFormed (.qmma { d := 8 } 0) = false := by decide +kernel

/-- Conversions and RSMERGE, whose D may equal A or B but overlap neither in part; A and B may overlap (R264). -/
theorem test_refused_conversions :
    wellFormed (.cvt { d := 1, a := .reg 2 } { srx := false, du := false, dsel := 0, sel := 0, df := .f16, sf := .f32 }) = true
      ∧ wellFormed (.cvt {} { srx := false, du := false, dsel := 0, sel := 0, df := .f32, sf := .f32 }) = false
      ∧ wellFormed (.cvt {} { srx := false, du := true, dsel := 0, sel := 0, df := .f16, sf := .f32 }) = false
      ∧ wellFormed (.cvt {} { srx := false, du := false, dsel := 2, sel := 0, df := .f16, sf := .f32 }) = false
      ∧ wellFormed (.packn { d := 8, a := .reg 16 } { srx := false, du := false, bsm := .zb, df := .e4m3, sd := 8 }) = false
      ∧ wellFormed (.packn { d := 8, a := .reg 16 } { srx := false, du := false, bsm := .zb, df := .f16, sd := 9 }) = false
      ∧ wellFormed (.unpackn { d := 8, a := .reg 2 } { bsm := .none, sf := .f32 }) = false ∧ wellFormed (.qscaleVal {} .none) = false
      ∧ wellFormed (.rsmerge { d := 8, a := .reg 8, b := .reg 10 } 1) = true ∧ wellFormed (.rsmerge { d := 9, a := .reg 8, b := .reg 16 } 1) = false
      ∧ wellFormed (.rsmerge { d := 8, a := .reg 16, b := .reg 24 } 0) = false := by decide +kernel
/-! Single steps, each beside the worked example of the rule that gives the numbers. -/

/-- R170: `SADDI s5, s2, -3`, and a sum that wraps. -/
theorem test_saddi : (ran (.saddi 5 4 0x1FFD)).map (fun t => (t.sreg 5, t.pc)) = some (4, 0x1004)
    ∧ (ran (.sadd 6 4 5)).map (·.sreg 6) = some 4 := by decide +kernel

/-- R193: division by zero, and the signed quotient that overflows. -/
theorem test_sdiv : (ran (.sdiv 6 4 0)).map (·.sreg 6) = some 0xFFFFFFFFFFFFFFFF ∧ (ran (.srem 6 4 0)).map (·.sreg 6) = some 7
    ∧ (ran (.sdiv 6 1 5) { aTeam with s := [(1, 0x8000000000000000), (5, 0xFFFFFFFFFFFFFFFF)] }).map (·.sreg 6) = some 0x8000000000000000 := by decide +kernel

/-- R167: s0 stays zero. -/
theorem test_s0 : (ran (.sadd 0 4 5)).map (fun t => (t.sreg 0, t.s)) = some (0, aTeam.s) := by decide +kernel

/-- R198: a call links the next word; a branch not taken goes on. -/
theorem test_branches : (ran (.scall 10 0x7FFFE)).map (fun t => (t.sreg 10, t.pc)) = some (0x1004, 0xFF8)
    ∧ (ran (.sbr false 1 5)).map (·.pc) = some 0x1004 ∧ (ran (.sbr true 1 5)).map (·.pc) = some 0x1014 := by decide +kernel

/-- R224: IABS of 0x80000000 wraps, and under SAT clamps and sets FLG.SAT. -/
theorem test_iabs : let x := aGroup.setVreg 3 0 0x80000000
    (laneRan (.iabs { d := 4, a := .reg 3 }) x).map (fun y => (y.vreg 4 0, y.flg)) = some (0x80000000, 0)
      ∧ (laneRan (.iabs { d := 4, a := .reg 3, sat := true }) x).map (fun y => (y.vreg 4 0, y.flg)) = some (0x7FFFFFFF, flSAT) := by decide +kernel

/-- R229: PMAC2 of 0x7FFF7FFF with itself, added to 0x7FFFFFFF. -/
theorem test_pmac2 : let x := (aGroup.setVreg 3 0 0x7FFF7FFF).setVreg 4 0 0x7FFFFFFF
    let o : LaneOps := { d := 5, a := .reg 3, b := .reg 3, c := .reg 4 }
    (laneRan (.pmac2 o) x).map (fun y => (y.vreg 5 0, y.flg)) = some (0xFFFE0001, 0)
      ∧ (laneRan (.pmac2 { o with sat := true }) x).map (fun y => (y.vreg 5 0, y.flg)) = some (0x7FFFFFFF, flSAT) := by decide +kernel

/-- R233: no Philox round leaves the counter words exclusive-ored with the key. -/
theorem test_rand_ctr : philox 0 (5, 37, 2, 0) 0x9ABCDEF012345678 = [0x1234567D, 0x9ABCDED5, 0x1234567A, 0x9ABCDEF0] := by decide +kernel

/-- R237: v2 plus v1, with a guard that holds on lane 1 alone. -/
theorem test_guard : let x := aGroup.setPreg 3 1 true
    (laneRan (.iadd { g := .pos 3, d := 4, a := .reg 1, b := .reg 2 }) x).map (fun y => (y.vreg 4 0, y.vreg 4 1)) = some (0, 0xFFFFFFFF) := by decide +kernel

/-- R259: 500.0 into byte 2 of v6 as E4M3. -/
theorem test_cvt : let x := (aGroup.setVreg 2 0 0x43FA0000).setVreg 6 0 0x11223344
    (laneRan (.cvt { d := 6, a := .reg 2 } { srx := false, du := false, dsel := 2, sel := 0, df := .e4m3, sf := .f32 })
      { x with live := 1, splits := [{ st := .run, lpc := 5, mask := 1, fmt := 0xCCC }, {}, {}, {}] }).map (fun y => (y.vreg 6 0, y.flg))
      = some (0x117E3344, flOF ||| flNX) := by decide +kernel

/-- R263: QSCALE.pick.zb.fp4 of 10.0, and QSCALE.rcp.zb of what it writes. -/
theorem test_qscale : let x := (aGroup.setVreg 3 0 0x41200000).setVreg 4 0 0x1FF
    (laneRan (.qscalePick { d := 5, a := .reg 3 } .zb .e2m1) x).map (·.vreg 5 0) = some 0x1FF
      ∧ (laneRan (.qscaleRcp { d := 5, a := .reg 4 } .zb) x).map (fun y => (y.vreg 5 0)) = some 0x3F124925 := by decide +kernel

/-- R264: (3, 2, [4]) merged with (1, 8, [-8]). -/
theorem test_rsmerge : rsmMerge [0x40400000, 0x40000000, 0x40800000] [0x3F800000, 0x41000000, 0xC1000000] = ([0x40400000, 0x40800000, 0x40000000], 0) := by
  decide +kernel

/-- R391: the line of 0x12345680 travels on plane 1. -/
theorem test_plane : planeOf 0x12345680 = 1 := by decide +kernel

/-- R299: the worked TMMA. -/
theorem test_tmma_word : decodeTableWord 32 0x7C20A324 = some (.tmma 4 5 6) := by decide +kernel

/-- R275: the worked STSUB at element 8 with the enables 0b101: byte 4 becomes 0x2A and byte 5 0x4B. -/
theorem test_stsub : let b := subBits .e2m1 0xB7A 5
    (0x4321 - (0x4321 &&& b.2)) ||| (b.1 &&& b.2) = 0x4B2A := by decide +kernel

/-- R139: TARGET 2, EXPB 8,192 and 12,288 bytes landed at the second arrival leave 4,096 for the next phase. -/
theorem test_barrier : let b : Barrier := { target := 2, count := 2, expb := 8192, arrb := 12288 }
    (b.due, (b.complete 9).count, (b.complete 9).arrb, (b.complete 9).phase) = (true, 0, 4096, true) := by decide +kernel

/-- R119: a word waits for its destination, and under FE traps on an empty source. -/
theorem test_empty : let x := aGroup.markEmpty 1 1
    (laneRan (.mov { d := 1, a := .reg 2 }) x).map (fun y => (y.split 0).lpc) = some 5
      ∧ (laneRan (.mov { d := 3, a := .reg 1 }) x).map (fun y => (y.split 0).lpc) = some 5
      ∧ (laneRan (.mov { d := 3, a := .reg 1, fea := true }) x).map (fun y => y.traps.map (·.cause)) = some [.regEmpty] := by decide +kernel

/-- R101: a branch that one of two lanes takes divides the split and pushes a JOIN frame. -/
theorem test_bra : let x := aGroup.setPreg 3 1 true
    (laneRan (.bra { g := .pos 3 } 20 30) x).map (fun y => (y.frames.length, (y.split 0).lpc, (y.split 0).mask, (y.split 1).lpc, (y.split 1).mask))
      = some (1, 6, 1, 25, 2) := by decide +kernel

/-- R206, R208, R212: SETFMT keeps 20 bits, SBARA answers the phase, YIELD holds the rider off. -/
theorem test_rider_system : (ran (.setfmt 5)).map (·.reinFmt) = some 0xFFFFD ∧ (ran (.sbara 6 0)).map (fun t => (t.sreg 6, (t.bar 0).count)) = some (0, 1)
    ∧ (ran .yield).map (·.yieldUntil) = some 17 := by decide +kernel

/-- R351, R354: BRKPT leaves a pending trap, and with SY.TRAPVEC zero kills the team. -/
theorem test_brkpt : (ran .brkpt).map (fun t => (t.riderTrap.map fun x => (x.cause, x.loc), t.killed)) = some (some (.brk, 0x1000), false)
    ∧ (ran .brkpt { aTeam with trapVec := 0 }).map (·.killed) = some true := by decide +kernel

/-- R355: the handler's entry. -/
theorem test_handler_entry : let t : Team := { aTeam with riderTrap := some { cause := .brk, src := 1, loc := 0x1000 } }
    (ran (.handlerEntry 0) t (world t .none)).map (fun t => (t.handler, t.pc, t.trapPc)) = some (true, 0x9000, 0x1000) := by decide +kernel
/-! Witnesses: for each statement with hypotheses, a state and operands that meet them. -/

def memExt : MemExt := plainMem
def subExt : SubExt := { h := 1, sp := false, fmt := .i4, kind := .plain, scope := .split, a64 := false }
def rangeExt : RangeExt := { imm := 0, h := 1, a64 := false }
def atomExt : AtomExt := { h := 1, ty := .i32, kind := .strong, scope := .device }
def waitExt : WaitExt := { h := 1, cc := .eq, dbl := false, kind := .plain, scope := .split }

/-! One word of each lane instruction, and of each form that a statement takes apart. -/

def o1 : LaneOps := { d := 4, a := .reg 1 }
def o2 : LaneOps := { d := 4, a := .reg 1, b := .reg 2 }
def o3 : LaneOps := { d := 4, a := .reg 1, b := .reg 2, c := .reg 3 }
def pair : LaneOps := { d := 4, a := .reg 2, b := .reg 6, c := .reg 8 }
def pr : LaneOps := { d := 2, a := .reg 1, b := .reg 2 }

def wordsControl : List Instr :=
  [.nopl {}, .bra {} 20 30, .braJoin {} 20, .brx { a := .reg 1 } 30, .call {} 20, .ret {}, .endb {}, .exitl {}, .fmtl { b := .reg 1 }, .yieldl {},
   .iadd o2, .isub o2, .imul o2, .imulh o2, .imad o3, .imadWide { pair with b := .reg 2 }, .idiv o2, .irem o2, .imin o2, .imax o2, .iabs o1, .ineg o1]

def wordsInteger : List Instr :=
  [.iadds o2 { cie := true, ci := 1, co := 2 }, .isubs o2 { cie := false, ci := 0, co := 0 }, .icmp pr .lt .set, .icmp pr .ge .xor, .pbool { pr with c := .reg 3 } 0x96,
   .pick { o2 with c := .reg 3 }, .mov o1, .movD { d := 4, a := .reg 2 }, .movi { d := 4, b := .imm 9 }, .padd2 o2, .psub2 o2, .pmac2 o3, .dot4 o3, .dot8 o3,
   .land o2, .lor o2, .lxor o2, .lnot o1, .blut o3 0x96, .shl o2, .shr o2, .sra o2, .rotl o2, .shfd o3, .popc o1, .clz o1, .ctz o1, .brev o1, .bfe o2, .bfi o3]

def wordsCross : List Instr :=
  [.rshr { o2 with rm := .rz } .w, .rand { d := 4 } .w4 10, .randCtr o3 .w1 0, .xlane o3 .at 5, .slide { d := 4, a := .reg 1, c := .reg 2 } { edge := false, size := .w, up := true, n := 32 },
   .pgath { d := 4, a := .reg 2 } .mask false, .pgath { d := 2, a := .reg 2 } .every true, .pgath { d := 2, a := .reg 2 } .some true, .pgath { d := 2, a := .reg 2 } .agree false,
   .redux o1 .add, .redux o1 .and, .redux o1 .xor, .redux o1 .fmin, .scan o1 .add true, .scan o1 .max false,
   .vmatch { d := 2, a := .reg 1 } true false, .vmatch o1 false false, .vmatch { d := 2, a := .reg 2 } true true, .vmatch { d := 4, a := .reg 2 } false true]

def wordsFloat : List Instr :=
  [.fadd o2, .fsub o2, .fmul o2, .ffma o3, .fmin o2, .fmax o2, .fcmp pr .lt .set, .fclass { d := 2, a := .reg 1 } 3, .frnd o1, .frcp o1, .frsq o1, .fsqrt o1, .fdiv o2,
   .fexp2 o1, .flog2 o1, .fsin o1, .fcos o1, .hadd2 o2 false, .hsub2 o2 true, .hmul2 o2 false, .hfma2 o3 true, .hmin2 o2 false, .hmax2 o2 true,
   .dadd { pair with c := .reg 0 }, .dmul { pair with c := .reg 0 }, .dfma pair, .dcmp { d := 2, a := .reg 2, b := .reg 6 } .eq .and]

def wordsConvert : List Instr :=
  [.cvt o1 { srx := true, du := false, dsel := 1, sel := 0, df := .f16, sf := .f32 }, .packn { d := 4, a := .reg 8 } { srx := false, du := false, bsm := .none, df := .i8, sd := 0 },
   .packn { d := 4, a := .reg 8 } { srx := false, du := false, bsm := .mx, df := .e4m3, sd := 5 }, .unpackn { d := 8, a := .reg 1 } { bsm := .none, sf := .e4m3 },
   .qscalePick o1 .zb .e2m1, .qscaleVal o1 .mx, .qscaleRcp o1 .zb, .rsmerge { d := 8, a := .reg 8, b := .reg 16 } 1, .clrflg {} 0x7F, .rdflg { d := 4 }]

def wordsMemory : List Instr :=
  [.ldg o1 { memExt with h := 1 }, .stg o1 { memExt with h := 1 }, .pref { a := .reg 1 } true rangeExt, .invd o1 rangeExt, .wbk o1 rangeExt, .lds o1 memExt, .sts o1 memExt,
   .lda o1 memExt, .sta o1 memExt, .ldsub o1 subExt, .stsub o2 subExt, .atom o2 .add atomExt, .atomcas o3 0 atomExt, .red { a := .reg 1, b := .reg 2 } .add atomExt,
   .redRsm { a := .reg 1, b := .reg 8 } 1 { atomExt with ty := .f32 }, .waitcmp o2 waitExt]

def wordsSync : List Instr :=
  [.fence {} .device, .fence {} .team, .cfence {} .ls .mx, .waitp { b := .reg 1 } .cp, .bara { d := 4 } 0 false, .bara { d := 4 } 3 true, .barw { a := .reg 1 } 0,
   .bart { d := 2, a := .reg 1 } 3, .barx { b := .reg 1 } 0, .spawn { a := .reg 4 } 9, .trapl { b := .reg 1 }]

def laneWords : List Instr := wordsControl ++ wordsInteger ++ wordsCross ++ wordsFloat ++ wordsConvert ++ wordsMemory ++ wordsSync

/-- Each of them is ready to run, with a lane ACTIVE. -/
theorem witness_lane_words : ∀ i ∈ laneWords, LaneReady laneAt i ∧ (laneAt).act ≠ 0 := by
  have h : laneWords.all (readyTest laneAt) = true := by decide +kernel
  have ha : (laneAt).act ≠ 0 := by decide +kernel
  exact fun i hi => ⟨ready_of_test (List.all_eq_true.1 h i hi), ha⟩

/-- QMMA under a FMT of FP16 operands and an FP32 result (R304). -/
theorem witness_qmma : let o : LaneOps := { fmtsel := true, d := 8, a := .reg 32, b := .reg 3, c := .reg 24 }
    LaneReady (laneAt { aGroup with splits := [{ st := .run, lpc := 5, mask := 3, fmt := 0xCAA }, {}, {}, {}] }) (.qmma o 0) := by
  exact ready_of_test (by decide +kernel)

/-- The rider of the small machine executes, and none of its registers waits. -/
theorem witness_rider : RiderAt (world aTeam (.rider 0)) 0 aTeam ∧ (∀ rs, aTeam.regsReady rs) ∧ (world aTeam (.rider 0)).Quiet :=
  ⟨⟨rfl, rfl⟩, fun _ r _ => by simp [Team.sregBusy, aTeam], rfl, rfl⟩
/-- A computation that answers. -/
def okOf {α β γ : Type} : Except α β × γ → Bool
  | (.ok _, _) => true
  | _ => false

theorem of_okOf {α β γ : Type} {r : Except α β × γ} (h : okOf r = true) : ∃ a s, r = (.ok a, s) := by
  obtain ⟨_ | a, s⟩ := r
  · cases h
  · exact ⟨a, s, rfl⟩

/-- A step that goes on. -/
def goesOn : Out → Bool
  | .next _ => true
  | _ => false

theorem of_goesOn {o : Out} (h : goesOn o = true) : ∃ t, o = .next t := by
  cases o
  · exact ⟨_, rfl⟩
  · cases h
  · cases h

/-- The reset state with a word placed for the next step. -/
def placed (nbits w : Nat) : State := State.reset.withFetchWord nbits w

/-- StepKeepsInvariant: reset with SNOP placed, and its step. -/
theorem witness_step : (placed 32 0x7C000016).Inv ∧ ∃ t, step (placed 32 0x7C000016) = .next t :=
  ⟨by unfold State.Inv; decide +kernel, of_goesOn (by decide +kernel)⟩

/-- StepRunsDecoded: the placed word is fetched by its rider or its split, decodes (SNOP, NOPL) or does not (a zeroed word), and nothing comes first. -/
theorem witness_step_runs :
    (let s := placed 32 0x7C000016;
      s.agenda = [⟨0, .rider 0⟩] ∧ s.urgent.isNone = true ∧ (s.settle.team? 0).isSome = true ∧ s.settle.riderReady (placedTeam false) = true
        ∧ okOf (s.settle.fetchScalar (placedTeam false)) = true ∧ decodeScalar 0x7C000016 0 = some .snop ∧ decodeScalar 0x7F 0 = none)
    ∧ (let s := placed 96 0;
      let x := ((placedTeam true).group? 0).getD {};
      s.urgent.isNone = true ∧ s.settle.splitReady 0 (placedTeam true) 0 0 x = true ∧ s.settle.waits 0 0 0 (.nopl {}) = false
        ∧ s.settle.refuses (placedTeam true) 0 x (.nopl {}) = false
        ∧ (s.settle.modCore 0 fun c => { c with bays := [(0, { busy := [(.alu, 0, 1)] })] }).refuses (placedTeam true) 0 x (.nopl {}) = true
        ∧ decodeLane 0 = some (.nopl {}) ∧ decodeLane 0x000800000000000000000000 = none)
    ∧ (let s : State := { placed 32 0 with agenda := [⟨3, .idle⟩], teams := [] };
      s.urgent.isNone = true ∧ s.forcedAgent = none ∧ s.barrierDue.isNone = true)
    ∧ (let s : State := { placed 96 0 with agenda := [⟨3, .idle⟩] };
      s.urgent.isNone = true ∧ s.clk.ending = false) := by
  refine ⟨by decide +kernel, by decide +kernel, by decide +kernel, by decide +kernel⟩

/-- ScalarWordsRoundTrip and LaneWordsRoundTrip. -/
theorem witness_words : wellFormed (.saddi 5 2 0x1FFD) = true ∧ (encode (.saddi 5 2 0x1FFD)).map (·.1) = some 32
    ∧ wellFormed (.sli 3 0x7FFFF 9) = true ∧ (encode (.sli 3 0x7FFFF 9)).map (·.1) = some 64 ∧ (laneOps (.nopl {})).isSome = true ∧ wellFormed (.nopl {}) = true
    ∧ decodeScalar 0x04285FFD 0 = some (.saddi 5 2 0x1FFD) ∧ decodeLane 0 = some (.nopl {}) := by decide +kernel

/-- IllegalWordsAndWaits: a scalar word that is ill formed yet has bits, and lane words that their formats or registers make illegal, that wait, and that
take REG_EMPTY. -/
theorem witness_illegal :
    (encodeScalar (.sld 3 0 1 2 .plain .split)).isSome = true ∧ wellFormed (.sld 3 0 1 2 .plain .split) = false
    ∧ effective 0xCCC (.hadd2 { fmtsel := true } false) = none ∧ laneLegal aTeam.regLimit false (.mov { d := 200 }) = false
    ∧ laneLegal aTeam.regLimit false (.qmma { fmtsel := true, d := 8, a := .reg 32, b := .reg 3, c := .reg 24 } 0) = true
    ∧ formLegal aTeam.regLimit 0xCCC (.qmma { fmtsel := true, d := 8, a := .reg 32, b := .reg 3, c := .reg 24 } 0) = false
    ∧ formLegal aTeam.regLimit 0x1CAA (.qmma { fmtsel := true, d := 8, a := .reg 32, b := .reg 3, c := .reg 24, sga := true } 0) = false
    ∧ (let x := aGroup.markEmpty 1 1
      dstFull x (.mov { d := 1, a := .reg 2 }) = false ∧ feCheck x (.mov { d := 3, a := .reg 1 }) = .wait
        ∧ feCheck x (.mov { d := 3, a := .reg 1, fea := true }) = .trap) := by decide +kernel

/-- LaneBranches: no lane ACTIVE, all of them, and some; COUNT mode; a BRX whose lanes name one target. -/
theorem witness_branches :
    let some_ := laneAt (aGroup.setPreg 3 1 true)
    let none_ := laneAt aGroup
    let count := laneAt aGroup { aTeam with desc := { aDesc with count := true } }
    activeMask none_.t none_.x 0 (.pos 3) = 0 ∧ (none_.act ≠ 0 ∧ none_.branchLanes &&& ~~~none_.act = 0)
      ∧ (activeMask some_.t some_.x 0 (.pos 3) = 2 ∧ some_.branchLanes &&& ~~~(2 : U32) ≠ 0 ∧ some_.x.frames.length < 16 ∧ some_.x.ctl.freeEntry = some 1)
      ∧ (count.t.desc.count = true ∧ activeMask count.t (count.x.setPreg 3 1 true) 0 (.pos 3) = 2 ∧ count.branchLanes = 3
        ∧ count.split.lpc < count.split.lpc + (20 : BitVec 23).signExtend 24 ∧ ∀ l, count.x.ncOf l ≠ 255)
      ∧ (∀ l, l < 32 → laneIn none_.branchLanes l = true → (none_.val l (.const 9)).setWidth 24 = (9 : BitVec 24)) := by
  refine ⟨by decide +kernel, by decide +kernel, by decide +kernel, ⟨by decide +kernel, by decide +kernel, by decide +kernel, by decide +kernel, fun l => ?_⟩, ?_⟩
  · simp [laneAt, aGroup, Group.ncOf, sparseGet]
  · intro l _ _; rfl

/-- LaneCallReturn: a RET by both lanes, above one CALL frame. -/
theorem witness_ret :
    let f : Frame := { kind := .call, owner := 0, parent := none, rpc := 9, full := 3, fmt := 0xCCC }
    let e := laneAt { aGroup with frames := [f], splits := [{ st := .run, lpc := 5, mask := 3, fmt := 0xCCC, frm := some 0 }, {}, {}, {}] }
    LaneReady e (.ret {}) ∧ e.act = e.branchLanes ∧ e.act ≠ 0 ∧ e.x.spilled = 0 ∧ e.split.frm = some 0 ∧ f.full = e.act ∧ f.park = 0
      ∧ (∀ j, j ≠ e.sp → (e.x.split j).frm ≠ some 0) := by
  refine ⟨ready_of_test (by decide +kernel), by decide +kernel, by decide +kernel, rfl, rfl, by decide +kernel, rfl, fun j hj => ?_⟩
  match j, hj with
  | 1, _ | 2, _ | 3, _ => decide +kernel
  | j + 4, _ => simp [laneAt, Group.split, nth]

/-- LaneBlockEnds: some lanes end their block, all of them, and none is left live. -/
theorem witness_block_ends :
    let e := laneAt { aGroup with splits := [{ st := .run, lpc := 5, mask := 1, fmt := 0xCCC }, { st := .run, lpc := 7, mask := 2, fmt := 0xCCC }, {}, {}] }
    let all := laneAt aGroup
    LaneReady e (.endb {}) ∧ e.act = 1 ∧ (e.x.atEnd ||| e.act) &&& e.x.live ≠ e.x.live ∧ e.x.live &&& ~~~e.act ≠ 0 ∧ (all.x.atEnd ||| all.act) &&& all.x.live = all.x.live
      ∧ all.x.live &&& ~~~all.act = 0 ∧ e.split.frm = none ∧ e.x.spawned = false ∧ e.x.frames = [] ∧ e.x.spilled = 0 ∧ all.t.exited = false :=
  ⟨ready_of_test (by decide +kernel), by decide +kernel, by decide +kernel, by decide +kernel, by decide +kernel, by decide +kernel, rfl, rfl, rfl, rfl, rfl⟩

/-- A machine whose handle 1 names 64 KiB at 0x200000 with every right. -/
def withHandle (s : State) : State :=
  { s with mem := memPutAll s.mem 0x8020 (bytesOf 0x200000 8 ++ bytesOf 0x10000 8 ++ bytesOf 0x80000F00 8 ++ bytesOf 0 8) }

/-- Addresses 0x40 and 0x80 in v1, data in v2, a length of 128 in v4. -/
def memGroup : Group := ((((aGroup.setVreg 1 0 0x40).setVreg 1 1 0x80).setVreg 4 0 128).setVreg 4 1 128)
def memLane : LaneEnv := let e := laneAt memGroup
                         { e with s := withHandle e.s }

theorem memLane_ready {i : Instr} (h : readyTest memLane i = true) : LaneReady memLane i := by
  have h : readyTest (laneAt memGroup) i = true := h
  obtain ⟨_, _, hg, hs, ha, hr⟩ := ready_of_test h
  exact ⟨rfl, rfl, hg, hs, ha, hr⟩

/-- LaneMemoryIssues: each access passes its checks for every lane. -/
theorem witness_memory_issues :
    let e := memLane
    let o : LaneOps := { d := 4, a := .reg 1 }
    LaneReady e (.ldg o { memExt with h := 1 }) ∧ LaneReady e (.sta o memExt) ∧ e.act ≠ 0 ∧ e.t.pathFull .ld = false ∧ e.t.pathFull .st = false
      ∧ (∃ ps s, checkLanes (fun l s => s.handleParts e.t l 1 (e.offset l false o.a 0) 4 4 .rr) e.lanes [] e.s = (.ok ps, s))
      ∧ (∃ ps s, checkLanes (fun l s => s.handleParts e.t l 1 (e.offset l false o.a 0) 4 4 .rw (e.data l 2 4)) e.lanes [] e.s = (.ok ps, s))
      ∧ (∃ ps s, checkLanes (fun l s => (e.t.scratchParts l (e.offset l false o.a 0) 4 4, s)) e.lanes [] e.s = (.ok ps, s))
      ∧ (∃ ps s, checkLanes (fun l s => (e.t.accParts l (e.offset l false o.a 0) 4, s)) e.lanes [] e.s = (.ok ps, s))
      ∧ (∃ ps s, checkLanes (fun l s => e.subParts o subExt .rw 0xF 0xF l s) e.lanes [] e.s = (.ok ps, s))
      ∧ (∃ ps s, checkLanes (fun l s => s.access e.t 1 (e.offset l false o.a 0) 128 1 .disc 128) e.lanes [] e.s = (.ok ps, s)) := by
  refine ⟨memLane_ready (by decide +kernel), memLane_ready (by decide +kernel), by decide +kernel, by decide +kernel, by decide +kernel, of_okOf ?_, of_okOf ?_, of_okOf ?_,
    of_okOf ?_, of_okOf ?_, of_okOf ?_⟩ <;> decide +kernel

/-- LaneAtomicsIssue and LaneWaitOnValue: words that pass their checks, and a core with free slots. -/
theorem witness_atomics_issue :
    let e := memLane
    let o : LaneOps := { d := 4, a := .reg 1, b := .reg 2 }
    LaneReady e (.atom o .add atomExt) ∧ LaneReady e (.waitcmp o waitExt) ∧ e.t.pathFull .at = false ∧ 2 ≤ ((e.s.core 0).freeSlotList).length
      ∧ (∃ rs s, checkLanes (e.atomWord o 1 4 4 fun l => { lane := l, x := e.atomVal .i32 l o.b }) e.lanes [] e.s = (.ok rs, s))
      ∧ (∃ ps s, checkLanes (fun l s => s.access e.t 1 ((e.val l o.a).toNat : Nat) 4 4 .rr) e.lanes [] e.s = (.ok ps, s))
      ∧ e.s.Quiet ∧ e.s.NothingShown ∧ e.t.comesAfter (e.op .at .as .plain .split (.wait none (some 4) .eq false [])) = false := by
  refine ⟨memLane_ready (by decide +kernel), memLane_ready (by decide +kernel), by decide +kernel, by decide +kernel, of_okOf ?_, of_okOf ?_, ⟨rfl, rfl⟩, ?_,
    by decide +kernel⟩
  · decide +kernel
  · decide +kernel
  · unfold State.NothingShown; decide +kernel

/-- A store of the group in flight. -/
def storeOp : Op := { id := 7, path := some .st, cls := some .ls, group := some 0, lanes := 3, body := .store [{ lane := 0, place := .mem 0x200000, n := 4, data := 9, mask := 0xFFFFFFFF }] }

/-- LaneFences: a fence of device scope with nothing before it, and with a store; a path wait that is met, and one that is not. -/
theorem witness_fences :
    let e := laneAt
    let busy := laneAt aGroup { aTeam with ops := [storeOp] }
    (storesLive e.accesses = false ∧ e.s.vmaxPassed e.t = true) ∧ storesLive busy.accesses = true ∧ LaneReady busy (.fence {} .device)
      ∧ e.t.pathCount .st ≤ (e.val e.low (.const 0)).toNat ∧ (busy.val busy.low (.const 0)).toNat < busy.t.pathCount .st := by
  refine ⟨by decide +kernel, by decide +kernel, ready_of_test (by decide +kernel), by decide +kernel, by decide +kernel⟩

/-- LaneBarriers and ScalarBarriers: a phase that differs from the one named, and one that does not; a barrier that the team does not own. -/
theorem witness_barriers :
    let e := laneAt
    e.s.Quiet ∧ (3 : BitVec 6).toNat < e.t.desc.nbar ∧ (e.t.bar 3).phase ≠ (e.val e.low (.reg 1)).getLsbD 0 ∧ (e.t.bar 3).phase = (e.val e.low (.const 0)).getLsbD 0
      ∧ (∀ w ∈ e.t.barWaits, w.who ≠ some (0, 0)) ∧ (aTeam.bar 0).cyc = (world aTeam (.rider 0)).clk.cycle ∧ (aTeam.sreg 0).toNat < aDesc.nbar
      ∧ aDesc.nbar ≤ (aTeam.sreg 4).toNat := by
  refine ⟨⟨rfl, rfl⟩, by decide +kernel, by decide +kernel, by decide +kernel, nofun, by decide +kernel, by decide +kernel, by decide +kernel⟩

/-- LaneSpawnQmmaTrap: a bin with room; a QMMA whose B lies in the scratchpad. -/
theorem witness_spawn_qmma :
    let e := laneAt
    let q := laneAt { aGroup with splits := [{ st := .run, lpc := 5, mask := 3, fmt := 0xCAA }, {}, {}, {}] }
    (e.t.stallOf 0 0).isNone = true ∧ e.t.groups.length < 32 ∧ (e.s.core 0).binFor 1 14 = some 0 ∧ sparseFind 0 (e.s.core 0).bins = none
      ∧ ((qmmaFmts 0xCAA false false).map fun p => (p.1.fmt, p.2.1.fmt, p.2.2)) = some (.f16, .f16, 16) ∧ q.t.pathFull .mx = false
      ∧ 0 + qmmaBytes (qmmaK 16) 16 false ≤ q.t.scrBytes ∧ q.x.allFull 32 (qmmaRA 16) = true := by decide +kernel
/-- The rider of a team on the machine with a handle. -/
def riderOn (t : Team := aTeam) : State := withHandle (world t (.rider 0))

/-- s6 names handle 1 at offset 0x40, s7 the offset 0x100 of the scratchpad. -/
def memTeam : Team := { aTeam with s := [(6, 0x0040000000000040), (7, 0x100)] }

/-- ScalarMemoryIssues and ScalarAtomicsIssue. -/
theorem witness_scalar_memory :
    let s := riderOn memTeam
    let t := memTeam
    RiderAt s 0 t ∧ wellFormed (.sld 3 5 6 0 .plain .split) = true ∧ wellFormed (.satom .i32 .add 5 6 4 .strong .device) = true
      ∧ wellFormed (.swaitcmp false .eq 5 6 0 .plain .split) = true ∧ t.pathFull .ld = false ∧ t.pathFull .st = false ∧ t.pathFull .at = false
      ∧ (∃ ps s', s.handleParts t 0 (scalarHandle (t.sreg 6)) (scalarOffset (t.sreg 6) (t.sreg 0)) 8 8 .rr = (.ok ps, s'))
      ∧ (∃ ps s', s.handleParts t 0 (scalarHandle (t.sreg 6)) (scalarOffset (t.sreg 6) (t.sreg 0)) 8 8 .rw 5 = (.ok ps, s'))
      ∧ (∃ ps s', s.access t (scalarHandle (t.sreg 6)) (bitsOf (t.sreg 6).toNat 53 0 : Nat) 4 4 .ra = (.ok ps, s'))
      ∧ (∃ ps s', s.access t (scalarHandle (t.sreg 6)) (scalarOffset (t.sreg 6) (t.sreg 0)) 4 4 .rr = (.ok ps, s'))
      ∧ okOf (t.scratchParts 0 (t.sreg 7).toNat 8 8, ()) = true ∧ ((s.core 0).freeSlotList).isEmpty = false ∧ s.Quiet ∧ s.NothingShown := by
  refine ⟨⟨rfl, rfl⟩, by decide +kernel, by decide +kernel, by decide +kernel, by decide +kernel, by decide +kernel, by decide +kernel, of_okOf ?_, of_okOf ?_, of_okOf ?_,
    of_okOf ?_, by decide +kernel, by decide +kernel, ⟨rfl, rfl⟩, ?_⟩
  all_goals try unfold State.NothingShown
  all_goals decide +kernel

/-- A group that waits for a rein entry, and one whose queue is full. -/
def idleGroup : Group := { aGroup with splits := [{}, {}, {}, {}] }
def fullGroup : Group := { idleGroup with rein := List.replicate 16 { fmt := 0, fbase := 0, lpc := 0 } }

/-- RiderFeedsAndMarks: room in every queue that a mask names, and none; a region that is quiet, and one that is not; a compatible team asked to save. -/
theorem witness_feeds :
    let t := aTeam.setGroup 0 idleGroup
    let f := aTeam.setGroup 0 fullGroup
    let p : PreSt := { mode := .save, deadline := 9, compat := true }
    ((t.reinGroups 1).map (·.1) = [0] ∧ ∀ p ∈ t.reinGroups 1, p.2.rein.length < 16) ∧ (∃ p ∈ f.reinGroups 1, 16 ≤ p.2.rein.length)
      ∧ (∀ p ∈ t.groups, laneIn (1 : U32) p.1 = true → p.1 < t.desc.groups → p.2.ended = false → p.2.idle = true ∧ p.2.rein = [] ∧ p.2.halted = false)
      ∧ (world t (.rider 0)).regionQuiet t = true ∧ (world aTeam (.rider 0)).regionQuiet aTeam = false ∧ p.compat = true ∧ p.stopped = none
      ∧ aTeam.pathCount .cp ≤ (aTeam.sreg 0).toNat ∧ (aTeam.sreg 0).toNat < { aTeam with ops := [storeOp] }.pathCount .st := by decide +kernel

/-- ScalarFencesAndYield: nothing in flight, a store in flight, and a YIELD that is over. -/
theorem witness_scalar_fences :
    let mine (t : Team) := t.ops.filter fun o => !o.done && o.group == none && (accClass o).isSome
    let busy : Team := { aTeam with ops := [{ storeOp with group := none }] }
    storesLive (mine aTeam) = false ∧ (world aTeam (.rider 0)).vmaxPassed aTeam = true ∧ storesLive (mine busy) = true ∧ wellFormed (.sfence .device) = true
      ∧ wideScope .device = true ∧ (17 : Nat) ≠ 0 ∧ 17 ≤ ({ world aTeam .none with clk := { cycle := 17 } } : State).clk.cycle := by decide +kernel

/-- RiderExitClocksRegisters: registers that are assigned, that are not, and that only a handler reaches. -/
theorem witness_registers :
    let s := world aTeam (.rider 0)
    let h : Team := { aTeam with handler := true }
    (s.sysValue aTeam 0).isSome = true ∧ s.sysValue aTeam 0x905 = none ∧ (s.sysValue h 0x905).isSome = true ∧ (world h (.rider 0)).halt = none
      ∧ aTeam.handler = false ∧ aTeam.sreg 0 = 0 := by decide +kernel

/-- RiderTrapsTaken and HandlerEntryEffect: a team outside its handler with a vector, without one, and one whose rider's trap is pending. -/
theorem witness_traps :
    let t : Team := { aTeam with riderTrap := some { cause := .brk, src := 1, loc := 0x1000 } }
    (aTeam.handler = false ∧ aTeam.trapVec ≠ 0 ∧ aTeam.riderTrap = none ∧ aTeam.killed = false ∧ { aTeam with trapVec := 0 }.trapVec = 0)
      ∧ (world t .none).mayHandle t = true ∧ t.nextTrap.isSome = true := by decide +kernel

/-- TrapReturns: a handler for a lane's trap, for the rider's own, and for one that came late. -/
theorem witness_trap_returns :
    let x : Trap := { cause := .brk, src := 0, group := 0 }
    let t : Team := { aTeam with handler := true, handling := some x, trapPc := 0x1000, groups := [(0, { aGroup with traps := [x], halted := true })] }
    RiderAt (world t (.rider 0)) 0 t ∧ (world t (.rider 0)).Quiet ∧ t.exited = false ∧ t.killed = false ∧ t.sregBusy 4 = false ∧ (t.group? 0).isSome = true
      ∧ lateCause x.cause = false ∧ (aGroup.split 0).st ≠ .free ∧ lateCause .atomicLost = true := by
  refine ⟨⟨rfl, rfl⟩, ⟨rfl, rfl⟩, ?_⟩; decide +kernel

/-- CopiesIssue: a copy of 4 KiB and one of 128 KiB between handles, their blocks in s8 to s11. -/
theorem witness_copies :
    let t (n : U64) : Team := { aTeam with s := [(8, 0x0040000000000000), (9, 0x0040000000008000), (10, n * 0x1000000), (11, 0)] }
    wellFormed (.cpy 4 8) = true ∧ freeBelow aTeam.copySlots 64 = some 0 ∧ aTeam.pathFull .cp = false
      ∧ ((riderOn (t 4096)).copyBlock (t 4096) 8 none 0).1.status = none ∧ ((riderOn (t 4096)).copyBlock (t 4096) 8 none 0).1.n ≤ 65536
      ∧ aTeam.leaveGot = false ∧ aTeam.leaveReq = none := by decide +kernel

/-- LayoutRecords, MatrixCommandsQueue and FabricCommandsIssue: registers that are free, queues with room and without, power leave. -/
theorem witness_engine_commands :
    let full : Team := { aTeam with leaveGot := true, ops := (List.range 16).map fun i => { id := i + 1, path := some .mx, cls := some .mx, group := none, body := .matrix (.taccZero 0) false none } }
    aTeam.matQueue.length < 16 ∧ aTeam.pathFull .mx = false ∧ aTeam.pathFull .ga = false ∧ aTeam.pathFull .cl = false ∧ 16 ≤ full.matQueue.length
      ∧ wellFormed (.qpost 4 5 8) = true ∧ wellFormed (.fred 8) = true ∧ wellFormed (.fmc 8) = true
      ∧ okOf ((riderOn memTeam).access memTeam (scalarHandle (memTeam.sreg 6)) (bitsOf (memTeam.sreg 6).toNat 53 0 : Nat) 8 8 .ra) = true := by decide +kernel

/-- A launch of aDesc, and the machine whose team runs it from queue 0. -/
def aLaunch : Launch :=
  { depth := 1, queue := 0, part := 0, root := 0x10000, level := 0, seed := 9, nx := 4, ny := 1, nz := 1, desc := aDesc, teams := 4, next := 1, compl := none }

def aQueue : Queue := { part := 0, weight := 1, express := false, log2n := 4, desc := 0x50000, ring := 0x60000 }

def launched (t : Team) (a : Agent) (l : Launch := aLaunch) : State :=
  let s := world t a
  { s with cp := { s.cp with launches := [(1, l)], queues := [(0, aQueue)], queueRoots := [(0, 0x10000)], nextLaunch := 2 } }

/-- A descriptor at 0x3000: 32 registers, one group, no handle, no barrier (R66). -/
def withDesc (s : State) : State :=
  { s with mem := memPutAll s.mem 0x3000 (bytesOf 0x1000 8 ++ bytesOf 0x2000 8 ++ bytesOf 0x8000 8 ++ bytesOf 0x01010000 4 ++ bytesOf 0 4) }

/-- RiderExitClocksRegisters: an EXIT whose register names a successor that may follow the team. -/
theorem witness_exit_successor :
    let t : Team := { aTeam with desc := { aDesc with scr := 0, acc := 0, nbar := 0 }, s := [(4, 0x3000)] }
    let s := withDesc (world t (.rider 0))
    RiderAt s 0 t ∧ s.Quiet ∧ t.handler = false ∧ t.sreg 4 ≠ 0
      ∧ ((s.readDesc (some t.core) t.root (t.sreg 4).toNat).1.map fun d => (d.scr, d.acc, d.nbar)) = some (t.desc.scr, t.desc.acc, t.desc.nbar) := by
  refine ⟨⟨rfl, rfl⟩, ⟨rfl, rfl⟩, ?_⟩; decide +kernel

/-- LaunchInstruction: a child of 2 teams whose descriptor reads well and fits. -/
theorem witness_launch :
    let t : Team := { aTeam with s := [(8, 0x3000), (9, 0x0001000100000002), (10, 7), (11, 0x4000)] }
    let s := withDesc (launched t (.rider 0))
    RiderAt s 0 t ∧ s.Quiet ∧ wellFormed (.launch 8 0) = true ∧ t.pathFull .sp = false ∧ (s.launch? t.launch).isSome = true ∧ t.sreg 0 = 0
      ∧ bitsOf (t.sreg 9).toNat 31 0 * bitsOf (t.sreg 9).toNat 47 32 * bitsOf (t.sreg 9).toNat 63 48 = 2 ∧ aLaunch.depth < 10
      ∧ ((s.readDesc none t.root 0x3000).1.map fun d => (d.regs, d.groups)) = some (1, 1)
      ∧ (s.readDesc none t.root 0x3000).1.all (fun d => s.fitsPart (List.range 304) d false 0) = true := by
  refine ⟨⟨rfl, rfl⟩, ⟨rfl, rfl⟩, ?_⟩; decide +kernel

/-- A machine on which a function's command is in progress. -/
def commanded (fn : Nat) (i : Instr) : State × PendCmd :=
  let c : PendCmd := { id := 3, fn := fn, record := 0x70000, cmd := i }
  let s := launched aTeam (.command 3)
  ({ s with cp := { s.cp with cmds := [c], rings := [(fn, { admq := 0x71000 })] } }, c)

/-- CommandOutcome, CommandSettings, CommandQueuesAndCores, CommandTeamsAndReplay and SnapshotsAndReset: a command of the physical function, one of a virtual
function, one in recovery; a queue that is registered and one that is not; bounds of CARVE; a snapshot that runs and none. -/
theorem witness_commands :
    let p := commanded 0 (.setTReply 14)
    let v := commanded 3 (.setTReply 14)
    PhysicalAt p.1 p.2 ∧ CommandAt v.1 v.2 ∧ v.2.fn ≠ 0 ∧ v.1.boundPart 3 = none
      ∧ CommandAt { (commanded 0 .resume).1 with mgmt := { recovery := true } } (commanded 0 .resume).2
      ∧ p.2.record % 64 = 0 ∧ (sparseGet ({ admq := 0 } : AdminRing) p.1.cp.rings 0).next = none ∧ p.1.queue? 0 = some aQueue ∧ p.1.queue? 1 = none
      ∧ (p.1.part? 0).isSome = true ∧ (p.1.core 5).carve = none ∧ (p.1.core 5).l1 = 3 ∧ 5 < p.1.numCores ∧ ¬ 304 < p.1.numCores
      ∧ ((p.1.modCore 5 fun c => { c with carve := some 7 }).core 5).carve = some 7
      ∧ ((p.1.modCore 5 fun c => { c with carve := some 7 }).carveFree 5 7) = true ∧ p.1.cp.snap = none
      ∧ p.1.debugHalt = none ∧ aQueue.desc % 64 = 0 ∧ (p.1.modCore 5 fun c => { c with frozen := true }).core 5 ≠ p.1.core 5 := by
  refine ⟨⟨⟨rfl, rfl⟩, rfl, rfl⟩, ⟨rfl, rfl⟩, by decide +kernel, by decide +kernel, ⟨rfl, rfl⟩, ?_⟩
  decide +kernel

/-- Command records (R406), which are the hypothesis that a command is `Commanded`: SET with T_reply 14, POD with peer 9, QREG, TLBINV, PREEMPT of a core,
FLUSH of every stream and SNAPSHOT; T_reply 11, peer 0, a ring of 2^3 slots and an unlisted SUB are no command. -/
theorem test_command_words :
    commandOf (recordWord 8 0 0 0 [(64, 14)]) = some (.setTReply 14) ∧ commandOf (recordWord 10 0 7 0 [(32, 9)]) = some (.podPeer 9)
      ∧ commandOf (recordWord 2 0 0 0 [(32, 5), (46, 1), (55, 4), (64, 0x40000), (128, 0x50000)]) = some (.qreg 5 0 1 false 4 0x40000 0x50000)
      ∧ commandOf (recordWord 5 0 0 0 [(32, 2), (64, 0x10000), (128, 0x20000)]) = some (.tlbinv 2 0x10000 0x20000)
      ∧ commandOf (recordWord 6 0 0 0 [(192, 1), (193, 3), (256, 100)]) = some (.preempt 0 0 true 3 100)
      ∧ commandOf (recordWord 9 2 0 0 [(32, 0xFFF)]) = some (.flush 0xFFF) ∧ commandOf (recordWord 11 0 0 0 [(32, 1)]) = some (.snapshot 1 0 0 0 0 0)
      ∧ commandOf (recordWord 8 0 0 0 [(64, 11)]) = none ∧ commandOf (recordWord 10 0 0 0 []) = none
      ∧ commandOf (recordWord 2 0 0 0 [(55, 3), (64, 0x40000), (128, 0x50000)]) = none ∧ commandOf (recordWord 8 6 0 0 []) = none := by decide +kernel

/-- FIPS 180-4's example: the SHA-384 of "abc" (R409). -/
theorem test_sha384 : ofBytes (sha384 [0x61, 0x62, 0x63]).reverse
    = 0xCB00753F45A35E8BB5A03D699AC65007272C32AB0EDED1631A8B605A43FF5BED8086072BA1E7CC2358BAECA134C825A7 := by decide +kernel

/-- Puts a packet of a type into slot 0 of queue 0's ring (R62, R65). -/
def withPacket (ty : Nat) (s : State) : State := { s with mem := memPutAll s.mem 0x60000 (bytesOf ty 4) }

/-- A packet of a type, consumed from queue 0 and not started, and the machine that holds it. -/
def aPkt (ty : Nat) (started : Bool) : PktSt := { words := BitVec.ofNat 32 ty :: List.replicate 15 0, idx := 0, started := started }
def holding (p : PktSt) : State :=
  let s := launched aTeam .none
  { s with cp := { s.cp with queues := [(0, { aQueue with ridx := 1, pkts := [p] })] } }

/-- QueuePackets: an empty slot, a slot with a MARKER, one with a type that is none, one whose sequence number is not due; packets of each type ready to
start, and waiting. -/
theorem witness_queue_packets :
    let s := launched aTeam .none
    let word (s : State) := (s.readVaNum none (s.queueRoot 0) (aQueue.ring + 64 * (aQueue.ridx % 2 ^ aQueue.log2n)) 4).1.toOption
    (s.queue? 0 = some aQueue ∧ aQueue.stopped = false ∧ s.halt = none ∧ aQueue.desc + 64 ≤ 2 ^ 39 ∧ aQueue.ridx + 1 < 2 ^ 64)
      ∧ word s = some 0 ∧ word (withPacket 3 s) = some 3 ∧ word (withPacket 6 s) = some 6 ∧ word (withPacket 0x10003 s) = some 0x10003
      ∧ (∀ ty ∈ [1, 2, 3, 4, 5], ((holding (aPkt ty false)).startable 0 ty).isSome = true)
      ∧ (∀ ty ∈ [4, 5], ((holding (aPkt ty true)).waitingPkt 0 ty).isSome = true) ∧ (aPkt 3 false).formed = true ∧ (aPkt 3 false).compl = some 0 := by decide +kernel

/-- A group that takes its next block, a split of a JOIN frame at its RPC, and a frame that comes back from the spill area. -/
def parkGroup : Group :=
  { aGroup with frames := [{ kind := .join, owner := 0, parent := none, rpc := 5, full := 3, fmt := 0xCCC }], splits := [{ st := .run, lpc := 5, mask := 1, fmt := 0xCCC, frm := some 0 }, { st := .run, lpc := 9, mask := 2, fmt := 0xCCC, frm := some 0 }, {}, {}] }

def refillGroup : Group :=
  { aGroup with spilled := 1, spilledRpc := [0], splits := [{ st := .run, lpc := 0, mask := 3, fmt := 0xCCC, frm := some 0 }, {}, {}, {}] }

theorem witness_groups :
    let s := world aTeam .none
    let r : ReinEntry := { fmt := 0xCCC, fbase := 0, lpc := 7 }
    let y := { idleGroup with rein := [r] }
    (y.halted = false ∧ y.ended = false ∧ s.stopped aTeam = false ∧ y.spawned = false ∧ y.idle = true ∧ r.wrote ≠ some s.clk.cycle)
      ∧ (aDesc.count = false ∧ (parkGroup.split 0).st = .run ∧ (parkGroup.split 0).frm = some 0 ∧ (parkGroup.frames[0]?.map (·.rpc)) = some (parkGroup.split 0).lpc
        ∧ ((0 : U32) ||| (parkGroup.split 0).mask) ≠ 3)
      ∧ (let t := aTeam.setGroup 0 refillGroup
        refillWanted (world t .none) t 0 refillGroup = some 0 ∧ okOf (readSpilled t 0 [0] (world t .none)) = true)
      ∧ (let t : Team := { aTeam with npc := Config.noProgress }
        t.killed = false ∧ t.stalledTrap = false ∧ Config.noProgress ≤ t.npc ∧ t.trapVec ≠ 0) := by decide +kernel

/-- GroupEvents: a bin of the team whose 32 threads form a group, and one whose timer has run out. -/
theorem witness_bins :
    let b : Bin := { team := 1, lpc := 9, threads := List.replicate 32 ⟨[1, 2, 3, 4]⟩, expiry := 0, due := true }
    let s := (world aTeam .none).modCore 0 fun c => { c with bins := [(0, b)] }
    s.Quiet ∧ (s.teamBySerial 1).isSome = true ∧ freeBelow (aTeam.groups.map (·.1)) 32 = some 1
      ∧ ((placeGroups (aTeam.desc.regs * 32) 1 (s.loadOf 0) []).map (·.1.length)) = some 1 ∧ (s.core 0).frozen = false ∧ b.threads ≠ []
      ∧ (aTeam.reserved = true ∨ s.keepsBlock 0 (fun bare => bare.takeSlot 0 1 (aTeam.desc.regs * 32)) = true) := by
  refine ⟨⟨rfl, rfl⟩, ?_⟩; decide +kernel

/-- TeamLifeEvents: a launch with a team to distribute and a core for it; a team that may be admitted; one that waits for its children; one that has
ended; one that a successor follows. -/
theorem witness_team_life :
    let s := launched aTeam .none
    let p : Pending := { launch := 1, teamId := 1, express := false, reserved := false }
    let q := s.modCore 3 fun c => { c with pending := [p] }
    let fin : Team := { aTeam with exited := true, st := .draining, groups := [] }
    let ended := launched fin .none
    let next : Team := { fin with succ := some (some aDesc) }
    ((s.openLaunches 0).map (·.1)) = [1] ∧ (s.part? 0).any (fun x => (s.placesFor 0 x false aLaunch).contains 7) = true
      ∧ ((q.mayAdmit 3 0).map (·.1)) = some p ∧ ended.mayRetire fin = true ∧ ended.binsEmpty fin = true
      ∧ ((launched next .none).maySucceed next).isSome = true
      ∧ (launched fin .none { aLaunch with parent := some (1, 4) }).liveChildren fin ≠ []
      ∧ (world fin .none).stuckChild 1 = false := by decide +kernel

/-- A load of the rider in flight, a wait that polls, and a barrier that is due. -/
def loadOp : Op := { id := 7, path := some .ld, cls := some .ls, group := none, lpc := 0x1000, body := .load (.sreg 9) [{ lane := 0, place := .mem 0x200000, n := 8, va := 0x200000 }] }

theorem witness_memory_events :
    let t : Team := { aTeam with ops := [loadOp] }
    let w : Team := { aTeam with ops := [{ storeOp with group := none, lanes := 0 }] }
    let b : Team := { aTeam with bars := [(0, { target := 1, count := 1 })] }
    (world t .none).Quiet ∧ (t.op? 7).isSome = true ∧ t.depsReady loadOp = true ∧ loadOp.near = [] ∧ (world t .none).NothingShown
      ∧ ((world t .none).readPart t loadOp { lane := 0, place := .mem 0x200000, n := 8, va := 0x200000 }).isSome = true
      ∧ (world w .none).storeReady w { storeOp with group := none, lanes := 0 } = true ∧ (b.bar 0).due = true ∧ (b.bar 0).last ≠ some 0
      ∧ (({ world b .none with clk := { ending := true } } : State).clk.ending = true ∧ (world b .none).clk.ending = false ∧ (b.bar 1).due = false) := by
  refine ⟨⟨rfl, rfl⟩, by decide +kernel, by decide +kernel, rfl, ?_, by decide +kernel, by decide +kernel, by decide +kernel, by decide +kernel, rfl, rfl,
    by decide +kernel⟩
  unfold State.NothingShown; decide +kernel
/-- A partition of one core. -/
def onOneCore (s : State) : State := { s with cp := { s.cp with parts := [(0, { cores := [0] })] } }

/-- StuckChild: on a partition of one core whose team waits for its child, a child team of 64 groups cannot be admitted (R81). -/
theorem witness_stuck_child :
    (onOneCore (launched { aTeam with st := .waitingChildren } .none { aLaunch with parent := some (1, 4), desc := { aDesc with groups := 64 } })).stuckChild 1
      = true := by decide +kernel

/-- A copy of 256 bytes from local memory to the scratchpad, and the team that has it in flight. -/
def aCopy (landed : List Nat) : CopySt :=
  { slot := 0, src := .virt 0x10000 0x200000, dst := .scratch 0x100, n := 256, xf := 0, landed := landed }
def copyOp (c : CopySt) : Op := { id := 9, path := some .cp, cls := some .cp, group := none, body := .copy c }
def copyTeam (c : CopySt) : Team := { aTeam with ops := [copyOp c], emptyLines := [2, 3] }

/-- The 16-byte parts of a source from one on, as read. -/
def gotParts (i n : Nat) : Sparse (List Byte) := (List.range n).map fun k => (i + k, List.replicate 16 (7 : Byte))

/-- EngineEvents: a part of a source that can be read, a unit that can land and one that cannot yet, a copy that has ended, a packet that is on its way, a
queue whose first command may start, a request for leave, and a line of a delivery to this module's multicast window. -/
theorem witness_engine_events :
    let t := copyTeam (aCopy [])
    let s := world t .none
    let m : Team := { aTeam with ops := [{ id := 2, path := some .mx, cls := some .mx, group := none, body := .matrix (.taccZero 0) false none }], leaveReq := some 0 }
    let w : State := { s with cp := { s.cp with mcastWindow := some (0x300000, 0x10000) } }
    let x : FmcLine := { port := 1, src := 7, id := 3, base := 0x300000, len := 64, pa := 0x300000, bytes := List.replicate 64 7, bad := false }
    let r : CopySt := { aCopy [] with got := gotParts 0x20000 16 }
    (s.Quiet ∧ (t.op? 9).isSome = true ∧ t.depsMet (copyOp (aCopy [])) = true) ∧ (aCopy []).units = 16 ∧ (aCopy []).dst.isScratch = true
      ∧ (aCopy []).stepPart 0 1 = some 0x20000 ∧ ((s.readSource (s.copyMover 0 t) (copyOp (aCopy [])) (aCopy []) 0x20000).map okOf) = some true
      ∧ (aCopy []).ready ((aCopy []).unitBytes 0) = false ∧ r.ready (r.unitBytes 0) = true ∧ r.sends = true
      ∧ (r.unitBytes 0).map (fun d => (d.off, r.value r.got d)) = (List.range 16).map (fun i => (0x100 + i, (7 : Byte)))
      ∧ (aCopy (List.range 16)).outcome = some .ok ∧ (aCopy [0]).outcome = none ∧ (s.core 0).frozen = false ∧ s.copyHeld t (aCopy (List.range 16)) = false
      ∧ (x.pa, x.bytes.length) ∈ lineRanges x.base x.len ∧ w.fab.fmcIn = [] ∧ w.forwardOf x.pa = none ∧ m.matQueue.length = 1
      ∧ (earliest ((world m .none).leaveQueue 0)) = some (0, 0) ∧ w.inMcastWindow 0x300000 64 = true ∧ w.frozenMaster 2 1 = false := by
  refine ⟨⟨⟨rfl, rfl⟩, ?_⟩, ?_⟩ <;> decide +kernel

/-- A request of the rider to add 5 to the word at 0x200000, at a stage of its way. -/
def aMember : Member :=
  { core := 0, ctx := 0, slot := 0, seq := 1, red := false, operands := [{ lane := 0, x := 5 }], launch := 1, team := 0, who := 0, icnt := 0, recorded := false }
def aReq (st : ReqStage) (svc : Nat) : AtomReq :=
  { op := .add, ty := .i32, peer := 0, pa := 0x200000, segs := [(0x200000, 4)], svc := svc, members := [aMember], stage := st }
def atomOp : Op := { id := 7, path := some .at, cls := some .as, group := none, body := .atom (some 9) none none false [0] [] [] }

/-- The machine that holds a request, its slot and its operation. -/
def asking (q : AtomReq) : State :=
  let s := world { aTeam with ops := [atomOp] } .none
  let s := s.modCore 0 fun c => { c with slots := [(0, { seq := 1, team := 1, op := 7, lanes := [0], sent := 0, peer := 0, pa := 0x200000, va := 0x200000, svc := 0 })], seqs := [(0, 1)] }
  { s with net := { s.net with reqs := [(4, q)] } }

/-- AtomicEvents: a request that asks for its credit, one on its way to a point, one in an entry whose window has passed, one at the head of its owner's
queue, and a reply to its slot. -/
theorem witness_atomic_events :
    let k := asking (aReq .credit 0)
    let r := asking (aReq (.route [0]) 0)
    let e : State := { r with net := { r.net with entries := [{ point := 0, port := 0, opened := 0, req := 4 }] }, clk := { cycle := 100 } }
    let q : State := let s := asking (aReq .queued 0); { s with net := { s.net with queues := [(0, [4])] } }
    let a : State := let s := asking (aReq .queued 0)
      { s with net := { s.net with replies := [(8, { op := .add, ty := .i32, v := 0, shares := [{ member := aMember, vals := [100] }], cid := none })] } }
    (k.asksCredit (aReq .credit 0) = true ∧ k.creditsOut 0 < 512 ∧ k.nextAsker 0 = some (aReq .credit 0).asker)
      ∧ ((aReq (.route [0]) 0).combines 0 = true ∧ r.haeth.replay = none ∧ ∀ x ∈ r.net.entries, x.point ≠ 0 ∧ x.req ≠ 4)
      ∧ (¬ (e.clk.cycle - 0) * 20 < 32 * 33) ∧ (sparseGet [] q.net.queues 0 = [4] ∧ q.Quiet ∧ q.haeth.stalled = [] ∧ 0x200000 + atomBytes .i32 ≤ 2 ^ 39)
      ∧ ((sparseFind 8 a.net.replies).isSome = true ∧ (a.teamBySerial 1).isSome = true ∧ (sparseFind 0 (a.core 0).slots).isSome = true)
      ∧ (r.overdue (aReq (.route [0]) 0) = false ∧ ({ r with clk := { cycle := 2048 } } : State).overdue (aReq (.route [0]) 0) = true
        ∧ (aReq (.route [0]) 0).entryFull 0 = false)
      ∧ a.queryDue { seq := 1, team := 1, op := 7, lanes := [0], sent := 0, peer := 0, pa := 0, va := 0, svc := 0 } = false
      ∧ ({ a with clk := { cycle := 8192 } } : State).queryDue { seq := 1, team := 1, op := 7, lanes := [0], sent := 0, left := true, peer := 0, pa := 0, va := 0, svc := 0 } = true := by
  unfold State.Quiet; decide +kernel

/-- Two requests for one word meet at a point, and the entry has room for both (R339). -/
theorem witness_combining :
    let e := asking (aReq (.route [0]) 0)
    let s : State := { e with net := { e.net with entries := [{ point := 0, port := 0, opened := 0, req := 3 }], reqs := [(3, aReq .held 0), (4, aReq (.route [0]) 0)] } }
    (aReq .held 0).sameKey (aReq (.route [0]) 0) = true ∧ (aReq .held 0).fits (aReq (.route [0]) 0) 0 = true
      ∧ ({ aReq .held 0 with members := [aMember, aMember], credits := 2 } : AtomReq).entryFull 0 = false ∧ s.haeth.replay = none := by decide +kernel

/-- A packet of a type from peer 7 to an address. -/
def aPacket (ty : Nat) : Packet :=
  { ptype := ty, src := 7, dst := 9, plane := 1, opc := 0, ty := 0, det := true, n := 1, rn := 0, addr := 0x200000, rid := 0, pseq := 1, cid := 0, status := 0,
    members := [(0, 7, 1, 5)], payload := [] }

/-- FabricEvents and the packets of AtomicEvents: packets that are well formed, windows that admit an access and none, a dead plane, and bytes that are
no packet. -/
theorem witness_fabric :
    let s := world aTeam .none
    let w : State := { s with cp := { s.cp with windows := [{ mkind := 2, mnum := 1, win := 0, base := 0x200000, size := 0x1000, rights := 7 }] } }
    packetOk (aPacket 1) = true ∧ s.fab.dead = [] ∧ s.frozenMaster 2 1 = false ∧ sparseFind (seqKey 1 7 false) s.fab.pseqIn = none ∧ aPacket 1 ∉ s.fab.out ∧ s.forwardOf 0x200000 = none
      ∧ s.inWindow 2 1 0x200000 4 2 = false ∧ w.inWindow 2 1 0x200000 4 2 = true ∧ w.inWindow 2 1 0x200000 4 1 = true
      ∧ s.mayNoroute (keyOf 7 0x200000) = true ∧ s.mayNoroute 0x200000 = false ∧ s.mayForward (keyOf 7 0x200000) 9 3 = true
      ∧ (let m : PageMoveArgs := { fromPeer := 0, fromPa := 0x200000, toPeer := 9, toPa := 0x400000, size := 0x10000, pte := 0x30000 }
        let s : State := { s with teams := [], fab := { s.fab with hints := [(0, 0x20)] } }
        s.moveWanted m = true ∧ s.namedIn m = true ∧ s.enginesBusy = false)
      ∧ (packetOf []).isSome = false ∧ s.fab.folds = [] ∧ s.fab.quiesce = false ∧ ({ s with teams := [] } : State).enginesBusy = false
      ∧ ({ s with fab := { s.fab with dead := [3] } } : State).planeNow 0x180 = 3 := by decide +kernel

/-- PreemptionAndHalt: a team to be saved and one to be discarded, whose windows are closed and whose operations are over; a halt whose bound has passed. -/
theorem witness_preemption :
    let p (m : PreMode) : PreSt := { mode := m, deadline := 5, stopped := some 0, closed := true }
    let sv : Team := { aTeam with pre := some (p .save) }
    let dc : Team := { aTeam with pre := some (p .discard), idem := some { pc := 0x1000, s := [], q := [], draws := [], sdraw := 0, r := 0 } }
    let h : HaltSt := { cause := 0xF0, reason := 0, stamp := 0, at_ := 0 }
    let b := launched aTeam .none
    let d (h : HaltSt) : State := { b with teams := [], cp := { b.cp with dumpArea := some (0x1000000, 0x1000000) }, halt := some h }
    let area (t : Team) : State := let s := launched t .none; { s with cp := { s.cp with saveAreas := [(0, (0x1000000, 0x1000000))] } }
    ((area sv).mayMoveOut sv .save).isSome = true ∧ ((area dc).mayMoveOut dc .discard).isSome = true ∧ b.halt = none ∧ h.dumped = false
      ∧ (d h).haltDrained = true ∧ (d { h with sect := some 0 }).dumpOrder = [] ∧ 256 ≤ localBytes 0x1000000 0x1000000 ∧ localBytes (2 ^ 39) 4096 = 0
      ∧ (planSection aTeam (1, 0xFF, [1, 2, 3]) none 4096 false).bytes.length = 35 ∧ (planSection aTeam (1, 0xFF, [1, 2, 3]) (some 1) 4096 false).whole = false
      ∧ h.at_ + 66000 ≤ ({ b with clk := { cycle := 66000 } } : State).clk.cycle
      ∧ ({ b with halt := some h, clk := { cycle := 66000 } } : State).haltDrained = true := by decide +kernel

/-- HaethAndManagement: CISCTL words that enable and that do not, registers that are assigned, addresses inside local memory and beyond it. -/
theorem witness_haeth :
    let s := world aTeam .none
    (0x8000000000000000 : U64).getLsbD 63 = true ∧ s.haeth.enable = false ∧ (s.sysValue aTeam 0x00).isSome = true ∧ (s.sysValue aTeam 0xFFF) = none ∧ s.haeth.stalled = []
      ∧ s.chunkDue 0 = false ∧ s.replayLate 0 = false ∧ s.breakDue 0 = false ∧ s.cp.freezeHalt = false ∧ 2 ^ 39 ≤ 0x8000000000 ∧ (∀ c ∈ s.cp.cmds, c.fn ≠ 0) := by
  decide +kernel

end Sys2Proof.Tests
end

section
/-! PROOFS. Family 01_machine: what device reset leaves. -/
namespace Sys2Proof.Machine

/-- A map that lists nothing reads as the default everywhere. -/
@[simp] theorem sparseGet_nil {α : Type} (d : α) (k : Nat) : sparseGet d ([] : Sparse α) k = d := by
  simp [sparseGet]

theorem sparseWf_nil {α : Type} [DecidableEq α] (d : α) : sparseWf d ([] : Sparse α) = true := rfl

/-- Memory is in its canonical form right after device reset, so that every reachable state's is once each step keeps it. -/
theorem State.reset_inv : State.reset.Inv := sparseWf_nil 0

/-- No core has an entry of its own right after device reset: each is the core of the default values. -/
@[simp] theorem State.reset_core (c : Nat) : State.reset.core c = {} := by
  have hCores : State.reset.cores = [] := rfl
  rw [State.core, hCores, sparseGet_nil]

/-- R22: with no carve on its way, a core's blocks start behind its L1's share. -/
theorem Core.firstUnit_of_no_carve {x : Core} (h : x.carve = none) : x.firstUnit = x.l1 := by
  simp [Core.firstUnit, h]

/-- R26: the lease clock counts from device reset. -/
theorem State.reset_lease : State.reset.lease = 0 := rfl

/-- R382: Haeth is off and its registers hold their reset values. -/
theorem State.reset_haeth :
    let h := State.reset.haeth
    h.enable = false ∧ h.clog2 = 16 ∧ h.slog2 = 30 ∧ h.bound = 26 := ⟨rfl, rfl, rfl, rfl⟩

/-- R344: T_reply is 2^13 cycles; there is no queue and no launch yet. -/
theorem State.reset_cp :
    let p := State.reset.cp
    p.tReply = 13 ∧ p.nextLaunch = 1 ∧ p.queues = [] ∧ p.launches = [] := ⟨rfl, rfl, rfl, rfl⟩

/-- R61: after reset there is a single partition, partition 0, and it holds all 304 cores. -/
theorem State.reset_parts : ∃ p, State.reset.cp.parts = [(0, p)] ∧ p.cores = List.range 304 :=
  ⟨{ cores := List.range Config.cores }, rfl, by rw [Config.cores]⟩

/-- R22: after device reset the L1 of each core has 3 units of 128 KiB, that is 384 KiB. -/
theorem State.reset_firstUnit (c : Nat) : (State.reset.core c).firstUnit = 3 := by
  rw [State.reset_core, Core.firstUnit_of_no_carve rfl]

end Sys2Proof.Machine

open Sys2Proof.Machine

/-- Settles O1: a core that no map lists has the default values, and every other value is a field that reset sets. -/
theorem resetState : Obligations.ResetState := by
  unfold Obligations.ResetState
  obtain ⟨hReply, hLaunch, hQueues, hLaunches⟩ := State.reset_cp
  obtain ⟨hEnable, hClog, hSlog, hBound⟩ := State.reset_haeth
  have hCore (c : Nat) : (State.reset.core c).firstUnit = 3 ∧ (State.reset.core c).frozen = false :=
    ⟨State.reset_firstUnit c, by rw [State.reset_core]⟩
  exact ⟨State.reset_inv, rfl, rfl, State.reset_lease, rfl, rfl, rfl, hReply, hLaunch, hQueues, hLaunches, rfl, rfl,
    hEnable, hClog, hSlog, hBound, State.reset_parts, hCore⟩

end
